-- ==== Sys2Proof/Word.lean ====
section
/-! DEFINITION. The byte of the two serial links, and the fixed-size table in which every store of the device is held. -/

namespace Sys2Proof

/-- A byte as it stands on a serial line of the device (spec 0.6.10). -/
abbrev Byte := BitVec 8

/-- A table of exactly `n` entries: the cell store (2048), the point table (96), the ports (8) and so on (spec Table 0-2).
Plain data: a list, with its length. -/
structure Table (n : Nat) (α : Type) where
  /-- The entries in ascending index order. -/
  toList : List α
  /-- There are exactly `n` of them. -/
  length_eq : toList.length = n
  deriving DecidableEq, Repr

namespace Table

variable {n : Nat} {α β γ : Type}

/-- The table whose every entry is `x`. -/
def replicate (n : Nat) (x : α) : Table n α := ⟨List.replicate n x, List.length_replicate⟩

/-- The entry at an index. -/
def get (t : Table n α) (i : Fin n) : α := t.toList[i.val]'(by rw [t.length_eq]; exact i.isLt)

/-- The table with one entry replaced. -/
def set (t : Table n α) (i : Fin n) (x : α) : Table n α :=
  ⟨t.toList.set i.val x, by rw [List.length_set]; exact t.length_eq⟩

/-- The table with one entry changed by a function. -/
def upd (t : Table n α) (i : Fin n) (f : α → α) : Table n α := t.set i (f (t.get i))

/-- Every entry changed by one function. -/
def map (f : α → β) (t : Table n α) : Table n β :=
  ⟨t.toList.map f, by rw [List.length_map]; exact t.length_eq⟩

/-- Two tables of one size, entry by entry. -/
def zipWith (f : α → β → γ) (t : Table n α) (u : Table n β) : Table n γ :=
  ⟨List.zipWith f t.toList u.toList, by rw [List.length_zipWith, t.length_eq, u.length_eq, Nat.min_self]⟩

/-- A list mapped with the index of each entry, counted from `i`. -/
def mapFrom (f : Nat → α → β) : Nat → List α → List β
  | _, [] => []
  | i, x :: xs => f i x :: mapFrom f (i + 1) xs

theorem length_mapFrom (f : Nat → α → β) (i : Nat) (xs : List α) : (mapFrom f i xs).length = xs.length := by
  induction xs generalizing i with
  | nil => rfl
  | cons x xs ih => simp only [mapFrom, List.length_cons, ih]

/-- Every entry changed by a function that sees its index. -/
def mapIx (f : Nat → α → β) (t : Table n α) : Table n β :=
  ⟨mapFrom f 0 t.toList, by rw [length_mapFrom]; exact t.length_eq⟩

/-- The first `m` entries. -/
def firstOf (t : Table n α) (m : Nat) (h : m ≤ n) : Table m α :=
  ⟨t.toList.take m, by rw [List.length_take, t.length_eq]; exact Nat.min_eq_left h⟩

/-- The index, counted from `i`, of the first entry that satisfies `p`. -/
def findFrom (p : α → Bool) : Nat → List α → Option Nat
  | _, [] => none
  | i, x :: xs => if p x then some i else findFrom p (i + 1) xs

/-- The lowest index whose entry satisfies `p`. -/
def findIx (p : α → Bool) (t : Table n α) : Option (Fin n) :=
  match findFrom p 0 t.toList with
  | some i => if h : i < n then some ⟨i, h⟩ else none
  | none => none

/-- How many entries satisfy `p`. -/
def count (p : α → Bool) (t : Table n α) : Nat := t.toList.countP p

/-- Whether some entry satisfies `p`. -/
def any (p : α → Bool) (t : Table n α) : Bool := t.toList.any p

/-- A fold over the filled slots of a table of slots, in slot order. -/
def foldFilled {σ : Type} (f : σ → Fin n → α → σ) (t : Table n (Option α)) (init : σ) : σ :=
  (List.finRange n).foldl (fun acc i => match t.get i with
    | some x => f acc i x
    | none => acc) init

end Table

end Sys2Proof
end

