-- ==== Sys2Proof/Config.lean ====
section
/-! DEFINITION. The fixed capacities of the device, and the one choice the spec leaves open. -/

namespace Sys2Proof.Config

/-- Cells of the map (Table 0-2). -/
abbrev nCells : Nat := 2048
/-- Thermocouple points (Table 0-2). -/
abbrev nPoints : Nat := 96
/-- Scanner views (Table 0-2). -/
abbrev nViews : Nat := 16
/-- Bindings of a view (Table 0-2). -/
abbrev nBindings : Nat := 64
/-- Field ports (Table 0-2). -/
abbrev nPorts : Nat := 8
/-- Limit classes (Table 0-2). -/
abbrev nClasses : Nat := 8
/-- Passes of the grid (spec 1.1). -/
abbrev nPasses : Nat := 8
/-- Line inputs (Table 0-2). -/
abbrev nLines : Nat := 4
/-- Hot-spot list entries (Table 0-2). -/
abbrev hotSpots : Nat := 16
/-- Intake queue frames (Table 0-2, R97). -/
abbrev queueFrames : Nat := 32
/-- Pending table pages (Table 0-2, R142). -/
abbrev pendingPages : Nat := 4
/-- Requests in the host request buffer, the one in service included (R158). -/
abbrev bufferRequests : Nat := 4
/-- BUSY replies the ready-reply list holds (R159). -/
abbrev busyReplies : Nat := 4
/-- Answers in a port's reply list, the one being sent included (R84). -/
abbrev portAnswers : Nat := 2
/-- The debounce time in milliseconds (R127). -/
abbrev debounceMs : Nat := 20

/-- FREE CHOICE (R159): the spec does not say whether a BUSY reply that is already being sent still counts among the
"at most 4 BUSY replies" of the ready-reply list. No body: nothing may rest on its value (log entry 6). -/
opaque sendingBusyCounts : Bool

end Sys2Proof.Config
end

