-- ==== Sys2Proof/Syntax.lean ====
section
/-! DEFINITION. The commands of the block: one constructor per row of spec/opcode_table.json.

What comes from OUTSIDE carries what the outside supplies: the bytes of a serial line, the port or the line concerned.
What the device does ITSELF (serving the oldest request, completing the map operation in flight) carries nothing: its
arguments stand in the state, in the request buffer, the item list, the intake queue (log entry 2). -/

namespace Sys2Proof

/-- A step of the device (spec/95_what_each_step_holds.md): each whole and indivisible. -/
inductive Instr where
  /-- FULL_RESET: power-up, or RESET_N goes low (R167). -/
  | fullReset
  /-- HOST_FRAME_RECEIVED: these bytes arrive on HRXD without a gap and complete a host frame (R157). -/
  | hostFrameReceived (bytes : List Byte)
  /-- HOST_GAP_TIMEOUT: these bytes arrive on HRXD and a gap of more than 5 ms follows them (R157). -/
  | hostGapTimeout (bytes : List Byte)
  /-- HOST_LENGTH_OUT_OF_RANGE: these bytes arrive on HRXD and the last of them is a length outside 2..250 (R157). -/
  | hostLengthOutOfRange (bytes : List Byte)
  /-- HOST_ITEM_POSTED: the host link takes the oldest request, a map-side one, and posts it to the map (R158). -/
  | hostItemPosted
  /-- UNKNOWN_REQUEST: the oldest request, of a kind not recognised, is taken and answered (R160). -/
  | unknownRequest
  /-- IDENTIFY is taken and served (R164). -/
  | identify
  /-- SET is taken and served (R162). -/
  | set
  /-- GET is taken and served (R163). -/
  | get
  /-- RESTART is taken (R166). -/
  | restart
  /-- READ-LINK-STATUS is taken and served (R165). -/
  | readLinkStatus
  /-- START is performed by the map (R122). -/
  | start
  /-- STOP is performed by the map (R123). -/
  | stop
  /-- HOLD is performed by the map (R124). -/
  | hold
  /-- RESUME is performed by the map (R124). -/
  | resume
  /-- CLEAR-MAP is performed by the map (R13). -/
  | clearMap
  /-- CLOSE-EPOCH is taken and served (R104). -/
  | closeEpoch
  /-- READ-MAP-STATUS is performed by the map (R20). -/
  | readMapStatus
  /-- READ-CELLS is performed by the map (R21). -/
  | readCells
  /-- READ-HOTSPOTS is performed by the map (R118). -/
  | readHotspots
  /-- READ-PASS is performed by the map (R115). -/
  | readPass
  /-- READ-POINT is performed by the map (R57). -/
  | readPoint
  /-- RESTORE-POINT is performed by the map (R55). -/
  | restorePoint
  /-- EXCLUDE-POINT is performed by the map (R56). -/
  | excludePoint
  /-- READ-VIEW is performed by the map (R79). -/
  | readView
  /-- READ-PORT is taken and served (R95). -/
  | readPort
  /-- INJECT is taken and served (R100). -/
  | inject
  /-- READ-LINES is taken and served (R132). -/
  | readLines
  /-- STAGE-OPEN is taken and served (R136). -/
  | stageOpen
  /-- STAGE-PUT is taken and served (R137). -/
  | stagePut
  /-- STAGE-CLEAR is taken and served (R138). -/
  | stageClear
  /-- STAGE-COMMIT is taken and served (R139). -/
  | stageCommit
  /-- READ-STAGE is taken and served (R146). -/
  | readStage
  /-- READ-PAGE is taken and served (R147). -/
  | readPage
  /-- READ-EVENTS is taken and served (R154). -/
  | readEvents
  /-- HOST_FRAME_SENT: the host transmitter has sent the last byte of a frame (R159). -/
  | hostFrameSent
  /-- FIELD_GAP_TIMEOUT: these bytes arrive on a port and a gap of more than 5 ms follows them (R82). -/
  | fieldGapTimeout (port : Fin 8) (bytes : List Byte)
  /-- FIELD_LENGTH_OUT_OF_RANGE: these bytes arrive on a port and the last is a length outside 2..250 (R82). -/
  | fieldLengthOutOfRange (port : Fin 8) (bytes : List Byte)
  /-- FIELD_CRC_FAILURE: these bytes arrive on a port and complete a frame whose CRC is bad (R83). -/
  | fieldCrcFailure (port : Fin 8) (bytes : List Byte)
  /-- FIELD_UNKNOWN_KIND: these bytes complete a good-CRC frame that is no HELLO, SAMPLES or SCAN (R88). -/
  | fieldUnknownKind (port : Fin 8) (bytes : List Byte)
  /-- HELLO_FRAME: these bytes complete a good-CRC HELLO (R87). -/
  | helloFrame (port : Fin 8) (bytes : List Byte)
  /-- SAMPLES_FRAME: these bytes complete a good-CRC SAMPLES frame (R91). -/
  | samplesFrame (port : Fin 8) (bytes : List Byte)
  /-- SCAN_FRAME: these bytes complete a good-CRC SCAN frame (R91). -/
  | scanFrame (port : Fin 8) (bytes : List Byte)
  /-- FIELD_ANSWER_SENT: a port has sent the last byte of an answer (R84). -/
  | fieldAnswerSent (port : Fin 8)
  /-- FRAME_FUSION: the frame the arbiter took is fused or discarded (R17). -/
  | frameFusion
  /-- EPOCH_TIMER_EXPIRY: the running count reaches EPOCH_PERIOD (R102). -/
  | epochTimerExpiry
  /-- CLOSE: the close the arbiter took runs to its completion (R105). -/
  | close
  /-- HOLD_ITEM: the hold item the arbiter took is performed (R124). -/
  | holdItem
  /-- REBASE_ITEM: the rebase item the arbiter took is performed (R131). -/
  | rebaseItem
  /-- LINE_DEBOUNCED_EDGE: a line's pin has held its new level for 20 ms (R127). -/
  | lineDebouncedEdge (line : Fin 4)
  /-- MAP_SOFT_RESET: the map performs its part of the soft reset (R18). -/
  | mapSoftReset
  /-- LINE_PIN_CHANGE: the level of a line's pin changes (R127). -/
  | linePinChange (line : Fin 4)
  /-- RESET_N_RELEASE: RESET_N goes high (R167). -/
  | resetNRelease
  deriving DecidableEq, Repr

end Sys2Proof
end

