-- ==== Sys2Proof/WellFormed.lean ====
section
/-! DEFINITION. When a command of the block is well-formed. Ports and lines are bounded by their types; what is left to
check is that a command which says that bytes COMPLETED something carries at least one byte. -/

namespace Sys2Proof

/-- A command is well-formed when the event it names can be the last of its bytes: a completed frame (R82, R157) and a
length byte (R82, R157) each end with a byte. A gap needs none: the frame may have been started before. -/
def Instr.wellFormed : Instr → Bool
  | .hostFrameReceived bytes => !bytes.isEmpty
  | .hostLengthOutOfRange bytes => !bytes.isEmpty
  | .fieldLengthOutOfRange _ bytes => !bytes.isEmpty
  | .fieldCrcFailure _ bytes => !bytes.isEmpty
  | .fieldUnknownKind _ bytes => !bytes.isEmpty
  | .helloFrame _ bytes => !bytes.isEmpty
  | .samplesFrame _ bytes => !bytes.isEmpty
  | .scanFrame _ bytes => !bytes.isEmpty
  | .hostGapTimeout _ | .fieldGapTimeout _ _ => true
  | .fullReset | .hostItemPosted | .unknownRequest | .identify | .set | .get | .restart | .readLinkStatus => true
  | .start | .stop | .hold | .resume | .clearMap | .closeEpoch | .readMapStatus | .readCells | .readHotspots => true
  | .readPass | .readPoint | .restorePoint | .excludePoint | .readView | .readPort | .inject | .readLines => true
  | .stageOpen | .stagePut | .stageClear | .stageCommit | .readStage | .readPage | .readEvents | .hostFrameSent => true
  | .fieldAnswerSent _ | .frameFusion | .epochTimerExpiry | .close | .holdItem | .rebaseItem => true
  | .lineDebouncedEdge _ | .mapSoftReset | .linePinChange _ | .resetNRelease => true

end Sys2Proof
end

