-- ==== Sys2Proof/Decode.lean ====
section
/-! DEFINITION. The decoder of table words. The block takes commands from outside and has no instruction encoding:
no row of spec/opcode_table.json carries bits, so no word spells a command. The framing and the bodies of the two serial
links, which the spec does lay out byte by byte, are read in Machine/Bytes.lean and Machine/Operands.lean. -/

namespace Sys2Proof

/-- The command a table word spells: none, since no row of spec/opcode_table.json gives bits. -/
def decodeTableWord (_nbits _w : Nat) : Option Instr := none

end Sys2Proof
end

