-- ==== Sys2Proof/Machine/State.lean ====
section
/-! DEFINITION. Everything the spec gives the device to hold, as plain data, and its value right after reset. -/

namespace Sys2Proof.Machine

/-! ## Chapter 1: cells -/

/-- Index of a cell, pass × 256 + tube × 8 + band (spec 0.6.2). -/
abbrev CellIx := Fin Config.nCells
/-- Number of a thermocouple point (spec 3.1). -/
abbrev PointIx := Fin Config.nPoints
/-- Number of a view (spec 4.1). -/
abbrev ViewIx := Fin Config.nViews
/-- Number of a field port (spec 5.1). -/
abbrev PortIx := Fin Config.nPorts
/-- Number of a line input (spec 7.3). -/
abbrev LineIx := Fin Config.nLines

/-- The configuration of a cell (Table 1-2, R2). Class NONE is `none`. -/
structure CellEntry where
  inUse : Bool
  limitClass : Option (Fin 8)
  irOffset : Int
  deriving DecidableEq, Repr

/-- The kind of reading that made the last strong touch (Table 1-3). -/
inductive Source where
  | thermocouple | scanner
  deriving DecidableEq, Repr

/-- The limit state of a cell (Table 1-3). -/
inductive AlertState where
  | normal | high | highHigh
  deriving DecidableEq, Repr

/-- The part of a cell record that is present in LIVE and in STALE (Table 1-3). -/
structure CellBody where
  estimate : Int
  age : Nat
  source : Source
  baseline : Option Int
  alert : AlertState
  deriving DecidableEq, Repr

/-- The state of a cell with the fields present in it (R3): none in UNUSED and EMPTY, the body in LIVE and STALE, and the
rise in LIVE only. -/
inductive CellContent where
  | unused
  | empty
  | live (body : CellBody) (rise : Option Int)
  | stale (body : CellBody)
  deriving DecidableEq, Repr

/-- The optional part of a cell record, present while the cell is the home of a bound point (R7). -/
structure Anchor where
  tLast : Option Int
  tAge : Nat
  deriving DecidableEq, Repr

/-- The live record of a cell (Table 1-3). -/
structure CellRecord where
  content : CellContent
  anchor : Option Anchor
  deriving DecidableEq, Repr

/-! ## Chapter 2: frames -/

/-- A unit's own judgement of a channel (Table 2-2). -/
inductive ReadingStatus where
  | ok | openCircuit | unitRange
  deriving DecidableEq, Repr

/-- A thermocouple reading (Table 2-2). -/
structure Reading where
  channel : Fin 16
  value : Int
  status : ReadingStatus
  deriving DecidableEq, Repr

/-- A scan pixel (Table 2-3). -/
structure Pixel where
  value : Int
  saturated : Bool
  obscured : Bool
  deriving DecidableEq, Repr

/-- A queued frame (Table 2-1). -/
inductive Frame where
  | samples (port : PortIx) (readings : List Reading)
  | scan (port : PortIx) (view : ViewIx) (pixels : List Pixel)
  deriving DecidableEq, Repr

/-- The settings latched for the frame in fusion (R22). -/
structure FusionSettings where
  gainTc : Nat
  gainIr : Nat
  refreshMin : Nat
  disagreeLimit : Nat
  anchorAge : Nat
  biasGain : Nat
  deriving DecidableEq, Repr

/-! ## Chapter 3: points -/

/-- A further cell over which a point's reading is spread (Table 3-2). -/
structure SpreadEntry where
  cell : CellIx
  share : Nat
  deriving DecidableEq, Repr

/-- The configuration of a point (Table 3-1). -/
structure PointEntry where
  inUse : Bool
  port : PortIx
  channel : Fin 16
  home : CellIx
  spread : List SpreadEntry
  stepLimit : Nat
  deriving DecidableEq, Repr

/-- The state of a point (Table 3-4). -/
inductive PointState where
  | unbound | active | suspect | failed | excluded
  deriving DecidableEq, Repr

/-- The six latched flags of a point (Table 3-5). -/
structure PointFlags where
  openCircuit : Bool
  range : Bool
  step : Bool
  disagree : Bool
  failed : Bool
  recovered : Bool
  deriving DecidableEq, Repr

/-- The live record of a point (Table 3-3). -/
structure PointRecord where
  state : PointState
  rangeCount : Nat
  badCount : Nat
  cleanCount : Nat
  disagreeCount : Nat
  rejected : Nat
  discarded : Nat
  flags : PointFlags
  deriving DecidableEq, Repr

/-! ## Chapter 4: views -/

/-- A binding of a view (Table 4-1). -/
structure Binding where
  inUse : Bool
  pixel : Fin 64
  cell : CellIx
  share : Nat
  deriving DecidableEq, Repr

/-- The live record of a view (Table 4-2). -/
structure ViewRecord where
  bias : Int
  lastFrame : Option (BitVec 16)
  framesFused : Nat
  pixelsSkipped : Nat
  anchorsUsed : Nat
  disagreements : Nat
  deriving DecidableEq, Repr

/-! ## Chapter 5: field ports -/

/-- The state of a field port (Table 5-5). -/
inductive PortState where
  | down | live | quiet
  deriving DecidableEq, Repr

/-- The kind of unit a HELLO declares (Table 5-3). -/
inductive UnitKind where
  | points | scanner
  deriving DecidableEq, Repr

/-- The five latched flags of a port (R94). -/
structure PortFlags where
  hello : Bool
  crc : Bool
  refused : Bool
  resumed : Bool
  quiet : Bool
  deriving DecidableEq, Repr

/-- Why a frame is refused (Table 5-3). -/
inductive RefuseReason where
  | noHello | wrongKind | badBody
  deriving DecidableEq, Repr

/-- What a port answers to a good-CRC frame (spec 5.1). -/
inductive AnswerKind where
  | ack | hold
  | refuse (reason : RefuseReason)
  deriving DecidableEq, Repr

/-- An answer with the toggle of the frame answered (spec 5.1). -/
structure Answer where
  kind : AnswerKind
  toggle : Bool
  deriving DecidableEq, Repr

/-- The record of a field port (Table 5-4), its receiver (R82) and its reply list (R84). -/
structure PortRecord where
  state : PortState
  unitKind : Option UnitKind
  expectedToggle : Bool
  silence : Nat
  crcErrors : Nat
  refused : Nat
  duplicates : Nat
  holds : Nat
  unknownChannel : Nat
  flags : PortFlags
  /-- The frame in assembly, start byte first; empty while the receiver hunts (R82). -/
  assembly : List Byte
  /-- The answers not yet sent, the one being sent first (R84). -/
  answers : List Answer
  deriving DecidableEq, Repr

/-! ## Chapter 6: close -/

/-- The two modes of the Epoch Timer (R102). -/
inductive EpochMode where
  | periodic | single
  deriving DecidableEq, Repr

/-- A limit class (Table 6-2). -/
structure LimitClass where
  high : Int
  highHigh : Int
  deadband : Int
  riseLimit : Int
  deriving DecidableEq, Repr

/-- The four latched flags of a pass (R113). -/
structure PassFlags where
  hhEntered : Bool
  highEntered : Bool
  cleared : Bool
  rise : Bool
  deriving DecidableEq, Repr

/-- A pass summary (R114). -/
structure PassSummary where
  inUse : Nat
  empty : Nat
  live : Nat
  stale : Nat
  high : Nat
  highHigh : Nat
  hottest : Option (Nat × Int)
  largestRise : Option (Nat × Int)
  deriving DecidableEq, Repr

/-- An entry of the hot-spot list (R116). -/
structure HotSpot where
  cell : Nat
  estimate : Int
  alert : AlertState
  age : Nat
  rise : Option Int
  deriving DecidableEq, Repr

/-! ## Chapter 10: requests, replies, settings -/

/-- A received request: kind, tag and body (Table 10-1). -/
structure Request where
  kind : Byte
  tag : Byte
  body : List Byte
  deriving DecidableEq, Repr

/-- A ready reply: its parts in order, each the body of one frame, from the result code on (R160, R161). -/
structure Reply where
  kind : Byte
  tag : Byte
  parts : List (List Byte)
  /-- Whether it answers the request in service; otherwise it is a BUSY reply (R159). -/
  inService : Bool
  deriving DecidableEq, Repr

/-- The frame the host transmitter is sending, with the parts that follow it (R159). -/
structure Outgoing where
  kind : Byte
  tag : Byte
  body : List Byte
  rest : List (List Byte)
  inService : Bool
  deriving DecidableEq, Repr

/-- How far the oldest request of the buffer is served (R158). -/
inductive Service where
  /-- No request is in service: the oldest of the buffer, if there is one, is taken next. -/
  | idle
  /-- The oldest request is in service and waits for the map. -/
  | waiting
  /-- The reply of the oldest request is ready or being sent. -/
  | replied
  deriving DecidableEq, Repr

/-- Which edges of a line are selected (Table 7-3). -/
inductive LineEdge where
  | none | rise | fall | both
  deriving DecidableEq, Repr

/-- What a selected edge does (Table 7-3). -/
inductive LineAction where
  | mark | hold | rebase
  deriving DecidableEq, Repr

/-- The settings store (Table 10-3). -/
structure Settings where
  epochPeriod : Nat
  epochMode : EpochMode
  epochRun : Bool
  gainTc : Nat
  gainIr : Nat
  refreshMin : Nat
  staleAge : Nat
  hotFloor : Nat
  disagreeLimit : Nat
  anchorAge : Nat
  biasGain : Nat
  silenceLimit : Nat
  lineEdge : Table 4 LineEdge
  lineAction : Table 4 LineAction
  eventEnable : BitVec 7
  eventUrgent : BitVec 7
  deriving DecidableEq, Repr

/-- The Host Link Port (R157 to R159). -/
structure HostLink where
  /-- The frame in assembly, start byte first; empty while the receiver hunts (R157). -/
  assembly : List Byte
  /-- The request buffer, oldest first, the request in service included (R158). -/
  buffer : List Request
  service : Service
  /-- The ready replies not yet being sent (R159). -/
  ready : List Reply
  sending : Option Outgoing
  badCrc : Nat
  deriving DecidableEq, Repr

/-! ## Chapter 7: lines and map -/

/-- A line input (Table 7-3), its pin and its debouncer (R127). -/
structure LineRecord where
  pin : Bool
  level : Bool
  /-- Milliseconds for which the pin has held its departure from the debounced level. -/
  heldMs : Nat
  holdFlag : Bool
  edge : Bool
  deriving DecidableEq, Repr

/-- The map modes (R121). -/
inductive MapMode where
  | blank | commissioning | running | held
  deriving DecidableEq, Repr

/-- A waiting map-side item (Table 1-6). -/
inductive MapItem where
  | host (request : Request)
  | hold (line : LineIx)
  | rebase (line : LineIx)
  deriving DecidableEq, Repr

/-- The map operation in flight, with what was read when the arbiter took it: the settings of a close (R105), the line's
own hold flag for a hold item (R124), the frame in fusion (R22). -/
inductive Operation where
  | close (staleAge hotFloor : Nat)
  | host (request : Request)
  | hold (line : LineIx) (flag : Bool)
  | rebase (line : LineIx)
  | frame (f : Frame)
  deriving DecidableEq, Repr

/-- The Tube Map's own state beside the cells (R19, section 1.6). -/
structure MapState where
  mode : MapMode
  hostHold : Bool
  lineHold : Table 4 Bool
  epoch : BitVec 16
  hotList : List HotSpot
  buildingEpoch : Option (BitVec 16)
  topChanged : Bool
  summaries : Table 8 PassSummary
  passFlags : Table 8 PassFlags
  unmappedDiscards : Nat
  heldDiscards : Nat
  pendingClose : Bool
  items : List MapItem
  inFlight : Option Operation
  /-- A RESTART has been taken and the map has not yet performed its part (R18). -/
  softResetWaits : Bool
  deriving DecidableEq, Repr

/-! ## Chapter 8: stage -/

/-- A table and a page of it (Table 8-1). -/
inductive Target where
  | cells (page : Fin 64)
  | points (page : Fin 3)
  | views (page : Fin 32)
  | limits
  deriving DecidableEq, Repr

/-- A committed page: its table and page, and its slots, each filled or not (R142). -/
inductive Page where
  | cells (page : Fin 64) (slots : Table 32 (Option CellEntry))
  | points (page : Fin 3) (slots : Table 32 (Option PointEntry))
  | views (page : Fin 32) (slots : Table 32 (Option Binding))
  | limits (slots : Table 8 (Option LimitClass))
  deriving DecidableEq, Repr

/-- What became of a page at close completion (R143). -/
inductive InstallOutcome where
  | installed | dropped | empty
  deriving DecidableEq, Repr

/-- The last-install record (R145). -/
structure LastInstall where
  epoch : BitVec 16
  pages : List (Target × InstallOutcome)
  deriving DecidableEq, Repr

/-- The Table Stage (Table 8-2, R142, R145). A slot is `some` when it is filled; it holds the entry's bytes as received
(R135). -/
structure Stage where
  target : Option Target
  slots : Table 32 (Option (List Byte))
  pointer : Nat
  overrun : Bool
  pendingPages : List Page
  lastInstall : Option LastInstall
  installed : Bool
  dropped : Bool
  deriving DecidableEq, Repr

/-! ## Chapter 9: events -/

/-- The Event Unit's copy of the flags latched inside map operations (R149). -/
structure FlagCopy where
  points : Table 96 PointFlags
  passes : Table 8 PassFlags
  topChanged : Bool
  installed : Bool
  dropped : Bool
  deriving DecidableEq, Repr

/-- A waiting notice: the level's set and the epoch number; the level is the place it waits in (R152). -/
structure Notice where
  set : BitVec 7
  epoch : BitVec 16
  deriving DecidableEq, Repr

/-- The Event Unit, and the ALERT_N pin (R151). -/
structure EventUnit where
  copy : FlagCopy
  urgentNotice : Option Notice
  routineNotice : Option Notice
  /-- ALERT_N is driven low. -/
  alertDriven : Bool
  deriving DecidableEq, Repr

/-! ## The device -/

/-- The whole state of the device. -/
structure State where
  /-- The commands that wait, first in first out: the model's own queue. -/
  pending : List Instr
  /-- RESET_N is low. -/
  resetLow : Bool
  settings : Settings
  host : HostLink
  ports : Table 8 PortRecord
  /-- The intake queue, head first (R97). -/
  queue : List Frame
  cellTable : Table 2048 CellEntry
  cells : Table 2048 CellRecord
  pointTable : Table 96 PointEntry
  points : Table 96 PointRecord
  viewTable : Table 16 (Table 64 Binding)
  views : Table 16 ViewRecord
  limits : Table 8 LimitClass
  map : MapState
  latched : FusionSettings
  /-- The Epoch Timer's running count, in milliseconds (spec 6.1). -/
  timerCount : Nat
  lines : Table 4 LineRecord
  stage : Stage
  events : EventUnit
  deriving DecidableEq, Repr

/-- Why the device would stop. It has no constructor: the spec names no event that stops the device, and every command
answers a next state (safe: no run ends). -/
inductive Fault where
  deriving DecidableEq, Repr

/-- Why a command is refused. -/
inductive Refusal where
  /-- Raised by exec's arm of a command that has no meaning yet (safe: the model stops where the device goes on). No arm
  raises it: every row of the table has its meaning. -/
  | notModelled (mnemonic : String)
  deriving DecidableEq, Repr

/-! ## The state after a full reset -/

/-- A cell table entry after a full reset (R2). -/
def CellEntry.initial : CellEntry := ⟨false, none, 0⟩

/-- A cell record after a full reset (R8). -/
def CellRecord.initial : CellRecord := ⟨.unused, none⟩

/-- A point table entry after a full reset (R38). -/
def PointEntry.initial : PointEntry := ⟨false, 0, 0, 0, [], 50⟩

/-- No point flag set. -/
def PointFlags.clear : PointFlags := ⟨false, false, false, false, false, false⟩

/-- The record of a slot not in use (R62). -/
def PointRecord.initial : PointRecord := ⟨.unbound, 0, 0, 0, 0, 0, 0, PointFlags.clear⟩

/-- A binding after a full reset (R64). -/
def Binding.initial : Binding := ⟨false, 0, 0, 1⟩

/-- A view record after either reset (R66). -/
def ViewRecord.initial : ViewRecord := ⟨0, none, 0, 0, 0, 0⟩

/-- A limit class after a full reset (R109). -/
def LimitClass.initial : LimitClass := ⟨11000, 11500, 100, 500⟩

/-- No port flag set. -/
def PortFlags.clear : PortFlags := ⟨false, false, false, false, false⟩

/-- A port after a full reset (R85, R82, R84). -/
def PortRecord.initial : PortRecord := ⟨.down, none, false, 0, 0, 0, 0, 0, 0, PortFlags.clear, [], []⟩

/-- No pass flag set. -/
def PassFlags.clear : PassFlags := ⟨false, false, false, false⟩

/-- An emptied summary (R12). -/
def PassSummary.initial : PassSummary := ⟨0, 0, 0, 0, 0, 0, none, none⟩

/-- The settings after a full reset (Table 10-3). EVENT_URGENT holds POINT (bit 0) and HIGHHIGH (bit 3). -/
def Settings.initial : Settings where
  epochPeriod := 1000
  epochMode := .periodic
  epochRun := false
  gainTc := 12
  gainIr := 6
  refreshMin := 64
  staleAge := 10
  hotFloor := 6000
  disagreeLimit := 800
  anchorAge := 2
  biasGain := 4
  silenceLimit := 3
  lineEdge := Table.replicate 4 .none
  lineAction := Table.replicate 4 .mark
  eventEnable := 0#7
  eventUrgent := 0b0001001#7

/-- The latched copy after a full reset (R22). -/
def FusionSettings.initial : FusionSettings := ⟨12, 6, 64, 800, 2, 4⟩

/-- The host link after a full reset (R167). -/
def HostLink.initial : HostLink := ⟨[], [], .idle, [], none, 0⟩

/-- The map after a full reset (R19). -/
def MapState.initial : MapState where
  mode := .blank
  hostHold := false
  lineHold := Table.replicate 4 false
  epoch := 0#16
  hotList := []
  buildingEpoch := none
  topChanged := false
  summaries := Table.replicate 8 PassSummary.initial
  passFlags := Table.replicate 8 PassFlags.clear
  unmappedDiscards := 0
  heldDiscards := 0
  pendingClose := false
  items := []
  inFlight := none
  softResetWaits := false

/-- The stage after either reset (R135, R142, R145). -/
def Stage.initial : Stage := ⟨none, Table.replicate 32 none, 0, false, [], none, false, false⟩

/-- No flag set in the Event Unit's copy (R149). -/
def FlagCopy.clear : FlagCopy :=
  ⟨Table.replicate 96 PointFlags.clear, Table.replicate 8 PassFlags.clear, false, false, false⟩

/-- The Event Unit after a full reset (R156). -/
def EventUnit.initial : EventUnit := ⟨FlagCopy.clear, none, none, false⟩

/-- A line after a full reset: its debounced level is the level of its pin (R133). -/
def LineRecord.initial (pin : Bool) : LineRecord := ⟨pin, pin, 0, false, false⟩

/-- Every block in its full-reset state (R167), with the lines at these pin levels and the pin RESET_N at this level. -/
def State.fullReset (pins : Table 4 Bool) (resetLow : Bool) (pending : List Instr) : State where
  pending := pending
  resetLow := resetLow
  settings := Settings.initial
  host := HostLink.initial
  ports := Table.replicate 8 PortRecord.initial
  queue := []
  cellTable := Table.replicate 2048 CellEntry.initial
  cells := Table.replicate 2048 CellRecord.initial
  pointTable := Table.replicate 96 PointEntry.initial
  points := Table.replicate 96 PointRecord.initial
  viewTable := Table.replicate 16 (Table.replicate 64 Binding.initial)
  views := Table.replicate 16 ViewRecord.initial
  limits := Table.replicate 8 LimitClass.initial
  map := MapState.initial
  latched := FusionSettings.initial
  timerCount := 0
  lines := pins.map LineRecord.initial
  stage := Stage.initial
  events := EventUnit.initial

/-- The machine right after reset: the full-reset state with RESET_N released and nothing commanded. The pins LINE0 to
LINE3 are inputs; the spec gives them no level, and they start low (DESIGN CHOICE, log entry 3). -/
def State.reset : State := State.fullReset (Table.replicate 4 false) false []

end Sys2Proof.Machine
end

