-- ==== Sys2Proof/Machine/Bytes.lean ====
section
/-! DEFINITION. Byte order, the CRC, and the framing of the two serial links (Table 5-1, Table 10-1, R82, R157). -/

namespace Sys2Proof.Machine

/-- An unsigned quantity of two bytes, high byte first (spec 0.6.10). -/
def bytes16 (n : Nat) : List Byte := [BitVec.ofNat 8 (n / 256), BitVec.ofNat 8 n]

/-- A signed quantity of two bytes, two's complement, high byte first (spec 10.1). -/
def bytesInt16 (x : Int) : List Byte := bytes16 (BitVec.ofInt 16 x).toNat

/-- An unsigned quantity of one byte. -/
def byteOf (n : Nat) : Byte := BitVec.ofNat 8 n

/-- A yes/no or set/clear byte (spec 10.9). -/
def byteOfBool (b : Bool) : Byte := if b then 1 else 0

/-- The value of two bytes, high byte first. -/
def nat16 (hi lo : Byte) : Nat := 256 * hi.toNat + lo.toNat

/-- The signed value of two bytes, high byte first. -/
def int16 (hi lo : Byte) : Int := (BitVec.ofNat 16 (nat16 hi lo)).toInt

/-- Bits as a number, the first of the list being bit 0. -/
def natOfBits : List Bool → Nat
  | [] => 0
  | b :: bs => (if b then 1 else 0) + 2 * natOfBits bs

/-- A quantity of `k` bytes, high byte first (spec 0.6.10). -/
def bytesBig : Nat → Nat → List Byte
  | 0, _ => []
  | k + 1, n => BitVec.ofNat 8 (n / 256 ^ k) :: bytesBig k n

/-- One bit of the CRC register: polynomial 0x1021, not reflected (Table 5-1). -/
def crcBit (c : BitVec 16) : BitVec 16 := if c.msb then (c <<< 1) ^^^ 0x1021#16 else c <<< 1

/-- One byte into the CRC register. -/
def crcByte (c : BitVec 16) (b : Byte) : BitVec 16 :=
  crcBit <| crcBit <| crcBit <| crcBit <| crcBit <| crcBit <| crcBit <| crcBit <| c ^^^ (b.setWidth 16 <<< 8)

/-- The CRC of the two links: initial value 0xFFFF, no final XOR (Table 5-1, Table 10-1). -/
def crc16 (bytes : List Byte) : BitVec 16 := bytes.foldl crcByte 0xFFFF#16

/-- The start byte of a frame. -/
def startByte : Byte := 0xC3

/-- The bytes a frame's CRC is computed over: length, kind, tag or toggle byte, body (R83, R157). -/
def framePayload (kind tag : Byte) (body : List Byte) : List Byte :=
  byteOf (body.length + 2) :: kind :: tag :: body

/-- A frame as it stands on the line (Table 5-1, Table 10-1). -/
def frameBytes (kind tag : Byte) (body : List Byte) : List Byte :=
  startByte :: (framePayload kind tag body ++ bytes16 (crc16 (framePayload kind tag body)).toNat)

/-- What a receiver makes of the bytes it has been given. -/
inductive RxEvent where
  /-- No frame has ended: the frame in assembly, start byte first, or nothing while the receiver hunts. -/
  | partialFrame (assembly : List Byte)
  /-- The length byte is outside 2..250. -/
  | badLength
  /-- A complete frame whose CRC differs. -/
  | badCrc
  /-- A complete frame with a good CRC. -/
  | good (kind tag : Byte) (body : List Byte)
  deriving DecidableEq, Repr

/-- A complete frame without its start byte is judged: its CRC is compared with the two bytes received (R83, R157). -/
def judgeFrame (afterStart : List Byte) : RxEvent :=
  match afterStart.take (afterStart.length - 2), afterStart.drop (afterStart.length - 2) with
  | len :: kind :: tag :: body, [hi, lo] =>
    if (crc16 (len :: kind :: tag :: body)).toNat = nat16 hi lo then .good kind tag body else .badCrc
  | _, _ => .badCrc

/-- One byte into a receiver (R82, R157): hunting, it discards all but 0xC3; the next byte is the length L; then L + 2
further bytes are collected. -/
def receiveByte (assembly : List Byte) (b : Byte) : RxEvent :=
  match assembly with
  | [] => if b = startByte then .partialFrame [b] else .partialFrame []
  | [start] => if 2 ≤ b.toNat ∧ b.toNat ≤ 250 then .partialFrame [start, b] else .badLength
  | start :: len :: rest =>
    if rest.length + 1 = len.toNat + 2 then judgeFrame (len :: rest ++ [b]) else .partialFrame (start :: len :: rest ++ [b])

/-- The first event that a run of bytes brings a receiver to, and the bytes it has not yet looked at. -/
def receive (assembly : List Byte) : List Byte → RxEvent × List Byte
  | [] => (.partialFrame assembly, [])
  | b :: bytes =>
    match receiveByte assembly b with
    | .partialFrame a => receive a bytes
    | event => (event, bytes)

end Sys2Proof.Machine
end

