-- ==== Sys2Proof/Machine/Ops.lean ====
section
/-! DEFINITION. The shared arithmetic (spec 0.6.5, 0.6.6) and the operations over cells, points and lookups that several
commands use. -/

namespace Sys2Proof.Machine

/-- Clamped to `lo..hi` (spec 0.6.5). -/
def clamp (lo hi x : Int) : Int := if x < lo then lo else if hi < x then hi else x

/-- A saturating counter counts one (spec 0.6.6). -/
def countUp (maximum n : Nat) : Nat := if n < maximum then n + 1 else maximum

/-- `x / d` rounded to nearest, ties away from zero (spec 0.6.5). -/
def roundDiv (x : Int) (d : Nat) : Int :=
  if x < 0 then -(((x.natAbs + d / 2) / d : Nat) : Int) else (((x.natAbs + d / 2) / d : Nat) : Int)

/-- The map range of temperatures, in deci-degrees (spec 0.6.1). -/
def clampMap (x : Int) : Int := clamp 0 12000 x

/-! ## Cell index (R1) -/

/-- The pass of a cell (R1). -/
def passOf (c : Nat) : Nat := c / 256
/-- The tube of a cell within its pass (R1). -/
def tubeOf (c : Nat) : Nat := c % 256 / 8
/-- The band of a cell within its tube (R1). -/
def bandOf (c : Nat) : Nat := c % 8

/-! ## Cell records -/

/-- The estimate of a cell, present in LIVE and STALE (R3). -/
def CellRecord.estimate (c : CellRecord) : Option Int :=
  match c.content with
  | .live b _ => some b.estimate
  | .stale b => some b.estimate
  | .unused => none
  | .empty => none

/-- The alert state of a cell; UNUSED and EMPTY read NORMAL (R3). -/
def CellRecord.alert (c : CellRecord) : AlertState :=
  match c.content with
  | .live b _ => b.alert
  | .stale b => b.alert
  | .unused => .normal
  | .empty => .normal

/-- The rise of a cell, present only in LIVE (R3). -/
def CellRecord.rise (c : CellRecord) : Option Int :=
  match c.content with
  | .live _ r => r
  | .stale _ => none
  | .unused => none
  | .empty => none

/-- Whether the cell is in use as its record says: UNUSED exactly when the table entry is not in use (R3). -/
def CellRecord.inUse (c : CellRecord) : Bool :=
  match c.content with
  | .unused => false
  | .empty => true
  | .live _ _ => true
  | .stale _ => true

/-- A fresh anchor: T_last absent, T_age 0 (R7). -/
def Anchor.fresh : Anchor := ⟨none, 0⟩

/-- The body of a LIVE or STALE cell after a touch of weight `w` (R27, R28): the estimate moves by w/256 of the
difference, rounded, and is clamped; a strong touch sets age and source. -/
def CellBody.touch (refreshMin : Nat) (kind : Source) (sample : Int) (w : Nat) (b : CellBody) : CellBody :=
  let estimate := clampMap (b.estimate + roundDiv ((sample - b.estimate) * (w : Int)) 256)
  if refreshMin ≤ w then { b with estimate := estimate, age := 0, source := kind } else { b with estimate := estimate }

/-- One sample applied to one cell with a share and a gain (R25 to R28). -/
def CellRecord.touch (refreshMin : Nat) (kind : Source) (sample : Int) (share gain : Nat) (c : CellRecord) : CellRecord :=
  let w := share * gain
  if w = 0 then c else
    match c.content with
    | .unused => c
    | .empty => { c with content := .live ⟨sample, 0, kind, none, .normal⟩ none }
    | .live b r => { c with content := .live (b.touch refreshMin kind sample w) r }
    | .stale b =>
      if refreshMin ≤ w then { c with content := .live (b.touch refreshMin kind sample w) none }
      else { c with content := .stale (b.touch refreshMin kind sample w) }

/-- The alert state of an in-use cell becomes NORMAL, the rest is kept (R6). -/
def CellRecord.alertNormal (c : CellRecord) : CellRecord :=
  match c.content with
  | .live b r => { c with content := .live { b with alert := .normal } r }
  | .stale b => { c with content := .stale { b with alert := .normal } }
  | .unused => c
  | .empty => c

/-- A rebase of one cell: LIVE and STALE take the estimate as baseline, and the rise becomes absent (R5, R126, R131). -/
def CellRecord.rebase (c : CellRecord) : CellRecord :=
  match c.content with
  | .live b _ => { c with content := .live { b with baseline := some b.estimate } none }
  | .stale b => { c with content := .stale { b with baseline := some b.estimate } }
  | .unused => c
  | .empty => c

/-- The record of a cell emptied by CLEAR-MAP: EMPTY if in use, its anchor kept with T_last absent and T_age 0 (R13). -/
def CellRecord.clear (c : CellRecord) : CellRecord :=
  match c.content with
  | .unused => c
  | .empty => { c with anchor := c.anchor.map fun _ => Anchor.fresh }
  | .live _ _ => ⟨.empty, c.anchor.map fun _ => Anchor.fresh⟩
  | .stale _ => ⟨.empty, c.anchor.map fun _ => Anchor.fresh⟩

/-- An admitted reading is written into the home cell's anchor (R7, R51). -/
def CellRecord.writeAnchor (reading : Int) (c : CellRecord) : CellRecord :=
  { c with anchor := c.anchor.map fun _ => ⟨some reading, 0⟩ }

/-! ## Lookups (R40) -/

/-- The in-use point of a port and channel (R40). -/
def findPoint (t : Table 96 PointEntry) (port : PortIx) (channel : Fin 16) : Option PointIx :=
  t.findIx fun e => e.inUse && decide (e.port = port) && decide (e.channel = channel)

/-- The in-use point homed on a cell (R40). -/
def homePoint (t : Table 96 PointEntry) (cell : CellIx) : Option PointIx :=
  t.findIx fun e => e.inUse && decide (e.home = cell)

/-! ## Point records -/

/-- A point is serving: its readings are checked and its outcomes applied (Table 3-4). -/
def PointState.serving : PointState → Bool
  | .active => true
  | .suspect => true
  | .unbound => false
  | .failed => false
  | .excluded => false

/-- The four counts become 0 together (R42). -/
def PointRecord.zeroCounts (r : PointRecord) : PointRecord :=
  { r with rangeCount := 0, badCount := 0, cleanCount := 0, disagreeCount := 0 }

/-- A record with everything 0 in this state (R58, R63). -/
def PointRecord.rebuilt (state : PointState) : PointRecord := { PointRecord.initial with state := state }

/-- The state of a point whose record is rebuilt from the tables: ACTIVE with its home cell in use, otherwise UNBOUND
(R58, R63). -/
def rebuiltState (cellTable : Table 2048 CellEntry) (e : PointEntry) : PointState :=
  if e.inUse && (cellTable.get e.home).inUse then .active else .unbound

/-! ## The intake queue and the map-side item list -/

/-- An item is posted to the map: a line's item merges with one of the same line and kind already waiting (R16). -/
def postItem (item : MapItem) (items : List MapItem) : List MapItem :=
  match item with
  | .host _ => items ++ [item]
  | .hold _ => if items.contains item then items else items ++ [item]
  | .rebase _ => if items.contains item then items else items ++ [item]

/-- A close request: it sets the pending-close flag or merges (R15). -/
def State.postClose (s : State) : State := { s with map := { s.map with pendingClose := true } }

/-- A line's or the host's item is posted to the map. -/
def State.post (s : State) (item : MapItem) : State :=
  { s with map := { s.map with items := postItem item s.map.items } }

/-! ## Hold flags of lines (R129, R130) -/

/-- The hold flag of a line as its debounced level and its stored settings give it (R130). -/
def derivedHold (edge : LineEdge) (action : LineAction) (level : Bool) : Bool :=
  match action, edge with
  | .hold, .rise => level
  | .hold, .fall => !level
  | .hold, .none => false
  | .hold, .both => false
  | .mark, _ => false
  | .rebase, _ => false

/-- A line takes its hold flag from its debounced level and settings, and posts a hold item if the flag changes
(R129, R130). -/
def State.followHold (s : State) (n : LineIx) : State :=
  let line := s.lines.get n
  let flag := derivedHold (s.settings.lineEdge.get n) (s.settings.lineAction.get n) line.level
  let s' := { s with lines := s.lines.set n { line with holdFlag := flag } }
  if flag = line.holdFlag then s' else s'.post (.hold n)

/-! ## Holds of the map (R125, R126) -/

/-- Whether at least one of the five hold records is set (R124). -/
def MapState.anyHold (m : MapState) : Bool := m.hostHold || m.lineHold.any id

/-- Every LIVE and STALE cell takes its estimate as its baseline, and every rise becomes absent (R126, R131). -/
def State.rebase (s : State) : State := { s with cells := s.cells.map CellRecord.rebase }

/-- The mode effect of the holds, after a record has changed (R125). -/
def State.modeEffect (s : State) : State :=
  match s.map.mode with
  | .running => if s.map.anyHold then { s with map := { s.map with mode := .held } } else s
  | .held => if s.map.anyHold then s else { s.rebase with map := { s.map with mode := .running } }
  | .blank => s
  | .commissioning => s

/-! ## The Epoch Timer (R102 to R104) -/

/-- The running count restarts from 0 (R103). -/
def State.restartCount (s : State) : State := { s with timerCount := 0 }

/-- The timer expires: a close request is posted, and the count restarts, or SINGLE mode stops the timer (R102). -/
def State.timerExpires (s : State) : State :=
  match s.settings.epochMode with
  | .periodic => s.postClose.restartCount
  | .single => { s.postClose.restartCount with settings := { s.settings with epochRun := false } }

end Sys2Proof.Machine
end

