-- ==== Sys2Proof/Machine/Flags.lean ====
section
/-! DEFINITION. The Event Unit: groups, the two levels, notices, ALERT_N and the copy of the in-map flags (chapter 9). -/

namespace Sys2Proof.Machine

/-- Any of a point's six flags (Table 9-1). -/
def PointFlags.any (f : PointFlags) : Bool :=
  f.openCircuit || f.range || f.step || f.disagree || f.failed || f.recovered

/-- Any of a port's five flags (Table 9-1). -/
def PortFlags.any (f : PortFlags) : Bool := f.hello || f.crc || f.refused || f.resumed || f.quiet

/-- Any of a pass's four flags (R154). -/
def PassFlags.any (f : PassFlags) : Bool := f.hhEntered || f.highEntered || f.cleared || f.rise

/-- The flags of a pass that feed the HIGH group (Table 9-1). -/
def PassFlags.anyHigh (f : PassFlags) : Bool := f.highEntered || f.cleared || f.rise

/-- Two sets of point flags joined: a flag already set stays set (R44). -/
def PointFlags.join (f g : PointFlags) : PointFlags :=
  ⟨f.openCircuit || g.openCircuit, f.range || g.range, f.step || g.step, f.disagree || g.disagree,
    f.failed || g.failed, f.recovered || g.recovered⟩

/-- Two sets of pass flags joined: a flag already set stays set (R113). -/
def PassFlags.join (f g : PassFlags) : PassFlags :=
  ⟨f.hhEntered || g.hhEntered, f.highEntered || g.highEntered, f.cleared || g.cleared, f.rise || g.rise⟩

/-- A group set from its seven members, group 0 first (Table 9-1). -/
def groupSet (point port high highHigh hotspot table line : Bool) : BitVec 7 :=
  BitVec.ofNat 7 (natOfBits [point, port, high, highHigh, hotspot, table, line])

/-- The active groups: in-map flags by the Event Unit's copy, port and line flags by their owners' records
(R148, R149). -/
def State.groups (s : State) : BitVec 7 :=
  groupSet (s.events.copy.points.any PointFlags.any) (s.ports.any fun p => p.flags.any)
    (s.events.copy.passes.any PassFlags.anyHigh) (s.events.copy.passes.any fun f => f.hhEntered)
    s.events.copy.topChanged (s.events.copy.installed || s.events.copy.dropped) (s.lines.any fun l => l.edge)

/-- The URGENT level: active, enabled and urgent groups (R150). -/
def State.urgentSet (s : State) : BitVec 7 := s.groups &&& s.settings.eventEnable &&& s.settings.eventUrgent

/-- The ROUTINE level: active and enabled groups that are not urgent (R150). -/
def State.routineSet (s : State) : BitVec 7 := s.groups &&& s.settings.eventEnable &&& ~~~ s.settings.eventUrgent

/-- The notice place of a level after one event: a level set that goes from empty to non-empty forms a notice, which
replaces an unsent one (R152). -/
def formNotice (before after : BitVec 7) (epoch : BitVec 16) (place : Option Notice) : Option Notice :=
  if before = 0#7 ∧ after ≠ 0#7 then some ⟨after, epoch⟩ else place

/-- The Event Unit takes the changes from `old` to `s` as one event: notices are formed and ALERT_N follows the URGENT
set (R149, R151, R152). -/
def State.takeEvent (old s : State) : State :=
  { s with events := { s.events with
      urgentNotice := formNotice old.urgentSet s.urgentSet s.map.epoch s.events.urgentNotice
      routineNotice := formNotice old.routineSet s.routineSet s.map.epoch s.events.routineNotice
      alertDriven := decide (s.urgentSet ≠ 0#7) } }

/-- The copy of the in-map flags is refreshed from the owners' records, at the completion of a map operation (R149). -/
def State.refreshCopy (s : State) : State :=
  { s with events := { s.events with copy :=
      ⟨s.points.map PointRecord.flags, s.map.passFlags, s.map.topChanged, s.stage.installed, s.stage.dropped⟩ } }

/-- The copy of INSTALLED and DROPPED is refreshed at once by a READ-STAGE (R149). -/
def State.refreshStageCopy (s : State) : State :=
  { s with events := { s.events with copy := { s.events.copy with
      installed := s.stage.installed, dropped := s.stage.dropped } } }

/-! ## The transmitter (R153, R159) -/

/-- The kind of a NOTICE frame (R153). -/
def noticeKind : Byte := 0xF0

/-- The body of a NOTICE frame: level (0 ROUTINE, 1 URGENT), group set, epoch (Table 10-6). -/
def noticeBody (level : Byte) (n : Notice) : List Byte := [level, byteOf n.set.toNat] ++ bytes16 n.epoch.toNat

/-- A notice as the transmitter sends it: tag 0, one frame (R153). -/
def Notice.outgoing (level : Byte) (n : Notice) : Outgoing := ⟨noticeKind, 0, noticeBody level n, [], false⟩

/-- A reply as the transmitter starts to send it: its first part (R161). -/
def Reply.outgoing (r : Reply) : Outgoing :=
  match r.parts with
  | [] => ⟨r.kind, r.tag, [], [], r.inService⟩
  | p :: ps => ⟨r.kind, r.tag, p, ps, r.inService⟩

/-- The idle transmitter chooses what to send: the oldest ready reply, else the URGENT notice, else the ROUTINE notice
(R153). -/
def State.transmit (s : State) : State :=
  match s.host.sending, s.host.ready, s.events.urgentNotice, s.events.routineNotice with
  | some _, _, _, _ => s
  | none, r :: rs, _, _ => { s with host := { s.host with ready := rs, sending := some r.outgoing } }
  | none, [], some n, _ =>
    { s with
      host := { s.host with sending := some (n.outgoing 1) }
      events := { s.events with urgentNotice := none } }
  | none, [], none, some n =>
    { s with
      host := { s.host with sending := some (n.outgoing 0) }
      events := { s.events with routineNotice := none } }
  | none, [], none, none => s

/-! ## The arbiter (R14) -/

/-- The operation an item starts; a hold item takes the line's own hold flag as it stands now (R124). -/
def State.operationOf (s : State) : MapItem → Operation
  | .host r => .host r
  | .hold n => .hold n (s.lines.get n).holdFlag
  | .rebase n => .rebase n

/-- The six fusion settings as the store holds them (R23). -/
def Settings.fusion (t : Settings) : FusionSettings :=
  ⟨t.gainTc, t.gainIr, t.refreshMin, t.disagreeLimit, t.anchorAge, t.biasGain⟩

/-- The free map takes one claimant: the pending close, else the oldest item, else the head frame (R14). It takes none
while an operation is in flight or a soft reset waits (R18). -/
def State.arbitrate (s : State) : State :=
  if s.map.inFlight.isSome || s.map.softResetWaits then s
  else if s.map.pendingClose then
    { s with map := { s.map with
        pendingClose := false, inFlight := some (.close s.settings.staleAge s.settings.hotFloor) } }
  else match s.map.items, s.queue with
    | item :: items, _ => { s with map := { s.map with items := items, inFlight := some (s.operationOf item) } }
    | [], f :: queue =>
      { s with queue := queue, latched := s.settings.fusion, map := { s.map with inFlight := some (.frame f) } }
    | [], [] => s

/-- The end of every step: the changes are taken as one event, the idle transmitter and the free map choose. -/
def State.conclude (old s : State) : State := (old.takeEvent s).transmit.arbitrate

/-- The end of a map operation: the map is free, and the in-map flags are taken at this moment (R149). -/
def State.completeOp (s : State) : State :=
  { s with map := { s.map with inFlight := none } }.refreshCopy

end Sys2Proof.Machine
end

