-- ==== Sys2Proof/Machine/Operands.lean ====
section
/-! DEFINITION. How commands carry their operands: the request catalogue, the request bodies, the field frame bodies and
the slots of a staged page (Table 5-3, Table 8-3, section 10.8, section 10.9). -/

namespace Sys2Proof.Machine

/-! ## The request catalogue (Table 10-5, Table 10-6) -/

/-- Whether a kind is one of Table 10-5. -/
def knownKind (k : Byte) : Bool :=
  [0x01, 0x02, 0x03, 0x04, 0x05, 0x10, 0x11, 0x12, 0x13, 0x14, 0x15, 0x16, 0x20, 0x21, 0x22, 0x30, 0x31, 0x32, 0x38,
    0x40, 0x41, 0x48, 0x50, 0x51, 0x52, 0x53, 0x54, 0x55, 0x60].contains k.toNat

/-- Whether a kind is a map-side request (R16, Table 10-5). -/
def mapSideKind (k : Byte) : Bool :=
  [0x10, 0x11, 0x12, 0x13, 0x14, 0x16, 0x20, 0x21, 0x22, 0x30, 0x31, 0x32, 0x38].contains k.toNat

/-- Whether a body of this length passes the length check of its kind (R160, Table 10-6). STAGE-PUT is judged by the
stage (R137); for INJECT any body of at least 2 bytes passes. -/
def goodLength (k : Byte) (length : Nat) : Bool :=
  match k.toNat with
  | 0x02 => decide (length = 3)
  | 0x03 => decide (length = 1)
  | 0x20 => decide (length = 3)
  | 0x22 => decide (length = 1)
  | 0x30 => decide (length = 1)
  | 0x31 => decide (length = 1)
  | 0x32 => decide (length = 1)
  | 0x38 => decide (length = 1)
  | 0x40 => decide (length = 1)
  | 0x41 => decide (2 ≤ length)
  | 0x50 => decide (length = 3)
  | 0x51 => true
  | 0x55 => decide (length = 2)
  | _ => decide (length = 0)

/-- A one-byte argument that numbers one of `n` things; none when it is out of range. -/
def indexArg (n : Nat) (b : Byte) : Option (Fin n) := if h : b.toNat < n then some ⟨b.toNat, h⟩ else none

/-! ## Field frame bodies (Table 5-3, R89) -/

/-- A reading status byte; above 0x02 it fails (R89). -/
def readingStatus (b : Byte) : Option ReadingStatus :=
  match b.toNat with
  | 0 => some .ok
  | 1 => some .openCircuit
  | 2 => some .unitRange
  | _ => none

/-- One reading of a SAMPLES body: channel, status, value (Table 5-3). -/
def parseReading (channel status hi lo : Byte) : Option Reading :=
  match indexArg 16 channel, readingStatus status with
  | some c, some st => some ⟨c, int16 hi lo, st⟩
  | _, _ => none

/-- The readings of a SAMPLES body, four bytes each; none if a byte is left over or one reading fails (R89). -/
def parseReadings : List Byte → Option (List Reading)
  | [] => some []
  | c :: st :: hi :: lo :: rest =>
    match parseReading c st hi lo, parseReadings rest with
    | some r, some rs => some (r :: rs)
    | _, _ => none
  | [_] => none
  | [_, _] => none
  | [_, _, _] => none

/-- A SAMPLES body: count 1..16, length 1 + 4 × count, every reading good (R89). -/
def parseSamples : List Byte → Option (List Reading)
  | [] => none
  | count :: rest =>
    if 1 ≤ count.toNat ∧ count.toNat ≤ 16 ∧ rest.length = 4 * count.toNat then parseReadings rest else none

/-- The pixels of a SCAN body, three bytes each: flags, value; flag bits 2 to 7 are ignored (Table 5-3). -/
def parsePixels : List Byte → Option (List Pixel)
  | [] => some []
  | flags :: hi :: lo :: rest =>
    match parsePixels rest with
    | some ps => some (⟨int16 hi lo, flags.getLsbD 0, flags.getLsbD 1⟩ :: ps)
    | none => none
  | [_] => none
  | [_, _] => none

/-- A SCAN body: view 0..15, count 1..64, length 2 + 3 × count (R89). -/
def parseScan : List Byte → Option (ViewIx × List Pixel)
  | view :: count :: rest =>
    if 1 ≤ count.toNat ∧ count.toNat ≤ 64 ∧ rest.length = 3 * count.toNat then
      match indexArg 16 view, parsePixels rest with
      | some v, some ps => some (v, ps)
      | _, _ => none
    else none
  | [] => none
  | [_] => none

/-- The field kind codes (Table 5-2). -/
def kindHello : Byte := 0x01
/-- SAMPLES (Table 5-2). -/
def kindSamples : Byte := 0x02
/-- SCAN (Table 5-2). -/
def kindScan : Byte := 0x03

/-- The frame record that a good SAMPLES or SCAN body becomes; none for another kind or a failing body (R89). -/
def parseField (port : PortIx) (kind : Byte) (body : List Byte) : Option Frame :=
  if kind = kindSamples then (parseSamples body).map fun rs => .samples port rs
  else if kind = kindScan then (parseScan body).map fun vp => .scan port vp.1 vp.2
  else none

/-! ## Targets (Table 8-1, R134) -/

/-- The target that a table byte and a page byte name; none beyond the tables and their pages (R134). -/
def parseTarget (table page : Byte) : Option Target :=
  match table.toNat with
  | 0 => (indexArg 64 page).map .cells
  | 1 => (indexArg 3 page).map .points
  | 2 => (indexArg 32 page).map .views
  | 3 => if page.toNat = 0 then some .limits else none
  | _ => none

/-- The code of a target's table (section 10.9). -/
def Target.table : Target → Nat
  | .cells _ => 0
  | .points _ => 1
  | .views _ => 2
  | .limits => 3

/-- The page number of a target. -/
def Target.page : Target → Nat
  | .cells p => p.val
  | .points p => p.val
  | .views p => p.val
  | .limits => 0

/-- The last slot of a target's page (R134). -/
def Target.lastSlot : Target → Nat
  | .cells _ => 31
  | .points _ => 31
  | .views _ => 31
  | .limits => 7

/-- The bytes of one slot of a target's table (Table 10-7). -/
def Target.slotBytes : Target → Nat
  | .cells _ => 4
  | .points _ => 20
  | .views _ => 5
  | .limits => 8

/-- The entries of a STAGE-PUT body, `size` bytes each (R137). -/
def splitEntries (size : Nat) : Nat → List Byte → List (List Byte)
  | 0, _ => []
  | k + 1, body => body.take size :: splitEntries size k (body.drop size)

/-! ## Slots (Table 10-7), read with the range checks of Table 8-3 -/

/-- An in-use byte: 0 or 1, otherwise out of range (section 10.9). -/
def parseFlag (b : Byte) : Option Bool :=
  match b.toNat with
  | 0 => some false
  | 1 => some true
  | _ => none

/-- A limit class byte: 0..7, or 0xFF for NONE (Table 10-7). -/
def parseClass (b : Byte) : Option (Option (Fin 8)) :=
  if b.toNat = 255 then some none else (indexArg 8 b).map some

/-- A cell index of two bytes, 0..2047. -/
def parseCell (hi lo : Byte) : Option CellIx := if h : nat16 hi lo < 2048 then some ⟨nat16 hi lo, h⟩ else none

/-- A CELLS slot with every field in range (Table 8-3), otherwise none. -/
def parseCellSlot : List Byte → Option CellEntry
  | [use, cls, hi, lo] =>
    match parseFlag use, parseClass cls with
    | some u, some c =>
      if -2000 ≤ int16 hi lo ∧ int16 hi lo ≤ 2000 then some ⟨u, c, int16 hi lo⟩ else none
    | _, _ => none
  | _ => none

/-- The first `count` spread entries, three bytes each, every cell and share in range (Table 8-3, R140). -/
def parseSpread : Nat → List Byte → Option (List SpreadEntry)
  | 0, _ => some []
  | k + 1, hi :: lo :: share :: rest =>
    match parseCell hi lo, parseSpread k rest with
    | some c, some es => if 1 ≤ share.toNat ∧ share.toNat ≤ 15 then some (⟨c, share.toNat⟩ :: es) else none
    | _, _ => none
  | _ + 1, [] => none
  | _ + 1, [_] => none
  | _ + 1, [_, _] => none

/-- A spread list as a whole: its cells are distinct and none is the home cell (R39, R140). -/
def spreadDistinct (home : CellIx) (spread : List SpreadEntry) : Bool :=
  decide ((home :: spread.map SpreadEntry.cell).Nodup)

/-- A POINTS slot with every field in range (Table 8-3), otherwise none. -/
def parsePointSlot : List Byte → Option PointEntry
  | use :: port :: channel :: homeHi :: homeLo :: stepHi :: stepLo :: count :: spread =>
    match parseFlag use, indexArg 8 port, indexArg 16 channel, parseCell homeHi homeLo with
    | some u, some p, some c, some home =>
      if count.toNat ≤ 4 ∧ 50 ≤ nat16 stepHi stepLo ∧ nat16 stepHi stepLo ≤ 5000 then
        match parseSpread count.toNat spread with
        | some es => if spreadDistinct home es then some ⟨u, p, c, home, es, nat16 stepHi stepLo⟩ else none
        | none => none
      else none
    | _, _, _, _ => none
  | _ => none

/-- A VIEWS slot with every field in range (Table 8-3), otherwise none. -/
def parseBindingSlot : List Byte → Option Binding
  | [use, pixel, hi, lo, share] =>
    match parseFlag use, indexArg 64 pixel, parseCell hi lo with
    | some u, some p, some c =>
      if 1 ≤ share.toNat ∧ share.toNat ≤ 16 then some ⟨u, p, c, share.toNat⟩ else none
    | _, _, _ => none
  | _ => none

/-- A LIMITS slot with every field in range and H below HH (Table 8-3, R140), otherwise none. -/
def parseLimitSlot : List Byte → Option LimitClass
  | [h1, h0, hh1, hh0, db1, db0, rl1, rl0] =>
    let h := nat16 h1 h0
    let hh := nat16 hh1 hh0
    let db := nat16 db1 db0
    let rl := nat16 rl1 rl0
    if h ≤ 11999 ∧ 1 ≤ hh ∧ hh ≤ 12000 ∧ h < hh ∧ db ≤ 500 ∧ 1 ≤ rl ∧ rl ≤ 2000 then some ⟨h, hh, db, rl⟩ else none
  | _ => none

end Sys2Proof.Machine
end

