-- ==== Sys2Proof/Machine/Replies.lean ====
section
/-! DEFINITION. The reply side of the host link: result codes, the codes of enumerations, and the layouts of section 10.9. -/

namespace Sys2Proof.Machine

/-- The result codes of Table 10-2. -/
inductive ResultCode where
  | ok | clamped | busy | badLength | unknownRequest | badArgument | wrongMode | stageClosed | stageInvalid
  | pendingFull | queueFull
  deriving DecidableEq, Repr

/-- The byte of a result code (Table 10-2). -/
def ResultCode.byte : ResultCode → Byte
  | .ok => 0x00
  | .clamped => 0x01
  | .busy => 0x10
  | .badLength => 0x11
  | .unknownRequest => 0x12
  | .badArgument => 0x13
  | .wrongMode => 0x14
  | .stageClosed => 0x20
  | .stageInvalid => 0x21
  | .pendingFull => 0x22
  | .queueFull => 0x30

/-- The kind of a reply: the request kind plus 0x80, or 0xFF for an unknown kind (R160). -/
def replyKind (k : Byte) : Byte := if knownKind k then k + 0x80 else 0xFF

/-- A result with content, in one part. -/
def answer (r : ResultCode) (content : List Byte) : List (List Byte) := [r.byte :: content]

/-- A result code alone (R160). -/
def plain (r : ResultCode) : List (List Byte) := answer r []

/-! ## Codes of enumerations (section 10.9) -/

/-- Map mode. -/
def MapMode.code : MapMode → Byte
  | .blank => 0
  | .commissioning => 1
  | .running => 2
  | .held => 3

/-- Cell state. -/
def CellRecord.stateCode (c : CellRecord) : Byte :=
  match c.content with
  | .unused => 0
  | .empty => 1
  | .live _ _ => 2
  | .stale _ => 3

/-- Alert state. -/
def AlertState.code : AlertState → Byte
  | .normal => 0
  | .high => 1
  | .highHigh => 2

/-- Source. -/
def Source.code : Source → Byte
  | .thermocouple => 0
  | .scanner => 1

/-- Point state. -/
def PointState.code : PointState → Byte
  | .unbound => 0
  | .active => 1
  | .suspect => 2
  | .failed => 3
  | .excluded => 4

/-- Port state. -/
def PortState.code : PortState → Byte
  | .down => 0
  | .live => 1
  | .quiet => 2

/-- Unit kind, 0xFF when absent. -/
def unitKindCode : Option UnitKind → Byte
  | some .points => 0
  | some .scanner => 1
  | none => 0xFF

/-- Install outcome. -/
def InstallOutcome.code : InstallOutcome → Byte
  | .installed => 0
  | .dropped => 1
  | .empty => 2

/-- Line edge setting (Table 10-3). -/
def LineEdge.code : LineEdge → Nat
  | .none => 0
  | .rise => 1
  | .fall => 2
  | .both => 3

/-- Line action setting (Table 10-3). -/
def LineAction.code : LineAction → Nat
  | .mark => 0
  | .hold => 1
  | .rebase => 2

/-- Epoch mode setting (Table 10-3). -/
def EpochMode.code : EpochMode → Nat
  | .periodic => 0
  | .single => 1

/-! ## Slots and records (Table 10-7) -/

/-- A presence byte followed by a field's value bytes, which are 0 when the field is absent (R161). -/
def optionalField (width : Nat) (bytes : Option (List Byte)) : List Byte :=
  match bytes with
  | some b => 1 :: b
  | none => 0 :: List.replicate width 0

/-- A CELLS slot. -/
def CellEntry.bytes (e : CellEntry) : List Byte :=
  [byteOfBool e.inUse, match e.limitClass with
    | some c => byteOf c.val
    | none => 0xFF] ++ bytesInt16 e.irOffset

/-- The spread entries of a POINTS slot, those beyond the count sent as 0. -/
def spreadBytes : Nat → List SpreadEntry → List Byte
  | 0, _ => []
  | k + 1, [] => [0, 0, 0] ++ spreadBytes k []
  | k + 1, e :: es => bytes16 e.cell.val ++ [byteOf e.share] ++ spreadBytes k es

/-- A POINTS slot. -/
def PointEntry.bytes (e : PointEntry) : List Byte :=
  [byteOfBool e.inUse, byteOf e.port.val, byteOf e.channel.val] ++ bytes16 e.home.val ++ bytes16 e.stepLimit ++
    [byteOf e.spread.length] ++ spreadBytes 4 e.spread

/-- A VIEWS slot. -/
def Binding.bytes (b : Binding) : List Byte :=
  [byteOfBool b.inUse, byteOf b.pixel.val] ++ bytes16 b.cell.val ++ [byteOf b.share]

/-- A LIMITS slot. -/
def LimitClass.bytes (l : LimitClass) : List Byte :=
  bytesInt16 l.high ++ bytesInt16 l.highHigh ++ bytesInt16 l.deadband ++ bytesInt16 l.riseLimit

/-- The body of a LIVE or STALE cell; none in UNUSED and EMPTY. -/
def CellRecord.body (c : CellRecord) : Option CellBody :=
  match c.content with
  | .live b _ => some b
  | .stale b => some b
  | .unused => none
  | .empty => none

/-- A cell record: absent fields are sent as 0 (R161, Table 10-7). -/
def CellRecord.bytes (c : CellRecord) : List Byte :=
  let baseline := c.body.bind CellBody.baseline
  let tLast := c.anchor.bind Anchor.tLast
  [c.stateCode, c.alert.code, (c.body.map fun b => b.source.code).getD 0,
    byteOf (natOfBits [baseline.isSome, c.rise.isSome, c.anchor.isSome, tLast.isSome])] ++
  bytesInt16 (c.estimate.getD 0) ++ [byteOf ((c.body.map CellBody.age).getD 0)] ++ bytesInt16 (baseline.getD 0) ++
  bytesInt16 (c.rise.getD 0) ++ bytesInt16 (tLast.getD 0) ++ [byteOf ((c.anchor.map Anchor.tAge).getD 0)]

/-- The flags byte of a point: bits 0 to 5 (Table 10-6). -/
def PointFlags.byte (f : PointFlags) : Byte :=
  byteOf (natOfBits [f.openCircuit, f.range, f.step, f.disagree, f.failed, f.recovered])

/-- The flags byte of a port: bits 0 to 4 (Table 10-6). -/
def PortFlags.byte (f : PortFlags) : Byte := byteOf (natOfBits [f.hello, f.crc, f.refused, f.resumed, f.quiet])

/-- The flags byte of a pass: bits 0 to 3 (Table 10-6). -/
def PassFlags.byte (f : PassFlags) : Byte := byteOf (natOfBits [f.hhEntered, f.highEntered, f.cleared, f.rise])

/-! ## Reply contents (Table 10-6), from the result code on -/

/-- IDENTIFY (R164). -/
def identifyContent : List Byte :=
  bytes16 0x2480 ++ [3] ++ bytes16 Config.nCells ++
    [byteOf Config.nPoints, byteOf Config.nViews, byteOf Config.nBindings, byteOf Config.nPorts, byteOf Config.nClasses,
      byteOf Config.hotSpots, byteOf Config.queueFrames, byteOf Config.pendingPages, byteOf Config.nLines]

/-- READ-MAP-STATUS (R20). -/
def mapStatusContent (s : State) : List Byte :=
  [s.map.mode.code, byteOf (natOfBits (s.map.hostHold :: s.map.lineHold.toList))] ++ bytes16 s.map.epoch.toNat ++
    [byteOf s.queue.length, byteOfBool s.map.pendingClose] ++ bytes16 s.map.unmappedDiscards ++
    bytes16 s.map.heldDiscards

/-- One part of a READ-CELLS reply: part byte, first cell, number of cells, records (R161). -/
def cellsPart (part : Byte) (first : Nat) (records : List CellRecord) : List Byte :=
  [ResultCode.ok.byte, part] ++ bytes16 first ++ [byteOf records.length] ++ records.flatMap CellRecord.bytes

/-- The parts of a READ-CELLS reply: up to 17 records a part, bit 7 of the part byte set on the last (R161). -/
def cellsParts (first : Nat) (records : List CellRecord) : List (List Byte) :=
  if records.length ≤ 17 then [cellsPart 0x80 first records]
  else [cellsPart 0 first (records.take 17), cellsPart 0x81 (first + 17) (records.drop 17)]

/-- One entry of a READ-HOTSPOTS reply. -/
def HotSpot.bytes (h : HotSpot) : List Byte :=
  bytes16 h.cell ++ bytesInt16 h.estimate ++ [h.alert.code, byteOf h.age] ++ optionalField 2 (h.rise.map bytesInt16)

/-- The 16 entries of a READ-HOTSPOTS reply, unused entries 0. -/
def hotBytes : Nat → List HotSpot → List Byte
  | 0, _ => []
  | k + 1, [] => List.replicate 9 0 ++ hotBytes k []
  | k + 1, h :: hs => h.bytes ++ hotBytes k hs

/-- READ-HOTSPOTS (R118). -/
def hotspotsContent (m : MapState) : List Byte :=
  [byteOf m.hotList.length] ++ optionalField 2 (m.buildingEpoch.map fun e => bytes16 e.toNat) ++
    [byteOfBool m.topChanged] ++ hotBytes 16 m.hotList

/-- A cell with a value, present or absent: presence byte, cell, value (Table 10-6). -/
def cellValue (x : Option (Nat × Int)) : List Byte := optionalField 4 (x.map fun cv => bytes16 cv.1 ++ bytesInt16 cv.2)

/-- READ-PASS (R115). -/
def passContent (pass : Nat) (p : PassSummary) (f : PassFlags) : List Byte :=
  [byteOf pass] ++ bytes16 p.inUse ++ bytes16 p.empty ++ bytes16 p.live ++ bytes16 p.stale ++ bytes16 p.high ++
    bytes16 p.highHigh ++ cellValue p.hottest ++ cellValue p.largestRise ++ [f.byte]

/-- READ-POINT (R57). -/
def pointContent (point : Nat) (e : PointEntry) (r : PointRecord) : List Byte :=
  [byteOf point] ++ e.bytes ++ [r.state.code, byteOf r.rangeCount, byteOf r.badCount, byteOf r.cleanCount,
    byteOf r.disagreeCount, byteOf r.rejected, byteOf r.discarded, r.flags.byte]

/-- READ-VIEW (R79). -/
def viewContent (view : Nat) (r : ViewRecord) : List Byte :=
  [byteOf view] ++ bytesInt16 r.bias ++ optionalField 2 (r.lastFrame.map fun e => bytes16 e.toNat) ++
    bytes16 r.framesFused ++ bytes16 r.pixelsSkipped ++ [byteOf r.anchorsUsed, byteOf r.disagreements]

/-- READ-PORT (R95). -/
def portContent (port : Nat) (r : PortRecord) : List Byte :=
  [byteOf port, r.state.code, unitKindCode r.unitKind, byteOfBool r.expectedToggle, byteOf r.silence,
    byteOf r.crcErrors, byteOf r.refused, byteOf r.duplicates] ++ bytes16 r.holds ++
    [byteOf r.unknownChannel, r.flags.byte]

/-- One line of a READ-LINES reply (R132). -/
def lineBytes (l : LineRecord) (edge : LineEdge) (action : LineAction) : List Byte :=
  [byteOfBool l.level, byteOf edge.code, byteOf action.code, byteOfBool l.holdFlag, byteOfBool l.edge]

/-- READ-LINES (R132). -/
def linesContent (s : State) : List Byte :=
  (List.finRange 4).flatMap fun n => lineBytes (s.lines.get n) (s.settings.lineEdge.get n) (s.settings.lineAction.get n)

/-- The target of a page. -/
def Page.target : Page → Target
  | .cells p _ => .cells p
  | .points p _ => .points p
  | .views p _ => .views p
  | .limits _ => .limits

/-- The number of filled slots of a page. -/
def Page.filled : Page → Nat
  | .cells _ t => t.count Option.isSome
  | .points _ t => t.count Option.isSome
  | .views _ t => t.count Option.isSome
  | .limits t => t.count Option.isSome

/-- Four places of three bytes each, unused places 0 (Table 10-6). -/
def fourPlaces : Nat → List (List Byte) → List Byte
  | 0, _ => []
  | k + 1, [] => [0, 0, 0] ++ fourPlaces k []
  | k + 1, x :: xs => x ++ fourPlaces k xs

/-- A table, a page and a third byte. -/
def placeBytes (t : Target) (third : Byte) : List Byte := [byteOf t.table, byteOf t.page, third]

/-- The last-install record of a READ-STAGE reply: presence, epoch, page count, pages (Table 10-6). -/
def lastInstallBytes : Option LastInstall → List Byte
  | none => [0, 0, 0, 0] ++ fourPlaces 4 []
  | some r => [1] ++ bytes16 r.epoch.toNat ++ [byteOf r.pages.length] ++
      fourPlaces 4 (r.pages.map fun p => placeBytes p.1 p.2.code)

/-- READ-STAGE (R146). -/
def stageContent (g : Stage) : List Byte :=
  [byteOfBool g.target.isSome] ++ placeBytes (g.target.getD (.cells 0)) (byteOf g.pointer) ++
  bytesBig 4 (natOfBits (g.slots.toList.map Option.isSome)) ++ [byteOfBool g.overrun, byteOf g.pendingPages.length] ++
  fourPlaces 4 (g.pendingPages.map fun p => placeBytes p.target (byteOf p.filled)) ++ lastInstallBytes g.lastInstall ++
  [byteOf (natOfBits [g.installed, g.dropped])]

/-- One part of a READ-PAGE reply (Table 10-6). -/
def pagePart (part : Byte) (t : Target) (first : Nat) (slots : List (List Byte)) : List Byte :=
  [ResultCode.ok.byte, part, byteOf t.table, byteOf t.page, byteOf first, byteOf slots.length] ++ slots.flatten

/-- The live slots of a page, in slot order (R147). -/
def liveSlots (s : State) : Target → List (List Byte)
  | .cells p => ((s.cellTable.toList.drop (32 * p.val)).take 32).map CellEntry.bytes
  | .points p => ((s.pointTable.toList.drop (32 * p.val)).take 32).map PointEntry.bytes
  | .views p =>
    (((s.viewTable.get ⟨p.val / 2, by omega⟩).toList.drop (32 * (p.val % 2))).take 32).map Binding.bytes
  | .limits => s.limits.toList.map LimitClass.bytes

/-- The parts of a READ-PAGE reply: POINTS in three parts of 12, 12 and 8 slots, the other tables in one (R161). -/
def pageParts (s : State) (t : Target) : List (List Byte) :=
  let slots := liveSlots s t
  match t with
  | .points _ => [pagePart 0 t 0 (slots.take 12), pagePart 1 t 12 ((slots.drop 12).take 12), pagePart 0x82 t 24 (slots.drop 24)]
  | .cells _ => [pagePart 0x80 t 0 slots]
  | .views _ => [pagePart 0x80 t 0 slots]
  | .limits => [pagePart 0x80 t 0 slots]

/-- READ-EVENTS (R154): active groups, and the bitmaps of points, ports, passes and lines. -/
def eventsContent (s : State) : List Byte :=
  [byteOf s.groups.toNat] ++ bytesBig 12 (natOfBits (s.events.copy.points.toList.map PointFlags.any)) ++
    [byteOf (natOfBits (s.ports.toList.map fun p => p.flags.any)),
      byteOf (natOfBits (s.events.copy.passes.toList.map PassFlags.any)),
      byteOf (natOfBits (s.lines.toList.map fun l => l.edge))]

end Sys2Proof.Machine
end

