-- ==== Sys2Proof/Machine/Fusion.lean ====
section
/-! DEFINITION. The fusion of one frame: the checks of a reading (chapter 3), the walks of SAMPLES and SCAN frames
(chapter 2), the view's end-of-frame work (chapter 4), and the command FRAME_FUSION. -/

namespace Sys2Proof.Machine

/-! ## The checks of a reading (R45 to R51) -/

/-- Point flags with one of them set. -/
def flagOpen : PointFlags := { PointFlags.clear with openCircuit := true }
/-- RANGE alone. -/
def flagRange : PointFlags := { PointFlags.clear with range := true }
/-- STEP alone. -/
def flagStep : PointFlags := { PointFlags.clear with step := true }
/-- DISAGREE alone. -/
def flagDisagree : PointFlags := { PointFlags.clear with disagree := true }
/-- FAILED alone. -/
def flagFailed : PointFlags := { PointFlags.clear with failed := true }
/-- RECOVERED alone. -/
def flagRecovered : PointFlags := { PointFlags.clear with recovered := true }

/-- A point record latches flags (R44). -/
def PointRecord.latch (r : PointRecord) (f : PointFlags) : PointRecord := { r with flags := r.flags.join f }

/-- The point goes to FAILED, and FAILED is latched; its counts stay (R42, R44). -/
def PointRecord.fail (r : PointRecord) : PointRecord := { r.latch flagFailed with state := .failed }

/-- The rejected-readings counter counts one (R43). -/
def PointRecord.reject (r : PointRecord) : PointRecord := { r with rejected := countUp 255 r.rejected }

/-- Check 3: a reading with status OPEN fails the point (R47). -/
def PointRecord.openReading (r : PointRecord) : PointRecord := (r.latch flagOpen).fail.reject

/-- Check 4: an out-of-range reading is rejected; the third in a row fails the point (R48). -/
def PointRecord.outOfRange (r : PointRecord) : PointRecord :=
  let r' := { (r.latch flagRange).reject with rangeCount := countUp 3 r.rangeCount, cleanCount := 0 }
  if 3 ≤ r.rangeCount + 1 then r'.fail else r'

/-- The record after a step hit (R49): SUSPECT, or FAILED when the bad count reaches 6. -/
def PointRecord.stepHit (r : PointRecord) : PointRecord :=
  let r' := { r.latch flagStep with state := .suspect, badCount := countUp 6 r.badCount, cleanCount := 0 }
  if 6 ≤ r.badCount + 1 then r'.fail.reject else r'

/-- The record after a clean reading (R50): the fourth of a SUSPECT point recovers it. -/
def PointRecord.cleanReading (r : PointRecord) : PointRecord :=
  match r.state with
  | .suspect =>
    if 4 ≤ r.cleanCount + 1 then { (r.latch flagRecovered).zeroCounts with state := .active }
    else { r with badCount := 0, cleanCount := r.cleanCount + 1 }
  | .active => { r with badCount := 0 }
  | .unbound => { r with badCount := 0 }
  | .failed => { r with badCount := 0 }
  | .excluded => { r with badCount := 0 }

/-- A reading is out of range (R48). -/
def Reading.outOfRange (x : Reading) : Bool :=
  decide (x.status = .unitRange) || decide (x.value < 0) || decide (12000 < x.value)

/-- A reading steps away from the home cell's estimate, if there is one (R49). -/
def stepsAway (stepLimit : Nat) (estimate : Option Int) (value : Int) : Bool :=
  match estimate with
  | some e => decide (stepLimit < (value - e).natAbs)
  | none => false

/-- The gain of an admitted reading: GAIN_TC for an ACTIVE point, a quarter of it truncated for a SUSPECT one (R29). -/
def admittedGain (gainTc : Nat) (state : PointState) : Nat :=
  match state with
  | .active => gainTc
  | .suspect => gainTc / 4
  | .unbound => 0
  | .failed => 0
  | .excluded => 0

/-- Checks 2 to 6 of a reading (R46 to R50): the point's record after them, and whether the reading is admitted. -/
def checkReading (stepLimit : Nat) (estimate : Option Int) (x : Reading) (r : PointRecord) : PointRecord × Bool :=
  if !r.state.serving then ({ r with discarded := countUp 255 r.discarded }, false)
  else if x.status = .openCircuit then (r.openReading, false)
  else if x.outOfRange then (r.outOfRange, false)
  else
    let r' := { r with rangeCount := 0 }
    if stepsAway stepLimit estimate x.value then
      (r'.stepHit, decide (r'.stepHit.state = .suspect))
    else (r'.cleanReading, true)

/-! ## SAMPLES (R29 to R31) -/

/-- One touch of one cell with the latched settings (R25). -/
def State.touchCell (s : State) (kind : Source) (sample : Int) (gain : Nat) (cell : CellIx) (share : Nat) : State :=
  { s with cells := s.cells.upd cell (CellRecord.touch s.latched.refreshMin kind sample share gain) }

/-- The touches of an admitted reading: the home cell with share 16, then the spread list in order; then the anchor
(R29, R51). -/
def State.applyReading (s : State) (e : PointEntry) (value : Int) (gain : Nat) : State :=
  let s1 := s.touchCell .thermocouple value gain e.home 16
  let s2 := e.spread.foldl (fun acc x => acc.touchCell .thermocouple value gain x.cell x.share) s1
  { s2 with cells := s2.cells.upd e.home (CellRecord.writeAnchor value) }

/-- One reading of a SAMPLES frame (R29): check 1 finds the point or counts an unknown channel (R45). -/
def State.fuseReading (port : PortIx) (s : State) (x : Reading) : State :=
  match findPoint s.pointTable port x.channel with
  | none => { s with ports := s.ports.upd port fun p => { p with unknownChannel := countUp 255 p.unknownChannel } }
  | some i =>
    let e := s.pointTable.get i
    let checked := checkReading e.stepLimit (s.cells.get e.home).estimate x (s.points.get i)
    let s' := { s with points := s.points.set i checked.1 }
    if checked.2 then s'.applyReading e x.value (admittedGain s.latched.gainTc checked.1.state) else s'

/-- The walk of a SAMPLES frame: its readings in list order (R29). -/
def State.walkSamples (s : State) (port : PortIx) (readings : List Reading) : State :=
  readings.foldl (State.fuseReading port) s

/-! ## SCAN (R32 to R34, chapter 4) -/

/-- The working state of a scan frame (R73): the cells so far, the bindings skipped, the residual sum, the included count,
the disagreement tally, and each test made, with the point tested and whether it disagreed. -/
structure ScanWork where
  cells : Table 2048 CellRecord
  skipped : Nat
  sum : Int
  included : Nat
  tally : Nat
  tests : List (PointIx × Bool)
  deriving DecidableEq, Repr

/-- The corrected value of a pixel for a cell: V + C + B in full, then clamped (R68). -/
def correctPixel (value offset bias : Int) : Int := clampMap (value + offset + bias)

/-- The residual of a tested binding: T_last − (V + C) (R71). -/
def bindingResidual (tLast value offset : Int) : Int := tLast - (value + offset)

/-- A residual is a disagreement: more than DISAGREE_LIMIT from the bias (R72). -/
def disagrees (limit : Nat) (d bias : Int) : Bool := decide (limit < (d - bias).natAbs)

/-- The T_last and the point a binding of this cell is tested with, if it is tested (R70). -/
def testOf (s : State) (cell : CellIx) : Option (PointIx × Int) :=
  match (s.cells.get cell).anchor, homePoint s.pointTable cell with
  | some a, some i =>
    match a.tLast with
    | some t => if (s.points.get i).state.serving && decide (a.tAge ≤ s.latched.anchorAge) then some (i, t) else none
    | none => none
  | _, _ => none

/-- The residual work of one binding that reaches case 3 (R70 to R73). -/
def ScanWork.test (s : State) (bias : Int) (b : Binding) (value : Int) (w : ScanWork) : ScanWork :=
  match testOf s b.cell with
  | none => w
  | some (i, t) =>
    let d := bindingResidual t value (s.cellTable.get b.cell).irOffset
    if disagrees s.latched.disagreeLimit d bias then { w with tally := w.tally + 1, tests := (i, true) :: w.tests }
    else if (s.points.get i).state = .active then
      { w with sum := w.sum + d, included := w.included + 1, tests := (i, false) :: w.tests }
    else { w with tests := (i, false) :: w.tests }

/-- One binding of the walk, by the first case of R32 that holds. `s` is the state at frame start. -/
def ScanWork.binding (s : State) (bias : Int) (pixels : List Pixel) (w : ScanWork) (b : Binding) : ScanWork :=
  if !b.inUse then w else
    match pixels[b.pixel.val]? with
    | none => { w with skipped := w.skipped + 1 }
    | some p =>
      if p.saturated || p.obscured then { w with skipped := w.skipped + 1 }
      else
        let sample := correctPixel p.value (s.cellTable.get b.cell).irOffset bias
        let touched := { w with
          cells := w.cells.upd b.cell
            (CellRecord.touch s.latched.refreshMin .scanner sample b.share s.latched.gainIr) }
        touched.test s bias b p.value

/-- The walk of a SCAN frame over the view's bindings, 0 to 63 (R32). -/
def State.walkScan (s : State) (view : ViewIx) (pixels : List Pixel) : ScanWork :=
  (s.viewTable.get view).toList.foldl (ScanWork.binding s (s.views.get view).bias pixels) ⟨s.cells, 0, 0, 0, 0, []⟩

/-- The bias after a frame (R74): moved toward the residual mean by BIAS_GAIN sixteenths, rounded, then clamped. -/
def biasAfter (bias sum : Int) (n gain : Nat) : Int :=
  if n = 0 then bias
  else clamp (-1000) 1000 (bias + roundDiv ((sum.tdiv (n : Int) - bias) * (gain : Int)) 16)

/-- A 16-bit saturating counter counts `n` (R69). -/
def countMany (n k : Nat) : Nat := min 65535 (n + k)

/-- The view record at the end of a fused frame (R74, R75). -/
def ViewRecord.afterFrame (gain : Nat) (epoch : BitVec 16) (w : ScanWork) (r : ViewRecord) : ViewRecord where
  bias := biasAfter r.bias w.sum w.included gain
  lastFrame := some epoch
  framesFused := countUp 65535 r.framesFused
  pixelsSkipped := countMany r.pixelsSkipped w.skipped
  anchorsUsed := w.included
  disagreements := w.tally

/-- A disagreement hit (R53). -/
def PointRecord.disagreeHit (r : PointRecord) : PointRecord :=
  let r' := { r with disagreeCount := countUp 3 r.disagreeCount, cleanCount := 0 }
  match r.state with
  | .active => if 3 ≤ r.disagreeCount + 1 then { r'.latch flagDisagree with state := .suspect } else r'
  | .suspect =>
    let r'' := if r.disagreeCount = 2 then r'.latch flagDisagree else r'
    let r3 := { r'' with badCount := countUp 6 r.badCount }
    if 6 ≤ r.badCount + 1 then r3.fail else r3
  | .unbound => r
  | .failed => r
  | .excluded => r

/-- A clean-frame outcome (R54). -/
def PointRecord.cleanFrame (r : PointRecord) : PointRecord :=
  if r.state.serving then { r with disagreeCount := 0 } else r

/-- The outcome of a frame for one point (R52, R76): a hit if any test disagreed, a clean frame if it was tested and none
did, nothing if it was not tested. -/
def scanOutcome (tests : List (PointIx × Bool)) (i : Nat) (r : PointRecord) : PointRecord :=
  if tests.any fun t => decide (t.1.val = i) && t.2 then r.disagreeHit
  else if tests.any fun t => decide (t.1.val = i) then r.cleanFrame
  else r

/-- A SCAN frame is fused: the walk, the bias and record update, then the outcomes (R34). -/
def State.fuseScan (s : State) (view : ViewIx) (pixels : List Pixel) : State :=
  let w := s.walkScan view pixels
  { s with
    cells := w.cells
    views := s.views.upd view (ViewRecord.afterFrame s.latched.biasGain s.map.epoch w)
    points := s.points.mapIx (scanOutcome w.tests) }

/-! ## The frame operation (R24) -/

/-- A frame is fused in COMMISSIONING and RUNNING, and discarded whole and counted in BLANK and HELD (R24). -/
def State.fuseFrame (s : State) (f : Frame) : State :=
  match s.map.mode with
  | .blank => { s with map := { s.map with unmappedDiscards := countUp 65535 s.map.unmappedDiscards } }
  | .held => { s with map := { s.map with heldDiscards := countUp 65535 s.map.heldDiscards } }
  | .commissioning =>
    match f with
    | .samples port readings => s.walkSamples port readings
    | .scan _ view pixels => s.fuseScan view pixels
  | .running =>
    match f with
    | .samples port readings => s.walkSamples port readings
    | .scan _ view pixels => s.fuseScan view pixels

/-- FRAME_FUSION: the head frame, which the free map takes, is fused or discarded as one operation (R17, R24). Where the
operation in flight is another, or there is none, the step does not occur. -/
def execFrameFusion (s : State) : Host.Outcome State Fault Refusal :=
  if s.resetLow then .next s else
    match s.arbitrate.map.inFlight with
    | some (.frame f) => .next (State.conclude s (s.arbitrate.fuseFrame f).completeOp)
    | _ => .next s

end Sys2Proof.Machine
end

