-- ==== Sys2Proof/Machine/Close.lean ====
section
/-! DEFINITION. The epoch close: its six stages (chapter 6), the installs at its completion (sections 1.4, 3.6, 4.7, 8.5),
and the command CLOSE. -/

namespace Sys2Proof.Machine

/-! ## Stage 1: ageing (R106, R107) -/

/-- An anchor ages by one (R107). -/
def Anchor.grow (a : Anchor) : Anchor := { a with tAge := countUp 255 a.tAge }

/-- A cell ages by one, and a LIVE cell that reaches STALE_AGE becomes STALE (R106). -/
def CellContent.grow (staleAge : Nat) : CellContent → CellContent
  | .unused => .unused
  | .empty => .empty
  | .live b r =>
    if staleAge ≤ countUp 255 b.age then .stale { b with age := countUp 255 b.age }
    else .live { b with age := countUp 255 b.age } r
  | .stale b => .stale { b with age := countUp 255 b.age }

/-- The ageing stage on one cell record (R106, R107). -/
def CellRecord.grow (staleAge : Nat) (c : CellRecord) : CellRecord := ⟨c.content.grow staleAge, c.anchor.map Anchor.grow⟩

/-! ## Stage 2: rise (R5, R108) -/

/-- The rise stage on one cell record (R5). -/
def CellRecord.measureRise (c : CellRecord) : CellRecord :=
  match c.content with
  | .live b _ =>
    let rise := b.baseline.map fun p => clamp (-2000) 2000 (b.estimate - p)
    { c with content := .live { b with baseline := some b.estimate } rise }
  | .stale b => { c with content := .stale { b with baseline := some b.estimate } }
  | .unused => c
  | .empty => c

/-! ## Stage 3: alert evaluation (R110 to R113) -/

/-- The alert state after the evaluation (Table 6-3). -/
def alertAfter (l : LimitClass) (alert : AlertState) (e : Int) : AlertState :=
  match alert with
  | .normal => if l.highHigh ≤ e then .highHigh else if l.high ≤ e then .high else .normal
  | .high => if l.highHigh ≤ e then .highHigh else if l.high - l.deadband ≤ e then .high else .normal
  | .highHigh =>
    if l.highHigh - l.deadband ≤ e then .highHigh else if l.high - l.deadband ≤ e then .high else .normal

/-- The pass flag a move between alert states latches (R113). -/
def moveFlags : AlertState → AlertState → PassFlags
  | .normal, .highHigh => { PassFlags.clear with hhEntered := true }
  | .high, .highHigh => { PassFlags.clear with hhEntered := true }
  | .normal, .high => { PassFlags.clear with highEntered := true }
  | .highHigh, .high => { PassFlags.clear with cleared := true }
  | .highHigh, .normal => { PassFlags.clear with cleared := true }
  | .high, .normal => { PassFlags.clear with cleared := true }
  | .normal, .normal => PassFlags.clear
  | .high, .high => PassFlags.clear
  | .highHigh, .highHigh => PassFlags.clear

/-- A rise hit: a rise that is present and above the class's rise limit (R112). -/
def riseHit (l : LimitClass) (rise : Option Int) : Bool :=
  match rise with
  | some r => decide (l.riseLimit < r)
  | none => false

/-- The alert evaluation on one cell: only a LIVE cell with a class moves (R110, R111). -/
def evaluateCell (limits : Table 8 LimitClass) (e : CellEntry) (c : CellRecord) : CellRecord :=
  match c.content, e.limitClass with
  | .live b r, some k =>
    { c with content := .live { b with alert := alertAfter (limits.get k) b.alert b.estimate } r }
  | _, _ => c

/-- What one cell latches for its pass in the evaluation (R110, R112, R113). -/
def cellFlags (limits : Table 8 LimitClass) (e : CellEntry) (c : CellRecord) : PassFlags :=
  match c.content, e.limitClass with
  | .live b r, some k =>
    { moveFlags b.alert (alertAfter (limits.get k) b.alert b.estimate) with rise := riseHit (limits.get k) r }
  | _, _ => PassFlags.clear

/-- The entries of one pass: 256 of them from index 256 × pass (R1). -/
def ofPass {α : Type} (pass : Nat) (t : Table 2048 α) : List α := (t.toList.drop (256 * pass)).take 256

/-- The pass flags after the evaluation of a close in RUNNING (R113). -/
def latchPasses (latches : Table 2048 PassFlags) (flags : Table 8 PassFlags) : Table 8 PassFlags :=
  flags.mapIx fun pass f => (ofPass pass latches).foldl PassFlags.join f

/-! ## Stage 4: pass summaries (R114) -/

/-- The better of two candidates: the greater value, ties to the one already held (the lower index). -/
def better (best : Option (Nat × Int)) (i : Nat) (value : Option Int) : Option (Nat × Int) :=
  match value, best with
  | none, _ => best
  | some x, none => some (i, x)
  | some x, some (j, y) => if y < x then some (i, x) else some (j, y)

/-- The cell with the greatest value among cells numbered from `i`, ties to the lowest index (R114). -/
def bestCell (value : CellRecord → Option Int) : Nat → List CellRecord → Option (Nat × Int) → Option (Nat × Int)
  | _, [], best => best
  | i, c :: cs, best => bestCell value (i + 1) cs (better best i (value c))

/-- The estimate of a LIVE cell. -/
def CellRecord.liveEstimate (c : CellRecord) : Option Int :=
  match c.content with
  | .live b _ => some b.estimate
  | .stale _ => none
  | .unused => none
  | .empty => none

/-- The cell is EMPTY. -/
def CellRecord.isEmpty (c : CellRecord) : Bool := decide (c.content = .empty)

/-- The cell is LIVE. -/
def CellRecord.isLive (c : CellRecord) : Bool := c.liveEstimate.isSome

/-- The cell is STALE. -/
def CellRecord.isStale (c : CellRecord) : Bool := c.estimate.isSome && !c.isLive

/-- The summary of a pass, from its cells (R114). -/
def summarize (pass : Nat) (cells : List CellRecord) : PassSummary where
  inUse := cells.countP CellRecord.inUse
  empty := cells.countP CellRecord.isEmpty
  live := cells.countP CellRecord.isLive
  stale := cells.countP CellRecord.isStale
  high := cells.countP fun c => decide (c.alert = .high)
  highHigh := cells.countP fun c => decide (c.alert = .highHigh)
  hottest := bestCell CellRecord.liveEstimate (256 * pass) cells none
  largestRise := bestCell CellRecord.rise (256 * pass) cells none

/-- All eight summaries (R114). -/
def summarizeAll (cells : Table 2048 CellRecord) : Table 8 PassSummary :=
  (Table.replicate 8 ()).mapIx fun pass _ => summarize pass (ofPass pass cells)

/-! ## Stage 5: the hot-spot list (R116, R117) -/

/-- The candidate a cell makes for the list: LIVE with an estimate of at least HOT_FLOOR (R116). -/
def hotSpotOf (floor : Nat) (i : Nat) (c : CellRecord) : Option HotSpot :=
  match c.content with
  | .live b r => if (floor : Int) ≤ b.estimate then some ⟨i, b.estimate, b.alert, b.age, r⟩ else none
  | .stale _ => none
  | .unused => none
  | .empty => none

/-- A candidate takes its rank: behind every entry at least as hot, which has a lower index (R116). -/
def insertHot (h : HotSpot) : List HotSpot → List HotSpot
  | [] => [h]
  | x :: xs => if h.estimate ≤ x.estimate then x :: insertHot h xs else h :: x :: xs

/-- The list over cells numbered from `i`: of the candidates in descending estimate, ties by ascending index, the first
16 (R116). -/
def rankHot (floor : Nat) : Nat → List CellRecord → List HotSpot → List HotSpot
  | _, [], acc => acc
  | i, c :: cs, acc =>
    match hotSpotOf floor i c with
    | some h => rankHot floor (i + 1) cs ((insertHot h acc).take Config.hotSpots)
    | none => rankHot floor (i + 1) cs acc

/-- The list has changed at the top: another first cell, or one list empty and the other not (R117). -/
def topDiffers (old new : List HotSpot) : Bool := decide (old.head?.map HotSpot.cell ≠ new.head?.map HotSpot.cell)

/-- Stages 1 to 5 of a close (R105), which run in COMMISSIONING and RUNNING; flags latch only when `latches` holds. -/
def State.evaluate (s : State) (latches : Bool) (staleAge hotFloor : Nat) : State :=
  let measured := (s.cells.map (CellRecord.grow staleAge)).map CellRecord.measureRise
  let cells := Table.zipWith (evaluateCell s.limits) s.cellTable measured
  let hot := rankHot hotFloor 0 cells.toList []
  { s with
    cells := cells
    map := { s.map with
      passFlags := if latches then latchPasses (Table.zipWith (cellFlags s.limits) s.cellTable measured) s.map.passFlags
        else s.map.passFlags
      summaries := summarizeAll cells
      hotList := hot
      buildingEpoch := some s.map.epoch
      topChanged := s.map.topChanged || (latches && topDiffers s.map.hotList hot) } }

/-! ## Stage 6: completion — the installs (R143, R144) -/

/-- A point record is changed by a cell install only while its entry is in use. -/
def State.updHomePoint (s : State) (cell : CellIx) (f : PointRecord → PointRecord) : State :=
  match homePoint s.pointTable cell with
  | some i => { s with points := s.points.upd i f }
  | none => s

/-- The home cell of a point leaves use: UNBOUND, counts 0, counters and flags kept (R59). -/
def PointRecord.unbind (r : PointRecord) : PointRecord := { r.zeroCounts with state := .unbound }

/-- The home cell of a point enters use: an UNBOUND point becomes ACTIVE with counts 0 (R60). -/
def PointRecord.bind (r : PointRecord) : PointRecord :=
  if r.state = .unbound then { r.zeroCounts with state := .active } else r

/-- A filled CELLS slot installs (R9, R10, R11, R59, R60). -/
def State.installCell (s : State) (cell : CellIx) (e : CellEntry) : State :=
  let old := s.cellTable.get cell
  let s' := { s with cellTable := s.cellTable.set cell e }
  match old.inUse, e.inUse with
  | true, false => { s'.updHomePoint cell PointRecord.unbind with cells := s.cells.set cell ⟨.unused, none⟩ }
  | false, true =>
    { s'.updHomePoint cell PointRecord.bind with
      cells := s.cells.set cell ⟨.empty, (homePoint s.pointTable cell).map fun _ => Anchor.fresh⟩ }
  | true, true =>
    if e.limitClass = old.limitClass then s' else { s' with cells := s.cells.upd cell CellRecord.alertNormal }
  | false, false => s'

/-- Cell of slot `i` of page `p` (R1). -/
def cellOfSlot (p : Fin 64) (i : Fin 32) : CellIx := ⟨32 * p.val + i.val, by unfold Config.nCells; omega⟩

/-- Point of slot `i` of page `p` (spec 3.1). -/
def pointOfSlot (p : Fin 3) (i : Fin 32) : PointIx := ⟨32 * p.val + i.val, by unfold Config.nPoints; omega⟩

/-- View of page `p` (spec 4.1). -/
def viewOfPage (p : Fin 32) : ViewIx := ⟨p.val / 2, by unfold Config.nViews; omega⟩

/-- Binding of slot `i` of page `p` (spec 4.1). -/
def bindingOfSlot (p : Fin 32) (i : Fin 32) : Fin 64 := ⟨32 * (p.val % 2) + i.val, by omega⟩

/-- The point table as it would stand after a POINTS page (R144). -/
def pointTableAfter (t : Table 96 PointEntry) (p : Fin 3) (slots : Table 32 (Option PointEntry)) : Table 96 PointEntry :=
  slots.foldFilled (fun acc i e => acc.set (pointOfSlot p i) e) t

/-- Two entries conflict: both in use, and they share port and channel, or home cell (R141, R144). -/
def PointEntry.conflicts (a b : PointEntry) : Bool :=
  a.inUse && b.inUse && (decide (a.port = b.port) && decide (a.channel = b.channel) || decide (a.home = b.home))

/-- No entry of the list conflicts with a later one. -/
def noConflict : List PointEntry → Bool
  | [] => true
  | e :: es => es.all (fun x => !e.conflicts x) && noConflict es

/-- The law of the live point table: no two in-use entries share port and channel, or home cell (R38). -/
def pointLaw (t : Table 96 PointEntry) : Bool := noConflict t.toList

/-- The old home cell of a slot about to be rewritten loses its anchor (R58). -/
def State.dropAnchor (s : State) (i : PointIx) : State :=
  if (s.pointTable.get i).inUse then
    { s with cells := s.cells.upd (s.pointTable.get i).home fun c => { c with anchor := none } }
  else s

/-- The home cell of a rewritten in-use point, if in use, gains a fresh anchor (R7, R58). -/
def State.giveAnchor (s : State) (e : PointEntry) : State :=
  if e.inUse && (s.cellTable.get e.home).inUse then
    { s with cells := s.cells.upd e.home fun c => { c with anchor := some Anchor.fresh } }
  else s

/-- The entry and the record of a filled POINTS slot are rewritten (R58). -/
def State.installPoint (s : State) (i : PointIx) (e : PointEntry) : State :=
  { s with
    pointTable := s.pointTable.set i e
    points := s.points.set i (PointRecord.rebuilt (rebuiltState s.cellTable e)) }

/-- A POINTS page installs: the old anchors of its filled slots go, the entries and records are rewritten, the new anchors
come (R58). -/
def State.installPoints (s : State) (p : Fin 3) (slots : Table 32 (Option PointEntry)) : State :=
  let s1 := slots.foldFilled (fun acc i _ => acc.dropAnchor (pointOfSlot p i)) s
  let s2 := slots.foldFilled (fun acc i e => acc.installPoint (pointOfSlot p i) e) s1
  slots.foldFilled (fun acc _ e => acc.giveAnchor e) s2

/-- A VIEWS page with a filled slot installs its bindings and sets its view's bias to 0 (R80). -/
def State.installViews (s : State) (p : Fin 32) (slots : Table 32 (Option Binding)) : State :=
  { s with
    viewTable := s.viewTable.upd (viewOfPage p) fun v =>
      slots.foldFilled (fun acc i b => acc.set (bindingOfSlot p i) b) v
    views := s.views.upd (viewOfPage p) fun r => { r with bias := 0 } }

/-- One pending page is taken: EMPTY, DROPPED or INSTALLED (R143). -/
def State.installPage (s : State) (page : Page) : State × InstallOutcome :=
  if page.filled = 0 then (s, .empty) else
    match page with
    | .cells p slots => (slots.foldFilled (fun acc i e => acc.installCell (cellOfSlot p i) e) s, .installed)
    | .points p slots =>
      if pointLaw (pointTableAfter s.pointTable p slots) then (s.installPoints p slots, .installed) else (s, .dropped)
    | .views p slots => (s.installViews p slots, .installed)
    | .limits slots => ({ s with limits := slots.foldFilled (fun acc i l => acc.set i l) s.limits }, .installed)

/-- The pending pages are taken in list order; the outcomes so far are carried along (R143). -/
def installAll : List Page → State → State × List (Target × InstallOutcome)
  | [], s => (s, [])
  | page :: pages, s =>
    let one := s.installPage page
    let rest := installAll pages one.1
    (rest.1, (page.target, one.2) :: rest.2)

/-- The pending list is installed and emptied, the last-install record rewritten and INSTALLED and DROPPED latched; an
empty list changes nothing (R143, R145). -/
def State.installPending (s : State) : State :=
  if s.stage.pendingPages.isEmpty then s else
    let done := installAll s.stage.pendingPages s
    { done.1 with stage := { done.1.stage with
        pendingPages := []
        lastInstall := some ⟨s.map.epoch, done.2⟩
        installed := done.1.stage.installed || done.2.any fun o => decide (o.2 = .installed)
        dropped := done.1.stage.dropped || done.2.any fun o => decide (o.2 = .dropped) } }

/-- The hot-spot list and every summary emptied (R12, R13, R18). -/
def MapState.emptied (m : MapState) : MapState :=
  { m with hotList := [], buildingEpoch := none, summaries := Table.replicate 8 PassSummary.initial }

/-- Whether some cell is in use (R12). -/
def State.someInUse (s : State) : Bool := s.cellTable.any CellEntry.inUse

/-- The map settles its mode after the installs (R12). -/
def State.settleMode (s : State) : State :=
  if s.someInUse then
    if s.map.mode = .blank then { s with map := { s.map with mode := .commissioning } } else s
  else { s with map := { s.map.emptied with mode := .blank } }

/-- A port counts silence at close completion (R92). -/
def PortRecord.countSilence (limit : Nat) (p : PortRecord) : PortRecord :=
  match p.state with
  | .live =>
    if limit ≤ p.silence + 1 then
      { p with silence := p.silence + 1, state := .quiet, flags := { p.flags with quiet := true } }
    else { p with silence := p.silence + 1 }
  | .down => p
  | .quiet => p

/-- Completion up to the installs: the epoch number goes up by one, wrapping, the pending pages install and the mode
settles (R119). -/
def State.completeClose (s : State) : State :=
  { s with map := { s.map with epoch := s.map.epoch + 1 } }.installPending.settleMode

/-- The ports count silence; a QUIET latched here is a port flag, which the Event Unit takes at once (R92, R149). -/
def State.silencePorts (s : State) : State :=
  { s with ports := s.ports.map (PortRecord.countSilence s.settings.silenceLimit) }

/-- Stages 1 to 5 by the mode: they run in COMMISSIONING and RUNNING, not in HELD and BLANK (R105, R120). -/
def State.closeStages (s : State) (staleAge hotFloor : Nat) : State :=
  match s.map.mode with
  | .commissioning => s.evaluate false staleAge hotFloor
  | .running => s.evaluate true staleAge hotFloor
  | .held => s
  | .blank => s

/-- A whole close. The QUIET flags are one event, taken when the ports latch them; all else is taken at the completion of
the operation (R149). -/
def State.runClose (s : State) (staleAge hotFloor : Nat) : State :=
  let done := (s.closeStages staleAge hotFloor).completeClose
  let silent := (done.takeEvent done.silencePorts).transmit
  State.conclude silent silent.completeOp

/-- CLOSE: the pending close, which the free map takes, runs to its completion (R105). Where the operation in flight is
another, or there is none, the step does not occur. -/
def execClose (s : State) : Host.Outcome State Fault Refusal :=
  if s.resetLow then .next s else
    match s.arbitrate.map.inFlight with
    | some (.close staleAge hotFloor) => .next (s.arbitrate.runClose staleAge hotFloor)
    | _ => .next s

end Sys2Proof.Machine
end

