-- ==== Sys2Proof/Machine/HostLink.lean ====
section
/-! DEFINITION. The host link: its receiver, its request buffer, its transmitter, and the two ways in which a request is
served (sections 10.1 to 10.3), with the link's own commands. -/

namespace Sys2Proof.Machine

/-! ## Serving -/

/-- The reply of the request in service is ready (R158, R160). -/
def State.reply (s : State) (r : Request) (parts : List (List Byte)) : State :=
  { s with host := { s.host with ready := s.host.ready ++ [⟨replyKind r.kind, r.tag, parts, true⟩], service := .replied } }

/-- The request the Host Link Port takes next: the oldest, while none is in service (R158). -/
def State.nextRequest (s : State) : Option Request :=
  match s.host.service with
  | .idle => s.host.buffer.head?
  | .waiting => none
  | .replied => none

/-- A request of this kind served by the Host Link Port itself: its body length is checked, then it is served by its own
rule (R158, R160). Where the next request is of another kind, or one is in service, the step does not occur. -/
def State.serveDirect (s : State) (kind : Byte) (serve : State → Request → State × List (List Byte)) : State :=
  if s.resetLow then s else
    match s.nextRequest with
    | some r =>
      if r.kind = kind then
        if goodLength kind r.body.length then State.conclude s ((serve s r).1.reply r (serve s r).2)
        else State.conclude s (s.reply r (plain .badLength))
      else s
    | none => s

/-- A map-side request of this kind: performed when it is the operation in flight, its reply built at the completion
(section 1.6, R149, R158); a wrong body length is answered without the map (R160). Otherwise the step does not occur. -/
def State.serveMapSide (s : State) (kind : Byte) (perform : State → Request → State × List (List Byte)) : State :=
  if s.resetLow then s else
    match s.nextRequest, s.arbitrate.map.inFlight with
    | some r, _ =>
      if r.kind = kind ∧ goodLength kind r.body.length = false then State.conclude s (s.reply r (plain .badLength)) else s
    | none, some (.host r) =>
      if r.kind = kind then
        State.conclude s ((perform s.arbitrate r).1.completeOp.reply r (perform s.arbitrate r).2)
      else s
    | none, _ => s

/-- HOST_ITEM_POSTED: the oldest request, map-side and of the right length, is taken and posted (R158, R16). -/
def execHostItemPosted (s : State) : Host.Outcome State Fault Refusal :=
  if s.resetLow then .next s else
    match s.nextRequest with
    | some r =>
      if mapSideKind r.kind && goodLength r.kind r.body.length then
        .next (State.conclude s ({ s with host := { s.host with service := .waiting } }.post (.host r)))
      else .next s
    | none => .next s

/-- UNKNOWN_REQUEST: the oldest request, of a kind not in Table 10-5, is answered with kind 0xFF and has no effect (R160). -/
def execUnknownRequest (s : State) : Host.Outcome State Fault Refusal :=
  if s.resetLow then .next s else
    match s.nextRequest with
    | some r => if knownKind r.kind then .next s else .next (State.conclude s (s.reply r (plain .unknownRequest)))
    | none => .next s

/-! ## Receiving (R157, R158) -/

/-- The receiver's frame in assembly. -/
def State.hostAssemble (s : State) (assembly : List Byte) : State := { s with host := { s.host with assembly := assembly } }

/-- The bad-CRC counter counts one (R157). -/
def State.countBadCrc (s : State) : State := { s with host := { s.host with badCrc := countUp 255 s.host.badCrc } }

/-- Whether the frame being sent is a BUSY reply. -/
def Outgoing.isBusy (o : Outgoing) : Bool := !o.inService && decide (o.kind ≠ noticeKind)

/-- Whether the ready-reply list has room for a BUSY reply: it holds at most 4 (R159). Whether one that is already being
sent still counts among them is left open (log entry 6). -/
def HostLink.busyRoom (h : HostLink) : Bool :=
  let waiting := h.ready.countP fun r => !r.inService
  if waiting + 1 < Config.busyReplies then true
  else if waiting < Config.busyReplies then !((h.sending.map Outgoing.isBusy).getD false && Config.sendingBusyCounts)
  else false

/-- A received request joins the buffer, or is answered BUSY, or is discarded when the list already holds 4 BUSY replies
(R158, R159). -/
def State.receiveRequest (s : State) (r : Request) : State :=
  if s.host.buffer.length < Config.bufferRequests then
    { s with host := { s.host with buffer := s.host.buffer ++ [r] } }
  else if s.host.busyRoom then
    { s with host := { s.host with ready := s.host.ready ++ [⟨replyKind r.kind, r.tag, plain .busy, false⟩] } }
  else s

/-- Bytes arrive on HRXD: a frame still in assembly is kept; the event the bytes end with has its effect; bytes that spell
another event, or more than one, are another command's (log entry 4). -/
def State.hostStep (s : State) (bytes : List Byte) (effect : RxEvent → Option (State → State)) : State :=
  if s.resetLow then s else
    match receive s.host.assembly bytes with
    | (.partialFrame a, _) => s.hostAssemble a
    | (event, []) =>
      match effect event with
      | some f => State.conclude s (f (s.hostAssemble []))
      | none => s
    | (_, _ :: _) => s

/-- The effect of a complete host frame (R157, R158). -/
def hostFrameEffect : RxEvent → Option (State → State)
  | .good kind tag body => some fun s => s.receiveRequest ⟨kind, tag, body⟩
  | .badCrc => some State.countBadCrc
  | .badLength => none
  | .partialFrame _ => none

/-- HOST_FRAME_RECEIVED (R157, R158). -/
def execHostFrameReceived (bytes : List Byte) (s : State) : Host.Outcome State Fault Refusal :=
  .next (s.hostStep bytes hostFrameEffect)

/-- The effect of a host length byte outside 2..250 (R157). -/
def hostLengthEffect : RxEvent → Option (State → State)
  | .badLength => some State.countBadCrc
  | .good _ _ _ => none
  | .badCrc => none
  | .partialFrame _ => none

/-- HOST_LENGTH_OUT_OF_RANGE (R157). -/
def execHostLengthOutOfRange (bytes : List Byte) (s : State) : Host.Outcome State Fault Refusal :=
  .next (s.hostStep bytes hostLengthEffect)

/-- HOST_GAP_TIMEOUT: a started frame is abandoned and counts one bad CRC; while the receiver hunts, a gap is nothing
(R157). -/
def execHostGapTimeout (bytes : List Byte) (s : State) : Host.Outcome State Fault Refusal :=
  if s.resetLow then .next s else
    match receive s.host.assembly bytes with
    | (.partialFrame [], _) => .next (s.hostAssemble [])
    | (.partialFrame (_ :: _), _) => .next (State.conclude s (s.hostAssemble []).countBadCrc)
    | _ => .next s

/-! ## Sending (R158, R159) -/

/-- HOST_FRAME_SENT: the next part follows; after the last frame of the reply in service, its request leaves the buffer and
the next is taken; the transmitter chooses what to send next (R153, R158, R159). -/
def execHostFrameSent (s : State) : Host.Outcome State Fault Refusal :=
  if s.resetLow then .next s else
    match s.host.sending with
    | none => .next s
    | some o =>
      match o.rest with
      | p :: ps => .next { s with host := { s.host with sending := some { o with body := p, rest := ps } } }
      | [] =>
        if o.inService then
          .next (State.conclude s { s with host := { s.host with
            sending := none, buffer := s.host.buffer.tail, service := .idle } })
        else .next (State.conclude s { s with host := { s.host with sending := none } })

/-- The bytes HTXD is sending, if any (Table 10-1). -/
def State.htxd (s : State) : Option (List Byte) := s.host.sending.map fun o => frameBytes o.kind o.tag o.body

/-! ## IDENTIFY, READ-LINK-STATUS -/

/-- IDENTIFY (R164). -/
def serveIdentify (s : State) (_ : Request) : State × List (List Byte) := (s, answer .ok identifyContent)

/-- The command IDENTIFY. -/
def execIdentify (s : State) : Host.Outcome State Fault Refusal := .next (s.serveDirect 0x01 serveIdentify)

/-- READ-LINK-STATUS: the bad-CRC counter is returned and set to 0 (R165). -/
def serveReadLinkStatus (s : State) (_ : Request) : State × List (List Byte) :=
  ({ s with host := { s.host with badCrc := 0 } }, answer .ok [byteOf s.host.badCrc])

/-- The command READ_LINK_STATUS. -/
def execReadLinkStatus (s : State) : Host.Outcome State Fault Refusal := .next (s.serveDirect 0x05 serveReadLinkStatus)

/-! ## SET, GET (R162, R163) -/

/-- The line whose edge setting has this id (Table 10-3). -/
def lineOfEdgeId (id : Nat) : Option LineIx := if h : 0x40 ≤ id ∧ id ≤ 0x43 then some ⟨id - 0x40, show id - 0x40 < 4 by omega⟩ else none

/-- The line whose action setting has this id (Table 10-3). -/
def lineOfActionId (id : Nat) : Option LineIx := if h : 0x48 ≤ id ∧ id ≤ 0x4B then some ⟨id - 0x48, show id - 0x48 < 4 by omega⟩ else none

/-- The stored settings, the value as stored and whether the SET is answered CLAMPED; none for BAD-ARGUMENT. -/
abbrev Stored := Option (Settings × Nat × Bool)

/-- A clamp setting takes a value (R162). -/
def storeClamped (lo hi v : Nat) (put : Nat → Settings) : Stored :=
  if v < lo then some (put lo, lo, true) else if hi < v then some (put hi, hi, true) else some (put v, v, false)

/-- A line edge takes a value; BOTH with the action HOLD is stored as RISE (R130). -/
def storeEdge (t : Settings) (n : LineIx) (v : Nat) : Stored :=
  match v with
  | 0 => some ({ t with lineEdge := t.lineEdge.set n .none }, v, false)
  | 1 => some ({ t with lineEdge := t.lineEdge.set n .rise }, v, false)
  | 2 => some ({ t with lineEdge := t.lineEdge.set n .fall }, v, false)
  | 3 =>
    if t.lineAction.get n = .hold then some ({ t with lineEdge := t.lineEdge.set n .rise }, 1, true)
    else some ({ t with lineEdge := t.lineEdge.set n .both }, v, false)
  | _ => none

/-- A line action takes a value; HOLD with the edge BOTH rewrites the edge to RISE (R130). -/
def storeAction (t : Settings) (n : LineIx) (v : Nat) : Stored :=
  match v with
  | 0 => some ({ t with lineAction := t.lineAction.set n .mark }, v, false)
  | 1 =>
    if t.lineEdge.get n = .both then
      some ({ t with lineAction := t.lineAction.set n .hold, lineEdge := t.lineEdge.set n .rise }, v, true)
    else some ({ t with lineAction := t.lineAction.set n .hold }, v, false)
  | 2 => some ({ t with lineAction := t.lineAction.set n .rebase }, v, false)
  | _ => none

/-- A setting id takes a value (Table 10-3, R130, R150, R162). -/
def storeSetting (t : Settings) (id v : Nat) : Stored :=
  match id with
  | 0x01 => storeClamped 100 60000 v fun x => { t with epochPeriod := x }
  | 0x02 =>
    match v with
    | 0 => some ({ t with epochMode := .periodic }, v, false)
    | 1 => some ({ t with epochMode := .single }, v, false)
    | _ => none
  | 0x03 =>
    match v with
    | 0 => some ({ t with epochRun := false }, v, false)
    | 1 => some ({ t with epochRun := true }, v, false)
    | _ => none
  | 0x10 => storeClamped 0 16 v fun x => { t with gainTc := x }
  | 0x11 => storeClamped 0 16 v fun x => { t with gainIr := x }
  | 0x12 => storeClamped 1 256 v fun x => { t with refreshMin := x }
  | 0x13 => storeClamped 1 255 v fun x => { t with staleAge := x }
  | 0x14 => storeClamped 0 12000 v fun x => { t with hotFloor := x }
  | 0x20 => storeClamped 100 3000 v fun x => { t with disagreeLimit := x }
  | 0x21 => storeClamped 0 15 v fun x => { t with anchorAge := x }
  | 0x22 => storeClamped 0 16 v fun x => { t with biasGain := x }
  | 0x30 => storeClamped 1 15 v fun x => { t with silenceLimit := x }
  | 0x50 => if v < 128 then some ({ t with eventEnable := BitVec.ofNat 7 v }, v, false) else none
  | 0x51 => if v < 128 then some ({ t with eventUrgent := BitVec.ofNat 7 v }, v, false) else none
  | _ =>
    match lineOfEdgeId id, lineOfActionId id with
    | some n, _ => storeEdge t n v
    | none, some n => storeAction t n v
    | none, none => none

/-- The stored value of a setting id (R163); none for an unknown id. -/
def settingValue (t : Settings) (id : Nat) : Option Nat :=
  match id with
  | 0x01 => some t.epochPeriod
  | 0x02 => some t.epochMode.code
  | 0x03 => some (if t.epochRun then 1 else 0)
  | 0x10 => some t.gainTc
  | 0x11 => some t.gainIr
  | 0x12 => some t.refreshMin
  | 0x13 => some t.staleAge
  | 0x14 => some t.hotFloor
  | 0x20 => some t.disagreeLimit
  | 0x21 => some t.anchorAge
  | 0x22 => some t.biasGain
  | 0x30 => some t.silenceLimit
  | 0x50 => some t.eventEnable.toNat
  | 0x51 => some t.eventUrgent.toNat
  | _ =>
    match lineOfEdgeId id, lineOfActionId id with
    | some n, _ => some (t.lineEdge.get n).code
    | none, some n => some (t.lineAction.get n).code
    | none, none => none

/-- What a taken SET makes its owner do: the timer restarts its count (R103), a line re-derives its hold flag (R130). -/
def State.afterSet (s : State) (id : Nat) : State :=
  match id with
  | 0x01 => s.restartCount
  | 0x02 => s.restartCount
  | 0x03 => s.restartCount
  | _ =>
    match lineOfEdgeId id, lineOfActionId id with
    | some n, _ => s.followHold n
    | none, some n => s.followHold n
    | none, none => s

/-- SET (R162). -/
def serveSet (s : State) (r : Request) : State × List (List Byte) :=
  match r.body with
  | [id, hi, lo] =>
    match storeSetting s.settings id.toNat (nat16 hi lo) with
    | some (t, stored, clamped) =>
      ({ s with settings := t }.afterSet id.toNat,
        answer (if clamped then .clamped else .ok) ([id] ++ bytes16 stored))
    | none => (s, plain .badArgument)
  | _ => (s, plain .badLength)

/-- The command SET. -/
def execSet (s : State) : Host.Outcome State Fault Refusal := .next (s.serveDirect 0x02 serveSet)

/-- GET (R163). -/
def serveGet (s : State) (r : Request) : State × List (List Byte) :=
  match r.body with
  | [id] =>
    match settingValue s.settings id.toNat with
    | some v => (s, answer .ok ([id] ++ bytes16 v))
    | none => (s, plain .badArgument)
  | _ => (s, plain .badLength)

/-- The command GET. -/
def execGet (s : State) : Host.Outcome State Fault Refusal := .next (s.serveDirect 0x03 serveGet)

/-! ## CLOSE-EPOCH, READ-EVENTS -/

/-- CLOSE-EPOCH: a close request is posted; a running periodic count restarts (R104). -/
def serveCloseEpoch (s : State) (_ : Request) : State × List (List Byte) :=
  (if s.settings.epochRun && decide (s.settings.epochMode = .periodic) then s.postClose.restartCount else s.postClose,
    plain .ok)

/-- The command CLOSE_EPOCH. -/
def execCloseEpoch (s : State) : Host.Outcome State Fault Refusal := .next (s.serveDirect 0x15 serveCloseEpoch)

/-- READ-EVENTS: clears nothing (R154). -/
def serveReadEvents (s : State) (_ : Request) : State × List (List Byte) := (s, answer .ok (eventsContent s))

/-- The command READ_EVENTS. -/
def execReadEvents (s : State) : Host.Outcome State Fault Refusal := .next (s.serveDirect 0x60 serveReadEvents)

end Sys2Proof.Machine
end

