-- ==== Sys2Proof/Machine/MapRequests.lean ====
section
/-! DEFINITION. The map-side requests (R16): START, STOP, HOLD, RESUME, CLEAR-MAP and the reads of the map, the points and
the views. Each is performed as one map operation. -/

namespace Sys2Proof.Machine

/-! ## Modes and holds (chapter 7) -/

/-- START (R122): in COMMISSIONING every in-use cell's alert state becomes NORMAL, and the mode RUNNING or HELD. -/
def performStart (s : State) (_ : Request) : State × List (List Byte) :=
  match s.map.mode with
  | .commissioning =>
    ({ s with
        cells := s.cells.map CellRecord.alertNormal
        map := { s.map with mode := if s.map.anyHold then .held else .running } }, plain .ok)
  | .blank => (s, plain .wrongMode)
  | .running => (s, plain .wrongMode)
  | .held => (s, plain .wrongMode)

/-- The command START. -/
def execStart (s : State) : Host.Outcome State Fault Refusal := .next (s.serveMapSide 0x10 performStart)

/-- STOP (R123): COMMISSIONING from RUNNING, and with a rebase from HELD. -/
def performStop (s : State) (_ : Request) : State × List (List Byte) :=
  match s.map.mode with
  | .running => ({ s with map := { s.map with mode := .commissioning } }, plain .ok)
  | .held => ({ s.rebase with map := { s.map with mode := .commissioning } }, plain .ok)
  | .blank => (s, plain .wrongMode)
  | .commissioning => (s, plain .wrongMode)

/-- The command STOP. -/
def execStop (s : State) : Host.Outcome State Fault Refusal := .next (s.serveMapSide 0x11 performStop)

/-- The host-hold flag is written; a value already held has no mode effect (R124, R125). -/
def State.writeHostHold (s : State) (flag : Bool) : State :=
  if s.map.hostHold = flag then s else State.modeEffect { s with map := { s.map with hostHold := flag } }

/-- HOLD (R124). -/
def performHold (s : State) (_ : Request) : State × List (List Byte) := (s.writeHostHold true, plain .ok)

/-- The command HOLD. -/
def execHold (s : State) : Host.Outcome State Fault Refusal := .next (s.serveMapSide 0x12 performHold)

/-- RESUME (R124). -/
def performResume (s : State) (_ : Request) : State × List (List Byte) := (s.writeHostHold false, plain .ok)

/-- The command RESUME. -/
def execResume (s : State) : Host.Outcome State Fault Refusal := .next (s.serveMapSide 0x13 performResume)

/-- CLEAR-MAP (R13). -/
def performClearMap (s : State) (_ : Request) : State × List (List Byte) :=
  ({ s with
      cells := s.cells.map CellRecord.clear
      map := s.map.emptied
      views := s.views.map fun v => { v with bias := 0 } }, plain .ok)

/-- The command CLEAR_MAP. -/
def execClearMap (s : State) : Host.Outcome State Fault Refusal := .next (s.serveMapSide 0x14 performClearMap)

/-! ## Reads of the map -/

/-- READ-MAP-STATUS: the two discard counters are returned and set to 0 (R20). -/
def performReadMapStatus (s : State) (_ : Request) : State × List (List Byte) :=
  ({ s with map := { s.map with unmappedDiscards := 0, heldDiscards := 0 } }, answer .ok (mapStatusContent s))

/-- The command READ_MAP_STATUS. -/
def execReadMapStatus (s : State) : Host.Outcome State Fault Refusal :=
  .next (s.serveMapSide 0x16 performReadMapStatus)

/-- READ-CELLS (R21). -/
def performReadCells (s : State) (r : Request) : State × List (List Byte) :=
  match r.body with
  | [hi, lo, count] =>
    let first := nat16 hi lo
    if count.toNat = 0 ∨ 32 < count.toNat ∨ 2047 < first ∨ 2047 < first + count.toNat - 1 then (s, plain .badArgument)
    else (s, cellsParts first ((s.cells.toList.drop first).take count.toNat))
  | _ => (s, plain .badLength)

/-- The command READ_CELLS. -/
def execReadCells (s : State) : Host.Outcome State Fault Refusal := .next (s.serveMapSide 0x20 performReadCells)

/-- READ-HOTSPOTS: TOP-CHANGED is returned and cleared (R118). -/
def performReadHotspots (s : State) (_ : Request) : State × List (List Byte) :=
  ({ s with map := { s.map with topChanged := false } }, answer .ok (hotspotsContent s.map))

/-- The command READ_HOTSPOTS. -/
def execReadHotspots (s : State) : Host.Outcome State Fault Refusal := .next (s.serveMapSide 0x21 performReadHotspots)

/-- A request whose body is one number of `n` things: BAD-ARGUMENT beyond them. -/
def performIndexed (n : Nat) (perform : State → Fin n → State × List (List Byte)) (s : State) (r : Request) :
    State × List (List Byte) :=
  match r.body with
  | [b] =>
    match indexArg n b with
    | some i => perform s i
    | none => (s, plain .badArgument)
  | _ => (s, plain .badLength)

/-- READ-PASS: the pass's four flags are returned and cleared (R115). -/
def performReadPass : State → Request → State × List (List Byte) :=
  performIndexed 8 fun s p =>
    ({ s with map := { s.map with passFlags := s.map.passFlags.set p PassFlags.clear } },
      answer .ok (passContent p.val (s.map.summaries.get p) (s.map.passFlags.get p)))

/-- The command READ_PASS. -/
def execReadPass (s : State) : Host.Outcome State Fault Refusal := .next (s.serveMapSide 0x22 performReadPass)

/-! ## Points (section 3.5) -/

/-- A point's counters and flags become 0, its counts are kept (R57). -/
def PointRecord.read (r : PointRecord) : PointRecord := { r with rejected := 0, discarded := 0, flags := PointFlags.clear }

/-- READ-POINT (R57). -/
def performReadPoint : State → Request → State × List (List Byte) :=
  performIndexed 96 fun s i =>
    ({ s with points := s.points.upd i PointRecord.read },
      answer .ok (pointContent i.val (s.pointTable.get i) (s.points.get i)))

/-- The command READ_POINT. -/
def execReadPoint (s : State) : Host.Outcome State Fault Refusal := .next (s.serveMapSide 0x30 performReadPoint)

/-- A FAILED or EXCLUDED point is restored: ACTIVE, counts 0, RECOVERED latched (R55). -/
def PointRecord.restore (r : PointRecord) : PointRecord :=
  match r.state with
  | .failed => { (r.latch flagRecovered).zeroCounts with state := .active }
  | .excluded => { (r.latch flagRecovered).zeroCounts with state := .active }
  | .unbound => r
  | .active => r
  | .suspect => r

/-- RESTORE-POINT (R55). -/
def performRestorePoint : State → Request → State × List (List Byte) :=
  performIndexed 96 fun s i =>
    if (s.pointTable.get i).inUse then ({ s with points := s.points.upd i PointRecord.restore }, plain .ok)
    else (s, plain .badArgument)

/-- The command RESTORE_POINT. -/
def execRestorePoint (s : State) : Host.Outcome State Fault Refusal := .next (s.serveMapSide 0x31 performRestorePoint)

/-- An ACTIVE, SUSPECT or FAILED point is excluded with counts 0 (R56). -/
def PointRecord.exclude (r : PointRecord) : PointRecord :=
  match r.state with
  | .active => { r.zeroCounts with state := .excluded }
  | .suspect => { r.zeroCounts with state := .excluded }
  | .failed => { r.zeroCounts with state := .excluded }
  | .unbound => r
  | .excluded => r

/-- EXCLUDE-POINT (R56). -/
def performExcludePoint : State → Request → State × List (List Byte) :=
  performIndexed 96 fun s i =>
    if (s.pointTable.get i).inUse then ({ s with points := s.points.upd i PointRecord.exclude }, plain .ok)
    else (s, plain .badArgument)

/-- The command EXCLUDE_POINT. -/
def execExcludePoint (s : State) : Host.Outcome State Fault Refusal := .next (s.serveMapSide 0x32 performExcludePoint)

/-! ## Views (R79) -/

/-- READ-VIEW: the two counters are returned and set to 0 (R79). -/
def performReadView : State → Request → State × List (List Byte) :=
  performIndexed 16 fun s v =>
    ({ s with views := s.views.upd v fun r => { r with framesFused := 0, pixelsSkipped := 0 } },
      answer .ok (viewContent v.val (s.views.get v)))

/-- The command READ_VIEW. -/
def execReadView (s : State) : Host.Outcome State Fault Refusal := .next (s.serveMapSide 0x38 performReadView)

end Sys2Proof.Machine
end

