-- ==== Sys2Proof/Machine/StageRequests.lean ====
section
/-! DEFINITION. The staging requests and the reads of the stage and of the live tables (chapter 8). -/

namespace Sys2Proof.Machine

/-- The stage closed and empty: every slot unfilled, the pointer 0, OVERRUN clear (R135, R139). -/
def Stage.closed (g : Stage) : Stage :=
  { g with target := none, slots := Table.replicate 32 none, pointer := 0, overrun := false }

/-- The stage open on a target with nothing in it (R136, R138). -/
def Stage.opened (g : Stage) (t : Target) (pointer : Nat) : Stage :=
  { g with target := some t, slots := Table.replicate 32 none, pointer := pointer, overrun := false }

/-- STAGE-OPEN (R136). -/
def serveStageOpen (s : State) (r : Request) : State × List (List Byte) :=
  match r.body with
  | [table, page, first] =>
    match parseTarget table page with
    | some t =>
      if first.toNat ≤ t.lastSlot then ({ s with stage := s.stage.opened t first.toNat }, plain .ok)
      else (s, plain .badArgument)
    | none => (s, plain .badArgument)
  | _ => (s, plain .badLength)

/-- The command STAGE_OPEN. -/
def execStageOpen (s : State) : Host.Outcome State Fault Refusal := .next (s.serveDirect 0x50 serveStageOpen)

/-- One entry is written at the pointer: the slot becomes filled, the pointer advances below the last slot, and an entry
over a filled last slot latches OVERRUN (R137). -/
def Stage.put (lastSlot : Nat) (g : Stage) (entry : List Byte) : Stage :=
  if h : g.pointer < 32 then
    { g with
      overrun := g.overrun || (decide (g.pointer = lastSlot) && (g.slots.get ⟨g.pointer, h⟩).isSome)
      slots := g.slots.set ⟨g.pointer, h⟩ (some entry)
      pointer := if g.pointer < lastSlot then g.pointer + 1 else g.pointer }
  else g

/-- STAGE-PUT (R137). -/
def serveStagePut (s : State) (r : Request) : State × List (List Byte) :=
  match s.stage.target with
  | none => (s, plain .stageClosed)
  | some t =>
    if r.body.length % t.slotBytes ≠ 0 then (s, plain .badLength)
    else if r.body.length / t.slotBytes < 1 ∨ 8 < r.body.length / t.slotBytes then (s, plain .badArgument)
    else
      let g := (splitEntries t.slotBytes (r.body.length / t.slotBytes) r.body).foldl (Stage.put t.lastSlot) s.stage
      ({ s with stage := g }, answer .ok [byteOf g.pointer, byteOfBool g.overrun])

/-- The command STAGE_PUT. -/
def execStagePut (s : State) : Host.Outcome State Fault Refusal := .next (s.serveDirect 0x51 serveStagePut)

/-- STAGE-CLEAR (R138). -/
def serveStageClear (s : State) (_ : Request) : State × List (List Byte) :=
  match s.stage.target with
  | none => (s, plain .stageClosed)
  | some t => ({ s with stage := s.stage.opened t 0 }, plain .ok)

/-- The command STAGE_CLEAR. -/
def execStageClear (s : State) : Host.Outcome State Fault Refusal := .next (s.serveDirect 0x52 serveStageClear)

/-! ## Commit (R139 to R142) -/

/-- The number of the lowest filled slot that fails the range test (R139). -/
def rangeFailure {α : Type} {n : Nat} (parse : List Byte → Option α) (slots : Table n (Option (List Byte))) :
    Option (Fin n) :=
  slots.findIx fun slot => match slot with
    | some raw => (parse raw).isNone
    | none => false

/-- The filled slots read as entries. -/
def readSlots {α : Type} {n : Nat} (parse : List Byte → Option α) (slots : Table n (Option (List Byte))) :
    Table n (Option α) :=
  slots.map fun slot => slot.bind parse

/-- The slot number, counted from `i`, of the lowest filled slot that conflicts with a lower filled slot (R139, R141). -/
def duplicateFrom : Nat → List PointEntry → List (Option PointEntry) → Option Nat
  | _, _, [] => none
  | i, lower, none :: slots => duplicateFrom (i + 1) lower slots
  | i, lower, some e :: slots =>
    if lower.any fun x => x.conflicts e then some i else duplicateFrom (i + 1) (e :: lower) slots

/-- Why a commit finds the stage invalid (Table 10-2). -/
inductive CommitResult where
  | overrun
  | range (slot : Nat)
  | duplicate (slot : Nat)
  | page (p : Page)
  deriving DecidableEq, Repr

/-- The range test of a stage: its filled slots as a page, or the lowest failing slot (R139, R140). -/
def rangeTested {α : Type} {n : Nat} (parse : List Byte → Option α) (slots : Table n (Option (List Byte)))
    (page : Table n (Option α) → CommitResult) : CommitResult :=
  match rangeFailure parse slots with
  | some i => .range i.val
  | none => page (readSlots parse slots)

/-- Tests 2 to 4 of a commit, in order (R139). -/
def Stage.validate (g : Stage) (t : Target) : CommitResult :=
  if g.overrun then .overrun else
    match t with
    | .cells p => rangeTested parseCellSlot g.slots fun slots => .page (.cells p slots)
    | .points p => rangeTested parsePointSlot g.slots fun slots =>
      match duplicateFrom 0 [] slots.toList with
      | some i => .duplicate i
      | none => .page (.points p slots)
    | .views p => rangeTested parseBindingSlot g.slots fun slots => .page (.views p slots)
    | .limits => rangeTested parseLimitSlot (g.slots.firstOf 8 (by omega)) fun slots => .page (.limits slots)

/-- The pending pages for other targets. -/
def otherPages (t : Target) (pages : List Page) : List Page := pages.filter fun p => decide (p.target ≠ t)

/-- A page joins the pending list: a page for the same table and page is removed, the new one goes to the tail (R142). -/
def placePage (p : Page) (pages : List Page) : List Page := otherPages p.target pages ++ [p]

/-- STAGE-COMMIT (R139). -/
def serveStageCommit (s : State) (_ : Request) : State × List (List Byte) :=
  match s.stage.target with
  | none => (s, plain .stageClosed)
  | some t =>
    match s.stage.validate t with
    | .overrun => (s, answer .stageInvalid [0x01, 0])
    | .range slot => (s, answer .stageInvalid [0x02, byteOf slot])
    | .duplicate slot => (s, answer .stageInvalid [0x03, byteOf slot])
    | .page p =>
      if Config.pendingPages ≤ (otherPages t s.stage.pendingPages).length then (s, plain .pendingFull)
      else ({ s with stage := { s.stage.closed with pendingPages := placePage p s.stage.pendingPages } }, plain .ok)

/-- The command STAGE_COMMIT. -/
def execStageCommit (s : State) : Host.Outcome State Fault Refusal := .next (s.serveDirect 0x53 serveStageCommit)

/-! ## Reads (section 8.6) -/

/-- READ-STAGE: INSTALLED and DROPPED are returned and cleared, and the Event Unit's copy of them at once (R146, R149). -/
def serveReadStage (s : State) (_ : Request) : State × List (List Byte) :=
  ({ s with stage := { s.stage with installed := false, dropped := false } }.refreshStageCopy,
    answer .ok (stageContent s.stage))

/-- The command READ_STAGE. -/
def execReadStage (s : State) : Host.Outcome State Fault Refusal := .next (s.serveDirect 0x54 serveReadStage)

/-- READ-PAGE (R147). -/
def serveReadPage (s : State) (r : Request) : State × List (List Byte) :=
  match r.body with
  | [table, page] =>
    match parseTarget table page with
    | some t => (s, pageParts s t)
    | none => (s, plain .badArgument)
  | _ => (s, plain .badLength)

/-- The command READ_PAGE. -/
def execReadPage (s : State) : Host.Outcome State Fault Refusal := .next (s.serveDirect 0x55 serveReadPage)

end Sys2Proof.Machine
end

