-- ==== Sys2Proof/Machine/Ports.lean ====
section
/-! DEFINITION. The field ports: receivers, handling of a good-CRC frame, answers, READ-PORT and INJECT (chapter 5). -/

namespace Sys2Proof.Machine

/-! ## The port's own changes -/

/-- An answer joins the reply list, or is dropped unsent when it already holds two (R84). -/
def PortRecord.place (p : PortRecord) (kind : AnswerKind) (toggle : Bool) : PortRecord :=
  if p.answers.length < Config.portAnswers then { p with answers := p.answers ++ [⟨kind, toggle⟩] } else p

/-- A frame is abandoned or fails its CRC: one CRC error, and CRC latched (R82, R83). -/
def PortRecord.crcError (p : PortRecord) : PortRecord :=
  { p with crcErrors := countUp 255 p.crcErrors, flags := { p.flags with crc := true } }

/-- Step 1: a good-CRC frame sets the silence count to 0, and a QUIET port returns to LIVE with RESUMED latched (R86). -/
def PortRecord.heard (p : PortRecord) : PortRecord :=
  match p.state with
  | .quiet => { p with silence := 0, state := .live, flags := { p.flags with resumed := true } }
  | .live => { p with silence := 0 }
  | .down => { p with silence := 0 }

/-- A frame is refused: answered REFUSE, counted, and REFUSED latched (R87, R88). -/
def PortRecord.refuse (p : PortRecord) (reason : RefuseReason) (toggle : Bool) : PortRecord :=
  { p with refused := countUp 255 p.refused, flags := { p.flags with refused := true } }.place (.refuse reason) toggle

/-- The unit kind a HELLO body declares; none for a malformed one (R87). -/
def helloKind : List Byte → Option UnitKind
  | [b] =>
    match b.toNat with
    | 0 => some .points
    | 1 => some .scanner
    | _ => none
  | _ => none

/-- Step 2: a HELLO announces the unit, or is refused (R87). -/
def PortRecord.hello (p : PortRecord) (body : List Byte) (toggle : Bool) : PortRecord :=
  match helloKind body with
  | some k =>
    { p with state := .live, unitKind := some k, expectedToggle := false, flags := { p.flags with hello := true } }.place
      .ack toggle
  | none => p.refuse .badBody toggle

/-- The kind of unit whose port does not take a frame kind: SCAN on a POINTS port, SAMPLES on a SCANNER port (R88). -/
def wrongKind (unit : Option UnitKind) (kind : Byte) : Bool :=
  match unit with
  | some .points => decide (kind = kindScan)
  | some .scanner => decide (kind = kindSamples)
  | none => false

/-- Step 3: why a frame that is no HELLO is refused, tested in the order of R88; otherwise the frame record (R89). -/
def PortRecord.examine (p : PortRecord) (port : PortIx) (kind : Byte) (body : List Byte) : RefuseReason ⊕ Frame :=
  if p.state = .down then .inl .noHello
  else if kind ≠ kindSamples ∧ kind ≠ kindScan then .inl .badBody
  else if wrongKind p.unitKind kind then .inl .wrongKind
  else match parseField port kind body with
    | some f => .inr f
    | none => .inl .badBody

/-! ## Handling a frame (section 5.3) -/

/-- Steps 1 and 3 to 5 of a frame that is no HELLO: refused, acknowledged as a repeat, appended, or held (R86, R88 to
R91). -/
def State.handleData (s : State) (port : PortIx) (kind : Byte) (toggle : Bool) (body : List Byte) : State :=
  let p := (s.ports.get port).heard
  match p.examine port kind body with
  | .inl reason => { s with ports := s.ports.set port (p.refuse reason toggle) }
  | .inr f =>
    if toggle ≠ p.expectedToggle then
      { s with ports := s.ports.set port ({ p with duplicates := countUp 255 p.duplicates }.place .ack toggle) }
    else if s.queue.length < Config.queueFrames then
      { s with
        queue := s.queue ++ [f]
        ports := s.ports.set port ({ p with expectedToggle := !p.expectedToggle }.place .ack toggle) }
    else { s with ports := s.ports.set port ({ p with holds := countUp 65535 p.holds }.place .hold toggle) }

/-- Steps 1 and 2 of a HELLO (R86, R87). -/
def State.handleHello (s : State) (port : PortIx) (toggle : Bool) (body : List Byte) : State :=
  { s with ports := s.ports.upd port fun p => p.heard.hello body toggle }

/-- A port counts a CRC error. -/
def State.portCrcError (s : State) (port : PortIx) : State := { s with ports := s.ports.upd port PortRecord.crcError }

/-- A port's frame in assembly. -/
def State.fieldAssemble (s : State) (port : PortIx) (assembly : List Byte) : State :=
  { s with ports := s.ports.upd port fun p => { p with assembly := assembly } }

/-- Bytes arrive on a port: a frame still in assembly is kept; the event the bytes end with has its effect; bytes that
spell another event, or more than one, are another command's (log entry 4). -/
def State.fieldStep (s : State) (port : PortIx) (bytes : List Byte) (effect : RxEvent → Option (State → State)) : State :=
  if s.resetLow then s else
    match receive (s.ports.get port).assembly bytes with
    | (.partialFrame a, _) => s.fieldAssemble port a
    | (event, []) =>
      match effect event with
      | some f => State.conclude s (f (s.fieldAssemble port []))
      | none => s
    | (_, _ :: _) => s

/-- The toggle of a toggle byte: bit 0; bits 1 to 7 are ignored (Table 5-1). -/
def toggleOf (b : Byte) : Bool := b.getLsbD 0

/-- The effect of a good-CRC frame of one kind, and of nothing else. -/
def frameEffect (wanted : Byte → Bool) (handle : Byte → Bool → List Byte → State → State) :
    RxEvent → Option (State → State)
  | .good kind tag body => if wanted kind then some (handle kind (toggleOf tag) body) else none
  | .badCrc => none
  | .badLength => none
  | .partialFrame _ => none

/-- HELLO_FRAME (R87). -/
def execHelloFrame (port : Fin 8) (bytes : List Byte) (s : State) : Host.Outcome State Fault Refusal :=
  .next (s.fieldStep port bytes
    (frameEffect (fun k => decide (k = kindHello)) fun _ toggle body s => s.handleHello port toggle body))

/-- SAMPLES_FRAME (R91). -/
def execSamplesFrame (port : Fin 8) (bytes : List Byte) (s : State) : Host.Outcome State Fault Refusal :=
  .next (s.fieldStep port bytes
    (frameEffect (fun k => decide (k = kindSamples)) fun kind toggle body s => s.handleData port kind toggle body))

/-- SCAN_FRAME (R91). -/
def execScanFrame (port : Fin 8) (bytes : List Byte) (s : State) : Host.Outcome State Fault Refusal :=
  .next (s.fieldStep port bytes
    (frameEffect (fun k => decide (k = kindScan)) fun kind toggle body s => s.handleData port kind toggle body))

/-- A frame kind the port does not know: no HELLO, SAMPLES or SCAN (R88). -/
def unknownFieldKind (k : Byte) : Bool := decide (k ≠ kindHello) && decide (k ≠ kindSamples) && decide (k ≠ kindScan)

/-- FIELD_UNKNOWN_KIND (R88). -/
def execFieldUnknownKind (port : Fin 8) (bytes : List Byte) (s : State) : Host.Outcome State Fault Refusal :=
  .next (s.fieldStep port bytes (frameEffect unknownFieldKind fun kind toggle body s => s.handleData port kind toggle body))

/-- The effect of a complete frame whose CRC is bad (R83). -/
def fieldCrcEffect (port : PortIx) : RxEvent → Option (State → State)
  | .badCrc => some fun s => s.portCrcError port
  | .badLength => none
  | .good _ _ _ => none
  | .partialFrame _ => none

/-- FIELD_CRC_FAILURE (R83). -/
def execFieldCrcFailure (port : Fin 8) (bytes : List Byte) (s : State) : Host.Outcome State Fault Refusal :=
  .next (s.fieldStep port bytes (fieldCrcEffect port))

/-- The effect of a length byte outside 2..250 (R82). -/
def fieldLengthEffect (port : PortIx) : RxEvent → Option (State → State)
  | .badLength => some fun s => s.portCrcError port
  | .badCrc => none
  | .good _ _ _ => none
  | .partialFrame _ => none

/-- FIELD_LENGTH_OUT_OF_RANGE (R82). -/
def execFieldLengthOutOfRange (port : Fin 8) (bytes : List Byte) (s : State) : Host.Outcome State Fault Refusal :=
  .next (s.fieldStep port bytes (fieldLengthEffect port))

/-- FIELD_GAP_TIMEOUT: a started frame is abandoned with one CRC error; while the receiver hunts, a gap is nothing
(R82). -/
def execFieldGapTimeout (port : Fin 8) (bytes : List Byte) (s : State) : Host.Outcome State Fault Refusal :=
  if s.resetLow then .next s else
    match receive (s.ports.get port).assembly bytes with
    | (.partialFrame [], _) => .next (s.fieldAssemble port [])
    | (.partialFrame (_ :: _), _) => .next (State.conclude s ((s.fieldAssemble port []).portCrcError port))
    | _ => .next s

/-- FIELD_ANSWER_SENT: the answer being sent leaves the reply list, and the next starts (R84). -/
def execFieldAnswerSent (port : Fin 8) (s : State) : Host.Outcome State Fault Refusal :=
  if s.resetLow then .next s
  else .next { s with ports := s.ports.upd port fun p => { p with answers := p.answers.tail } }

/-- The code of a refuse reason (Table 5-3). -/
def RefuseReason.code : RefuseReason → Byte
  | .noHello => 0x01
  | .wrongKind => 0x02
  | .badBody => 0x03

/-- An answer as it stands on FTXD (Tables 5-1 to 5-3). -/
def Answer.bytes (a : Answer) : List Byte :=
  match a.kind with
  | .ack => frameBytes 0x81 (byteOfBool a.toggle) []
  | .hold => frameBytes 0x82 (byteOfBool a.toggle) []
  | .refuse reason => frameBytes 0x83 (byteOfBool a.toggle) [reason.code]

/-- The bytes a port's FTXD is sending, if any (R84). -/
def State.ftxd (s : State) (port : PortIx) : Option (List Byte) := (s.ports.get port).answers.head?.map Answer.bytes

/-! ## READ-PORT and INJECT -/

/-- A port's counters and flags become 0, the rest is kept (R95). -/
def PortRecord.read (p : PortRecord) : PortRecord :=
  { p with crcErrors := 0, refused := 0, duplicates := 0, holds := 0, unknownChannel := 0, flags := PortFlags.clear }

/-- READ-PORT (R95). -/
def serveReadPort : State → Request → State × List (List Byte) :=
  performIndexed 8 fun s i =>
    ({ s with ports := s.ports.upd i PortRecord.read }, answer .ok (portContent i.val (s.ports.get i)))

/-- The command READ_PORT. -/
def execReadPort (s : State) : Host.Outcome State Fault Refusal := .next (s.serveDirect 0x40 serveReadPort)

/-- INJECT (R100): mode, then port and kind, then body, then room, are tested in this order. -/
def serveInject (s : State) (r : Request) : State × List (List Byte) :=
  match r.body with
  | portByte :: kind :: body =>
    if s.map.mode ≠ .commissioning then (s, plain .wrongMode)
    else match indexArg 8 portByte with
      | none => (s, plain .badArgument)
      | some port =>
        match parseField port kind body with
        | none => (s, plain .badArgument)
        | some f =>
          if s.queue.length < Config.queueFrames then ({ s with queue := s.queue ++ [f] }, plain .ok)
          else (s, plain .queueFull)
  | _ => (s, plain .badLength)

/-- The command INJECT. -/
def execInject (s : State) : Host.Outcome State Fault Refusal := .next (s.serveDirect 0x41 serveInject)

end Sys2Proof.Machine
end

