-- ==== Sys2Proof/Machine/Lines.lean ====
section
/-! DEFINITION. The line inputs, their items at the map, the Epoch Timer's expiry, and the passing of time (sections 6.1, 7.2,
7.3). -/

namespace Sys2Proof.Machine

/-- Whether an edge is selected: rising when the new level is high (R128). -/
def selectedEdge (edge : LineEdge) (newLevel : Bool) : Bool :=
  match edge with
  | .none => false
  | .rise => newLevel
  | .fall => !newLevel
  | .both => true

/-- A debounced edge (R127 to R131): the level changes to the pin's, a selected edge latches EDGE, a HOLD line follows its
level, and a selected edge of a REBASE line posts a rebase item. -/
def State.debouncedEdge (s : State) (n : LineIx) : State :=
  let line := s.lines.get n
  let selected := selectedEdge (s.settings.lineEdge.get n) (!line.level)
  let line' := { line with level := !line.level, heldMs := 0, edge := line.edge || selected }
  let s' := { s with lines := s.lines.set n line' }
  match s.settings.lineAction.get n with
  | .mark => s'
  | .hold => s'.followHold n
  | .rebase => if selected then s'.post (.rebase n) else s'

/-- LINE_DEBOUNCED_EDGE: the pin has held its departure from the debounced level for 20 ms. A pin that stands at the
debounced level makes no edge (R127). -/
def execLineDebouncedEdge (n : Fin 4) (s : State) : Host.Outcome State Fault Refusal :=
  if s.resetLow || decide ((s.lines.get n).pin = (s.lines.get n).level) then .next s
  else .next (State.conclude s (s.debouncedEdge n))

/-- LINE_PIN_CHANGE: the pin departs from the debounced level, starting the 20 ms, or returns to it, cancelling them
(R127). While RESET_N is low only the pin moves. -/
def execLinePinChange (n : Fin 4) (s : State) : Host.Outcome State Fault Refusal :=
  .next { s with lines := s.lines.upd n fun l => { l with pin := !l.pin, heldMs := 0 } }

/-- A line's own settings give it a hold record at the map: it is written, and a value already held has no mode effect
(R124, R125). -/
def State.writeLineHold (s : State) (n : LineIx) (flag : Bool) : State :=
  if s.map.lineHold.get n = flag then s
  else State.modeEffect { s with map := { s.map with lineHold := s.map.lineHold.set n flag } }

/-- HOLD_ITEM: the map's record of the line takes the line's hold flag as it stood when the item was taken (R124). Where
the operation in flight is another, or there is none, the step does not occur. -/
def execHoldItem (s : State) : Host.Outcome State Fault Refusal :=
  if s.resetLow then .next s else
    match s.arbitrate.map.inFlight with
    | some (.hold n flag) => .next (State.conclude s (s.arbitrate.writeLineHold n flag).completeOp)
    | _ => .next s

/-- REBASE_ITEM: every LIVE and STALE cell takes its estimate as its baseline with its rise absent (R131). Where the
operation in flight is another, or there is none, the step does not occur. -/
def execRebaseItem (s : State) : Host.Outcome State Fault Refusal :=
  if s.resetLow then .next s else
    match s.arbitrate.map.inFlight with
    | some (.rebase _) => .next (State.conclude s s.arbitrate.rebase.completeOp)
    | _ => .next s

/-- READ-LINES: the EDGE flags are returned and cleared (R132). -/
def serveReadLines (s : State) (_ : Request) : State × List (List Byte) :=
  ({ s with lines := s.lines.map fun l => { l with edge := false } }, answer .ok (linesContent s))

/-- The command READ_LINES. -/
def execReadLines (s : State) : Host.Outcome State Fault Refusal := .next (s.serveDirect 0x48 serveReadLines)

/-- EPOCH_TIMER_EXPIRY: the running count has reached EPOCH_PERIOD (R102). A timer that does not run does not expire. -/
def execEpochTimerExpiry (s : State) : Host.Outcome State Fault Refusal :=
  if s.resetLow || !s.settings.epochRun then .next s else .next (State.conclude s s.timerExpires)

/-! ## One millisecond of idle time (log entry 5) -/

/-- A millisecond on the Epoch Timer: the count advances while EPOCH_RUN is 1, and the timer expires when it reaches
EPOCH_PERIOD (R102). -/
def State.timerTick (s : State) : State :=
  if s.settings.epochRun then
    if s.settings.epochPeriod ≤ s.timerCount + 1 then s.timerExpires else { s with timerCount := s.timerCount + 1 }
  else s

/-- A millisecond on one line: a pin held away from the debounced level counts, and makes the edge at 20 ms (R127). -/
def State.lineTick (s : State) (n : LineIx) : State :=
  let line := s.lines.get n
  if line.pin = line.level then s
  else if Config.debounceMs ≤ line.heldMs + 1 then s.debouncedEdge n
  else { s with lines := s.lines.set n { line with heldMs := line.heldMs + 1 } }

/-- A millisecond in which nothing is commanded: the timer, then each line, each of them an event of its own. -/
def State.idle (s : State) : State :=
  if s.resetLow then s
  else (List.finRange 4).foldl (fun acc n => State.conclude acc (acc.lineTick n)) (State.conclude s s.timerTick)

end Sys2Proof.Machine
end

