-- ==== Sys2Proof/Machine/Reset.lean ====
section
/-! DEFINITION. The two resets: FULL_RESET and RESET_N_RELEASE, RESTART and MAP_SOFT_RESET (sections 0.6.11, 10.6). -/

namespace Sys2Proof.Machine

/-- FULL_RESET: every block takes its full-reset state, and RESET_N is low (R167). The line pins are inputs and stand as
they are. -/
def execFullReset (s : State) : Host.Outcome State Fault Refusal :=
  .next (State.fullReset (s.lines.map LineRecord.pin) true s.pending)

/-- RESET_N_RELEASE: RESET_N goes high, the receivers hunt from the next byte, and each line's debounced level is taken
from its pin without an edge (R127, R167). -/
def execResetNRelease (s : State) : Host.Outcome State Fault Refusal :=
  if s.resetLow then
    .next { s with resetLow := false, lines := s.lines.map fun l => { l with level := l.pin, heldMs := 0 } }
  else .next s

/-! ## RESTART (R166) -/

/-- A port at RESTART: state, unit kind, toggle, receiver and reply list are kept (R96). -/
def PortRecord.restart (p : PortRecord) : PortRecord := { p.read with silence := 0 }

/-- A line at RESTART: EDGE is cleared and the hold flag re-derived, with no item posted (R133). -/
def LineRecord.restart (edge : LineEdge) (action : LineAction) (l : LineRecord) : LineRecord :=
  { l with edge := false, holdFlag := derivedHold edge action l.level }

/-- Every line at RESTART (R133). -/
def State.restartLines (s : State) : State :=
  let ways := Table.zipWith Prod.mk s.settings.lineEdge s.settings.lineAction
  { s with lines := Table.zipWith (fun way l => LineRecord.restart way.1 way.2 l) ways s.lines }

/-- Steps 1 to 4 of RESTART, in order; the map's part then waits (R166). -/
def State.takeRestart (s : State) : State :=
  let s1 := { s with
    events := { s.events with urgentNotice := none, routineNotice := none }
    host := { s.host with badCrc := 0, service := .waiting } }
  let s2 := { s1 with ports := s1.ports.map PortRecord.restart }
  let s3 := { s2 with settings := { s2.settings with epochRun := false }, timerCount := 0 }
  let s4 := s3.restartLines
  { s4 with map := { s4.map with softResetWaits := true } }

/-- RESTART: a RESTART with a body is answered BAD-LENGTH (R160, R166); otherwise its first four steps are made, and its
reply waits for the map's part. -/
def execRestart (s : State) : Host.Outcome State Fault Refusal :=
  if s.resetLow then .next s else
    match s.nextRequest with
    | some r =>
      if r.kind = 0x04 then
        if goodLength r.kind r.body.length then .next (State.conclude s s.takeRestart)
        else .next (State.conclude s (s.reply r (plain .badLength)))
      else .next s
    | none => .next s

/-! ## The map's part (R18) -/

/-- A cell record rebuilt from the cell table (R8). -/
def rebuiltCell (pointTable : Table 96 PointEntry) (i : Nat) (e : CellEntry) : CellRecord :=
  if e.inUse then
    ⟨.empty, if pointTable.any (fun p => p.inUse && decide (p.home.val = i)) then some Anchor.fresh else none⟩
  else ⟨.unused, none⟩

/-- The map's own state after the soft reset (R18); the line-hold records are the lines' own flags. -/
def MapState.softReset (m : MapState) (someInUse : Bool) (lineHold : Table 4 Bool) : MapState :=
  { m.emptied with
    mode := if someInUse then .commissioning else .blank
    hostHold := false
    lineHold := lineHold
    epoch := 0
    topChanged := false
    passFlags := Table.replicate 8 PassFlags.clear
    unmappedDiscards := 0
    heldDiscards := 0
    pendingClose := false
    items := m.items.filter fun i => match i with
      | .host _ => true
      | .hold _ => false
      | .rebase _ => false
    softResetWaits := false }

/-- The map's part of the soft reset, with those of the Point Monitor (R63), the View Unit (R66), the Table Stage (R135,
R142, R145) and the intake queue (R99). -/
def State.softReset (s : State) : State :=
  { s with
    cells := s.cellTable.mapIx (rebuiltCell s.pointTable)
    points := s.pointTable.map fun e => PointRecord.rebuilt (rebuiltState s.cellTable e)
    views := Table.replicate 16 ViewRecord.initial
    queue := []
    stage := Stage.initial
    map := s.map.softReset s.someInUse (s.lines.map LineRecord.holdFlag) }

/-- The reply of RESTART, the request in service, is ready (R166). -/
def State.replyRestart (s : State) : State :=
  match s.host.buffer.head? with
  | some r => s.reply r (plain .ok)
  | none => s

/-- MAP_SOFT_RESET: once the operation in flight has completed, the map performs its part, and RESTART is answered OK (R18,
R166). Where no RESTART waits for the map, the step does not occur. -/
def execMapSoftReset (s : State) : Host.Outcome State Fault Refusal :=
  if s.resetLow || !s.map.softResetWaits || s.map.inFlight.isSome then .next s
  else .next (State.conclude s s.softReset.completeOp.replyRestart)

end Sys2Proof.Machine
end

