-- ==== Sys2Proof/Machine/Dispatch.lean ====
section
/-! DEFINITION. One arm per command: its meaning. -/

namespace Sys2Proof.Machine

/-- The effect of one command on everything but the queue of commands. -/
def exec (i : Instr) (s : State) : Host.Outcome State Fault Refusal :=
  match i with
  | .fullReset => Sys2Proof.Machine.execFullReset s
  | .hostFrameReceived bytes => Sys2Proof.Machine.execHostFrameReceived bytes s
  | .hostGapTimeout bytes => Sys2Proof.Machine.execHostGapTimeout bytes s
  | .hostLengthOutOfRange bytes => Sys2Proof.Machine.execHostLengthOutOfRange bytes s
  | .hostItemPosted => Sys2Proof.Machine.execHostItemPosted s
  | .unknownRequest => Sys2Proof.Machine.execUnknownRequest s
  | .identify => Sys2Proof.Machine.execIdentify s
  | .set => Sys2Proof.Machine.execSet s
  | .get => Sys2Proof.Machine.execGet s
  | .restart => Sys2Proof.Machine.execRestart s
  | .readLinkStatus => Sys2Proof.Machine.execReadLinkStatus s
  | .start => Sys2Proof.Machine.execStart s
  | .stop => Sys2Proof.Machine.execStop s
  | .hold => Sys2Proof.Machine.execHold s
  | .resume => Sys2Proof.Machine.execResume s
  | .clearMap => Sys2Proof.Machine.execClearMap s
  | .closeEpoch => Sys2Proof.Machine.execCloseEpoch s
  | .readMapStatus => Sys2Proof.Machine.execReadMapStatus s
  | .readCells => Sys2Proof.Machine.execReadCells s
  | .readHotspots => Sys2Proof.Machine.execReadHotspots s
  | .readPass => Sys2Proof.Machine.execReadPass s
  | .readPoint => Sys2Proof.Machine.execReadPoint s
  | .restorePoint => Sys2Proof.Machine.execRestorePoint s
  | .excludePoint => Sys2Proof.Machine.execExcludePoint s
  | .readView => Sys2Proof.Machine.execReadView s
  | .readPort => Sys2Proof.Machine.execReadPort s
  | .inject => Sys2Proof.Machine.execInject s
  | .readLines => Sys2Proof.Machine.execReadLines s
  | .stageOpen => Sys2Proof.Machine.execStageOpen s
  | .stagePut => Sys2Proof.Machine.execStagePut s
  | .stageClear => Sys2Proof.Machine.execStageClear s
  | .stageCommit => Sys2Proof.Machine.execStageCommit s
  | .readStage => Sys2Proof.Machine.execReadStage s
  | .readPage => Sys2Proof.Machine.execReadPage s
  | .readEvents => Sys2Proof.Machine.execReadEvents s
  | .hostFrameSent => Sys2Proof.Machine.execHostFrameSent s
  | .fieldGapTimeout port bytes => Sys2Proof.Machine.execFieldGapTimeout port bytes s
  | .fieldLengthOutOfRange port bytes => Sys2Proof.Machine.execFieldLengthOutOfRange port bytes s
  | .fieldCrcFailure port bytes => Sys2Proof.Machine.execFieldCrcFailure port bytes s
  | .fieldUnknownKind port bytes => Sys2Proof.Machine.execFieldUnknownKind port bytes s
  | .helloFrame port bytes => Sys2Proof.Machine.execHelloFrame port bytes s
  | .samplesFrame port bytes => Sys2Proof.Machine.execSamplesFrame port bytes s
  | .scanFrame port bytes => Sys2Proof.Machine.execScanFrame port bytes s
  | .fieldAnswerSent port => Sys2Proof.Machine.execFieldAnswerSent port s
  | .frameFusion => Sys2Proof.Machine.execFrameFusion s
  | .epochTimerExpiry => Sys2Proof.Machine.execEpochTimerExpiry s
  | .close => Sys2Proof.Machine.execClose s
  | .holdItem => Sys2Proof.Machine.execHoldItem s
  | .rebaseItem => Sys2Proof.Machine.execRebaseItem s
  | .lineDebouncedEdge line => Sys2Proof.Machine.execLineDebouncedEdge line s
  | .mapSoftReset => Sys2Proof.Machine.execMapSoftReset s
  | .linePinChange line => Sys2Proof.Machine.execLinePinChange line s
  | .resetNRelease => Sys2Proof.Machine.execResetNRelease s

end Sys2Proof.Machine
end

