-- ==== Sys2Proof/Safety.lean ====
section
/-! DEFINITION. The terms in which claims about the device are stated: what a settled state is, the laws the spec states for
its stores, and the parts of the state a step leaves alone. -/

namespace Sys2Proof.Machine

/-! ## Who is being served -/

/-- The Host Link Port is about to take `r`, a request of this kind (R158). -/
def State.Takes (s : State) (kind : Byte) (r : Request) : Prop :=
  s.resetLow = false ∧ s.nextRequest = some r ∧ r.kind = kind

/-- The map operation in flight is the host item `r`, of this kind (section 1.6). -/
def State.Performs (s : State) (kind : Byte) (r : Request) : Prop :=
  s.resetLow = false ∧ s.nextRequest = none ∧ s.map.inFlight = some (.host r) ∧ r.kind = kind

/-- The map operation in flight is `op`. -/
def State.Runs (s : State) (op : Operation) : Prop := s.resetLow = false ∧ s.map.inFlight = some op

/-- What the transmitter has to send, in order: the frame it is sending, then the ready replies (R159). -/
def HostLink.outbox (h : HostLink) : List Outgoing := h.sending.toList ++ h.ready.map Reply.outgoing

/-- `t` answers request `r` with these parts: the reply is the last of what `s` had to send, and is in service (R158,
R160). -/
def State.Answers (s t : State) (r : Request) (parts : List (List Byte)) : Prop :=
  t.host.outbox = s.host.outbox ++ [Reply.outgoing ⟨replyKind r.kind, r.tag, parts, true⟩] ∧ t.host.service = .replied

/-! ## The parts of the state that the end of a step leaves alone -/

/-- The state without what every step's end may move: the reply side of the transmitter, the Event Unit, and what the
arbiter takes a claimant from (the pending close, the items, the intake queue, the operation in flight, the latched
settings). What is left changes only by a step's own effect. -/
def State.body (s : State) : State :=
  { s with
    host := { s.host with service := .idle, ready := [], sending := none }
    events := EventUnit.initial
    queue := []
    latched := FusionSettings.initial
    map := { s.map with pendingClose := false, items := [], inFlight := none } }

/-- The claimants that wait for the map: the pending-close flag, the items and the intake queue (R14). -/
def State.claims (s : State) : Bool × List MapItem × List Frame := (s.map.pendingClose, s.map.items, s.queue)

/-- What the arbiter moves: the claimants that wait, the operation in flight, and the settings latched for a frame
(R14, R23). -/
def State.arbiter (s : State) : (Bool × List MapItem × List Frame) × Option Operation × FusionSettings :=
  (s.claims, s.map.inFlight, s.latched)

/-- A step makes the changes that lead to `s'` and ends in `t`: outside the reply side and the Event Unit `t` is `s'` once
the free map has taken what the arbiter gives it (R14). -/
structure State.EndsAs (s' t : State) : Prop where
  body : t.body = s'.body
  arbiter : t.arbiter = s'.arbitrate.arbiter

/-- The Event Unit's copy shows the in-map flags as they stand (R149). -/
def State.CopyCurrent (t : State) : Prop :=
  t.events.copy =
    ⟨t.points.map PointRecord.flags, t.map.passFlags, t.map.topChanged, t.stage.installed, t.stage.dropped⟩

/-- A map operation with the effect `s'` completes: the map is free and takes the next claimant, and the Event Unit takes
the in-map flags (R14, R149). -/
structure State.Completes (s' t : State) : Prop where
  ends : State.EndsAs { s' with map := { s'.map with inFlight := none } } t
  copy : t.CopyCurrent

/-- From `s` to `t` no reply becomes ready and none is finished: what was ready or being sent is so still (R159). -/
structure State.NoReply (s t : State) : Prop where
  service : t.host.service = s.host.service
  ready : t.host.ready = s.host.ready
  sending : ∀ o, s.host.sending = some o → t.host.sending = some o

/-- The state without the reply side of the transmitter: what a request that only reads leaves as it was. -/
def State.apartFromReply (s : State) : State :=
  { s with host := { s.host with service := .idle, ready := [], sending := none } }

/-- What becomes of a notice: it waits in its place, or the idle transmitter has begun to send it (R152, R153). -/
def NoticeOutcome (level : Byte) (notice place : Option Notice) (t : State) : Prop :=
  place = notice ∨ (place = none ∧ ∃ n, notice = some n ∧ t.host.sending = some (n.outgoing level))

/-! ## Laws of the device -/

/-- A state at the end of a step: ALERT_N follows the URGENT set (R151), an idle transmitter has nothing to send (R153),
a free map has no claimant unless a soft reset waits (R14, R18). -/
structure State.Settled (s : State) : Prop where
  alert : s.events.alertDriven = decide (s.urgentSet ≠ 0#7)
  transmitter : s.host.sending = none →
    s.host.ready = [] ∧ s.events.urgentNotice = none ∧ s.events.routineNotice = none
  map : s.map.inFlight = none → s.map.softResetWaits = false → s.claims = (false, [], [])

/-- The law of the holds: RUNNING only with no hold record set, HELD only with at least one (R125). -/
def State.HoldLaw (s : State) : Prop :=
  (s.map.mode = .running → s.map.anyHold = false) ∧ (s.map.mode = .held → s.map.anyHold = true)

/-- The BLANK boundary: the mode is BLANK exactly when no cell is in use (R12, R18, R121). -/
def State.BlankLaw (s : State) : Prop := s.map.mode = .blank ↔ s.someInUse = false

/-- A cell record is UNUSED exactly when its entry is not in use, and has no anchor then (R2, R3). -/
def State.UseLaw (s : State) : Prop :=
  ∀ c : CellIx, (s.cells.get c).inUse = (s.cellTable.get c).inUse ∧
    ((s.cells.get c).inUse = false → (s.cells.get c).anchor = none)

/-- Every present estimate is within 0..12000 (R3). -/
def State.EstimateLaw (s : State) : Prop :=
  ∀ (c : CellIx) (e : Int), (s.cells.get c).estimate = some e → 0 ≤ e ∧ e ≤ 12000

/-- The bias of every view is within −1000..+1000 (R67). -/
def State.BiasLaw (s : State) : Prop := ∀ v : ViewIx, -1000 ≤ (s.views.get v).bias ∧ (s.views.get v).bias ≤ 1000

/-- The law of the live point table (R38). -/
def State.PointTableLaw (s : State) : Prop := pointLaw s.pointTable = true

/-- A point is UNBOUND exactly while its slot or its home cell is not in use (R41). -/
def State.BindingLaw (s : State) : Prop :=
  ∀ i : PointIx, (s.points.get i).state = .unbound ↔
    ¬ ((s.pointTable.get i).inUse = true ∧ (s.cellTable.get (s.pointTable.get i).home).inUse = true)

/-- A cell has an anchor exactly while it is the home cell of a bound in-use point (R7). -/
def State.AnchorLaw (s : State) : Prop :=
  ∀ c : CellIx, (s.cells.get c).anchor.isSome = true ↔
    ∃ i : PointIx, (s.pointTable.get i).inUse = true ∧ (s.pointTable.get i).home = c ∧
      (s.points.get i).state ≠ .unbound

/-- How many frames, requests, BUSY replies and answers the queues hold at most (R97, R158, R159, R84). -/
structure State.QueueLaw (s : State) : Prop where
  intake : s.queue.length ≤ 32
  requests : s.host.buffer.length ≤ 4
  busy : s.host.ready.countP (fun r => !r.inService) ≤ 4
  answers : ∀ p : PortIx, (s.ports.get p).answers.length ≤ 2

/-- The pending list holds at most 4 pages, no two for one table and page (R142). -/
def State.PendingLaw (s : State) : Prop :=
  s.stage.pendingPages.length ≤ 4 ∧ (s.stage.pendingPages.map Page.target).Nodup

/-- The pointer of an open stage lies within the target's slots (R135). -/
def State.StageLaw (s : State) : Prop := ∀ t, s.stage.target = some t → s.stage.pointer ≤ t.lastSlot

/-- A hot spot ranks before another: a greater estimate, or the same with a lower index (R116). -/
def HotSpot.before (a b : HotSpot) : Prop := b.estimate < a.estimate ∨ (a.estimate = b.estimate ∧ a.cell < b.cell)

/-- The law of the hot-spot list: at most 16 entries, ranked, and no cell twice (R116). -/
structure State.HotLaw (s : State) : Prop where
  size : s.map.hotList.length ≤ 16
  ranked : s.map.hotList.Pairwise HotSpot.before
  distinct : (s.map.hotList.map HotSpot.cell).Nodup

/-! ### The ranges of table entries (Table 8-3) -/

/-- A cell entry within its range (R2). Its other fields have no value outside theirs. -/
def CellEntry.InRange (e : CellEntry) : Prop := -2000 ≤ e.irOffset ∧ e.irOffset ≤ 2000

/-- A point entry within its ranges: at most four spread cells, distinct and none the home cell (R39). -/
structure PointEntry.InRange (e : PointEntry) : Prop where
  count : e.spread.length ≤ 4
  share : ∀ x ∈ e.spread, 1 ≤ x.share ∧ x.share ≤ 15
  distinct : (e.home :: e.spread.map SpreadEntry.cell).Nodup
  step : 50 ≤ e.stepLimit ∧ e.stepLimit ≤ 5000

/-- A binding within its range (R64). -/
def Binding.InRange (b : Binding) : Prop := 1 ≤ b.share ∧ b.share ≤ 16

/-- A limit class within its ranges, H below HH (R109). -/
structure LimitClass.InRange (l : LimitClass) : Prop where
  high : 0 ≤ l.high ∧ l.high ≤ 11999
  highHigh : l.high < l.highHigh ∧ l.highHigh ≤ 12000
  deadband : 0 ≤ l.deadband ∧ l.deadband ≤ 500
  riseLimit : 1 ≤ l.riseLimit ∧ l.riseLimit ≤ 2000

/-- Every filled slot of a page is within its ranges (R139). -/
def Page.InRange : Page → Prop
  | .cells _ slots => ∀ i e, slots.get i = some e → e.InRange
  | .points _ slots => ∀ i e, slots.get i = some e → e.InRange
  | .views _ slots => ∀ i e, slots.get i = some e → e.InRange
  | .limits slots => ∀ i e, slots.get i = some e → e.InRange

/-- Every entry of the four live tables is within its ranges, and so is every filled slot that waits to be installed
(R2, R38, R39, R64, R109, R140). -/
structure State.TableLaw (s : State) : Prop where
  cells : ∀ c : CellIx, (s.cellTable.get c).InRange
  points : ∀ i : PointIx, (s.pointTable.get i).InRange
  views : ∀ (v : ViewIx) (n : Fin 64), ((s.viewTable.get v).get n).InRange
  limits : ∀ k : Fin 8, (s.limits.get k).InRange
  pages : ∀ p ∈ s.stage.pendingPages, p.InRange

/-- The line edges and actions: BOTH is not held with HOLD (R129, R130). -/
def Settings.LineLaw (t : Settings) : Prop := ∀ n : LineIx, ¬ (t.lineEdge.get n = .both ∧ t.lineAction.get n = .hold)

/-- Every setting is within its range (Table 10-3). -/
structure Settings.InRange (t : Settings) : Prop where
  period : 100 ≤ t.epochPeriod ∧ t.epochPeriod ≤ 60000
  gainTc : t.gainTc ≤ 16
  gainIr : t.gainIr ≤ 16
  refreshMin : 1 ≤ t.refreshMin ∧ t.refreshMin ≤ 256
  staleAge : 1 ≤ t.staleAge ∧ t.staleAge ≤ 255
  hotFloor : t.hotFloor ≤ 12000
  disagreeLimit : 100 ≤ t.disagreeLimit ∧ t.disagreeLimit ≤ 3000
  anchorAge : t.anchorAge ≤ 15
  biasGain : t.biasGain ≤ 16
  silenceLimit : 1 ≤ t.silenceLimit ∧ t.silenceLimit ≤ 15
  lines : t.LineLaw

/-- The running count stands at 0 while the timer does not run, and stays below the period (section 6.1, R102). -/
def State.TimerLaw (s : State) : Prop :=
  (s.settings.epochRun = false → s.timerCount = 0) ∧ s.timerCount < s.settings.epochPeriod

/-- A line's hold flag is what its level and settings give (R129); while RESET_N is low no line has the action HOLD (R133,
R167). -/
def State.HoldFlagLaw (s : State) : Prop :=
  (∀ n : LineIx, (s.lines.get n).holdFlag =
    derivedHold (s.settings.lineEdge.get n) (s.settings.lineAction.get n) (s.lines.get n).level) ∧
  (s.resetLow = true → ∀ n : LineIx, s.settings.lineAction.get n ≠ .hold)

/-- Whether an item is a host item. -/
def MapItem.isHost : MapItem → Bool
  | .host _ => true
  | .hold _ => false
  | .rebase _ => false

/-- Whether an operation is a host item. -/
def Operation.isHost : Operation → Bool
  | .host _ => true
  | .close _ _ => false
  | .hold _ _ => false
  | .rebase _ => false
  | .frame _ => false

/-- The host items waiting and in flight. -/
def State.hostItems (s : State) : Nat :=
  s.map.items.countP MapItem.isHost + (s.map.inFlight.toList.countP Operation.isHost)

/-- The replies of the request in service, ready or being sent. -/
def State.serviceReplies (s : State) : Nat :=
  s.host.ready.countP Reply.inService + s.host.sending.toList.countP Outgoing.inService

/-- One request is served at a time, each line has at most one waiting item of each kind, and so at most nine items wait
(R16, R158). -/
structure State.ServiceLaw (s : State) : Prop where
  host : s.hostItems = if s.host.service = .waiting ∧ s.map.softResetWaits = false then 1 else 0
  restart : s.map.softResetWaits = true → s.host.service = .waiting
  replies : s.serviceReplies = if s.host.service = .replied then 1 else 0
  inBuffer : s.host.service ≠ .idle → s.host.buffer ≠ []
  lines : (s.map.items.filter fun i => !i.isHost).Nodup
  items : s.map.items.length ≤ 9

/-! ## Words of the spec that several claims share -/

/-- The commands that take a request from the buffer, each with the code of its request (Table 10-5). -/
def requestCommands : List (Instr × Byte) :=
  [(.identify, 0x01), (.set, 0x02), (.get, 0x03), (.restart, 0x04), (.readLinkStatus, 0x05), (.start, 0x10), (.stop, 0x11),
    (.hold, 0x12), (.resume, 0x13), (.clearMap, 0x14), (.closeEpoch, 0x15), (.readMapStatus, 0x16), (.readCells, 0x20),
    (.readHotspots, 0x21), (.readPass, 0x22), (.readPoint, 0x30), (.restorePoint, 0x31), (.excludePoint, 0x32),
    (.readView, 0x38), (.readPort, 0x40), (.inject, 0x41), (.readLines, 0x48), (.stageOpen, 0x50), (.stagePut, 0x51),
    (.stageClear, 0x52), (.stageCommit, 0x53), (.readStage, 0x54), (.readPage, 0x55), (.readEvents, 0x60)]

/-- An answer joins a reply list of at most two, or is dropped (R84). -/
def placed (answers : List Answer) (a : Answer) : List Answer := if answers.length < 2 then answers ++ [a] else answers

/-- A port that has heard a good-CRC frame: its receiver hunts, its silence count is 0, and a QUIET port is LIVE again with
RESUMED latched (R82, R86). -/
def PortRecord.afterGoodFrame (p : PortRecord) : PortRecord :=
  { p with
    assembly := []
    silence := 0
    state := if p.state = .quiet then .live else p.state
    flags := { p.flags with resumed := p.flags.resumed || decide (p.state = .quiet) } }

/-- The five hold records with one of them changed, in `m`: what the map does about its mode (R125, R126). -/
structure State.HoldEffect (s : State) (m : MapState) (t : State) : Prop where
  /-- RUNNING and a record set: HELD. -/
  raised : s.map.mode = .running → m.anyHold = true → State.Completes { s with map := { m with mode := .held } } t
  /-- HELD and every record clear: a rebase, then RUNNING. -/
  released : s.map.mode = .held → m.anyHold = false →
    State.Completes { s with cells := s.cells.map CellRecord.rebase, map := { m with mode := .running } } t
  /-- Otherwise the mode stays. -/
  kept : ¬ (s.map.mode = .running ∧ m.anyHold = true) → ¬ (s.map.mode = .held ∧ m.anyHold = false) →
    State.Completes { s with map := m } t

/-- The point of a reading is `i`: in use, on this port, with this channel (R40). -/
def State.PointOf (s : State) (port : PortIx) (channel : Fin 16) (i : PointIx) : Prop :=
  (s.pointTable.get i).inUse = true ∧ (s.pointTable.get i).port = port ∧ (s.pointTable.get i).channel = channel

/-- The cells of a pass (R1), in ascending index order. -/
def cellsOfPass (pass : Fin 8) : List CellIx := (List.finRange 2048).filter fun c => decide (passOf c.val = pass.val)

/-- `Inv` is kept by every command and by idle time. -/
def KeptByEveryStep (Inv : State → Prop) : Prop := ∀ s t : State, Inv s → step s = .next t → Inv t

end Sys2Proof.Machine
end

