-- ==== Sys2Proof/Certificates/Slice0/Obligations.lean ====
section
/-! DEFINITION. The statements for the provers. Each is about the model's own names; the rule of spec/ it rests on is cited in
OBLIGATIONS.json. -/

open Sys2Proof Sys2Proof.Machine

/-! ## The step, the queue of commands, time -/

/-- A step takes the command at the front of the queue and performs it on the state with the queue's rest. Every command
answers a next state from every state, with the queue of commands as it was: that none stops the device is the model's
reading (log entry 15, DEDUCED), and that a command whose event cannot occur changes nothing instead of stopping is the
model's choice (log entry 2, DESIGN CHOICE). -/
def Obligations.StepRunsFrontCommand : Prop :=
  (∀ (c : Instr) (rest : List Instr) (s : State),
     step { s with pending := c :: rest } = exec c { s with pending := rest }) ∧
  (∀ (c : Instr) (s : State), ∃ t, exec c s = .next t ∧ t.pending = s.pending)

/-- On an empty queue one millisecond passes (the model's choice, log entry 5): with nothing under way nothing
changes; a running count advances by one and expires when it reaches the period; a pin held away from the debounced
level counts and makes its edge at 20 ms. -/
def Obligations.EmptyQueueIsAMillisecond : Prop :=
  ∀ s : State, s.pending = [] →
    (s.resetLow = true → step s = .next s) ∧
    (s.Settled → s.resetLow = false → (∀ n, (s.lines.get n).pin = (s.lines.get n).level) →
      (s.settings.epochRun = false → step s = .next s) ∧
      (s.settings.epochRun = true → s.timerCount + 1 < s.settings.epochPeriod →
        step s = .next { s with timerCount := s.timerCount + 1 }) ∧
      (s.settings.epochRun = true → s.settings.epochPeriod ≤ s.timerCount + 1 → step s = exec .epochTimerExpiry s)) ∧
    (s.Settled → s.resetLow = false → s.settings.epochRun = false →
      ∀ n, (s.lines.get n).pin ≠ (s.lines.get n).level →
        (∀ m, m ≠ n → (s.lines.get m).pin = (s.lines.get m).level) →
        ((s.lines.get n).heldMs + 1 < 20 →
          step s = .next { s with lines := s.lines.upd n fun l => { l with heldMs := l.heldMs + 1 } }) ∧
        (20 ≤ (s.lines.get n).heldMs + 1 → step s = exec (.lineDebouncedEdge n) s))

/-! ## Reset -/

/-- What a full reset leaves in every block (R2, R8, R19, R38, R62, R64, R66, R85, R99, R101, R109, R133, R135, R156,
R167), and that RESET_N then stands low (the model's reading, log entry 11). The pins of the lines are inputs and stand
as they are. -/
def Obligations.FullResetState : Prop :=
  ∀ s : State, ∃ t, exec .fullReset s = .next t ∧
    t.resetLow = true ∧ t.pending = s.pending ∧ t.queue = [] ∧ t.timerCount = 0 ∧
    (∀ c, t.cellTable.get c = ⟨false, none, 0⟩ ∧ t.cells.get c = ⟨.unused, none⟩) ∧
    (∀ i, t.pointTable.get i = ⟨false, 0, 0, 0, [], 50⟩ ∧ t.points.get i = ⟨.unbound, 0, 0, 0, 0, 0, 0, PointFlags.clear⟩) ∧
    (∀ v, (∀ b, (t.viewTable.get v).get b = ⟨false, 0, 0, 1⟩) ∧ t.views.get v = ⟨0, none, 0, 0, 0, 0⟩) ∧
    (∀ k, t.limits.get k = ⟨11000, 11500, 100, 500⟩) ∧
    (∀ p, t.ports.get p = ⟨.down, none, false, 0, 0, 0, 0, 0, 0, PortFlags.clear, [], []⟩) ∧
    (∀ n, t.lines.get n = ⟨(s.lines.get n).pin, (s.lines.get n).pin, 0, false, false⟩) ∧
    (t.map.mode = .blank ∧ t.map.hostHold = false ∧ (∀ n, t.map.lineHold.get n = false) ∧ t.map.epoch = 0 ∧
      t.map.hotList = [] ∧ t.map.buildingEpoch = none ∧ t.map.topChanged = false ∧
      (∀ p, t.map.summaries.get p = ⟨0, 0, 0, 0, 0, 0, none, none⟩ ∧ t.map.passFlags.get p = PassFlags.clear) ∧
      t.map.unmappedDiscards = 0 ∧ t.map.heldDiscards = 0 ∧ t.map.pendingClose = false ∧ t.map.items = [] ∧
      t.map.inFlight = none ∧ t.map.softResetWaits = false) ∧
    t.latched = ⟨12, 6, 64, 800, 2, 4⟩ ∧
    (t.stage.target = none ∧ (∀ i, t.stage.slots.get i = none) ∧ t.stage.pointer = 0 ∧ t.stage.overrun = false ∧
      t.stage.pendingPages = [] ∧ t.stage.lastInstall = none ∧ t.stage.installed = false ∧ t.stage.dropped = false) ∧
    t.groups = 0 ∧ t.events.urgentNotice = none ∧ t.events.routineNotice = none ∧ t.events.alertDriven = false ∧
    t.host = ⟨[], [], .idle, [], none, 0⟩ ∧
    (t.settings.epochPeriod = 1000 ∧ t.settings.epochMode = .periodic ∧ t.settings.epochRun = false ∧
      t.settings.fusion = ⟨12, 6, 64, 800, 2, 4⟩ ∧ t.settings.staleAge = 10 ∧ t.settings.hotFloor = 6000 ∧
      t.settings.silenceLimit = 3 ∧ t.settings.eventEnable = 0 ∧ t.settings.eventUrgent = 0b0001001 ∧
      ∀ n, t.settings.lineEdge.get n = .none ∧ t.settings.lineAction.get n = .mark)

/-- While RESET_N is low nothing is received, served or run: only a full reset, the release and the line pins act
(R167; the model's reading of what the pin does meanwhile, log entry 11). A release lets each debounced level be taken
from its pin, without an edge (R127); with RESET_N high it is no event (the model's choice, log entry 2). -/
def Obligations.WhileResetIsLow : Prop :=
  ∀ s : State,
    (s.resetLow = true → ∀ c, c ≠ .fullReset → c ≠ .resetNRelease → (∀ n, c ≠ .linePinChange n) → exec c s = .next s) ∧
    (s.resetLow = true → ∃ t, exec .resetNRelease s = .next t ∧
      t = { s with resetLow := false, lines := t.lines } ∧
      ∀ n, t.lines.get n = { s.lines.get n with level := (s.lines.get n).pin, heldMs := 0 }) ∧
    (s.resetLow = false → exec .resetNRelease s = .next s)

/-! ## The framing of the links and the layouts -/

/-- A frame sent on a line is received as it was sent, whatever noise without a start byte stands before it: the
receiver answers its kind, its tag or toggle byte and its body, and has looked at every byte (Table 5-1, Table 10-1).
Its other outcomes (R82, R83, R157): a length outside 2..250 ends a frame at once; a frame whose two CRC bytes are not
those of its length, kind, tag and body is bad; and bytes that come in two runs are received as if in one, however
they are cut. -/
def Obligations.FramesAreReceivedAsSent : Prop :=
  (∀ (noise : List Byte) (kind tag : Byte) (body : List Byte), (∀ b ∈ noise, b ≠ 0xC3) → body.length ≤ 248 →
     receive [] (noise ++ frameBytes kind tag body) = (.good kind tag body, [])) ∧
  ((∀ (len : Byte) (rest : List Byte), ¬ (2 ≤ len.toNat ∧ len.toNat ≤ 250) →
     receive [] (0xC3 :: len :: rest) = (.badLength, rest)) ∧
   (∀ (kind tag hi lo : Byte) (body rest : List Byte), body.length ≤ 248 →
     256 * hi.toNat + lo.toNat ≠ (crc16 (framePayload kind tag body)).toNat →
     receive [] (0xC3 :: (framePayload kind tag body ++ hi :: lo :: rest)) = (.badCrc, rest)) ∧
   (∀ (a a' xs ys rest : List Byte), receive a xs = (.partialFrame a', rest) → receive a (xs ++ ys) = receive a' ys))

/-- A slot that READ-PAGE returns is read back, when it is staged, as the entry it shows: no field of Table 10-7 is
lost or moved, over every entry within the ranges of Table 8-3. And nothing else is accepted (R140): a slot of 4, 20, 5
or 8 bytes passes the range test exactly when each of its fields is within its range; of a POINTS slot the spread
entries beyond the count are neither tested nor stored. -/
def Obligations.SlotsReadBack : Prop :=
  (∀ e : CellEntry, -2000 ≤ e.irOffset ∧ e.irOffset ≤ 2000 → parseCellSlot e.bytes = some e) ∧
  (∀ e : PointEntry, e.spread.length ≤ 4 → (∀ x ∈ e.spread, 1 ≤ x.share ∧ x.share ≤ 15) →
    (e.home :: e.spread.map SpreadEntry.cell).Nodup → 50 ≤ e.stepLimit ∧ e.stepLimit ≤ 5000 →
    parsePointSlot e.bytes = some e) ∧
  (∀ b : Binding, 1 ≤ b.share ∧ b.share ≤ 16 → parseBindingSlot b.bytes = some b) ∧
  (∀ l : LimitClass, 0 ≤ l.high ∧ l.high < l.highHigh ∧ l.highHigh ≤ 12000 → 0 ≤ l.deadband ∧ l.deadband ≤ 500 →
    1 ≤ l.riseLimit ∧ l.riseLimit ≤ 2000 → parseLimitSlot l.bytes = some l) ∧
  (∀ (use cls hi lo : Byte) (offset : Int), offset = (BitVec.ofNat 16 (256 * hi.toNat + lo.toNat)).toInt →
    ((parseCellSlot [use, cls, hi, lo]).isSome = true ↔
      use.toNat ≤ 1 ∧ (cls.toNat ≤ 7 ∨ cls.toNat = 255) ∧ -2000 ≤ offset ∧ offset ≤ 2000)) ∧
  (∀ (use port channel homeHi homeLo stepHi stepLo count : Byte) (spread : List Byte) (home step : Nat) (cell share : Nat → Nat),
    spread.length = 12 → home = 256 * homeHi.toNat + homeLo.toNat → step = 256 * stepHi.toNat + stepLo.toNat →
    (∀ j, cell j = 256 * (spread.getD (3 * j) 0).toNat + (spread.getD (3 * j + 1) 0).toNat ∧
      share j = (spread.getD (3 * j + 2) 0).toNat) →
    ((parsePointSlot (use :: port :: channel :: homeHi :: homeLo :: stepHi :: stepLo :: count :: spread)).isSome = true ↔
      use.toNat ≤ 1 ∧ port.toNat ≤ 7 ∧ channel.toNat ≤ 15 ∧ home ≤ 2047 ∧ 50 ≤ step ∧ step ≤ 5000 ∧ count.toNat ≤ 4 ∧
        ∀ j, j < count.toNat → cell j ≤ 2047 ∧ 1 ≤ share j ∧ share j ≤ 15 ∧ cell j ≠ home ∧ ∀ k, k < j → cell k ≠ cell j) ∧
    ∀ other : List Byte, other.length = 12 → other.take (3 * count.toNat) = spread.take (3 * count.toNat) →
      parsePointSlot (use :: port :: channel :: homeHi :: homeLo :: stepHi :: stepLo :: count :: other) =
        parsePointSlot (use :: port :: channel :: homeHi :: homeLo :: stepHi :: stepLo :: count :: spread)) ∧
  (∀ use pixel hi lo share : Byte, (parseBindingSlot [use, pixel, hi, lo, share]).isSome = true ↔
    use.toNat ≤ 1 ∧ pixel.toNat ≤ 63 ∧ 256 * hi.toNat + lo.toNat ≤ 2047 ∧ 1 ≤ share.toNat ∧ share.toNat ≤ 16) ∧
  (∀ (h1 h0 hh1 hh0 db1 db0 rl1 rl0 : Byte) (h hh db rl : Nat), h = 256 * h1.toNat + h0.toNat → hh = 256 * hh1.toNat + hh0.toNat →
    db = 256 * db1.toNat + db0.toNat → rl = 256 * rl1.toNat + rl0.toNat →
    ((parseLimitSlot [h1, h0, hh1, hh0, db1, db0, rl1, rl0]).isSome = true ↔
      h ≤ 11999 ∧ 1 ≤ hh ∧ hh ≤ 12000 ∧ h < hh ∧ db ≤ 500 ∧ 1 ≤ rl ∧ rl ≤ 2000))

/-- The body checks (R89, Tables 2-1 to 2-3 and 5-3): which SAMPLES and SCAN bodies pass, and the frame each becomes: a
SAMPLES frame of the port with as many readings as the body's count, a SCAN frame of the port and the body's view with
as many pixels as its count. No other kind becomes a frame. -/
def Obligations.BodyChecks : Prop :=
  ∀ (port : PortIx),
    (∀ body : List Byte, (parseField port 0x02 body).isSome = true ↔ ∃ n : Nat, 1 ≤ n ∧ n ≤ 16 ∧ body.length = 1 + 4 * n ∧
      body[0]? = some (BitVec.ofNat 8 n) ∧ ∀ i, i < n → ∃ ch st : Byte,
        body[1 + 4 * i]? = some ch ∧ body[2 + 4 * i]? = some st ∧ ch.toNat ≤ 15 ∧ st.toNat ≤ 2) ∧
    (∀ body : List Byte, (parseField port 0x03 body).isSome = true ↔ ∃ (n : Nat) (v : Byte), 1 ≤ n ∧ n ≤ 64 ∧ body.length = 2 + 3 * n ∧
      body[0]? = some v ∧ v.toNat ≤ 15 ∧ body[1]? = some (BitVec.ofNat 8 n)) ∧
    (∀ (body : List Byte) f, parseField port 0x02 body = some f → ∃ rs, f = .samples port rs ∧ body.length = 1 + 4 * rs.length ∧
      body[0]? = some (BitVec.ofNat 8 rs.length) ∧ ∀ i x, rs[i]? = some x → ∃ hi lo st : Byte,
      body[1 + 4 * i]? = some (BitVec.ofNat 8 x.channel.val) ∧ body[2 + 4 * i]? = some st ∧
      body[3 + 4 * i]? = some hi ∧ body[4 + 4 * i]? = some lo ∧ x.value = (BitVec.ofNat 16 (256 * hi.toNat + lo.toNat)).toInt ∧
      (x.status = .ok ↔ st = 0x00) ∧ (x.status = .openCircuit ↔ st = 0x01) ∧ (x.status = .unitRange ↔ st = 0x02)) ∧
    (∀ (body : List Byte) f, parseField port 0x03 body = some f → ∃ v ps, f = .scan port v ps ∧ body.length = 2 + 3 * ps.length ∧
      body[0]? = some (BitVec.ofNat 8 v.val) ∧ body[1]? = some (BitVec.ofNat 8 ps.length) ∧
      ∀ j x, ps[j]? = some x → ∃ hi lo flags : Byte,
        body[2 + 3 * j]? = some flags ∧ body[3 + 3 * j]? = some hi ∧ body[4 + 3 * j]? = some lo ∧
        x.value = (BitVec.ofNat 16 (256 * hi.toNat + lo.toNat)).toInt ∧
        x.saturated = flags.getLsbD 0 ∧ x.obscured = flags.getLsbD 1) ∧
    (∀ (kind : Byte) (body : List Byte), kind ≠ 0x02 → kind ≠ 0x03 → parseField port kind body = none)

/-! ## Laws that every step keeps -/

/-- The state after reset obeys every law that the statements below say each step keeps. -/
def Obligations.ResetIsLawful : Prop :=
  State.reset.Settled ∧ State.reset.HoldLaw ∧ State.reset.UseLaw ∧ State.reset.BlankLaw ∧ State.reset.EstimateLaw ∧
  State.reset.BiasLaw ∧ State.reset.PointTableLaw ∧ State.reset.BindingLaw ∧ State.reset.AnchorLaw ∧
  State.reset.QueueLaw ∧ State.reset.PendingLaw ∧ State.reset.StageLaw ∧ State.reset.HotLaw ∧ State.reset.TableLaw ∧
  State.reset.settings.InRange ∧ State.reset.TimerLaw ∧ State.reset.HoldFlagLaw ∧ State.reset.ServiceLaw

/-- ALERT_N is driven exactly while the URGENT set is non-empty, an idle transmitter has nothing to send, and a free
map has no claimant unless a soft reset waits (R14, R151, R153). -/
def Obligations.SettledKept : Prop := KeptByEveryStep State.Settled

/-- The law of the holds (R125): RUNNING with no hold record set, HELD with at least one. A record is UNUSED exactly
when its entry is not in use, and the mode is BLANK exactly when no cell is in use (R3, R12, R121). -/
def Obligations.MapLawsKept : Prop := KeptByEveryStep fun s => s.HoldLaw ∧ s.UseLaw ∧ s.BlankLaw

/-- Every present estimate is within 0..12000 (R3), and every bias within −1000..+1000 (R67). The hot-spot list holds
at most 16 entries and no cell twice, by descending estimate, ties by ascending index (R116). Every entry of the four
live tables, in use or not, is within the ranges of its table, H below HH and the cells of a spread list distinct (R2,
R38, R39, R64, R109); with it, as what makes it so, every filled slot of a pending page (R139, R140). -/
def Obligations.RangesAndRankingKept : Prop :=
  KeptByEveryStep fun s => s.EstimateLaw ∧ s.BiasLaw ∧ s.HotLaw ∧ s.TableLaw

/-- The law of the point table (R38), and with it: a point is UNBOUND exactly while its slot or its home cell is not
in use (R41), and a cell has an anchor exactly while it is the home of a bound in-use point (R7). -/
def Obligations.PointLawsKept : Prop := KeptByEveryStep fun s => s.PointTableLaw ∧ s.BindingLaw ∧ s.AnchorLaw

/-- The intake queue holds at most 32 frames (R97), the request buffer at most 4 requests (R158), the ready-reply list at
most 4 BUSY replies (R159), a port's reply list at most two answers (R84). The pending list holds at most 4 pages, no
two for one table and page (R142); the pointer of an
open stage lies within its target's slots (R135). -/
def Obligations.CapacitiesKept : Prop := KeptByEveryStep fun s => s.QueueLaw ∧ s.PendingLaw ∧ s.StageLaw

/-- Every setting stays within its range (Table 10-3) and BOTH is not held with HOLD (R130); the running count stands
at 0 while the timer does not run and stays below the period (R102, R103). A line's hold flag is set exactly while its
action is HOLD and its level the active one (R129, R130). -/
def Obligations.SettingsLawsKept : Prop := KeptByEveryStep fun s => s.settings.InRange ∧ s.TimerLaw ∧ s.HoldFlagLaw

/-- One request is in service at a time: at most one host item waits or is in flight, at most one reply answers it,
and it stays in the buffer; each line has at most one waiting item of each kind, and the item list holds at most nine
items (R16, R158). -/
def Obligations.ServiceLawKept : Prop := KeptByEveryStep State.ServiceLaw

/-! ## Whole-machine rules -/

/-- The mode changes by no command but those of Table 7-2: START, STOP, HOLD, RESUME, a line's hold item, a close, the
map's part of RESTART, a full reset (R121). The four live tables change by no command but a close, at whose completion
pages install, and a full reset (R2, R38, R64, R109, R134); RESTART and the map's part of it keep them. The cell
records, the point records and the view records change inside map operations alone (R14, R17, R37): by no command that
arrives from outside and by no request that the Host Link Port serves itself. -/
def Obligations.MapChangesOnlyByItsCommands : Prop :=
  (∀ (c : Instr) (s t : State), c ∉ [.start, .stop, .hold, .resume, .holdItem, .close, .mapSoftReset, .fullReset] →
     exec c s = .next t → t.map.mode = s.map.mode) ∧
  (∀ (c : Instr) (s t : State), c ≠ .close → c ≠ .fullReset → exec c s = .next t →
     t.cellTable = s.cellTable ∧ t.pointTable = s.pointTable ∧ t.viewTable = s.viewTable ∧ t.limits = s.limits) ∧
  (∀ (c : Instr) (s t : State),
     c ∉ [.start, .stop, .hold, .resume, .clearMap, .readPoint, .restorePoint, .excludePoint, .readView, .frameFusion, .close,
       .holdItem, .rebaseItem, .mapSoftReset, .fullReset] →
     exec c s = .next t → t.cells = s.cells ∧ t.points = s.points ∧ t.views = s.views ∧ t.map.epoch = s.map.epoch ∧
       t.map.hotList = s.map.hotList ∧ t.map.summaries = s.map.summaries)

/-- Notices (R152, R153): a level's set that goes from empty to non-empty forms a notice of that level with the set
and the epoch number as they then stand, which takes the place of an unsent one; nothing else forms or withdraws a
notice, and a notice leaves its place only when the transmitter begins to send it. RESTART and a full reset discard
notices. At a close (R149, R151, R152): the QUIET flags of ports, latched outside the map's own flags, are one event,
and all the flags of the close itself are the next, taken at its completion (the model's reading of R149, log entry
10). Each forms a notice of a level whose set it takes from empty to non-empty, with the epoch number as advanced. -/
def Obligations.NoticesFormed : Prop :=
  (∀ (c : Instr) (s t : State), s.Settled → c ∉ [.close, .restart, .fullReset] → exec c s = .next t →
     NoticeOutcome 1
       (if s.urgentSet = 0 ∧ t.urgentSet ≠ 0 then some ⟨t.urgentSet, t.map.epoch⟩ else s.events.urgentNotice)
       t.events.urgentNotice t ∧
     NoticeOutcome 0
       (if s.routineSet = 0 ∧ t.routineSet ≠ 0 then some ⟨t.routineSet, t.map.epoch⟩ else s.events.routineNotice)
       t.events.routineNotice t) ∧
  (∀ (s t : State) (staleAge hotFloor : Nat) (quiet : State), s.Settled → s.Runs (.close staleAge hotFloor) →
     exec .close s = .next t → quiet = { s with ports := t.ports } →
     NoticeOutcome 1
       (if s.urgentSet = 0 ∧ quiet.urgentSet ≠ 0 then some ⟨quiet.urgentSet, t.map.epoch⟩
         else if quiet.urgentSet = 0 ∧ t.urgentSet ≠ 0 then some ⟨t.urgentSet, t.map.epoch⟩ else s.events.urgentNotice)
       t.events.urgentNotice t ∧
     NoticeOutcome 0
       (if s.routineSet = 0 ∧ quiet.routineSet ≠ 0 then some ⟨quiet.routineSet, t.map.epoch⟩
         else if quiet.routineSet = 0 ∧ t.routineSet ≠ 0 then some ⟨t.routineSet, t.map.epoch⟩ else s.events.routineNotice)
       t.events.routineNotice t)

/-- The level sets (R148, R150): bit n of a level is set exactly when group n is active, enabled and of that level,
the in-map groups being judged by the Event Unit's copy and the others by their owners' records (Table 9-1). -/
def Obligations.LevelSets : Prop :=
  ∀ s : State,
    (∀ n, s.urgentSet.getLsbD n = (s.groups.getLsbD n && s.settings.eventEnable.getLsbD n && s.settings.eventUrgent.getLsbD n)) ∧
    (∀ n, s.routineSet.getLsbD n =
      (s.groups.getLsbD n && s.settings.eventEnable.getLsbD n && !s.settings.eventUrgent.getLsbD n)) ∧
    (s.groups.getLsbD 0 = true ↔ ∃ i, s.events.copy.points.get i ≠ PointFlags.clear) ∧
    (s.groups.getLsbD 1 = true ↔ ∃ p, (s.ports.get p).flags ≠ PortFlags.clear) ∧
    (s.groups.getLsbD 2 = true ↔ ∃ p, (s.events.copy.passes.get p).highEntered = true ∨
      (s.events.copy.passes.get p).cleared = true ∨ (s.events.copy.passes.get p).rise = true) ∧
    (s.groups.getLsbD 3 = true ↔ ∃ p, (s.events.copy.passes.get p).hhEntered = true) ∧
    (s.groups.getLsbD 4 = s.events.copy.topChanged) ∧
    (s.groups.getLsbD 5 = (s.events.copy.installed || s.events.copy.dropped)) ∧
    (s.groups.getLsbD 6 = true ↔ ∃ n, (s.lines.get n).edge = true)

/-- The arbiter's order (R14): nothing while an operation is in flight or a soft reset waits; else the pending close,
with STALE_AGE and HOT_FLOOR read (R105); else the oldest item, a hold item with the line's flag as it stands (R124);
else the head frame, which leaves the queue, with the six fusion settings latched (R17, R23); else nothing. -/
def Obligations.ArbiterOrder : Prop :=
  ∀ s : State,
    (s.map.inFlight ≠ none ∨ s.map.softResetWaits = true → s.arbitrate = s) ∧
    (s.map.inFlight = none → s.map.softResetWaits = false →
      (s.map.pendingClose = true → s.arbitrate =
        { s with map := { s.map with
            pendingClose := false, inFlight := some (.close s.settings.staleAge s.settings.hotFloor) } }) ∧
      (s.map.pendingClose = false → ∀ r is, s.map.items = .host r :: is →
        s.arbitrate = { s with map := { s.map with items := is, inFlight := some (.host r) } }) ∧
      (s.map.pendingClose = false → ∀ n is, s.map.items = .hold n :: is →
        s.arbitrate = { s with map := { s.map with
            items := is, inFlight := some (.hold n (s.lines.get n).holdFlag) } }) ∧
      (s.map.pendingClose = false → ∀ n is, s.map.items = .rebase n :: is →
        s.arbitrate = { s with map := { s.map with items := is, inFlight := some (.rebase n) } }) ∧
      (s.map.pendingClose = false → s.map.items = [] → ∀ f fs, s.queue = f :: fs →
        s.arbitrate = { s with
          queue := fs
          latched := ⟨s.settings.gainTc, s.settings.gainIr, s.settings.refreshMin, s.settings.disagreeLimit,
            s.settings.anchorAge, s.settings.biasGain⟩
          map := { s.map with inFlight := some (.frame f) } }) ∧
      (s.map.pendingClose = false → s.map.items = [] → s.queue = [] → s.arbitrate = s))

/-! ## Fusion of a frame -/

/-- One touch (R25 to R28). Weight 0 and an UNUSED cell change nothing. An EMPTY cell takes the sample in full. A LIVE
or STALE cell moves by w/256 of the difference, rounded to nearest with ties away from zero, which leaves it between
where it was and the sample; a touch of weight at least REFRESH_MIN sets age and source and revives a STALE cell, with
no rise; the alert state, the baseline and the anchor are kept. -/
def Obligations.TouchArithmetic : Prop :=
  ∀ (refreshMin share gain : Nat) (kind : Source) (sample : Int) (c : CellRecord),
    0 ≤ sample ∧ sample ≤ 12000 → share * gain ≤ 256 → 1 ≤ refreshMin →
    (c.content = .unused → c.touch refreshMin kind sample share gain = c) ∧
    (share * gain = 0 → c.touch refreshMin kind sample share gain = c) ∧
    (0 < share * gain → c.content = .empty →
      c.touch refreshMin kind sample share gain = { c with content := .live ⟨sample, 0, kind, none, .normal⟩ none }) ∧
    (0 < share * gain → ∀ b, 0 ≤ b.estimate ∧ b.estimate ≤ 12000 → ∃ e : Int,
      (sample ≤ b.estimate → e = b.estimate - (((b.estimate - sample) * (share * gain) + 128) / 256)) ∧
      (b.estimate ≤ sample → e = b.estimate + (((sample - b.estimate) * (share * gain) + 128) / 256)) ∧
      min b.estimate sample ≤ e ∧ e ≤ max b.estimate sample ∧
      (share * gain = 256 → e = sample) ∧
      (∀ r, c.content = .live b r → c.touch refreshMin kind sample share gain =
        if refreshMin ≤ share * gain then { c with content := .live { b with estimate := e, age := 0, source := kind } r }
        else { c with content := .live { b with estimate := e } r }) ∧
      (c.content = .stale b → c.touch refreshMin kind sample share gain =
        if refreshMin ≤ share * gain then { c with content := .live { b with estimate := e, age := 0, source := kind } none }
        else { c with content := .stale { b with estimate := e } }))

/-- Readings that are turned away (R45 to R48): one with no in-use point counts as an unknown channel of its port; one
of a point that is UNBOUND, FAILED or EXCLUDED counts as discarded; OPEN fails the point; out of range is rejected,
and the third in a row fails the point. None of them changes a cell. Readings that pass the range check (R49, R50),
with the home cell's estimate as it stands. More than the step limit away is a step hit: the point becomes SUSPECT and
the reading is admitted at a quarter of GAIN_TC, or the sixth bad hit fails the point and the reading is not fused.
Any other reading is clean: an ACTIVE point admits it at GAIN_TC; a SUSPECT point counts it, and its fourth recovers
the point. -/
def Obligations.ReadingsAreChecked : Prop :=
  (∀ (s : State) (port : PortIx) (x : Reading), s.PointTableLaw →
     ((∀ i, ¬ s.PointOf port x.channel i) → s.fuseReading port x =
       { s with ports := s.ports.upd port fun p => { p with unknownChannel := min 255 (p.unknownChannel + 1) } }) ∧
     (∀ i, s.PointOf port x.channel i →
       ((s.points.get i).state ∈ [.unbound, .failed, .excluded] → s.fuseReading port x =
         { s with points := s.points.upd i fun r => { r with discarded := min 255 (r.discarded + 1) } }) ∧
       ((s.points.get i).state ∈ [.active, .suspect] → x.status = .openCircuit → s.fuseReading port x =
         { s with
           points := s.points.upd i fun r =>
             { r with
               state := .failed, rejected := min 255 (r.rejected + 1)
               flags := { r.flags with openCircuit := true, failed := true } } }) ∧
       ((s.points.get i).state ∈ [.active, .suspect] → x.status ≠ .openCircuit →
         x.status = .unitRange ∨ x.value < 0 ∨ 12000 < x.value → s.fuseReading port x =
         { s with
           points := s.points.upd i fun r =>
             { r with
               state := if 2 ≤ r.rangeCount then .failed else r.state
               rangeCount := min 3 (r.rangeCount + 1), cleanCount := 0, rejected := min 255 (r.rejected + 1)
               flags := { r.flags with range := true, failed := r.flags.failed || decide (2 ≤ r.rangeCount) } } }))) ∧
  (∀ (s : State) (port : PortIx) (x : Reading) (i : PointIx) (e : PointEntry) (r : PointRecord), s.PointTableLaw →
     s.PointOf port x.channel i → s.pointTable.get i = e → s.points.get i = r → x.status = .ok → 0 ≤ x.value ∧ x.value ≤ 12000 →
     ((r.state = .active ∨ r.state = .suspect) → ∀ y, (s.cells.get e.home).estimate = some y → e.stepLimit < (x.value - y).natAbs →
       (5 ≤ r.badCount → s.fuseReading port x =
         { s with
           points := s.points.set i
             { r with
               state := .failed, rangeCount := 0, badCount := 6, cleanCount := 0, rejected := min 255 (r.rejected + 1)
               flags := { r.flags with step := true, failed := true } } }) ∧
       (r.badCount < 5 → s.fuseReading port x = State.applyReading
         { s with
           points := s.points.set i
             { r with
               state := .suspect, rangeCount := 0, badCount := r.badCount + 1, cleanCount := 0
               flags := { r.flags with step := true } } } e x.value (s.latched.gainTc / 4))) ∧
     ((∀ y, (s.cells.get e.home).estimate = some y → (x.value - y).natAbs ≤ e.stepLimit) →
       (r.state = .active → s.fuseReading port x = State.applyReading
         { s with points := s.points.set i { r with rangeCount := 0, badCount := 0 } } e x.value s.latched.gainTc) ∧
       (r.state = .suspect → r.cleanCount < 3 → s.fuseReading port x = State.applyReading
         { s with points := s.points.set i { r with rangeCount := 0, badCount := 0, cleanCount := r.cleanCount + 1 } }
         e x.value (s.latched.gainTc / 4)) ∧
       (r.state = .suspect → 3 ≤ r.cleanCount → s.fuseReading port x = State.applyReading
         { s with
           points := s.points.set i
             { r with
               state := .active, rangeCount := 0, badCount := 0, cleanCount := 0, disagreeCount := 0
               flags := { r.flags with recovered := true } } } e x.value s.latched.gainTc)))

/-- The cells of an admitted reading (R7, R29, R30, R51): the home cell is touched with share 16 and its anchor, if it
has one, takes T_last as the reading and T_age 0, whatever the gain; each cell of the spread list is touched with its
own share; no other cell and nothing else changes. -/
def Obligations.AdmittedReadingTouches : Prop :=
  ∀ (s : State) (e : PointEntry) (value : Int) (gain : Nat) (t : State), spreadDistinct e.home e.spread = true →
    s.applyReading e value gain = t →
    t = { s with cells := t.cells } ∧
    (t.cells.get e.home).content =
      ((s.cells.get e.home).touch s.latched.refreshMin .thermocouple value 16 gain).content ∧
    (t.cells.get e.home).anchor = (s.cells.get e.home).anchor.map (fun _ => ⟨some value, 0⟩) ∧
    (∀ x ∈ e.spread, t.cells.get x.cell =
      (s.cells.get x.cell).touch s.latched.refreshMin .thermocouple value x.share gain) ∧
    (∀ c, c ≠ e.home → (∀ x ∈ e.spread, x.cell ≠ c) → t.cells.get c = s.cells.get c)

/-- One binding of a scan (R32, R33, R68 to R73), `s` being the state at frame start and `bias` the view's bias then.
A slot not in use is passed over. A pixel beyond the count or flagged counts one skip. Otherwise the cell is touched
with V + C + B clamped to 0..12000, and the binding is tested exactly when the cell's home point is ACTIVE or SUSPECT
with a T_last no older than ANCHOR_AGE: more than DISAGREE_LIMIT from the bias is a disagreement; a residual within it
enters the mean if the point is ACTIVE. A disagreement hit and a clean-frame outcome (R53, R54), as the end of a scan
hands them to a point (R52, R76): a hit if any tested binding of its home cell disagreed, a clean frame if it was
tested and none did, nothing if it was not tested or does not serve. -/
def Obligations.ScanBindings : Prop :=
  (∀ (s : State) (bias : Int) (pixels : List Pixel) (w : ScanWork) (b : Binding),
     (b.inUse = false → w.binding s bias pixels b = w) ∧
     (b.inUse = true → pixels.length ≤ b.pixel.val → w.binding s bias pixels b = { w with skipped := w.skipped + 1 }) ∧
     (b.inUse = true → ∀ p, pixels[b.pixel.val]? = some p →
       (p.saturated = true ∨ p.obscured = true → w.binding s bias pixels b = { w with skipped := w.skipped + 1 }) ∧
       (p.saturated = false → p.obscured = false → ∀ offset w', (s.cellTable.get b.cell).irOffset = offset →
         w.binding s bias pixels b = w' →
         w'.cells = w.cells.upd b.cell (CellRecord.touch s.latched.refreshMin .scanner
           (max 0 (min 12000 (p.value + offset + bias))) b.share s.latched.gainIr) ∧
         w'.skipped = w.skipped ∧
         (∀ i a tLast, s.PointTableLaw → (s.pointTable.get i).inUse = true → (s.pointTable.get i).home = b.cell →
           (s.cells.get b.cell).anchor = some a → a.tLast = some tLast → a.tAge ≤ s.latched.anchorAge →
           ((s.points.get i).state = .active ∨ (s.points.get i).state = .suspect) →
           (s.latched.disagreeLimit < (tLast - (p.value + offset) - bias).natAbs →
             w'.tally = w.tally + 1 ∧ w'.sum = w.sum ∧ w'.included = w.included ∧ w'.tests = (i, true) :: w.tests) ∧
           ((tLast - (p.value + offset) - bias).natAbs ≤ s.latched.disagreeLimit → (s.points.get i).state = .active →
             w'.tally = w.tally ∧ w'.sum = w.sum + (tLast - (p.value + offset)) ∧ w'.included = w.included + 1 ∧
               w'.tests = (i, false) :: w.tests) ∧
           ((tLast - (p.value + offset) - bias).natAbs ≤ s.latched.disagreeLimit → (s.points.get i).state = .suspect →
             w'.tally = w.tally ∧ w'.sum = w.sum ∧ w'.included = w.included ∧ w'.tests = (i, false) :: w.tests)) ∧
         ((¬ ∃ i a tLast, (s.pointTable.get i).inUse = true ∧ (s.pointTable.get i).home = b.cell ∧
             (s.cells.get b.cell).anchor = some a ∧ a.tLast = some tLast ∧ a.tAge ≤ s.latched.anchorAge ∧
             ((s.points.get i).state = .active ∨ (s.points.get i).state = .suspect)) →
           w'.tally = w.tally ∧ w'.sum = w.sum ∧ w'.included = w.included ∧ w'.tests = w.tests)))) ∧
  (∀ (tests : List (PointIx × Bool)) (i : PointIx) (r : PointRecord),
     ((∀ d, (i, d) ∉ tests) → scanOutcome tests i.val r = r) ∧
     (r.state ∈ [.unbound, .failed, .excluded] → scanOutcome tests i.val r = r) ∧
     (r.state ∈ [.active, .suspect] → (i, false) ∈ tests → (i, true) ∉ tests →
       scanOutcome tests i.val r = { r with disagreeCount := 0 }) ∧
     (r.state = .active → (i, true) ∈ tests → scanOutcome tests i.val r =
       { r with
         disagreeCount := min 3 (r.disagreeCount + 1), cleanCount := 0
         state := if 2 ≤ r.disagreeCount then .suspect else .active
         flags := { r.flags with disagree := r.flags.disagree || decide (2 ≤ r.disagreeCount) } }) ∧
     (r.state = .suspect → (i, true) ∈ tests → scanOutcome tests i.val r =
       { r with
         disagreeCount := min 3 (r.disagreeCount + 1), cleanCount := 0, badCount := min 6 (r.badCount + 1)
         state := if 5 ≤ r.badCount then .failed else .suspect
         flags := { r.flags with
           disagree := r.flags.disagree || decide (r.disagreeCount = 2)
           failed := r.flags.failed || decide (5 ≤ r.badCount) } }))

/-- FRAME_FUSION (R17, R24, R29, R31): the frame in flight is discarded whole and counted in BLANK and in HELD; in
COMMISSIONING and RUNNING a SAMPLES frame is walked reading by reading, in the order the unit sent them. -/
def Obligations.SamplesFrameFused : Prop :=
  ∀ (s : State) (f : Frame), s.Settled → s.Runs (.frame f) → ∃ t, exec .frameFusion s = .next t ∧ s.NoReply t ∧
    (s.map.mode = .blank → State.Completes
      { s with map := { s.map with unmappedDiscards := min 65535 (s.map.unmappedDiscards + 1) } } t) ∧
    (s.map.mode = .held → State.Completes
      { s with map := { s.map with heldDiscards := min 65535 (s.map.heldDiscards + 1) } } t) ∧
    (s.map.mode = .commissioning ∨ s.map.mode = .running → ∀ port readings, f = .samples port readings →
      State.Completes (readings.foldl (State.fuseReading port) s) t)

/-- FRAME_FUSION of a SCAN frame in COMMISSIONING and RUNNING (R34, R69, R74, R75, R76): with what the walk of the
view's 64 bindings, from an empty working state, gives: the cells it touched; the bias moved toward the truncated
residual mean by BIAS_GAIN sixteenths, rounded, and clamped to −1000..+1000, or kept if no residual entered the mean;
the view's record; and one outcome for each point tested. -/
def Obligations.ScanFrameFused : Prop :=
  ∀ (s : State) (port : PortIx) (view : ViewIx) (pixels : List Pixel), s.Settled → s.Runs (.frame (.scan port view pixels)) →
    s.map.mode = .commissioning ∨ s.map.mode = .running →
    ∃ t w, exec .frameFusion s = .next t ∧ s.NoReply t ∧
      w = (s.viewTable.get view).toList.foldl (ScanWork.binding s (s.views.get view).bias pixels) ⟨s.cells, 0, 0, 0, 0, []⟩ ∧
      State.Completes { s with cells := w.cells, views := t.views, points := t.points } t ∧
      (∀ i, t.points.get i = scanOutcome w.tests i.val (s.points.get i)) ∧
      (∀ v, v ≠ view → t.views.get v = s.views.get v) ∧
      t.views.get view =
        { bias := (t.views.get view).bias
          lastFrame := some s.map.epoch
          framesFused := min 65535 ((s.views.get view).framesFused + 1)
          pixelsSkipped := min 65535 ((s.views.get view).pixelsSkipped + w.skipped)
          anchorsUsed := w.included
          disagreements := w.tally } ∧
      (w.included = 0 → (t.views.get view).bias = (s.views.get view).bias) ∧
      (0 < w.included → ∀ mean step, mean = w.sum.tdiv w.included →
        ((s.views.get view).bias ≤ mean →
          step = ((mean - (s.views.get view).bias) * s.latched.biasGain + 8) / 16) →
        (mean ≤ (s.views.get view).bias →
          step = -((((s.views.get view).bias - mean) * s.latched.biasGain + 8) / 16)) →
        (t.views.get view).bias = max (-1000) (min 1000 ((s.views.get view).bias + step)))

/-! ## The close -/

/-- Completion of a close whose pending list is empty, in every mode (R92, R105, R119, R120): the epoch number goes up
by one, wrapping; LIVE ports count silence and go QUIET at SILENCE_LIMIT; in HELD and BLANK nothing else changes, in
COMMISSIONING and RUNNING the cells, the summaries, the list and the flags of stages 1 to 5 do. -/
def Obligations.CloseCompletes : Prop :=
  ∀ (s : State) (staleAge hotFloor : Nat), s.Settled → s.Runs (.close staleAge hotFloor) → s.stage.pendingPages = [] →
    ∃ t, exec .close s = .next t ∧ s.NoReply t ∧
      (∀ p, t.ports.get p =
        if (s.ports.get p).state = .live then
          if s.settings.silenceLimit ≤ (s.ports.get p).silence + 1 then
            { s.ports.get p with
              silence := (s.ports.get p).silence + 1, state := .quiet
              flags := { (s.ports.get p).flags with quiet := true } }
          else { s.ports.get p with silence := (s.ports.get p).silence + 1 }
        else s.ports.get p) ∧
      (s.map.mode = .held → s.someInUse = true →
        State.Completes { s with ports := t.ports, map := { s.map with epoch := s.map.epoch + 1 } } t) ∧
      (s.map.mode = .blank → s.someInUse = false → State.Completes
        { s with
          ports := t.ports
          map := { s.map with
            epoch := s.map.epoch + 1, hotList := [], buildingEpoch := none
            summaries := Table.replicate 8 ⟨0, 0, 0, 0, 0, 0, none, none⟩ } } t) ∧
      (s.map.mode = .commissioning ∨ s.map.mode = .running → s.someInUse = true → State.Completes
        { s with
          ports := t.ports
          cells := t.cells
          map := { s.map with
            epoch := s.map.epoch + 1, hotList := t.map.hotList, buildingEpoch := some s.map.epoch
            summaries := t.map.summaries, passFlags := t.map.passFlags, topChanged := t.map.topChanged } } t)

/-- What stages 1 to 3 of a close do to each cell in COMMISSIONING and RUNNING (R5, R106 to R108, R110, R111): every
anchor ages; EMPTY and UNUSED cells keep their content; a STALE cell ages and takes its estimate as baseline; a LIVE
cell ages, and either reaches STALE_AGE and becomes STALE with its alert state, or gets its rise over the old
baseline, clamped to ±2000, and is evaluated against its class by Table 6-3, unless it has none. -/
def Obligations.CloseMovesEachCell : Prop :=
  ∀ (s t : State) (staleAge hotFloor : Nat) (c : CellIx), s.Runs (.close staleAge hotFloor) → s.stage.pendingPages = [] →
    s.map.mode = .commissioning ∨ s.map.mode = .running → exec .close s = .next t →
    (t.cells.get c).anchor = (s.cells.get c).anchor.map (fun a => { a with tAge := min 255 (a.tAge + 1) }) ∧
    ((s.cells.get c).content = .unused → (t.cells.get c).content = .unused) ∧
    ((s.cells.get c).content = .empty → (t.cells.get c).content = .empty) ∧
    (∀ b, (s.cells.get c).content = .stale b →
      (t.cells.get c).content = .stale { b with age := min 255 (b.age + 1), baseline := some b.estimate }) ∧
    (∀ b r, (s.cells.get c).content = .live b r → staleAge ≤ min 255 (b.age + 1) →
      (t.cells.get c).content = .stale { b with age := min 255 (b.age + 1), baseline := some b.estimate }) ∧
    (∀ b r, (s.cells.get c).content = .live b r → min 255 (b.age + 1) < staleAge → ∃ alert,
      (t.cells.get c).content = .live { b with age := min 255 (b.age + 1), baseline := some b.estimate, alert := alert }
        (b.baseline.map fun p => max (-2000) (min 2000 (b.estimate - p))) ∧
      ((s.cellTable.get c).limitClass = none → alert = b.alert) ∧
      (∀ k l, (s.cellTable.get c).limitClass = some k → s.limits.get k = l → l.high < l.highHigh → 0 ≤ l.deadband →
        (b.alert = .normal →
          (alert = .highHigh ↔ l.highHigh ≤ b.estimate) ∧
          (alert = .high ↔ l.high ≤ b.estimate ∧ b.estimate < l.highHigh) ∧
          (alert = .normal ↔ b.estimate < l.high)) ∧
        (b.alert = .high →
          (alert = .highHigh ↔ l.highHigh ≤ b.estimate) ∧
          (alert = .high ↔ l.high - l.deadband ≤ b.estimate ∧ b.estimate < l.highHigh) ∧
          (alert = .normal ↔ b.estimate < l.high - l.deadband)) ∧
        (b.alert = .highHigh →
          (alert = .highHigh ↔ l.highHigh - l.deadband ≤ b.estimate) ∧
          (alert = .high ↔ l.high - l.deadband ≤ b.estimate ∧ b.estimate < l.highHigh - l.deadband) ∧
          (alert = .normal ↔ b.estimate < l.high - l.deadband))))

/-- The pass flags and TOP-CHANGED of a close (R112, R113, R117): in COMMISSIONING none is latched; in RUNNING each
flag of a pass is set afterwards exactly if it was set or a cell of the pass made its move or has a rise above its
class's limit, and TOP-CHANGED exactly if it was set or the first cell of the list is another, or one list is empty
and the other is not. -/
def Obligations.CloseLatchesPassFlags : Prop :=
  ∀ (s t : State) (staleAge hotFloor : Nat) (p : Fin 8), s.Runs (.close staleAge hotFloor) → s.stage.pendingPages = [] →
    exec .close s = .next t →
    (s.map.mode = .commissioning → t.map.passFlags = s.map.passFlags ∧ t.map.topChanged = s.map.topChanged) ∧
    (s.map.mode = .running →
      ((t.map.passFlags.get p).hhEntered = true ↔ (s.map.passFlags.get p).hhEntered = true ∨
        ∃ c ∈ cellsOfPass p, (s.cells.get c).alert ≠ .highHigh ∧ (t.cells.get c).alert = .highHigh) ∧
      ((t.map.passFlags.get p).highEntered = true ↔ (s.map.passFlags.get p).highEntered = true ∨
        ∃ c ∈ cellsOfPass p, (s.cells.get c).alert = .normal ∧ (t.cells.get c).alert = .high) ∧
      ((t.map.passFlags.get p).cleared = true ↔ (s.map.passFlags.get p).cleared = true ∨
        ∃ c ∈ cellsOfPass p, (s.cells.get c).alert = .highHigh ∧ (t.cells.get c).alert ≠ .highHigh ∨
          (s.cells.get c).alert = .high ∧ (t.cells.get c).alert = .normal) ∧
      ((t.map.passFlags.get p).rise = true ↔ (s.map.passFlags.get p).rise = true ∨
        ∃ c ∈ cellsOfPass p, ∃ k r, (s.cellTable.get c).limitClass = some k ∧ (t.cells.get c).rise = some r ∧
          (s.limits.get k).riseLimit < r) ∧
      (s.someInUse = true → (t.map.topChanged = true ↔ s.map.topChanged = true ∨
        t.map.hotList.head?.map HotSpot.cell ≠ s.map.hotList.head?.map HotSpot.cell)))

/-- The eight summaries after a close in COMMISSIONING or RUNNING (R1, R114), counted from the cells as the close
leaves them; the hottest LIVE cell and the largest rise, ties to the lowest index, or neither. The hot-spot list after
a close in COMMISSIONING or RUNNING (R116): ranked, at most 16 entries; each shows a LIVE cell of at least HOT_FLOOR
as the close leaves it; and a LIVE cell of at least HOT_FLOOR is left out only when the list is full of cells that
rank before it. It is stamped with the epoch that is closing. -/
def Obligations.CloseRebuildsReports : Prop :=
  (∀ (s t : State) (staleAge hotFloor : Nat) (p : Fin 8) (u : PassSummary), s.Runs (.close staleAge hotFloor) →
     s.stage.pendingPages = [] → s.someInUse = true → s.map.mode = .commissioning ∨ s.map.mode = .running →
     exec .close s = .next t → t.map.summaries.get p = u →
     u.inUse = (cellsOfPass p).countP (fun c => (t.cells.get c).inUse) ∧
     u.empty = (cellsOfPass p).countP (fun c => decide ((t.cells.get c).content = .empty)) ∧
     u.live = (cellsOfPass p).countP (fun c => (t.cells.get c).liveEstimate.isSome) ∧
     u.empty + u.live + u.stale = u.inUse ∧
     u.high = (cellsOfPass p).countP (fun c => decide ((t.cells.get c).alert = .high)) ∧
     u.highHigh = (cellsOfPass p).countP (fun c => decide ((t.cells.get c).alert = .highHigh)) ∧
     (u.hottest = none ↔ ∀ c ∈ cellsOfPass p, (t.cells.get c).liveEstimate = none) ∧
     (∀ n e, u.hottest = some (n, e) → ∃ c ∈ cellsOfPass p, c.val = n ∧ (t.cells.get c).liveEstimate = some e ∧
       ∀ d ∈ cellsOfPass p, ∀ f, (t.cells.get d).liveEstimate = some f → f < e ∨ (f = e ∧ c ≤ d)) ∧
     (u.largestRise = none ↔ ∀ c ∈ cellsOfPass p, (t.cells.get c).rise = none) ∧
     (∀ n e, u.largestRise = some (n, e) → ∃ c ∈ cellsOfPass p, c.val = n ∧ (t.cells.get c).rise = some e ∧
       ∀ d ∈ cellsOfPass p, ∀ f, (t.cells.get d).rise = some f → f < e ∨ (f = e ∧ c ≤ d))) ∧
  (∀ (s t : State) (staleAge hotFloor : Nat), s.Runs (.close staleAge hotFloor) →
     s.stage.pendingPages = [] → s.someInUse = true → s.map.mode = .commissioning ∨ s.map.mode = .running →
     exec .close s = .next t →
     t.map.buildingEpoch = some s.map.epoch ∧ t.HotLaw ∧
     (∀ h ∈ t.map.hotList, ∃ c b r, h = ⟨c.val, b.estimate, b.alert, b.age, r⟩ ∧ (t.cells.get c).content = .live b r ∧
       (hotFloor : Int) ≤ b.estimate) ∧
     (∀ c b r, (t.cells.get c).content = .live b r → (hotFloor : Int) ≤ b.estimate →
       (⟨c.val, b.estimate, b.alert, b.age, r⟩ : HotSpot) ∈ t.map.hotList ∨
       t.map.hotList.length = 16 ∧ ∀ h ∈ t.map.hotList, h.before ⟨c.val, b.estimate, b.alert, b.age, r⟩))

/-- Installs at close completion (R12, R119, R143, R145). The pending pages are taken in list order, each on what the
earlier ones left. A close with pages pending completes as the same close without them would (`plain`, of which the
statements above speak), with the tables and the cell, point and view records that taking the pages makes of what stages
1 to 5 leave: the ports, the pass flags, TOP-CHANGED and, with a cell in use before and after, the hot-spot list and the
summaries are those of that close; in BLANK and HELD list and summaries stand. The list is then empty, the last-install
record tells the outcomes with the advanced epoch number, INSTALLED and DROPPED are latched by them, and the map settles
its mode: BLANK with list and summaries emptied when no cell is in use, COMMISSIONING from BLANK when one is. Everything
else, the hold records among it, is kept. -/
def Obligations.CloseInstalls : Prop :=
  (∀ s : State, installAll [] s = (s, [])) ∧
  (∀ (page : Page) (pages : List Page) (s : State), installAll (page :: pages) s =
     ((installAll pages (s.installPage page).1).1,
       (page.target, (s.installPage page).2) :: (installAll pages (s.installPage page).1).2)) ∧
  (∀ (s : State) (staleAge hotFloor : Nat), s.Settled → s.Runs (.close staleAge hotFloor) → ∃ t plain after outcomes,
     exec .close s = .next t ∧ exec .close { s with stage := { s.stage with pendingPages := [] } } = .next plain ∧
     installAll s.stage.pendingPages { s with cells := plain.cells } = (after, outcomes) ∧
     outcomes.map Prod.fst = s.stage.pendingPages.map Page.target ∧ s.NoReply t ∧
     State.Completes
       { after with
         ports := plain.ports
         stage := t.stage
         map := { s.map with
           mode := t.map.mode, epoch := s.map.epoch + 1, passFlags := plain.map.passFlags, topChanged := plain.map.topChanged
           hotList := t.map.hotList, buildingEpoch := t.map.buildingEpoch, summaries := t.map.summaries } } t ∧
     (s.stage.pendingPages = [] → t.stage = s.stage) ∧
     (s.stage.pendingPages ≠ [] → t.stage =
       { s.stage with
         pendingPages := []
         lastInstall := some ⟨s.map.epoch + 1, outcomes⟩
         installed := s.stage.installed || outcomes.any fun o => decide (o.2 = .installed)
         dropped := s.stage.dropped || outcomes.any fun o => decide (o.2 = .dropped) }) ∧
     ((∀ c, (after.cellTable.get c).inUse = false) → t.map.mode = .blank ∧ t.map.hotList = [] ∧ t.map.buildingEpoch = none ∧
       t.map.summaries = Table.replicate 8 ⟨0, 0, 0, 0, 0, 0, none, none⟩) ∧
     ((∃ c, (after.cellTable.get c).inUse = true) →
       t.map.mode = (if s.map.mode = .blank then .commissioning else s.map.mode) ∧
       (s.someInUse = true → t.map.hotList = plain.map.hotList ∧ t.map.buildingEpoch = plain.map.buildingEpoch ∧
         t.map.summaries = plain.map.summaries) ∧
       (s.map.mode = .blank ∨ s.map.mode = .held → t.map.hotList = s.map.hotList ∧
         t.map.buildingEpoch = s.map.buildingEpoch ∧ t.map.summaries = s.map.summaries)))

/-- A CELLS page installs (R2, R9 to R11, R59, R60, R143): the entry of each filled slot is replaced; its record is
dropped, made EMPTY, or kept, with the alert state NORMAL if the class differs; the point homed on a cell that leaves
use becomes UNBOUND and one homed on a cell that enters use becomes ACTIVE, counts 0; an unfilled slot and every other
cell are as they were. -/
def Obligations.CellsPageInstalls : Prop :=
  ∀ (s t : State) (p : Fin 64) (slots : Table 32 (Option CellEntry)), s.PointTableLaw → (∃ i, slots.get i ≠ none) →
    (s.installPage (.cells p slots)).1 = t →
    (s.installPage (.cells p slots)).2 = .installed ∧
    t = { s with cellTable := t.cellTable, cells := t.cells, points := t.points } ∧
    (∀ i c, cellOfSlot p i = c → slots.get i = none →
      t.cellTable.get c = s.cellTable.get c ∧ t.cells.get c = s.cells.get c) ∧
    (∀ c : CellIx, c.val / 32 ≠ p.val → t.cellTable.get c = s.cellTable.get c ∧ t.cells.get c = s.cells.get c) ∧
    (∀ i c e, cellOfSlot p i = c → slots.get i = some e →
      t.cellTable.get c = e ∧
      ((s.cellTable.get c).inUse = true → e.inUse = false → t.cells.get c = ⟨.unused, none⟩) ∧
      ((s.cellTable.get c).inUse = false → e.inUse = true →
        (t.cells.get c).content = .empty ∧
        ((∃ j, (s.pointTable.get j).inUse = true ∧ (s.pointTable.get j).home = c) →
          (t.cells.get c).anchor = some ⟨none, 0⟩) ∧
        ((¬ ∃ j, (s.pointTable.get j).inUse = true ∧ (s.pointTable.get j).home = c) → (t.cells.get c).anchor = none)) ∧
      ((s.cellTable.get c).inUse = true → e.inUse = true → t.cells.get c =
        if e.limitClass = (s.cellTable.get c).limitClass then s.cells.get c else (s.cells.get c).alertNormal) ∧
      ((s.cellTable.get c).inUse = false → e.inUse = false → t.cells.get c = s.cells.get c)) ∧
    (∀ j, t.points.get j =
      if (s.pointTable.get j).inUse = false then s.points.get j
      else if (s.cellTable.get (s.pointTable.get j).home).inUse = true ∧
          (t.cellTable.get (s.pointTable.get j).home).inUse = false then
        { s.points.get j with state := .unbound, rangeCount := 0, badCount := 0, cleanCount := 0, disagreeCount := 0 }
      else if (s.cellTable.get (s.pointTable.get j).home).inUse = false ∧
          (t.cellTable.get (s.pointTable.get j).home).inUse = true ∧ (s.points.get j).state = .unbound then
        { s.points.get j with state := .active, rangeCount := 0, badCount := 0, cleanCount := 0, disagreeCount := 0 }
      else s.points.get j)

/-- A POINTS page (R38, R58, R144): a page that would break the law of the point table is dropped whole; otherwise the
entry and the record of each filled slot are replaced, the record with everything 0 and ACTIVE or UNBOUND by its home
cell, the new home cell in use gets a fresh anchor, an old one that is no new one loses its own, and everything else
is as it was. A VIEWS page and a LIMITS page install (R64, R80, R109), and a page with no filled slot is passed
(R143): a filled slot's binding or class is replaced, the view's bias becomes 0 with the rest of its record kept, and
no alert state moves. -/
def Obligations.OtherPagesInstall : Prop :=
  (∀ (s t : State) (p : Fin 3) (slots : Table 32 (Option PointEntry)) (table : Table 96 PointEntry),
     (∃ i, slots.get i ≠ none) →
     (∀ i e, slots.get i = some e → table.get (pointOfSlot p i) = e) →
     (∀ i, slots.get i = none → table.get (pointOfSlot p i) = s.pointTable.get (pointOfSlot p i)) →
     (∀ j : PointIx, j.val / 32 ≠ p.val → table.get j = s.pointTable.get j) →
     (s.installPage (.points p slots)).1 = t →
     ((∃ j k, j ≠ k ∧ (table.get j).inUse = true ∧ (table.get k).inUse = true ∧
         ((table.get j).port = (table.get k).port ∧ (table.get j).channel = (table.get k).channel ∨
           (table.get j).home = (table.get k).home)) →
       (s.installPage (.points p slots)).2 = .dropped ∧ t = s) ∧
     ((∀ j k, j ≠ k → (table.get j).inUse = true → (table.get k).inUse = true →
         ¬ ((table.get j).port = (table.get k).port ∧ (table.get j).channel = (table.get k).channel) ∧
           (table.get j).home ≠ (table.get k).home) →
       (s.installPage (.points p slots)).2 = .installed ∧
       t = { s with pointTable := table, points := t.points, cells := t.cells } ∧
       (∀ i e, slots.get i = some e → t.points.get (pointOfSlot p i) =
         ⟨if e.inUse = true ∧ (s.cellTable.get e.home).inUse = true then .active else .unbound,
           0, 0, 0, 0, 0, 0, PointFlags.clear⟩) ∧
       (∀ i, slots.get i = none → t.points.get (pointOfSlot p i) = s.points.get (pointOfSlot p i)) ∧
       (∀ j : PointIx, j.val / 32 ≠ p.val → t.points.get j = s.points.get j) ∧
       (∀ c, (t.cells.get c).content = (s.cells.get c).content) ∧
       (∀ i e, slots.get i = some e → e.inUse = true → (s.cellTable.get e.home).inUse = true →
         (t.cells.get e.home).anchor = some ⟨none, 0⟩) ∧
       (∀ c, (∀ i e, slots.get i = some e → e.inUse = true → (s.cellTable.get e.home).inUse = true → e.home ≠ c) →
         ((∃ i, slots.get i ≠ none ∧ (s.pointTable.get (pointOfSlot p i)).inUse = true ∧
             (s.pointTable.get (pointOfSlot p i)).home = c) → (t.cells.get c).anchor = none) ∧
         ((¬ ∃ i, slots.get i ≠ none ∧ (s.pointTable.get (pointOfSlot p i)).inUse = true ∧
             (s.pointTable.get (pointOfSlot p i)).home = c) → (t.cells.get c).anchor = (s.cells.get c).anchor)))) ∧
  (∀ (s t : State),
     (∀ page : Page, page.filled = 0 → s.installPage page = (s, .empty)) ∧
     (∀ (p : Fin 32) (slots : Table 32 (Option Binding)), (∃ i, slots.get i ≠ none) →
       (s.installPage (.views p slots)).1 = t →
       (s.installPage (.views p slots)).2 = .installed ∧
       t = { s with viewTable := t.viewTable, views := t.views } ∧
       (∀ i b, slots.get i = some b → (t.viewTable.get (viewOfPage p)).get (bindingOfSlot p i) = b) ∧
       (∀ i, slots.get i = none → (t.viewTable.get (viewOfPage p)).get (bindingOfSlot p i) =
         (s.viewTable.get (viewOfPage p)).get (bindingOfSlot p i)) ∧
       (∀ n : Fin 64, n.val / 32 ≠ p.val % 2 → (t.viewTable.get (viewOfPage p)).get n =
         (s.viewTable.get (viewOfPage p)).get n) ∧
       (∀ v, v ≠ viewOfPage p → t.viewTable.get v = s.viewTable.get v ∧ t.views.get v = s.views.get v) ∧
       t.views.get (viewOfPage p) = { s.views.get (viewOfPage p) with bias := 0 }) ∧
     (∀ slots : Table 8 (Option LimitClass), (∃ i, slots.get i ≠ none) →
       (s.installPage (.limits slots)).1 = t →
       (s.installPage (.limits slots)).2 = .installed ∧ t = { s with limits := t.limits } ∧
       ∀ k, t.limits.get k = (slots.get k).getD (s.limits.get k)))

/-! ## The host link -/

/-- HOST_FRAME_RECEIVED with a good CRC (R157 to R159): whatever its kind, it joins a buffer of fewer than 4 requests;
at a full buffer it is answered BUSY while fewer than 3 BUSY replies are ready, or 3 with none being sent, and is
discarded without a reply when 4 are ready. (Whether a BUSY reply being sent counts as one of the four is left open,
log entry 6.) HOST_FRAME_RECEIVED with a bad CRC, HOST_LENGTH_OUT_OF_RANGE and HOST_GAP_TIMEOUT (R157): the frame is
discarded without a reply and the bad-CRC counter counts one, saturating at 255; a gap while the receiver hunts is
nothing. -/
def Obligations.RequestsAreReceived : Prop :=
  (∀ (s : State) (bytes body : List Byte) (kind tag : Byte) (busy : Nat), s.Settled → s.resetLow = false →
     receive s.host.assembly bytes = (.good kind tag body, []) → busy = s.host.ready.countP (fun r => !r.inService) →
     ∃ t, exec (.hostFrameReceived bytes) s = .next t ∧
       (s.host.buffer.length < 4 →
         t = { s with host := { s.host with assembly := [], buffer := s.host.buffer ++ [⟨kind, tag, body⟩] } }) ∧
       (4 ≤ s.host.buffer.length → busy < 3 ∨ (busy = 3 ∧ ∀ o, s.host.sending = some o → o.inService = true ∨ o.kind = 0xF0) →
         t.host.outbox = s.host.outbox ++ [⟨replyKind kind, tag, [0x10], [], false⟩] ∧ t.host.service = s.host.service ∧
         t.apartFromReply = { s with host := { s.host with assembly := [] } }.apartFromReply) ∧
       (4 ≤ s.host.buffer.length → 4 ≤ busy → t = { s with host := { s.host with assembly := [] } })) ∧
  (∀ (s : State) (bytes : List Byte), s.Settled → s.resetLow = false →
     (receive s.host.assembly bytes = (.badCrc, []) → exec (.hostFrameReceived bytes) s =
       .next { s with host := { s.host with assembly := [], badCrc := min 255 (s.host.badCrc + 1) } }) ∧
     (receive s.host.assembly bytes = (.badLength, []) → exec (.hostLengthOutOfRange bytes) s =
       .next { s with host := { s.host with assembly := [], badCrc := min 255 (s.host.badCrc + 1) } }) ∧
     (∀ b rest, receive s.host.assembly bytes = (.partialFrame (b :: rest), []) → exec (.hostGapTimeout bytes) s =
       .next { s with host := { s.host with assembly := [], badCrc := min 255 (s.host.badCrc + 1) } }) ∧
     (receive s.host.assembly bytes = (.partialFrame [], []) → exec (.hostGapTimeout bytes) s =
       .next { s with host := { s.host with assembly := [] } }))

/-- HOST_FRAME_SENT (R153, R158, R159, R161): a further part of the reply follows with nothing between; after the last
frame of the reply in service its request leaves the buffer and none is in service; then the oldest ready reply is
sent, else the URGENT notice, else the ROUTINE notice. (That the choice comes before the next request is taken is the
model's reading, log entry 8.) -/
def Obligations.TransmitterChooses : Prop :=
  ∀ (s : State) (o : Outgoing), s.Settled → s.resetLow = false → s.host.sending = some o →
    (∀ p ps, o.rest = p :: ps → exec .hostFrameSent s =
      .next { s with host := { s.host with sending := some { o with body := p, rest := ps } } }) ∧
    (∀ h, o.rest = [] →
      h = (if o.inService then { s.host with buffer := s.host.buffer.tail, service := .idle } else s.host) →
      (∀ r rs, s.host.ready = r :: rs → exec .hostFrameSent s =
        .next { s with host := { h with ready := rs, sending := some r.outgoing } }) ∧
      (s.host.ready = [] → ∀ n, s.events.urgentNotice = some n → exec .hostFrameSent s =
        .next { s with
          host := { h with sending := some ⟨0xF0, 0, noticeBody 1 n, [], false⟩ }
          events := { s.events with urgentNotice := none } }) ∧
      (s.host.ready = [] → s.events.urgentNotice = none → ∀ n, s.events.routineNotice = some n → exec .hostFrameSent s =
        .next { s with
          host := { h with sending := some ⟨0xF0, 0, noticeBody 0 n, [], false⟩ }
          events := { s.events with routineNotice := none } }) ∧
      (s.host.ready = [] → s.events.urgentNotice = none → s.events.routineNotice = none → exec .hostFrameSent s =
        .next { s with host := { h with sending := none } }))

/-- The checks of a taken request (R160): a kind not in Table 10-5 is answered UNKNOWN-REQUEST with kind 0xFF, and a
known one whose body is not of the length that Table 10-6 gives BAD-LENGTH with its kind plus 0x80, each with its tag,
without effect and without the map. INJECT takes any body of at least 2 bytes, and STAGE-PUT is judged by the stage.
HOST_ITEM_POSTED (R14, R16, R158): a map-side request of the right length is taken and posted; a free map takes it at
once, and otherwise it waits behind the items already posted. (That the post of a request of wrong length is no event is
the model's choice, log entry 2.) -/
def Obligations.RequestsAreTaken : Prop :=
  (∀ (s : State) (r : Request), s.Settled → s.resetLow = false → s.nextRequest = some r →
     (r.kind ∉ requestCommands.map Prod.snd → ∃ t, exec .unknownRequest s = .next t ∧
       t.host.outbox = s.host.outbox ++ [⟨0xFF, r.tag, [0x12], [], true⟩] ∧ t.host.service = .replied ∧
       t.apartFromReply = s.apartFromReply) ∧
     (∀ c k, (c, k) ∈ requestCommands → r.kind = k →
       (k ∈ [0x01, 0x04, 0x05, 0x10, 0x11, 0x12, 0x13, 0x14, 0x15, 0x16, 0x21, 0x48, 0x52, 0x53, 0x54, 0x60] ∧ r.body.length ≠ 0) ∨
         (k ∈ [0x03, 0x22, 0x30, 0x31, 0x32, 0x38, 0x40] ∧ r.body.length ≠ 1) ∨ (k = 0x55 ∧ r.body.length ≠ 2) ∨
         (k ∈ [0x02, 0x20, 0x50] ∧ r.body.length ≠ 3) ∨ (k = 0x41 ∧ r.body.length < 2) →
       exec .hostItemPosted s = .next s ∧ ∃ t, exec c s = .next t ∧
       t.host.outbox = s.host.outbox ++ [⟨k + 0x80, r.tag, [0x11], [], true⟩] ∧ t.host.service = .replied ∧
       t.apartFromReply = s.apartFromReply)) ∧
  (∀ (s : State) (r : Request), s.Settled → s.resetLow = false → s.nextRequest = some r →
     (r.kind ∈ [0x10, 0x11, 0x12, 0x13, 0x14, 0x16, 0x21] ∧ r.body.length = 0) ∨
       (r.kind ∈ [0x22, 0x30, 0x31, 0x32, 0x38] ∧ r.body.length = 1) ∨ (r.kind = 0x20 ∧ r.body.length = 3) →
     (s.map.inFlight = none → s.map.softResetWaits = false → exec .hostItemPosted s =
       .next { s with
         host := { s.host with service := .waiting }
         map := { s.map with inFlight := some (.host r) } }) ∧
     (s.map.inFlight ≠ none ∨ s.map.softResetWaits = true → exec .hostItemPosted s =
       .next { s with
         host := { s.host with service := .waiting }
         map := { s.map with items := s.map.items ++ [.host r] } }))

/-- IDENTIFY (R164): part code 0x2480, revision 3 and the ten capacities, whatever the state, which it does not
change. -/
def Obligations.IdentifyReply : Prop :=
  ∀ (s : State) (r : Request), s.Settled → s.Takes 0x01 r → r.body = [] → ∃ t, exec .identify s = .next t ∧
    s.Answers t r [[0x00, 0x24, 0x80, 3, 0x08, 0x00, 96, 16, 64, 8, 8, 16, 32, 4, 4]] ∧
    t.apartFromReply = s.apartFromReply

/-- READ-LINK-STATUS (R165): the bad-CRC counter is returned and set to 0, in every mode, with nothing else changed. A
frame that fails its CRC afterwards counts afresh; a good frame, answered BUSY or dropped or not, is not counted. -/
def Obligations.LinkStatusReadAndCleared : Prop :=
  (∀ (s : State) (r : Request), s.Settled → s.Takes 0x05 r → r.body = [] → ∃ t, exec .readLinkStatus s = .next t ∧
    s.Answers t r [[0x00, BitVec.ofNat 8 s.host.badCrc]] ∧
    t.apartFromReply = { s with host := { s.host with badCrc := 0 } }.apartFromReply) ∧
  (∀ (s t : State) (bytes : List Byte), s.resetLow = false → exec (.hostFrameReceived bytes) s = .next t →
    (receive s.host.assembly bytes = (.badCrc, []) → t.host.badCrc = min 255 (s.host.badCrc + 1)) ∧
    (∀ k tag body, receive s.host.assembly bytes = (.good k tag body, []) → t.host.badCrc = s.host.badCrc))

/-- GET (R163): the id and the value as the store holds it, by the ids of Table 10-3; any other id is answered
BAD-ARGUMENT; it changes nothing. -/
def Obligations.GetReturnsTheStoredValue : Prop :=
  ∀ (s : State) (r : Request) (id : Byte) (g : Settings), s.Settled → s.Takes 0x03 r → r.body = [id] → s.settings = g →
    ∃ t, exec .get s = .next t ∧ t.apartFromReply = s.apartFromReply ∧
      (∀ n v : Nat, id.toNat = n →
        (n, v) ∈ [(0x01, g.epochPeriod), (0x02, if g.epochMode = .single then 1 else 0), (0x03, if g.epochRun then 1 else 0),
          (0x10, g.gainTc), (0x11, g.gainIr), (0x12, g.refreshMin), (0x13, g.staleAge), (0x14, g.hotFloor),
          (0x20, g.disagreeLimit), (0x21, g.anchorAge), (0x22, g.biasGain), (0x30, g.silenceLimit),
          (0x40, (g.lineEdge.get 0).code), (0x41, (g.lineEdge.get 1).code), (0x42, (g.lineEdge.get 2).code),
          (0x43, (g.lineEdge.get 3).code), (0x48, (g.lineAction.get 0).code), (0x49, (g.lineAction.get 1).code),
          (0x4A, (g.lineAction.get 2).code), (0x4B, (g.lineAction.get 3).code), (0x50, g.eventEnable.toNat),
          (0x51, g.eventUrgent.toNat)] →
        s.Answers t r [[0x00, id, BitVec.ofNat 8 (v / 256), BitVec.ofNat 8 v]]) ∧
      (id.toNat ∉ [0x01, 0x02, 0x03, 0x10, 0x11, 0x12, 0x13, 0x14, 0x20, 0x21, 0x22, 0x30, 0x40, 0x41, 0x42, 0x43, 0x48, 0x49,
          0x4A, 0x4B, 0x50, 0x51] → s.Answers t r [[0x13]])

/-- SET stores (R130, R150, R162, Table 10-3): a clamp setting takes the value clamped to its range, answered OK or
CLAMPED; a refuse setting takes a value of its range and refuses another with BAD-ARGUMENT; BOTH on a HOLD line is
stored as RISE, and HOLD on a BOTH line rewrites the edge to RISE, each answered CLAMPED; an unknown id is refused.
Every other setting keeps its value, and a refused SET changes nothing. -/
def Obligations.SetStoresTheValue : Prop :=
  ∀ (s : State) (r : Request) (id hi lo : Byte) (v : Nat), s.Settled → s.Takes 0x02 r → r.body = [id, hi, lo] →
    v = 256 * hi.toNat + lo.toNat → ∃ t, exec .set s = .next t ∧
      (∀ low high : Nat, (id.toNat, low, high) ∈ [(0x01, 100, 60000), (0x10, 0, 16), (0x11, 0, 16), (0x12, 1, 256), (0x13, 1, 255),
          (0x14, 0, 12000), (0x20, 100, 3000), (0x21, 0, 15), (0x22, 0, 16), (0x30, 1, 15)] →
        settingValue t.settings id.toNat = some (max low (min high v)) ∧
        s.Answers t r [(if low ≤ v ∧ v ≤ high then 0x00 else 0x01) :: id :: bytes16 (max low (min high v))] ∧
        (∀ id', id' ≠ id.toNat → settingValue t.settings id' = settingValue s.settings id')) ∧
      (∀ high : Nat, (id.toNat, high) ∈ [(0x02, 1), (0x03, 1), (0x40, 3), (0x41, 3), (0x42, 3), (0x43, 3), (0x48, 2), (0x49, 2), (0x4A, 2),
          (0x4B, 2), (0x50, 127), (0x51, 127)] →
        (high < v → s.Answers t r [[0x13]] ∧ t.apartFromReply = s.apartFromReply) ∧
        (v ≤ high →
          (∀ n, lineOfEdgeId id.toNat = some n → ¬ (v = 3 ∧ s.settings.lineAction.get n = .hold)) →
          (∀ n, lineOfActionId id.toNat = some n → ¬ (v = 1 ∧ s.settings.lineEdge.get n = .both)) →
          settingValue t.settings id.toNat = some v ∧ s.Answers t r [0x00 :: id :: bytes16 v] ∧
          (∀ id', id' ≠ id.toNat → settingValue t.settings id' = settingValue s.settings id'))) ∧
      (∀ n : LineIx, id.toNat = 0x40 + n.val → v = 3 → s.settings.lineAction.get n = .hold →
        t.settings.lineEdge.get n = .rise ∧ s.Answers t r [[0x01, id, 0, 1]] ∧
        (∀ id', id' ≠ id.toNat → settingValue t.settings id' = settingValue s.settings id')) ∧
      (∀ n : LineIx, id.toNat = 0x48 + n.val → v = 1 → s.settings.lineEdge.get n = .both →
        t.settings.lineAction.get n = .hold ∧ t.settings.lineEdge.get n = .rise ∧ s.Answers t r [[0x01, id, 0, 1]] ∧
        (∀ id', id' ≠ id.toNat → id' ≠ 0x40 + n.val → settingValue t.settings id' = settingValue s.settings id')) ∧
      (id.toNat ∉ [0x01, 0x02, 0x03, 0x10, 0x11, 0x12, 0x13, 0x14, 0x20, 0x21, 0x22, 0x30, 0x40, 0x41, 0x42, 0x43, 0x48, 0x49,
          0x4A, 0x4B, 0x50, 0x51] → s.Answers t r [[0x13]] ∧ t.apartFromReply = s.apartFromReply)

/-- What a taken SET makes its owner do (R103, R129, R130): one of the timer's three settings restarts the running
count; one of a line's two makes the line take its hold flag from its level and the stored settings, without EDGE, and
post a hold item if the flag changes; any other setting leaves the timer and the lines alone. Nothing else changes. -/
def Obligations.SetMovesTimerAndHolds : Prop :=
  ∀ (s t : State) (r : Request) (id hi lo : Byte), s.Settled → s.Takes 0x02 r → r.body = [id, hi, lo] →
    exec .set s = .next t → ¬ s.Answers t r [[0x13]] →
    t.body = { s.body with settings := t.settings, timerCount := t.timerCount, lines := t.lines } ∧
    (id.toNat ∈ [0x01, 0x02, 0x03] → t.timerCount = 0 ∧ t.lines = s.lines ∧ t.arbiter = s.arbiter) ∧
    (id.toNat ∉ [0x01, 0x02, 0x03] → t.timerCount = s.timerCount) ∧
    (∀ n : LineIx, id.toNat = 0x40 + n.val ∨ id.toNat = 0x48 + n.val → ∃ flag,
      flag = derivedHold (t.settings.lineEdge.get n) (t.settings.lineAction.get n) (s.lines.get n).level ∧
      t.lines = s.lines.set n { s.lines.get n with holdFlag := flag } ∧
      (flag = (s.lines.get n).holdFlag → t.arbiter = s.arbiter) ∧
      (flag ≠ (s.lines.get n).holdFlag → s.map.inFlight = none → s.map.softResetWaits = false →
        t.arbiter = (s.claims, some (.hold n flag), s.latched)) ∧
      (flag ≠ (s.lines.get n).holdFlag → s.map.inFlight ≠ none ∨ s.map.softResetWaits = true →
        t.arbiter = ((s.map.pendingClose, if .hold n ∈ s.map.items then s.map.items else s.map.items ++ [.hold n], s.queue),
          s.map.inFlight, s.latched))) ∧
    (¬ (0x40 ≤ id.toNat ∧ id.toNat ≤ 0x4B) → t.lines = s.lines ∧ t.arbiter = s.arbiter)

/-- CLOSE-EPOCH (R14, R15, R104): it is answered OK when its close request is posted; a free map takes the close at
once, and otherwise it sets the pending-close flag or merges; a running PERIODIC count restarts, and no other timer
state changes. EPOCH_TIMER_EXPIRY (R15, R102): while EPOCH_RUN is 1 one close request is posted, and the count
restarts, or SINGLE mode also sets EPOCH_RUN to 0; a timer that does not run does not expire (such a command changes
nothing: the model's choice, log entry 2). -/
def Obligations.ClosesArePosted : Prop :=
  (∀ (s : State) (r : Request), s.Settled → s.Takes 0x15 r → r.body = [] → ∃ t, exec .closeEpoch s = .next t ∧
     s.Answers t r [[0x00]] ∧
     t.body = { s.body with
       timerCount := if s.settings.epochRun = true ∧ s.settings.epochMode = .periodic then 0 else s.timerCount } ∧
     (s.map.inFlight = none → s.map.softResetWaits = false →
       t.arbiter = (s.claims, some (.close s.settings.staleAge s.settings.hotFloor), s.latched)) ∧
     (s.map.inFlight ≠ none ∨ s.map.softResetWaits = true →
       t.arbiter = ((true, s.map.items, s.queue), s.map.inFlight, s.latched))) ∧
  (∀ s : State, s.Settled → s.resetLow = false →
     (s.settings.epochRun = false → exec .epochTimerExpiry s = .next s) ∧
     (s.settings.epochRun = true → ∃ t, exec .epochTimerExpiry s = .next t ∧ s.NoReply t ∧
       t.body = { s.body with
         timerCount := 0
         settings := { s.settings with epochRun := decide (s.settings.epochMode = .periodic) } } ∧
       (s.map.inFlight = none → s.map.softResetWaits = false →
         t.arbiter = (s.claims, some (.close s.settings.staleAge s.settings.hotFloor), s.latched)) ∧
       (s.map.inFlight ≠ none ∨ s.map.softResetWaits = true →
         t.arbiter = ((true, s.map.items, s.queue), s.map.inFlight, s.latched))))

/-- RESTART is taken (R96, R101, R133, R156, R166): the notices are discarded and the bad-CRC counter is 0; each port
keeps its state, unit kind, toggle, receiver and reply list, and clears the rest; EPOCH_RUN and the count are 0; each
line clears EDGE and takes its hold flag afresh, posting nothing; the map's part waits, and so does the reply; what
the map holds, the stage and the tables stand until then. -/
def Obligations.RestartIsTaken : Prop :=
  ∀ (s : State) (r : Request), s.Settled → s.Takes 0x04 r → r.body = [] → ∃ t, exec .restart s = .next t ∧
    t = { s with
      host := { s.host with badCrc := 0, service := .waiting }
      ports := t.ports
      settings := { s.settings with epochRun := false }
      timerCount := 0
      lines := t.lines
      map := { s.map with softResetWaits := true }
      events := { s.events with urgentNotice := none, routineNotice := none, alertDriven := t.events.alertDriven } } ∧
    (∀ p, t.ports.get p =
      { s.ports.get p with
        silence := 0, crcErrors := 0, refused := 0, duplicates := 0, holds := 0, unknownChannel := 0
        flags := PortFlags.clear }) ∧
    (∀ n, t.lines.get n =
      { s.lines.get n with
        edge := false
        holdFlag := derivedHold (s.settings.lineEdge.get n) (s.settings.lineAction.get n) (s.lines.get n).level })

/-- MAP_SOFT_RESET (R8, R18, R63, R66, R99, R135, R142, R145, R166): once no operation is in flight the map performs
its part of RESTART, with those of the Point Monitor, the View Unit, the Table Stage and the intake queue, and RESTART
is answered OK; the four tables, the settings, the ports and the lines are kept. -/
def Obligations.MapSoftReset : Prop :=
  ∀ (s : State) (r : Request) (behind : List Request), s.Settled → s.resetLow = false → s.map.softResetWaits = true →
    s.map.inFlight = none → s.host.buffer = r :: behind → ∃ t, exec .mapSoftReset s = .next t ∧
      s.Answers t r [[0x00]] ∧ t.CopyCurrent ∧
      t.body = { s.body with cells := t.cells, points := t.points, views := t.views, stage := t.stage, map := t.body.map } ∧
      (∀ c, (t.cells.get c).content = (if (s.cellTable.get c).inUse then .empty else .unused) ∧
        ((t.cells.get c).anchor = some ⟨none, 0⟩ ↔ (s.cellTable.get c).inUse = true ∧
          ∃ i, (s.pointTable.get i).inUse = true ∧ (s.pointTable.get i).home = c) ∧
        ((t.cells.get c).anchor = none ∨ (t.cells.get c).anchor = some ⟨none, 0⟩)) ∧
      (∀ i, t.points.get i =
        ⟨if (s.pointTable.get i).inUse = true ∧ (s.cellTable.get (s.pointTable.get i).home).inUse = true then .active
          else .unbound, 0, 0, 0, 0, 0, 0, PointFlags.clear⟩) ∧
      (∀ v, t.views.get v = ⟨0, none, 0, 0, 0, 0⟩) ∧
      t.stage = ⟨none, Table.replicate 32 none, 0, false, [], none, false, false⟩ ∧
      t.map.mode = (if s.someInUse then .commissioning else .blank) ∧ t.map.hostHold = false ∧
      (∀ n, t.map.lineHold.get n = (s.lines.get n).holdFlag) ∧ t.map.epoch = 0 ∧ t.map.hotList = [] ∧
      t.map.buildingEpoch = none ∧ t.map.topChanged = false ∧
      (∀ p, t.map.summaries.get p = ⟨0, 0, 0, 0, 0, 0, none, none⟩ ∧ t.map.passFlags.get p = PassFlags.clear) ∧
      t.map.unmappedDiscards = 0 ∧ t.map.heldDiscards = 0 ∧ t.map.softResetWaits = false ∧
      ((∀ q, .host q ∉ s.map.items) → t.arbiter = ((false, [], []), none, s.latched))

/-! ## Requests and items that the map performs -/

/-- START and STOP (R122, R123, R126): START in COMMISSIONING sets every alert state to NORMAL and the mode to
RUNNING, or to HELD with a hold record set; STOP leads to COMMISSIONING, from HELD with a rebase; in another mode each
is answered WRONG-MODE and changes nothing. -/
def Obligations.StartAndStop : Prop :=
  ∀ (s : State) (r : Request), s.Settled →
    (s.Performs 0x10 r → ∃ t, exec .start s = .next t ∧
      (s.map.mode = .commissioning → s.Answers t r [[0x00]] ∧ State.Completes
        { s with
          cells := t.cells
          map := { s.map with
            mode := if s.map.hostHold = true ∨ ∃ n, s.map.lineHold.get n = true then .held else .running } } t ∧
        ∀ c, t.cells.get c = (s.cells.get c).alertNormal) ∧
      (s.map.mode ≠ .commissioning → s.Answers t r [[0x14]] ∧ State.Completes s t)) ∧
    (s.Performs 0x11 r → ∃ t, exec .stop s = .next t ∧
      (s.map.mode = .running → s.Answers t r [[0x00]] ∧
        State.Completes { s with map := { s.map with mode := .commissioning } } t) ∧
      (s.map.mode = .held → s.Answers t r [[0x00]] ∧
        State.Completes { s with cells := t.cells, map := { s.map with mode := .commissioning } } t ∧
        ∀ c, t.cells.get c = (s.cells.get c).rebase) ∧
      (s.map.mode = .blank ∨ s.map.mode = .commissioning → s.Answers t r [[0x14]] ∧ State.Completes s t))

/-- HOLD, RESUME and a line's hold item (R124, R125): the record is written, in every mode; a value already held
changes nothing else, and another has the mode effect of the holds. HOLD and RESUME are answered OK. The rebase (R5,
R126, R131): a line's rebase item, in every mode, makes every LIVE and STALE cell's baseline its estimate and every
rise absent, and changes nothing else. -/
def Obligations.HoldsAndRebases : Prop :=
  (∀ (s : State) (r : Request), s.Settled →
     (s.Performs 0x12 r → ∃ t, exec .hold s = .next t ∧ s.Answers t r [[0x00]] ∧
       (s.map.hostHold = true → State.Completes s t) ∧
       (s.map.hostHold = false → s.HoldEffect { s.map with hostHold := true } t)) ∧
     (s.Performs 0x13 r → ∃ t, exec .resume s = .next t ∧ s.Answers t r [[0x00]] ∧
       (s.map.hostHold = false → State.Completes s t) ∧
       (s.map.hostHold = true → s.HoldEffect { s.map with hostHold := false } t)) ∧
     (∀ n flag, s.Runs (.hold n flag) → ∃ t, exec .holdItem s = .next t ∧ s.NoReply t ∧
       (s.map.lineHold.get n = flag → State.Completes s t) ∧
       (s.map.lineHold.get n ≠ flag → s.HoldEffect { s.map with lineHold := s.map.lineHold.set n flag } t))) ∧
  (∀ (s : State) (n : LineIx), s.Settled → s.Runs (.rebase n) → ∃ t, exec .rebaseItem s = .next t ∧ s.NoReply t ∧
     State.Completes { s with cells := t.cells } t ∧
     ∀ c, (t.cells.get c).anchor = (s.cells.get c).anchor ∧
       (∀ b r, (s.cells.get c).content = .live b r → (t.cells.get c).content = .live { b with baseline := some b.estimate } none) ∧
       (∀ b, (s.cells.get c).content = .stale b → (t.cells.get c).content = .stale { b with baseline := some b.estimate }) ∧
       ((s.cells.get c).content = .empty ∨ (s.cells.get c).content = .unused →
         (t.cells.get c).content = (s.cells.get c).content))

/-- CLEAR-MAP (R13): answered OK in every mode; every in-use cell becomes EMPTY, an anchor being kept with T_last
absent and T_age 0; the list and the summaries are emptied and every bias becomes 0; all else is kept. -/
def Obligations.ClearMapEmptiesTheMap : Prop :=
  ∀ (s : State) (r : Request), s.Settled → s.Performs 0x14 r → ∃ t, exec .clearMap s = .next t ∧ s.Answers t r [[0x00]] ∧
    State.Completes
      { s with
        cells := t.cells
        views := t.views
        map := { s.map with
          hotList := [], buildingEpoch := none, summaries := Table.replicate 8 ⟨0, 0, 0, 0, 0, 0, none, none⟩ } } t ∧
    (∀ v, t.views.get v = { s.views.get v with bias := 0 }) ∧
    (∀ c, ((s.cells.get c).content = .unused → t.cells.get c = s.cells.get c) ∧
      ((s.cells.get c).content ≠ .unused →
        t.cells.get c = ⟨.empty, (s.cells.get c).anchor.map fun _ => ⟨none, 0⟩⟩))

/-- READ-MAP-STATUS, READ-HOTSPOTS and READ-PASS (R20, R115, R118): each reports the map, laid out as Table 10-6 gives,
and clears in the same operation the two discard counters, TOP-CHANGED, or the pass's four flags; a pass above 7 is
answered BAD-ARGUMENT. READ-VIEW (R79): a view above 15 is answered BAD-ARGUMENT; otherwise the record is returned and
its two counters become 0. -/
def Obligations.MapReports : Prop :=
  (∀ (s : State) (r : Request), s.Settled →
     (s.Performs 0x16 r → ∃ t, exec .readMapStatus s = .next t ∧
       s.Answers t r [[0x00, s.map.mode.code, byteOf (natOfBits (s.map.hostHold :: s.map.lineHold.toList))] ++
         bytes16 s.map.epoch.toNat ++ [byteOf s.queue.length, byteOfBool s.map.pendingClose] ++
         bytes16 s.map.unmappedDiscards ++ bytes16 s.map.heldDiscards] ∧
       State.Completes { s with map := { s.map with unmappedDiscards := 0, heldDiscards := 0 } } t) ∧
     (s.Performs 0x21 r → ∃ t, exec .readHotspots s = .next t ∧
       s.Answers t r [[0x00, byteOf s.map.hotList.length] ++
         (match s.map.buildingEpoch with
           | some e => 1 :: bytes16 e.toNat
           | none => [0, 0, 0]) ++
         [byteOfBool s.map.topChanged] ++
         ((s.map.hotList.take 16).flatMap fun h => bytes16 h.cell ++ bytesInt16 h.estimate ++ [h.alert.code, byteOf h.age] ++
           (match h.rise with
             | some x => 1 :: bytesInt16 x
             | none => [0, 0, 0])) ++
         List.replicate (9 * (16 - s.map.hotList.length)) 0] ∧
       State.Completes { s with map := { s.map with topChanged := false } } t) ∧
     (s.Performs 0x22 r → ∀ b, r.body = [b] → ∃ t, exec .readPass s = .next t ∧
       (7 < b.toNat → s.Answers t r [[0x13]] ∧ State.Completes s t) ∧
       (∀ (p : Fin 8) u f, b.toNat = p.val → s.map.summaries.get p = u → s.map.passFlags.get p = f →
         s.Answers t r [[0x00, b] ++ bytes16 u.inUse ++ bytes16 u.empty ++ bytes16 u.live ++ bytes16 u.stale ++
           bytes16 u.high ++ bytes16 u.highHigh ++
           (match u.hottest with
             | some (c, e) => 1 :: (bytes16 c ++ bytesInt16 e)
             | none => [0, 0, 0, 0, 0]) ++
           (match u.largestRise with
             | some (c, x) => 1 :: (bytes16 c ++ bytesInt16 x)
             | none => [0, 0, 0, 0, 0]) ++
           [byteOf (natOfBits [f.hhEntered, f.highEntered, f.cleared, f.rise])]] ∧
         State.Completes
           { s with map := { s.map with passFlags := s.map.passFlags.set p ⟨false, false, false, false⟩ } } t))) ∧
  (∀ (s : State) (r : Request) (b : Byte), s.Settled → s.Performs 0x38 r → r.body = [b] → ∃ t, exec .readView s = .next t ∧
     (15 < b.toNat → s.Answers t r [[0x13]] ∧ State.Completes s t) ∧
     (∀ v : ViewIx, b.toNat = v.val →
       s.Answers t r [[0x00, b] ++ bytesInt16 (s.views.get v).bias ++
         (match (s.views.get v).lastFrame with
           | some e => 1 :: bytes16 e.toNat
           | none => [0, 0, 0]) ++
         bytes16 (s.views.get v).framesFused ++ bytes16 (s.views.get v).pixelsSkipped ++
         [byteOf (s.views.get v).anchorsUsed, byteOf (s.views.get v).disagreements]] ∧
       State.Completes { s with views := s.views.upd v fun x => { x with framesFused := 0, pixelsSkipped := 0 } } t)) ∧
  [MapMode.blank, .commissioning, .running, .held].map MapMode.code = [0, 1, 2, 3] ∧
  [AlertState.normal, .high, .highHigh].map AlertState.code = [0, 1, 2]

/-- READ-CELLS (R21, R161): a count outside 1..32, or a first or last cell above 2047, is answered BAD-ARGUMENT;
otherwise the records of the cells are returned in ascending index order, 14 bytes each as Table 10-7 lays them out,
absent fields 0, in one part up to 17 and in two beyond, each with its part byte, first cell and count; it clears
nothing. -/
def Obligations.CellsAreRead : Prop :=
  (∀ (s : State) (r : Request) (hi lo count : Byte) (first : Nat), s.Settled → s.Performs 0x20 r → r.body = [hi, lo, count] →
     first = 256 * hi.toNat + lo.toNat → ∃ t, exec .readCells s = .next t ∧ State.Completes s t ∧
       (count.toNat = 0 ∨ 32 < count.toNat ∨ 2047 < first ∨ 2047 < first + count.toNat - 1 → s.Answers t r [[0x13]]) ∧
       (1 ≤ count.toNat → count.toNat ≤ 32 → first + count.toNat ≤ 2048 →
         ∃ records : List (List Byte), records.length = count.toNat ∧
           (count.toNat ≤ 17 → s.Answers t r [[0x00, 0x80] ++ bytes16 first ++ [count] ++ records.flatten]) ∧
           (17 < count.toNat → s.Answers t r
             [[0x00, 0x00] ++ bytes16 first ++ [17] ++ (records.take 17).flatten,
               [0x00, 0x81] ++ bytes16 (first + 17) ++ [byteOf (count.toNat - 17)] ++ (records.drop 17).flatten]) ∧
           ∀ (c : CellIx) (tLast : Option Int) (tAge : Nat), first ≤ c.val → c.val < first + count.toNat →
             tLast = (s.cells.get c).anchor.bind Anchor.tLast → tAge = ((s.cells.get c).anchor.map Anchor.tAge).getD 0 →
             ∃ fields, records[c.val - first]? = some (fields ++ bytesInt16 (tLast.getD 0) ++ [byteOf tAge]) ∧
               ((s.cells.get c).content = .unused → fields =
                 [0, 0, 0, byteOf (natOfBits [false, false, (s.cells.get c).anchor.isSome, tLast.isSome]), 0, 0, 0, 0, 0, 0, 0]) ∧
               ((s.cells.get c).content = .empty → fields =
                 [1, 0, 0, byteOf (natOfBits [false, false, (s.cells.get c).anchor.isSome, tLast.isSome]), 0, 0, 0, 0, 0, 0, 0]) ∧
               (∀ b rise, (s.cells.get c).content = .live b rise → fields =
                 [2, b.alert.code, b.source.code,
                   byteOf (natOfBits [b.baseline.isSome, rise.isSome, (s.cells.get c).anchor.isSome, tLast.isSome])] ++
                 bytesInt16 b.estimate ++ [byteOf b.age] ++ bytesInt16 (b.baseline.getD 0) ++ bytesInt16 (rise.getD 0)) ∧
               (∀ b, (s.cells.get c).content = .stale b → fields =
                 [3, b.alert.code, b.source.code,
                   byteOf (natOfBits [b.baseline.isSome, false, (s.cells.get c).anchor.isSome, tLast.isSome])] ++
                 bytesInt16 b.estimate ++ [byteOf b.age] ++ bytesInt16 (b.baseline.getD 0) ++ [0, 0]))) ∧
  [AlertState.normal, .high, .highHigh].map AlertState.code = [0, 1, 2] ∧
  [Source.thermocouple, .scanner].map Source.code = [0, 1]

/-- READ-POINT, RESTORE-POINT and EXCLUDE-POINT (R55 to R57): a point above 95, and for the last two a slot not in
use, is answered BAD-ARGUMENT; READ-POINT returns the entry, as a slot of 20 bytes, and the record, laid out as Tables
10-6 and 10-7 give, and clears its counters and flags; RESTORE-POINT makes a FAILED or EXCLUDED point ACTIVE, counts 0,
with RECOVERED; EXCLUDE-POINT makes an ACTIVE, SUSPECT or FAILED point EXCLUDED, counts 0. -/
def Obligations.PointRequests : Prop :=
  [PointState.unbound, .active, .suspect, .failed, .excluded].map PointState.code = [0, 1, 2, 3, 4] ∧
  ∀ (s : State) (r : Request) (b : Byte), s.Settled → r.body = [b] →
    (s.Performs 0x30 r → ∃ t, exec .readPoint s = .next t ∧
      (95 < b.toNat → s.Answers t r [[0x13]] ∧ State.Completes s t) ∧
      (∀ (i : PointIx) e x, b.toNat = i.val → s.pointTable.get i = e → s.points.get i = x →
        s.Answers t r [[0x00, b] ++
          ([byteOfBool e.inUse, byteOf e.port.val, byteOf e.channel.val] ++ bytes16 e.home.val ++ bytes16 e.stepLimit ++
            [byteOf e.spread.length] ++ ((e.spread.take 4).flatMap fun y => bytes16 y.cell.val ++ [byteOf y.share]) ++
            List.replicate (3 * (4 - e.spread.length)) 0) ++
          [x.state.code, byteOf x.rangeCount, byteOf x.badCount, byteOf x.cleanCount, byteOf x.disagreeCount,
            byteOf x.rejected, byteOf x.discarded,
            byteOf (natOfBits [x.flags.openCircuit, x.flags.range, x.flags.step, x.flags.disagree, x.flags.failed,
              x.flags.recovered])]] ∧
        State.Completes
          { s with points := s.points.upd i fun x => { x with rejected := 0, discarded := 0, flags := PointFlags.clear } } t)) ∧
    (s.Performs 0x31 r → ∃ t, exec .restorePoint s = .next t ∧
      (95 < b.toNat → s.Answers t r [[0x13]] ∧ State.Completes s t) ∧
      (∀ i : PointIx, b.toNat = i.val →
        ((s.pointTable.get i).inUse = false → s.Answers t r [[0x13]] ∧ State.Completes s t) ∧
        ((s.pointTable.get i).inUse = true → s.Answers t r [[0x00]] ∧
          ((s.points.get i).state ∈ [.failed, .excluded] → State.Completes
            { s with
              points := s.points.upd i fun x =>
                { x with
                  state := .active, rangeCount := 0, badCount := 0, cleanCount := 0, disagreeCount := 0
                  flags := { x.flags with recovered := true } } } t) ∧
          ((s.points.get i).state ∈ [.active, .suspect, .unbound] → State.Completes s t)))) ∧
    (s.Performs 0x32 r → ∃ t, exec .excludePoint s = .next t ∧
      (95 < b.toNat → s.Answers t r [[0x13]] ∧ State.Completes s t) ∧
      (∀ i : PointIx, b.toNat = i.val →
        ((s.pointTable.get i).inUse = false → s.Answers t r [[0x13]] ∧ State.Completes s t) ∧
        ((s.pointTable.get i).inUse = true → s.Answers t r [[0x00]] ∧
          ((s.points.get i).state ∈ [.active, .suspect, .failed] → State.Completes
            { s with
              points := s.points.upd i fun x =>
                { x with state := .excluded, rangeCount := 0, badCount := 0, cleanCount := 0, disagreeCount := 0 } } t) ∧
          ((s.points.get i).state ∈ [.excluded, .unbound] → State.Completes s t))))

/-! ## Requests on ports, lines, events and the stage -/

/-- READ-PORT, READ-LINES and READ-EVENTS (R95, R132, R154), laid out as Table 10-6 gives: READ-PORT returns a port's
record and clears its counters and flags, a port above 7 being answered BAD-ARGUMENT; READ-LINES returns the four lines
and clears the EDGE flags; READ-EVENTS clears nothing. (The order of the bytes of its bitmap of points is the model's
reading, log entry 9.) -/
def Obligations.PortsLinesAndEventsAreRead : Prop :=
  [PortState.down, .live, .quiet].map PortState.code = [0, 1, 2] ∧
  [LineEdge.none, .rise, .fall, .both].map LineEdge.code = [0, 1, 2, 3] ∧
  [LineAction.mark, .hold, .rebase].map LineAction.code = [0, 1, 2] ∧
  ∀ (s : State) (r : Request), s.Settled →
    (s.Takes 0x40 r → ∀ b, r.body = [b] → ∃ t, exec .readPort s = .next t ∧ t.arbiter = s.arbiter ∧
      t.events.copy = s.events.copy ∧
      (7 < b.toNat → s.Answers t r [[0x13]] ∧ t.apartFromReply = s.apartFromReply) ∧
      (∀ (p : PortIx) x, b.toNat = p.val → s.ports.get p = x → s.Answers t r [[0x00, b, x.state.code,
          (match x.unitKind with
            | some .points => 0x00
            | some .scanner => 0x01
            | none => 0xFF),
          byteOfBool x.expectedToggle, byteOf x.silence, byteOf x.crcErrors, byteOf x.refused, byteOf x.duplicates] ++
          bytes16 x.holds ++ [byteOf x.unknownChannel,
            byteOf (natOfBits [x.flags.hello, x.flags.crc, x.flags.refused, x.flags.resumed, x.flags.quiet])]] ∧
        t.body = { s.body with
          ports := s.ports.upd p fun x => { x with
            crcErrors := 0, refused := 0, duplicates := 0, holds := 0, unknownChannel := 0, flags := PortFlags.clear } })) ∧
    (s.Takes 0x48 r → r.body = [] → ∃ t, exec .readLines s = .next t ∧ t.arbiter = s.arbiter ∧
      t.events.copy = s.events.copy ∧
      s.Answers t r [0x00 :: [(0 : LineIx), 1, 2, 3].flatMap fun n =>
        [byteOfBool (s.lines.get n).level, byteOf (s.settings.lineEdge.get n).code, byteOf (s.settings.lineAction.get n).code,
          byteOfBool (s.lines.get n).holdFlag, byteOfBool (s.lines.get n).edge]] ∧
      t.body = { s.body with lines := s.lines.map fun l => { l with edge := false } }) ∧
    (s.Takes 0x60 r → r.body = [] → ∃ t, exec .readEvents s = .next t ∧
      s.Answers t r [0x00 :: byteOf s.groups.toNat ::
        (bytesBig 12 (natOfBits (s.events.copy.points.toList.map PointFlags.any)) ++
          [byteOf (natOfBits (s.ports.toList.map fun p => p.flags.any)),
            byteOf (natOfBits (s.events.copy.passes.toList.map PassFlags.any)),
            byteOf (natOfBits (s.lines.toList.map fun l => l.edge))])] ∧
      t.apartFromReply = s.apartFromReply)

/-- INJECT (R100): tested in the order mode, port and kind, body, room; a frame that passes is appended to the intake
queue, where a free map takes it at once, and is answered OK; otherwise nothing changes. The port is not looked at. -/
def Obligations.InjectAppendsAFrame : Prop :=
  ∀ (s : State) (r : Request) (port kind : Byte) (body : List Byte), s.Settled → s.Takes 0x41 r → r.body = port :: kind :: body →
    ∃ t, exec .inject s = .next t ∧
      (s.map.mode ≠ .commissioning → s.Answers t r [[0x14]] ∧ t.apartFromReply = s.apartFromReply) ∧
      (s.map.mode = .commissioning → 7 < port.toNat ∨ (kind ≠ 0x02 ∧ kind ≠ 0x03) →
        s.Answers t r [[0x13]] ∧ t.apartFromReply = s.apartFromReply) ∧
      (s.map.mode = .commissioning → ∀ p : PortIx, port.toNat = p.val →
        (parseField p kind body = none → s.Answers t r [[0x13]] ∧ t.apartFromReply = s.apartFromReply) ∧
        (∀ f, parseField p kind body = some f →
          (32 ≤ s.queue.length → s.Answers t r [[0x30]] ∧ t.apartFromReply = s.apartFromReply) ∧
          (s.queue.length < 32 → s.Answers t r [[0x00]] ∧ State.EndsAs { s with queue := s.queue ++ [f] } t)))

/-- STAGE-OPEN and STAGE-CLEAR (R136, R138): a table, page or first slot that names nothing is answered BAD-ARGUMENT
and a clear of a closed stage STAGE-CLOSED, with nothing changed; otherwise every slot is unfilled, OVERRUN is clear,
and the stage is open on the named target at the first slot, or on its own target at slot 0. -/
def Obligations.StageOpenAndClear : Prop :=
  (∀ (s : State) (r : Request) (table page first : Byte), s.Settled → s.Takes 0x50 r → r.body = [table, page, first] →
    ∃ t, exec .stageOpen s = .next t ∧
      (∀ pages last, (table.toNat, pages, last) ∈ [(0, 64, 31), (1, 3, 31), (2, 32, 31), (3, 1, 7)] →
        (page.toNat < pages → first.toNat ≤ last → ∃ g, parseTarget table page = some g ∧
          g.table = table.toNat ∧ g.page = page.toNat ∧ s.Answers t r [[0x00]] ∧
          t.apartFromReply = { s with stage := { s.stage with
            target := some g, slots := Table.replicate 32 none, pointer := first.toNat, overrun := false } }.apartFromReply) ∧
        (pages ≤ page.toNat ∨ last < first.toNat → s.Answers t r [[0x13]] ∧ t.apartFromReply = s.apartFromReply)) ∧
      (3 < table.toNat → s.Answers t r [[0x13]] ∧ t.apartFromReply = s.apartFromReply)) ∧
  (∀ (s : State) (r : Request), s.Settled → s.Takes 0x52 r → r.body = [] → ∃ t, exec .stageClear s = .next t ∧
    (s.stage.target = none → s.Answers t r [[0x20]] ∧ t.apartFromReply = s.apartFromReply) ∧
    (s.stage.target ≠ none → s.Answers t r [[0x00]] ∧
      t.apartFromReply = { s with stage := { s.stage with
        slots := Table.replicate 32 none, pointer := 0, overrun := false } }.apartFromReply))

/-- STAGE-PUT (R137): to a closed stage STAGE-CLOSED, a body of no whole number of entries BAD-LENGTH, a count outside
1..8 BAD-ARGUMENT, with nothing written. Otherwise the entries are written in order as they came, each at the pointer,
which advances up to the last slot; an entry over the filled last slot latches OVERRUN; the reply gives the pointer
and OVERRUN. -/
def Obligations.StagePutWritesEntries : Prop :=
  ∀ (s : State) (r : Request), s.Settled → s.Takes 0x51 r → ∃ t, exec .stagePut s = .next t ∧
    (s.stage.target = none → s.Answers t r [[0x20]] ∧ t.apartFromReply = s.apartFromReply) ∧
    (∀ g, s.stage.target = some g →
      (r.body.length % g.slotBytes ≠ 0 → s.Answers t r [[0x11]] ∧ t.apartFromReply = s.apartFromReply) ∧
      (r.body.length % g.slotBytes = 0 → r.body = [] ∨ 8 * g.slotBytes < r.body.length →
        s.Answers t r [[0x13]] ∧ t.apartFromReply = s.apartFromReply) ∧
      (∀ entries : List (List Byte), r.body = entries.flatten → (∀ e ∈ entries, e.length = g.slotBytes) →
        1 ≤ entries.length → entries.length ≤ 8 → s.stage.pointer ≤ g.lastSlot →
        s.Answers t r [[0x00, byteOf (min (s.stage.pointer + entries.length) g.lastSlot), byteOfBool t.stage.overrun]] ∧
        t.apartFromReply = { s with stage := { s.stage with
          slots := t.stage.slots, pointer := min (s.stage.pointer + entries.length) g.lastSlot
          overrun := t.stage.overrun } }.apartFromReply ∧
        (∀ i : Fin 32, i.val < s.stage.pointer ∨ s.stage.pointer + entries.length ≤ i.val →
          t.stage.slots.get i = s.stage.slots.get i) ∧
        (∀ i : Fin 32, s.stage.pointer ≤ i.val → i.val < g.lastSlot → ∀ e, entries[i.val - s.stage.pointer]? = some e →
          t.stage.slots.get i = some e) ∧
        (g.lastSlot < s.stage.pointer + entries.length → ∀ i : Fin 32, i.val = g.lastSlot →
          t.stage.slots.get i = entries.getLast?) ∧
        (t.stage.overrun = true ↔ s.stage.overrun = true ∨ g.lastSlot + 1 < s.stage.pointer + entries.length ∨
          (g.lastSlot < s.stage.pointer + entries.length ∧ ∃ i : Fin 32, i.val = g.lastSlot ∧ s.stage.slots.get i ≠ none))))

/-- STAGE-COMMIT (R139 to R142): the tests in order, each answered with its result; a refused commit leaves the stage
as it was; a commit that passes closes the stage, removes a pending page for the same table and page, and appends the
new one. The range test and the duplicate test of a commit (R139 to R141), slot by slot: the lowest filled slot that
fails its table's checks; on a POINTS page the lowest filled slot in use that shares port and channel, or home cell,
with a lower one in use; otherwise the page, of each table, holds exactly the filled slots as entries. LIMITS looks at 8
slots. -/
def Obligations.StageCommitPlacesAPage : Prop :=
  (∀ (s : State) (r : Request), s.Settled → s.Takes 0x53 r → r.body = [] → ∃ t, exec .stageCommit s = .next t ∧
     (s.stage.target = none → s.Answers t r [[0x20]] ∧ t.apartFromReply = s.apartFromReply) ∧
     (∀ g, s.stage.target = some g →
       (s.stage.overrun = true → s.Answers t r [[0x21, 0x01, 0]] ∧ t.apartFromReply = s.apartFromReply) ∧
       (s.stage.overrun = false →
         (∀ n, s.stage.validate g = .range n →
           s.Answers t r [[0x21, 0x02, byteOf n]] ∧ t.apartFromReply = s.apartFromReply) ∧
         (∀ n, s.stage.validate g = .duplicate n →
           s.Answers t r [[0x21, 0x03, byteOf n]] ∧ t.apartFromReply = s.apartFromReply) ∧
         (∀ p, s.stage.validate g = .page p → p.target = g ∧
           ((∀ q ∈ s.stage.pendingPages, q.target ≠ g) → 4 ≤ s.stage.pendingPages.length →
             s.Answers t r [[0x22]] ∧ t.apartFromReply = s.apartFromReply) ∧
           ((s.stage.pendingPages.filter fun q : Page => decide (q.target ≠ g)).length < 4 → s.Answers t r [[0x00]] ∧
             t.apartFromReply = { s with stage := { s.stage with
               target := none, slots := Table.replicate 32 none, pointer := 0, overrun := false
               pendingPages := (s.stage.pendingPages.filter fun q : Page => decide (q.target ≠ g)) ++ [p] } }.apartFromReply))))) ∧
  (∀ (g : Stage), g.overrun = false →
     (∀ (p : Fin 64) n, g.validate (.cells p) = .range n ↔ ∃ i raw, i.val = n ∧ g.slots.get i = some raw ∧
       parseCellSlot raw = none ∧ ∀ j, j < i → ∀ raw', g.slots.get j = some raw' → parseCellSlot raw' ≠ none) ∧
     (∀ (p : Fin 64) page, g.validate (.cells p) = .page page ↔ ∃ slots, page = .cells p slots ∧
       (∀ i raw, g.slots.get i = some raw → parseCellSlot raw ≠ none) ∧
       ∀ i, slots.get i = (g.slots.get i).bind parseCellSlot) ∧
     (∀ (p : Fin 32) n, g.validate (.views p) = .range n ↔ ∃ i raw, i.val = n ∧ g.slots.get i = some raw ∧
       parseBindingSlot raw = none ∧ ∀ j, j < i → ∀ raw', g.slots.get j = some raw' → parseBindingSlot raw' ≠ none) ∧
     (∀ (p : Fin 32) page, g.validate (.views p) = .page page ↔ ∃ slots, page = .views p slots ∧
       (∀ i raw, g.slots.get i = some raw → parseBindingSlot raw ≠ none) ∧
       ∀ i, slots.get i = (g.slots.get i).bind parseBindingSlot) ∧
     (∀ page, g.validate .limits = .page page ↔ ∃ slots, page = .limits slots ∧
       (∀ i raw, i.val < 8 → g.slots.get i = some raw → parseLimitSlot raw ≠ none) ∧
       ∀ (i : Fin 8) (k : Fin 32), k.val = i.val → slots.get i = (g.slots.get k).bind parseLimitSlot) ∧
     (∀ (p : Fin 3) page, g.validate (.points p) = .page page ↔ ∃ slots, page = .points p slots ∧
       (∀ i raw, g.slots.get i = some raw → parsePointSlot raw ≠ none) ∧
       (∀ j i a b, j < i → (g.slots.get j).bind parsePointSlot = some a → (g.slots.get i).bind parsePointSlot = some b →
         a.conflicts b = false) ∧
       ∀ i, slots.get i = (g.slots.get i).bind parsePointSlot) ∧
     (∀ n, g.validate .limits = .range n ↔ ∃ i raw, i.val = n ∧ n < 8 ∧ g.slots.get i = some raw ∧
       parseLimitSlot raw = none ∧ ∀ j, j < i → ∀ raw', g.slots.get j = some raw' → parseLimitSlot raw' ≠ none) ∧
     (∀ (p : Fin 3) n, g.validate (.points p) = .range n ↔ ∃ i raw, i.val = n ∧ g.slots.get i = some raw ∧
       parsePointSlot raw = none ∧ ∀ j, j < i → ∀ raw', g.slots.get j = some raw' → parsePointSlot raw' ≠ none) ∧
     (∀ (p : Fin 3) n, (∀ i raw, g.slots.get i = some raw → parsePointSlot raw ≠ none) →
       (g.validate (.points p) = .duplicate n ↔ ∃ i : Fin 32, i.val = n ∧
         (∃ j a b, j < i ∧ (g.slots.get j).bind parsePointSlot = some a ∧ (g.slots.get i).bind parsePointSlot = some b ∧
           a.conflicts b = true) ∧
         ∀ k, k < i → ∀ j a b, j < k → (g.slots.get j).bind parsePointSlot = some a →
           (g.slots.get k).bind parsePointSlot = some b → a.conflicts b = false))) ∧
  (∀ a b : PointEntry, a.conflicts b = true ↔ a.inUse = true ∧ b.inUse = true ∧
     ((a.port = b.port ∧ a.channel = b.channel) ∨ a.home = b.home))

/-- READ-STAGE and READ-PAGE (R146, R147, R149, R161), laid out as Tables 10-6 and 10-7 give: READ-STAGE reports the
stage, the pending list, the last-install record and the two flags, and clears the flags, at once in the Event Unit's
copy; READ-PAGE returns the live page slot by slot, a POINTS page in three parts and any other in one, or BAD-ARGUMENT
where table and page name nothing, and clears nothing. (In READ-STAGE the order of the bytes of the filled marks, and
what a closed stage shows as its table and page, are the model's reading, log entries 9 and 16.) -/
def Obligations.StageAndPagesAreRead : Prop :=
  [InstallOutcome.installed, .dropped, .empty].map InstallOutcome.code = [0, 1, 2] ∧
  ((∀ p, (Target.cells p).table = 0 ∧ (Target.cells p).page = p.val) ∧
    (∀ p, (Target.points p).table = 1 ∧ (Target.points p).page = p.val) ∧
    (∀ p, (Target.views p).table = 2 ∧ (Target.views p).page = p.val) ∧
    Target.limits.table = 3 ∧ Target.limits.page = 0) ∧
  ((∀ p slots, (Page.cells p slots).target = .cells p ∧ (Page.cells p slots).filled = slots.toList.countP Option.isSome) ∧
    (∀ p slots, (Page.points p slots).target = .points p ∧ (Page.points p slots).filled = slots.toList.countP Option.isSome) ∧
    (∀ p slots, (Page.views p slots).target = .views p ∧ (Page.views p slots).filled = slots.toList.countP Option.isSome) ∧
    (∀ slots, (Page.limits slots).target = .limits ∧ (Page.limits slots).filled = slots.toList.countP Option.isSome)) ∧
  ∀ (s : State) (r : Request), s.Settled →
    (s.Takes 0x54 r → r.body = [] → ∃ t, exec .readStage s = .next t ∧
      s.Answers t r [[0x00] ++
        (match s.stage.target with
          | some g => [1, byteOf g.table, byteOf g.page]
          | none => [0, 0, 0]) ++
        [byteOf s.stage.pointer] ++ bytesBig 4 (natOfBits (s.stage.slots.toList.map Option.isSome)) ++
        [byteOfBool s.stage.overrun, byteOf s.stage.pendingPages.length] ++
        ((s.stage.pendingPages.take 4).flatMap fun p => [byteOf p.target.table, byteOf p.target.page, byteOf p.filled]) ++
        List.replicate (3 * (4 - s.stage.pendingPages.length)) 0 ++
        (match s.stage.lastInstall with
          | some x => 1 :: (bytes16 x.epoch.toNat ++ [byteOf x.pages.length] ++
              ((x.pages.take 4).flatMap fun o => [byteOf o.1.table, byteOf o.1.page, o.2.code]) ++
              List.replicate (3 * (4 - x.pages.length)) 0)
          | none => List.replicate 16 0) ++
        [byteOf (natOfBits [s.stage.installed, s.stage.dropped])]] ∧
      t.body = { s.body with stage := { s.stage with installed := false, dropped := false } } ∧ t.arbiter = s.arbiter ∧
      t.events.copy = { s.events.copy with installed := false, dropped := false }) ∧
    (s.Takes 0x55 r → ∀ table page, r.body = [table, page] → ∃ t, exec .readPage s = .next t ∧
      t.apartFromReply = s.apartFromReply ∧
      (∀ pages, (table.toNat, pages) ∈ [(0, 64), (1, 3), (2, 32), (3, 1)] → pages ≤ page.toNat → s.Answers t r [[0x13]]) ∧
      (3 < table.toNat → s.Answers t r [[0x13]]) ∧
      (table = 0 → page.toNat < 64 → ∃ slots : List (List Byte), slots.length = 32 ∧
        s.Answers t r [[0x00, 0x80, 0, page, 0, 32] ++ slots.flatten] ∧
        ∀ c : CellIx, c.val / 32 = page.toNat → slots[c.val % 32]? = some
          ([byteOfBool (s.cellTable.get c).inUse,
            (match (s.cellTable.get c).limitClass with
              | some k => byteOf k.val
              | none => 0xFF)] ++ bytesInt16 (s.cellTable.get c).irOffset)) ∧
      (table = 1 → page.toNat < 3 → ∃ slots : List (List Byte), slots.length = 32 ∧
        s.Answers t r [[0x00, 0x00, 1, page, 0, 12] ++ (slots.take 12).flatten,
          [0x00, 0x01, 1, page, 12, 12] ++ ((slots.drop 12).take 12).flatten,
          [0x00, 0x82, 1, page, 24, 8] ++ (slots.drop 24).flatten] ∧
        ∀ (i : PointIx) e, i.val / 32 = page.toNat → s.pointTable.get i = e → slots[i.val % 32]? = some
          ([byteOfBool e.inUse, byteOf e.port.val, byteOf e.channel.val] ++ bytes16 e.home.val ++ bytes16 e.stepLimit ++
            [byteOf e.spread.length] ++ ((e.spread.take 4).flatMap fun y => bytes16 y.cell.val ++ [byteOf y.share]) ++
            List.replicate (3 * (4 - e.spread.length)) 0)) ∧
      (table = 2 → page.toNat < 32 → ∃ slots : List (List Byte), slots.length = 32 ∧
        s.Answers t r [[0x00, 0x80, 2, page, 0, 32] ++ slots.flatten] ∧
        ∀ (v : ViewIx) (n : Fin 64) b, 2 * v.val + n.val / 32 = page.toNat → (s.viewTable.get v).get n = b →
          slots[n.val % 32]? = some ([byteOfBool b.inUse, byteOf b.pixel.val] ++ bytes16 b.cell.val ++ [byteOf b.share])) ∧
      (table = 3 → page = 0 → ∃ slots : List (List Byte), slots.length = 8 ∧
        s.Answers t r [[0x00, 0x80, 3, 0, 0, 8] ++ slots.flatten] ∧
        ∀ (k : Fin 8) l, s.limits.get k = l → slots[k.val]? = some
          (bytesInt16 l.high ++ bytesInt16 l.highHigh ++ bytesInt16 l.deadband ++ bytesInt16 l.riseLimit)))

/-! ## Field ports -/

/-- A SAMPLES, SCAN or unknown frame with a good CRC (R84, R86, R88 to R91, R97): after the silence reset it is
refused with NO-HELLO on a DOWN port, with BAD-BODY or WRONG-KIND as its kind and body are; else a toggle that differs
is a repeat, acknowledged and discarded; else it is appended and the toggle flips, or it is held when the queue has 32
frames. -/
def Obligations.DataFramesAreHandled : Prop :=
  ∀ (s : State) (n : PortIx) (bytes body : List Byte) (kind tag : Byte) (c : Instr) (toggle : Bool) (p : PortRecord),
    s.Settled → s.resetLow = false → receive (s.ports.get n).assembly bytes = (.good kind tag body, []) →
    (c, kind) ∈ [(.samplesFrame n bytes, 0x02), (.scanFrame n bytes, 0x03)] ∨
      (c = .fieldUnknownKind n bytes ∧ kind ∉ [0x01, 0x02, 0x03]) →
    toggle = tag.getLsbD 0 → p = (s.ports.get n).afterGoodFrame →
    ∃ t, exec c s = .next t ∧ s.NoReply t ∧ t.events.copy = s.events.copy ∧
      (∀ reason, (p.state = .down ∧ reason = .noHello) ∨
          (p.state ≠ .down ∧ (kind ∉ [0x02, 0x03]) ∧ reason = .badBody) ∨
          (p.state ≠ .down ∧ ((kind = 0x03 ∧ p.unitKind = some .points) ∨ (kind = 0x02 ∧ p.unitKind = some .scanner)) ∧
            reason = .wrongKind) ∨
          (p.state ≠ .down ∧ ((kind = 0x02 ∧ p.unitKind ≠ some .scanner) ∨ (kind = 0x03 ∧ p.unitKind ≠ some .points)) ∧
            parseField n kind body = none ∧ reason = .badBody) →
        State.EndsAs
          { s with
            ports := s.ports.set n
              { p with
                refused := min 255 (p.refused + 1), flags := { p.flags with refused := true }
                answers := placed p.answers ⟨.refuse reason, toggle⟩ } } t) ∧
      (∀ f, p.state ≠ .down → (kind = 0x02 ∧ p.unitKind ≠ some .scanner) ∨ (kind = 0x03 ∧ p.unitKind ≠ some .points) →
        parseField n kind body = some f →
        (toggle ≠ p.expectedToggle → State.EndsAs
          { s with
            ports := s.ports.set n
              { p with duplicates := min 255 (p.duplicates + 1), answers := placed p.answers ⟨.ack, toggle⟩ } } t) ∧
        (toggle = p.expectedToggle → s.queue.length < 32 → State.EndsAs
          { s with
            queue := s.queue ++ [f]
            ports := s.ports.set n
              { p with expectedToggle := !p.expectedToggle, answers := placed p.answers ⟨.ack, toggle⟩ } } t) ∧
        (toggle = p.expectedToggle → 32 ≤ s.queue.length → State.EndsAs
          { s with
            ports := s.ports.set n
              { p with holds := min 65535 (p.holds + 1), answers := placed p.answers ⟨.hold, toggle⟩ } } t))

/-- HELLO_FRAME (R84, R86, R87): after the silence reset, a body of one byte 0 or 1 makes the port LIVE with that unit
kind and toggle 0, latches HELLO and is acknowledged; any other body is refused with BAD-BODY. -/
def Obligations.HelloAnnouncesTheUnit : Prop :=
  ∀ (s : State) (n : PortIx) (bytes body : List Byte) (tag : Byte) (p : PortRecord),
    s.Settled → s.resetLow = false → receive (s.ports.get n).assembly bytes = (.good 0x01 tag body, []) →
    p = (s.ports.get n).afterGoodFrame →
    ∃ t, exec (.helloFrame n bytes) s = .next t ∧ s.NoReply t ∧ t.events.copy = s.events.copy ∧ t.arbiter = s.arbiter ∧
      (∀ unit, (body = [0x00] ∧ unit = .points) ∨ (body = [0x01] ∧ unit = .scanner) →
        t.body = { s.body with
          ports := s.ports.set n { p with
            state := .live, unitKind := some unit, expectedToggle := false, flags := { p.flags with hello := true }
            answers := placed p.answers ⟨.ack, tag.getLsbD 0⟩ } }) ∧
      (body ≠ [0x00] → body ≠ [0x01] →
        t.body = { s.body with
          ports := s.ports.set n { p with
            refused := min 255 (p.refused + 1), flags := { p.flags with refused := true }
            answers := placed p.answers ⟨.refuse .badBody, tag.getLsbD 0⟩ } })

/-- Frames that no answer is given to (R82, R83): a bad CRC, a length outside 2..250, a gap in a started frame; one
CRC error is counted and CRC latched, and the port keeps its state, silence count, toggle and every other counter. A
gap while the receiver hunts is nothing. -/
def Obligations.BadFieldFramesAreCounted : Prop :=
  ∀ (s : State) (n : PortIx) (bytes : List Byte) (c : Instr), s.Settled → s.resetLow = false →
    ((c = .fieldCrcFailure n bytes ∧ receive (s.ports.get n).assembly bytes = (.badCrc, [])) ∨
      (c = .fieldLengthOutOfRange n bytes ∧ receive (s.ports.get n).assembly bytes = (.badLength, [])) ∨
      (c = .fieldGapTimeout n bytes ∧ ∃ b rest, receive (s.ports.get n).assembly bytes = (.partialFrame (b :: rest), [])) →
      ∃ t, exec c s = .next t ∧ s.NoReply t ∧ t.events.copy = s.events.copy ∧ t.arbiter = s.arbiter ∧
        t.body = { s.body with
          ports := s.ports.upd n fun p => { p with
            assembly := [], crcErrors := min 255 (p.crcErrors + 1), flags := { p.flags with crc := true } } }) ∧
    (receive (s.ports.get n).assembly bytes = (.partialFrame [], []) → exec (.fieldGapTimeout n bytes) s =
      .next { s with ports := s.ports.upd n fun p => { p with assembly := [] } })

/-- FIELD_ANSWER_SENT (R84): the answer being sent leaves the reply list, the one behind it is sent next, and nothing
else changes (with no answer to send there is no event: the model's choice, log entry 2); and what a port sends for an
answer is the frame of Tables 5-1 to 5-3 with the toggle of the frame answered. -/
def Obligations.AnswersAreSentInOrder : Prop :=
  ∀ (s : State) (n : PortIx), s.resetLow = false →
    (∀ a rest, (s.ports.get n).answers = a :: rest → exec (.fieldAnswerSent n) s =
      .next { s with ports := s.ports.upd n fun p => { p with answers := rest } }) ∧
    ((s.ports.get n).answers = [] → exec (.fieldAnswerSent n) s = .next s ∧ s.ftxd n = none) ∧
    (∀ a rest toggle, (s.ports.get n).answers = a :: rest → a.toggle = toggle → s.ftxd n = some
      (match a.kind with
        | .ack => frameBytes 0x81 (if toggle then 1 else 0) []
        | .hold => frameBytes 0x82 (if toggle then 1 else 0) []
        | .refuse .noHello => frameBytes 0x83 (if toggle then 1 else 0) [0x01]
        | .refuse .wrongKind => frameBytes 0x83 (if toggle then 1 else 0) [0x02]
        | .refuse .badBody => frameBytes 0x83 (if toggle then 1 else 0) [0x03]))

/-! ## Lines -/

/-- LINE_DEBOUNCED_EDGE and LINE_PIN_CHANGE (R127 to R131): the debounced level takes the pin's level; a selected edge
latches EDGE; a HOLD line's flag follows the level, and a change of it posts a hold item; a selected edge of a REBASE
line posts a rebase item. A pin that stands at the debounced level makes no edge. A pin change moves the pin, starts
or cancels the 20 ms, and does nothing else. (That a debounced edge of a pin at its level is no event is the model's
choice, log entry 2.) -/
def Obligations.LineEdges : Prop :=
  ∀ (s : State) (n : LineIx) (l : LineRecord) (selected flag : Bool), s.lines.get n = l →
    selected = (match s.settings.lineEdge.get n with
      | .none => false
      | .rise => !l.level
      | .fall => l.level
      | .both => true) →
    flag = derivedHold (s.settings.lineEdge.get n) (s.settings.lineAction.get n) (!l.level) →
    exec (.linePinChange n) s = .next { s with lines := s.lines.set n { l with pin := !l.pin, heldMs := 0 } } ∧
    (l.pin = l.level → exec (.lineDebouncedEdge n) s = .next s) ∧
    (s.Settled → s.resetLow = false → l.pin ≠ l.level → ∃ t, exec (.lineDebouncedEdge n) s = .next t ∧ s.NoReply t ∧
      t.events.copy = s.events.copy ∧
      t.body = { s.body with
        lines := s.lines.set n { l with
          level := !l.level, heldMs := 0, edge := l.edge || selected
          holdFlag := if s.settings.lineAction.get n = .hold then flag else l.holdFlag } } ∧
      (s.settings.lineAction.get n = .mark → t.arbiter = s.arbiter) ∧
      (s.settings.lineAction.get n = .hold → flag = l.holdFlag → t.arbiter = s.arbiter) ∧
      (s.settings.lineAction.get n = .rebase → selected = false → t.arbiter = s.arbiter) ∧
      (∀ item op, (s.settings.lineAction.get n = .hold ∧ flag ≠ l.holdFlag ∧ item = .hold n ∧ op = .hold n flag) ∨
          (s.settings.lineAction.get n = .rebase ∧ selected = true ∧ item = .rebase n ∧ op = .rebase n) →
        (s.map.inFlight = none → s.map.softResetWaits = false → t.arbiter = (s.claims, some op, s.latched)) ∧
        (s.map.inFlight ≠ none ∨ s.map.softResetWaits = true → t.arbiter =
          ((s.map.pendingClose, if item ∈ s.map.items then s.map.items else s.map.items ++ [item], s.queue),
            s.map.inFlight, s.latched))))
end

