-- ==== Sys2Proof/Laws/State.lean ====
section
/-! SUPPORT. What each named update of the state changes, field by field. -/

namespace Sys2Proof.Machine

variable (s : State)

/-! ### postClose -/

@[simp] theorem State.postClose_pending : (s.postClose).pending = s.pending := rfl
@[simp] theorem State.postClose_resetLow : (s.postClose).resetLow = s.resetLow := rfl
@[simp] theorem State.postClose_settings : (s.postClose).settings = s.settings := rfl
@[simp] theorem State.postClose_host : (s.postClose).host = s.host := rfl
@[simp] theorem State.postClose_ports : (s.postClose).ports = s.ports := rfl
@[simp] theorem State.postClose_queue : (s.postClose).queue = s.queue := rfl
@[simp] theorem State.postClose_cellTable : (s.postClose).cellTable = s.cellTable := rfl
@[simp] theorem State.postClose_cells : (s.postClose).cells = s.cells := rfl
@[simp] theorem State.postClose_pointTable : (s.postClose).pointTable = s.pointTable := rfl
@[simp] theorem State.postClose_points : (s.postClose).points = s.points := rfl
@[simp] theorem State.postClose_viewTable : (s.postClose).viewTable = s.viewTable := rfl
@[simp] theorem State.postClose_views : (s.postClose).views = s.views := rfl
@[simp] theorem State.postClose_limits : (s.postClose).limits = s.limits := rfl
@[simp] theorem State.postClose_map_mode : (s.postClose).map.mode = s.map.mode := rfl
@[simp] theorem State.postClose_map_hostHold : (s.postClose).map.hostHold = s.map.hostHold := rfl
@[simp] theorem State.postClose_map_lineHold : (s.postClose).map.lineHold = s.map.lineHold := rfl
@[simp] theorem State.postClose_map_epoch : (s.postClose).map.epoch = s.map.epoch := rfl
@[simp] theorem State.postClose_map_hotList : (s.postClose).map.hotList = s.map.hotList := rfl
@[simp] theorem State.postClose_map_buildingEpoch : (s.postClose).map.buildingEpoch = s.map.buildingEpoch := rfl
@[simp] theorem State.postClose_map_topChanged : (s.postClose).map.topChanged = s.map.topChanged := rfl
@[simp] theorem State.postClose_map_summaries : (s.postClose).map.summaries = s.map.summaries := rfl
@[simp] theorem State.postClose_map_passFlags : (s.postClose).map.passFlags = s.map.passFlags := rfl
@[simp] theorem State.postClose_map_unmappedDiscards : (s.postClose).map.unmappedDiscards = s.map.unmappedDiscards := rfl
@[simp] theorem State.postClose_map_heldDiscards : (s.postClose).map.heldDiscards = s.map.heldDiscards := rfl
@[simp] theorem State.postClose_map_pendingClose : (s.postClose).map.pendingClose = true := rfl
@[simp] theorem State.postClose_map_items : (s.postClose).map.items = s.map.items := rfl
@[simp] theorem State.postClose_map_inFlight : (s.postClose).map.inFlight = s.map.inFlight := rfl
@[simp] theorem State.postClose_map_softResetWaits : (s.postClose).map.softResetWaits = s.map.softResetWaits := rfl
@[simp] theorem State.postClose_latched : (s.postClose).latched = s.latched := rfl
@[simp] theorem State.postClose_timerCount : (s.postClose).timerCount = s.timerCount := rfl
@[simp] theorem State.postClose_lines : (s.postClose).lines = s.lines := rfl
@[simp] theorem State.postClose_stage : (s.postClose).stage = s.stage := rfl
@[simp] theorem State.postClose_events : (s.postClose).events = s.events := rfl

/-! ### post -/

@[simp] theorem State.post_pending (item : MapItem) : (s.post item).pending = s.pending := rfl
@[simp] theorem State.post_resetLow (item : MapItem) : (s.post item).resetLow = s.resetLow := rfl
@[simp] theorem State.post_settings (item : MapItem) : (s.post item).settings = s.settings := rfl
@[simp] theorem State.post_host (item : MapItem) : (s.post item).host = s.host := rfl
@[simp] theorem State.post_ports (item : MapItem) : (s.post item).ports = s.ports := rfl
@[simp] theorem State.post_queue (item : MapItem) : (s.post item).queue = s.queue := rfl
@[simp] theorem State.post_cellTable (item : MapItem) : (s.post item).cellTable = s.cellTable := rfl
@[simp] theorem State.post_cells (item : MapItem) : (s.post item).cells = s.cells := rfl
@[simp] theorem State.post_pointTable (item : MapItem) : (s.post item).pointTable = s.pointTable := rfl
@[simp] theorem State.post_points (item : MapItem) : (s.post item).points = s.points := rfl
@[simp] theorem State.post_viewTable (item : MapItem) : (s.post item).viewTable = s.viewTable := rfl
@[simp] theorem State.post_views (item : MapItem) : (s.post item).views = s.views := rfl
@[simp] theorem State.post_limits (item : MapItem) : (s.post item).limits = s.limits := rfl
@[simp] theorem State.post_map_mode (item : MapItem) : (s.post item).map.mode = s.map.mode := rfl
@[simp] theorem State.post_map_hostHold (item : MapItem) : (s.post item).map.hostHold = s.map.hostHold := rfl
@[simp] theorem State.post_map_lineHold (item : MapItem) : (s.post item).map.lineHold = s.map.lineHold := rfl
@[simp] theorem State.post_map_epoch (item : MapItem) : (s.post item).map.epoch = s.map.epoch := rfl
@[simp] theorem State.post_map_hotList (item : MapItem) : (s.post item).map.hotList = s.map.hotList := rfl
@[simp] theorem State.post_map_buildingEpoch (item : MapItem) : (s.post item).map.buildingEpoch = s.map.buildingEpoch := rfl
@[simp] theorem State.post_map_topChanged (item : MapItem) : (s.post item).map.topChanged = s.map.topChanged := rfl
@[simp] theorem State.post_map_summaries (item : MapItem) : (s.post item).map.summaries = s.map.summaries := rfl
@[simp] theorem State.post_map_passFlags (item : MapItem) : (s.post item).map.passFlags = s.map.passFlags := rfl
@[simp] theorem State.post_map_unmappedDiscards (item : MapItem) : (s.post item).map.unmappedDiscards = s.map.unmappedDiscards := rfl
@[simp] theorem State.post_map_heldDiscards (item : MapItem) : (s.post item).map.heldDiscards = s.map.heldDiscards := rfl
@[simp] theorem State.post_map_pendingClose (item : MapItem) : (s.post item).map.pendingClose = s.map.pendingClose := rfl
@[simp] theorem State.post_map_items (item : MapItem) : (s.post item).map.items = postItem item s.map.items := rfl
@[simp] theorem State.post_map_inFlight (item : MapItem) : (s.post item).map.inFlight = s.map.inFlight := rfl
@[simp] theorem State.post_map_softResetWaits (item : MapItem) : (s.post item).map.softResetWaits = s.map.softResetWaits := rfl
@[simp] theorem State.post_latched (item : MapItem) : (s.post item).latched = s.latched := rfl
@[simp] theorem State.post_timerCount (item : MapItem) : (s.post item).timerCount = s.timerCount := rfl
@[simp] theorem State.post_lines (item : MapItem) : (s.post item).lines = s.lines := rfl
@[simp] theorem State.post_stage (item : MapItem) : (s.post item).stage = s.stage := rfl
@[simp] theorem State.post_events (item : MapItem) : (s.post item).events = s.events := rfl

/-! ### restartCount -/

@[simp] theorem State.restartCount_pending : (s.restartCount).pending = s.pending := rfl
@[simp] theorem State.restartCount_resetLow : (s.restartCount).resetLow = s.resetLow := rfl
@[simp] theorem State.restartCount_settings : (s.restartCount).settings = s.settings := rfl
@[simp] theorem State.restartCount_host : (s.restartCount).host = s.host := rfl
@[simp] theorem State.restartCount_ports : (s.restartCount).ports = s.ports := rfl
@[simp] theorem State.restartCount_queue : (s.restartCount).queue = s.queue := rfl
@[simp] theorem State.restartCount_cellTable : (s.restartCount).cellTable = s.cellTable := rfl
@[simp] theorem State.restartCount_cells : (s.restartCount).cells = s.cells := rfl
@[simp] theorem State.restartCount_pointTable : (s.restartCount).pointTable = s.pointTable := rfl
@[simp] theorem State.restartCount_points : (s.restartCount).points = s.points := rfl
@[simp] theorem State.restartCount_viewTable : (s.restartCount).viewTable = s.viewTable := rfl
@[simp] theorem State.restartCount_views : (s.restartCount).views = s.views := rfl
@[simp] theorem State.restartCount_limits : (s.restartCount).limits = s.limits := rfl
@[simp] theorem State.restartCount_map : (s.restartCount).map = s.map := rfl
@[simp] theorem State.restartCount_latched : (s.restartCount).latched = s.latched := rfl
@[simp] theorem State.restartCount_timerCount : (s.restartCount).timerCount = 0 := rfl
@[simp] theorem State.restartCount_lines : (s.restartCount).lines = s.lines := rfl
@[simp] theorem State.restartCount_stage : (s.restartCount).stage = s.stage := rfl
@[simp] theorem State.restartCount_events : (s.restartCount).events = s.events := rfl

/-! ### rebase -/

@[simp] theorem State.rebase_pending : (s.rebase).pending = s.pending := rfl
@[simp] theorem State.rebase_resetLow : (s.rebase).resetLow = s.resetLow := rfl
@[simp] theorem State.rebase_settings : (s.rebase).settings = s.settings := rfl
@[simp] theorem State.rebase_host : (s.rebase).host = s.host := rfl
@[simp] theorem State.rebase_ports : (s.rebase).ports = s.ports := rfl
@[simp] theorem State.rebase_queue : (s.rebase).queue = s.queue := rfl
@[simp] theorem State.rebase_cellTable : (s.rebase).cellTable = s.cellTable := rfl
@[simp] theorem State.rebase_cells : (s.rebase).cells = s.cells.map CellRecord.rebase := rfl
@[simp] theorem State.rebase_pointTable : (s.rebase).pointTable = s.pointTable := rfl
@[simp] theorem State.rebase_points : (s.rebase).points = s.points := rfl
@[simp] theorem State.rebase_viewTable : (s.rebase).viewTable = s.viewTable := rfl
@[simp] theorem State.rebase_views : (s.rebase).views = s.views := rfl
@[simp] theorem State.rebase_limits : (s.rebase).limits = s.limits := rfl
@[simp] theorem State.rebase_map : (s.rebase).map = s.map := rfl
@[simp] theorem State.rebase_latched : (s.rebase).latched = s.latched := rfl
@[simp] theorem State.rebase_timerCount : (s.rebase).timerCount = s.timerCount := rfl
@[simp] theorem State.rebase_lines : (s.rebase).lines = s.lines := rfl
@[simp] theorem State.rebase_stage : (s.rebase).stage = s.stage := rfl
@[simp] theorem State.rebase_events : (s.rebase).events = s.events := rfl

/-! ### reply -/

@[simp] theorem State.reply_pending (r : Request) (parts : List (List Byte)) : (s.reply r parts).pending = s.pending := rfl
@[simp] theorem State.reply_resetLow (r : Request) (parts : List (List Byte)) : (s.reply r parts).resetLow = s.resetLow := rfl
@[simp] theorem State.reply_settings (r : Request) (parts : List (List Byte)) : (s.reply r parts).settings = s.settings := rfl
@[simp] theorem State.reply_host_assembly (r : Request) (parts : List (List Byte)) : (s.reply r parts).host.assembly = s.host.assembly := rfl
@[simp] theorem State.reply_host_buffer (r : Request) (parts : List (List Byte)) : (s.reply r parts).host.buffer = s.host.buffer := rfl
@[simp] theorem State.reply_host_service (r : Request) (parts : List (List Byte)) : (s.reply r parts).host.service = .replied := rfl
@[simp] theorem State.reply_host_ready (r : Request) (parts : List (List Byte)) : (s.reply r parts).host.ready = s.host.ready ++ [⟨replyKind r.kind, r.tag, parts, true⟩] := rfl
@[simp] theorem State.reply_host_sending (r : Request) (parts : List (List Byte)) : (s.reply r parts).host.sending = s.host.sending := rfl
@[simp] theorem State.reply_host_badCrc (r : Request) (parts : List (List Byte)) : (s.reply r parts).host.badCrc = s.host.badCrc := rfl
@[simp] theorem State.reply_ports (r : Request) (parts : List (List Byte)) : (s.reply r parts).ports = s.ports := rfl
@[simp] theorem State.reply_queue (r : Request) (parts : List (List Byte)) : (s.reply r parts).queue = s.queue := rfl
@[simp] theorem State.reply_cellTable (r : Request) (parts : List (List Byte)) : (s.reply r parts).cellTable = s.cellTable := rfl
@[simp] theorem State.reply_cells (r : Request) (parts : List (List Byte)) : (s.reply r parts).cells = s.cells := rfl
@[simp] theorem State.reply_pointTable (r : Request) (parts : List (List Byte)) : (s.reply r parts).pointTable = s.pointTable := rfl
@[simp] theorem State.reply_points (r : Request) (parts : List (List Byte)) : (s.reply r parts).points = s.points := rfl
@[simp] theorem State.reply_viewTable (r : Request) (parts : List (List Byte)) : (s.reply r parts).viewTable = s.viewTable := rfl
@[simp] theorem State.reply_views (r : Request) (parts : List (List Byte)) : (s.reply r parts).views = s.views := rfl
@[simp] theorem State.reply_limits (r : Request) (parts : List (List Byte)) : (s.reply r parts).limits = s.limits := rfl
@[simp] theorem State.reply_map (r : Request) (parts : List (List Byte)) : (s.reply r parts).map = s.map := rfl
@[simp] theorem State.reply_latched (r : Request) (parts : List (List Byte)) : (s.reply r parts).latched = s.latched := rfl
@[simp] theorem State.reply_timerCount (r : Request) (parts : List (List Byte)) : (s.reply r parts).timerCount = s.timerCount := rfl
@[simp] theorem State.reply_lines (r : Request) (parts : List (List Byte)) : (s.reply r parts).lines = s.lines := rfl
@[simp] theorem State.reply_stage (r : Request) (parts : List (List Byte)) : (s.reply r parts).stage = s.stage := rfl
@[simp] theorem State.reply_events (r : Request) (parts : List (List Byte)) : (s.reply r parts).events = s.events := rfl

/-! ### hostAssemble -/

@[simp] theorem State.hostAssemble_pending (a : List Byte) : (s.hostAssemble a).pending = s.pending := rfl
@[simp] theorem State.hostAssemble_resetLow (a : List Byte) : (s.hostAssemble a).resetLow = s.resetLow := rfl
@[simp] theorem State.hostAssemble_settings (a : List Byte) : (s.hostAssemble a).settings = s.settings := rfl
@[simp] theorem State.hostAssemble_host_assembly (a : List Byte) : (s.hostAssemble a).host.assembly = a := rfl
@[simp] theorem State.hostAssemble_host_buffer (a : List Byte) : (s.hostAssemble a).host.buffer = s.host.buffer := rfl
@[simp] theorem State.hostAssemble_host_service (a : List Byte) : (s.hostAssemble a).host.service = s.host.service := rfl
@[simp] theorem State.hostAssemble_host_ready (a : List Byte) : (s.hostAssemble a).host.ready = s.host.ready := rfl
@[simp] theorem State.hostAssemble_host_sending (a : List Byte) : (s.hostAssemble a).host.sending = s.host.sending := rfl
@[simp] theorem State.hostAssemble_host_badCrc (a : List Byte) : (s.hostAssemble a).host.badCrc = s.host.badCrc := rfl
@[simp] theorem State.hostAssemble_ports (a : List Byte) : (s.hostAssemble a).ports = s.ports := rfl
@[simp] theorem State.hostAssemble_queue (a : List Byte) : (s.hostAssemble a).queue = s.queue := rfl
@[simp] theorem State.hostAssemble_cellTable (a : List Byte) : (s.hostAssemble a).cellTable = s.cellTable := rfl
@[simp] theorem State.hostAssemble_cells (a : List Byte) : (s.hostAssemble a).cells = s.cells := rfl
@[simp] theorem State.hostAssemble_pointTable (a : List Byte) : (s.hostAssemble a).pointTable = s.pointTable := rfl
@[simp] theorem State.hostAssemble_points (a : List Byte) : (s.hostAssemble a).points = s.points := rfl
@[simp] theorem State.hostAssemble_viewTable (a : List Byte) : (s.hostAssemble a).viewTable = s.viewTable := rfl
@[simp] theorem State.hostAssemble_views (a : List Byte) : (s.hostAssemble a).views = s.views := rfl
@[simp] theorem State.hostAssemble_limits (a : List Byte) : (s.hostAssemble a).limits = s.limits := rfl
@[simp] theorem State.hostAssemble_map (a : List Byte) : (s.hostAssemble a).map = s.map := rfl
@[simp] theorem State.hostAssemble_latched (a : List Byte) : (s.hostAssemble a).latched = s.latched := rfl
@[simp] theorem State.hostAssemble_timerCount (a : List Byte) : (s.hostAssemble a).timerCount = s.timerCount := rfl
@[simp] theorem State.hostAssemble_lines (a : List Byte) : (s.hostAssemble a).lines = s.lines := rfl
@[simp] theorem State.hostAssemble_stage (a : List Byte) : (s.hostAssemble a).stage = s.stage := rfl
@[simp] theorem State.hostAssemble_events (a : List Byte) : (s.hostAssemble a).events = s.events := rfl

/-! ### countBadCrc -/

@[simp] theorem State.countBadCrc_pending : (s.countBadCrc).pending = s.pending := rfl
@[simp] theorem State.countBadCrc_resetLow : (s.countBadCrc).resetLow = s.resetLow := rfl
@[simp] theorem State.countBadCrc_settings : (s.countBadCrc).settings = s.settings := rfl
@[simp] theorem State.countBadCrc_host_assembly : (s.countBadCrc).host.assembly = s.host.assembly := rfl
@[simp] theorem State.countBadCrc_host_buffer : (s.countBadCrc).host.buffer = s.host.buffer := rfl
@[simp] theorem State.countBadCrc_host_service : (s.countBadCrc).host.service = s.host.service := rfl
@[simp] theorem State.countBadCrc_host_ready : (s.countBadCrc).host.ready = s.host.ready := rfl
@[simp] theorem State.countBadCrc_host_sending : (s.countBadCrc).host.sending = s.host.sending := rfl
@[simp] theorem State.countBadCrc_host_badCrc : (s.countBadCrc).host.badCrc = countUp 255 s.host.badCrc := rfl
@[simp] theorem State.countBadCrc_ports : (s.countBadCrc).ports = s.ports := rfl
@[simp] theorem State.countBadCrc_queue : (s.countBadCrc).queue = s.queue := rfl
@[simp] theorem State.countBadCrc_cellTable : (s.countBadCrc).cellTable = s.cellTable := rfl
@[simp] theorem State.countBadCrc_cells : (s.countBadCrc).cells = s.cells := rfl
@[simp] theorem State.countBadCrc_pointTable : (s.countBadCrc).pointTable = s.pointTable := rfl
@[simp] theorem State.countBadCrc_points : (s.countBadCrc).points = s.points := rfl
@[simp] theorem State.countBadCrc_viewTable : (s.countBadCrc).viewTable = s.viewTable := rfl
@[simp] theorem State.countBadCrc_views : (s.countBadCrc).views = s.views := rfl
@[simp] theorem State.countBadCrc_limits : (s.countBadCrc).limits = s.limits := rfl
@[simp] theorem State.countBadCrc_map : (s.countBadCrc).map = s.map := rfl
@[simp] theorem State.countBadCrc_latched : (s.countBadCrc).latched = s.latched := rfl
@[simp] theorem State.countBadCrc_timerCount : (s.countBadCrc).timerCount = s.timerCount := rfl
@[simp] theorem State.countBadCrc_lines : (s.countBadCrc).lines = s.lines := rfl
@[simp] theorem State.countBadCrc_stage : (s.countBadCrc).stage = s.stage := rfl
@[simp] theorem State.countBadCrc_events : (s.countBadCrc).events = s.events := rfl

/-! ### fieldAssemble -/

@[simp] theorem State.fieldAssemble_pending (p : PortIx) (a : List Byte) : (s.fieldAssemble p a).pending = s.pending := rfl
@[simp] theorem State.fieldAssemble_resetLow (p : PortIx) (a : List Byte) : (s.fieldAssemble p a).resetLow = s.resetLow := rfl
@[simp] theorem State.fieldAssemble_settings (p : PortIx) (a : List Byte) : (s.fieldAssemble p a).settings = s.settings := rfl
@[simp] theorem State.fieldAssemble_host (p : PortIx) (a : List Byte) : (s.fieldAssemble p a).host = s.host := rfl
@[simp] theorem State.fieldAssemble_queue (p : PortIx) (a : List Byte) : (s.fieldAssemble p a).queue = s.queue := rfl
@[simp] theorem State.fieldAssemble_cellTable (p : PortIx) (a : List Byte) : (s.fieldAssemble p a).cellTable = s.cellTable := rfl
@[simp] theorem State.fieldAssemble_cells (p : PortIx) (a : List Byte) : (s.fieldAssemble p a).cells = s.cells := rfl
@[simp] theorem State.fieldAssemble_pointTable (p : PortIx) (a : List Byte) : (s.fieldAssemble p a).pointTable = s.pointTable := rfl
@[simp] theorem State.fieldAssemble_points (p : PortIx) (a : List Byte) : (s.fieldAssemble p a).points = s.points := rfl
@[simp] theorem State.fieldAssemble_viewTable (p : PortIx) (a : List Byte) : (s.fieldAssemble p a).viewTable = s.viewTable := rfl
@[simp] theorem State.fieldAssemble_views (p : PortIx) (a : List Byte) : (s.fieldAssemble p a).views = s.views := rfl
@[simp] theorem State.fieldAssemble_limits (p : PortIx) (a : List Byte) : (s.fieldAssemble p a).limits = s.limits := rfl
@[simp] theorem State.fieldAssemble_map (p : PortIx) (a : List Byte) : (s.fieldAssemble p a).map = s.map := rfl
@[simp] theorem State.fieldAssemble_latched (p : PortIx) (a : List Byte) : (s.fieldAssemble p a).latched = s.latched := rfl
@[simp] theorem State.fieldAssemble_timerCount (p : PortIx) (a : List Byte) : (s.fieldAssemble p a).timerCount = s.timerCount := rfl
@[simp] theorem State.fieldAssemble_lines (p : PortIx) (a : List Byte) : (s.fieldAssemble p a).lines = s.lines := rfl
@[simp] theorem State.fieldAssemble_stage (p : PortIx) (a : List Byte) : (s.fieldAssemble p a).stage = s.stage := rfl
@[simp] theorem State.fieldAssemble_events (p : PortIx) (a : List Byte) : (s.fieldAssemble p a).events = s.events := rfl

/-! ### portCrcError -/

@[simp] theorem State.portCrcError_pending (p : PortIx) : (s.portCrcError p).pending = s.pending := rfl
@[simp] theorem State.portCrcError_resetLow (p : PortIx) : (s.portCrcError p).resetLow = s.resetLow := rfl
@[simp] theorem State.portCrcError_settings (p : PortIx) : (s.portCrcError p).settings = s.settings := rfl
@[simp] theorem State.portCrcError_host (p : PortIx) : (s.portCrcError p).host = s.host := rfl
@[simp] theorem State.portCrcError_queue (p : PortIx) : (s.portCrcError p).queue = s.queue := rfl
@[simp] theorem State.portCrcError_cellTable (p : PortIx) : (s.portCrcError p).cellTable = s.cellTable := rfl
@[simp] theorem State.portCrcError_cells (p : PortIx) : (s.portCrcError p).cells = s.cells := rfl
@[simp] theorem State.portCrcError_pointTable (p : PortIx) : (s.portCrcError p).pointTable = s.pointTable := rfl
@[simp] theorem State.portCrcError_points (p : PortIx) : (s.portCrcError p).points = s.points := rfl
@[simp] theorem State.portCrcError_viewTable (p : PortIx) : (s.portCrcError p).viewTable = s.viewTable := rfl
@[simp] theorem State.portCrcError_views (p : PortIx) : (s.portCrcError p).views = s.views := rfl
@[simp] theorem State.portCrcError_limits (p : PortIx) : (s.portCrcError p).limits = s.limits := rfl
@[simp] theorem State.portCrcError_map (p : PortIx) : (s.portCrcError p).map = s.map := rfl
@[simp] theorem State.portCrcError_latched (p : PortIx) : (s.portCrcError p).latched = s.latched := rfl
@[simp] theorem State.portCrcError_timerCount (p : PortIx) : (s.portCrcError p).timerCount = s.timerCount := rfl
@[simp] theorem State.portCrcError_lines (p : PortIx) : (s.portCrcError p).lines = s.lines := rfl
@[simp] theorem State.portCrcError_stage (p : PortIx) : (s.portCrcError p).stage = s.stage := rfl
@[simp] theorem State.portCrcError_events (p : PortIx) : (s.portCrcError p).events = s.events := rfl

/-! ### refreshCopy -/

@[simp] theorem State.refreshCopy_pending : (s.refreshCopy).pending = s.pending := rfl
@[simp] theorem State.refreshCopy_resetLow : (s.refreshCopy).resetLow = s.resetLow := rfl
@[simp] theorem State.refreshCopy_settings : (s.refreshCopy).settings = s.settings := rfl
@[simp] theorem State.refreshCopy_host : (s.refreshCopy).host = s.host := rfl
@[simp] theorem State.refreshCopy_ports : (s.refreshCopy).ports = s.ports := rfl
@[simp] theorem State.refreshCopy_queue : (s.refreshCopy).queue = s.queue := rfl
@[simp] theorem State.refreshCopy_cellTable : (s.refreshCopy).cellTable = s.cellTable := rfl
@[simp] theorem State.refreshCopy_cells : (s.refreshCopy).cells = s.cells := rfl
@[simp] theorem State.refreshCopy_pointTable : (s.refreshCopy).pointTable = s.pointTable := rfl
@[simp] theorem State.refreshCopy_points : (s.refreshCopy).points = s.points := rfl
@[simp] theorem State.refreshCopy_viewTable : (s.refreshCopy).viewTable = s.viewTable := rfl
@[simp] theorem State.refreshCopy_views : (s.refreshCopy).views = s.views := rfl
@[simp] theorem State.refreshCopy_limits : (s.refreshCopy).limits = s.limits := rfl
@[simp] theorem State.refreshCopy_map : (s.refreshCopy).map = s.map := rfl
@[simp] theorem State.refreshCopy_latched : (s.refreshCopy).latched = s.latched := rfl
@[simp] theorem State.refreshCopy_timerCount : (s.refreshCopy).timerCount = s.timerCount := rfl
@[simp] theorem State.refreshCopy_lines : (s.refreshCopy).lines = s.lines := rfl
@[simp] theorem State.refreshCopy_stage : (s.refreshCopy).stage = s.stage := rfl
@[simp] theorem State.refreshCopy_events_copy : (s.refreshCopy).events.copy = ⟨s.points.map PointRecord.flags, s.map.passFlags, s.map.topChanged, s.stage.installed, s.stage.dropped⟩ := rfl
@[simp] theorem State.refreshCopy_events_urgentNotice : (s.refreshCopy).events.urgentNotice = s.events.urgentNotice := rfl
@[simp] theorem State.refreshCopy_events_routineNotice : (s.refreshCopy).events.routineNotice = s.events.routineNotice := rfl
@[simp] theorem State.refreshCopy_events_alertDriven : (s.refreshCopy).events.alertDriven = s.events.alertDriven := rfl

/-! ### refreshStageCopy -/

@[simp] theorem State.refreshStageCopy_pending : (s.refreshStageCopy).pending = s.pending := rfl
@[simp] theorem State.refreshStageCopy_resetLow : (s.refreshStageCopy).resetLow = s.resetLow := rfl
@[simp] theorem State.refreshStageCopy_settings : (s.refreshStageCopy).settings = s.settings := rfl
@[simp] theorem State.refreshStageCopy_host : (s.refreshStageCopy).host = s.host := rfl
@[simp] theorem State.refreshStageCopy_ports : (s.refreshStageCopy).ports = s.ports := rfl
@[simp] theorem State.refreshStageCopy_queue : (s.refreshStageCopy).queue = s.queue := rfl
@[simp] theorem State.refreshStageCopy_cellTable : (s.refreshStageCopy).cellTable = s.cellTable := rfl
@[simp] theorem State.refreshStageCopy_cells : (s.refreshStageCopy).cells = s.cells := rfl
@[simp] theorem State.refreshStageCopy_pointTable : (s.refreshStageCopy).pointTable = s.pointTable := rfl
@[simp] theorem State.refreshStageCopy_points : (s.refreshStageCopy).points = s.points := rfl
@[simp] theorem State.refreshStageCopy_viewTable : (s.refreshStageCopy).viewTable = s.viewTable := rfl
@[simp] theorem State.refreshStageCopy_views : (s.refreshStageCopy).views = s.views := rfl
@[simp] theorem State.refreshStageCopy_limits : (s.refreshStageCopy).limits = s.limits := rfl
@[simp] theorem State.refreshStageCopy_map : (s.refreshStageCopy).map = s.map := rfl
@[simp] theorem State.refreshStageCopy_latched : (s.refreshStageCopy).latched = s.latched := rfl
@[simp] theorem State.refreshStageCopy_timerCount : (s.refreshStageCopy).timerCount = s.timerCount := rfl
@[simp] theorem State.refreshStageCopy_lines : (s.refreshStageCopy).lines = s.lines := rfl
@[simp] theorem State.refreshStageCopy_stage : (s.refreshStageCopy).stage = s.stage := rfl
@[simp] theorem State.refreshStageCopy_events_urgentNotice : (s.refreshStageCopy).events.urgentNotice = s.events.urgentNotice := rfl
@[simp] theorem State.refreshStageCopy_events_routineNotice : (s.refreshStageCopy).events.routineNotice = s.events.routineNotice := rfl
@[simp] theorem State.refreshStageCopy_events_alertDriven : (s.refreshStageCopy).events.alertDriven = s.events.alertDriven := rfl

/-! ### completeOp -/

@[simp] theorem State.completeOp_pending : (s.completeOp).pending = s.pending := rfl
@[simp] theorem State.completeOp_resetLow : (s.completeOp).resetLow = s.resetLow := rfl
@[simp] theorem State.completeOp_settings : (s.completeOp).settings = s.settings := rfl
@[simp] theorem State.completeOp_host : (s.completeOp).host = s.host := rfl
@[simp] theorem State.completeOp_ports : (s.completeOp).ports = s.ports := rfl
@[simp] theorem State.completeOp_queue : (s.completeOp).queue = s.queue := rfl
@[simp] theorem State.completeOp_cellTable : (s.completeOp).cellTable = s.cellTable := rfl
@[simp] theorem State.completeOp_cells : (s.completeOp).cells = s.cells := rfl
@[simp] theorem State.completeOp_pointTable : (s.completeOp).pointTable = s.pointTable := rfl
@[simp] theorem State.completeOp_points : (s.completeOp).points = s.points := rfl
@[simp] theorem State.completeOp_viewTable : (s.completeOp).viewTable = s.viewTable := rfl
@[simp] theorem State.completeOp_views : (s.completeOp).views = s.views := rfl
@[simp] theorem State.completeOp_limits : (s.completeOp).limits = s.limits := rfl
@[simp] theorem State.completeOp_map_mode : (s.completeOp).map.mode = s.map.mode := rfl
@[simp] theorem State.completeOp_map_hostHold : (s.completeOp).map.hostHold = s.map.hostHold := rfl
@[simp] theorem State.completeOp_map_lineHold : (s.completeOp).map.lineHold = s.map.lineHold := rfl
@[simp] theorem State.completeOp_map_epoch : (s.completeOp).map.epoch = s.map.epoch := rfl
@[simp] theorem State.completeOp_map_hotList : (s.completeOp).map.hotList = s.map.hotList := rfl
@[simp] theorem State.completeOp_map_buildingEpoch : (s.completeOp).map.buildingEpoch = s.map.buildingEpoch := rfl
@[simp] theorem State.completeOp_map_topChanged : (s.completeOp).map.topChanged = s.map.topChanged := rfl
@[simp] theorem State.completeOp_map_summaries : (s.completeOp).map.summaries = s.map.summaries := rfl
@[simp] theorem State.completeOp_map_passFlags : (s.completeOp).map.passFlags = s.map.passFlags := rfl
@[simp] theorem State.completeOp_map_unmappedDiscards : (s.completeOp).map.unmappedDiscards = s.map.unmappedDiscards := rfl
@[simp] theorem State.completeOp_map_heldDiscards : (s.completeOp).map.heldDiscards = s.map.heldDiscards := rfl
@[simp] theorem State.completeOp_map_pendingClose : (s.completeOp).map.pendingClose = s.map.pendingClose := rfl
@[simp] theorem State.completeOp_map_items : (s.completeOp).map.items = s.map.items := rfl
@[simp] theorem State.completeOp_map_inFlight : (s.completeOp).map.inFlight = none := rfl
@[simp] theorem State.completeOp_map_softResetWaits : (s.completeOp).map.softResetWaits = s.map.softResetWaits := rfl
@[simp] theorem State.completeOp_latched : (s.completeOp).latched = s.latched := rfl
@[simp] theorem State.completeOp_timerCount : (s.completeOp).timerCount = s.timerCount := rfl
@[simp] theorem State.completeOp_lines : (s.completeOp).lines = s.lines := rfl
@[simp] theorem State.completeOp_stage : (s.completeOp).stage = s.stage := rfl
@[simp] theorem State.completeOp_events_copy : (s.completeOp).events.copy = ⟨s.points.map PointRecord.flags, s.map.passFlags, s.map.topChanged, s.stage.installed, s.stage.dropped⟩ := rfl
@[simp] theorem State.completeOp_events_urgentNotice : (s.completeOp).events.urgentNotice = s.events.urgentNotice := rfl
@[simp] theorem State.completeOp_events_routineNotice : (s.completeOp).events.routineNotice = s.events.routineNotice := rfl
@[simp] theorem State.completeOp_events_alertDriven : (s.completeOp).events.alertDriven = s.events.alertDriven := rfl

/-! ### touchCell -/

@[simp] theorem State.touchCell_pending (k : Source) (x : Int) (g : Nat) (c : CellIx) (share : Nat) : (s.touchCell k x g c share).pending = s.pending := rfl
@[simp] theorem State.touchCell_resetLow (k : Source) (x : Int) (g : Nat) (c : CellIx) (share : Nat) : (s.touchCell k x g c share).resetLow = s.resetLow := rfl
@[simp] theorem State.touchCell_settings (k : Source) (x : Int) (g : Nat) (c : CellIx) (share : Nat) : (s.touchCell k x g c share).settings = s.settings := rfl
@[simp] theorem State.touchCell_host (k : Source) (x : Int) (g : Nat) (c : CellIx) (share : Nat) : (s.touchCell k x g c share).host = s.host := rfl
@[simp] theorem State.touchCell_ports (k : Source) (x : Int) (g : Nat) (c : CellIx) (share : Nat) : (s.touchCell k x g c share).ports = s.ports := rfl
@[simp] theorem State.touchCell_queue (k : Source) (x : Int) (g : Nat) (c : CellIx) (share : Nat) : (s.touchCell k x g c share).queue = s.queue := rfl
@[simp] theorem State.touchCell_cellTable (k : Source) (x : Int) (g : Nat) (c : CellIx) (share : Nat) : (s.touchCell k x g c share).cellTable = s.cellTable := rfl
@[simp] theorem State.touchCell_pointTable (k : Source) (x : Int) (g : Nat) (c : CellIx) (share : Nat) : (s.touchCell k x g c share).pointTable = s.pointTable := rfl
@[simp] theorem State.touchCell_points (k : Source) (x : Int) (g : Nat) (c : CellIx) (share : Nat) : (s.touchCell k x g c share).points = s.points := rfl
@[simp] theorem State.touchCell_viewTable (k : Source) (x : Int) (g : Nat) (c : CellIx) (share : Nat) : (s.touchCell k x g c share).viewTable = s.viewTable := rfl
@[simp] theorem State.touchCell_views (k : Source) (x : Int) (g : Nat) (c : CellIx) (share : Nat) : (s.touchCell k x g c share).views = s.views := rfl
@[simp] theorem State.touchCell_limits (k : Source) (x : Int) (g : Nat) (c : CellIx) (share : Nat) : (s.touchCell k x g c share).limits = s.limits := rfl
@[simp] theorem State.touchCell_map (k : Source) (x : Int) (g : Nat) (c : CellIx) (share : Nat) : (s.touchCell k x g c share).map = s.map := rfl
@[simp] theorem State.touchCell_latched (k : Source) (x : Int) (g : Nat) (c : CellIx) (share : Nat) : (s.touchCell k x g c share).latched = s.latched := rfl
@[simp] theorem State.touchCell_timerCount (k : Source) (x : Int) (g : Nat) (c : CellIx) (share : Nat) : (s.touchCell k x g c share).timerCount = s.timerCount := rfl
@[simp] theorem State.touchCell_lines (k : Source) (x : Int) (g : Nat) (c : CellIx) (share : Nat) : (s.touchCell k x g c share).lines = s.lines := rfl
@[simp] theorem State.touchCell_stage (k : Source) (x : Int) (g : Nat) (c : CellIx) (share : Nat) : (s.touchCell k x g c share).stage = s.stage := rfl
@[simp] theorem State.touchCell_events (k : Source) (x : Int) (g : Nat) (c : CellIx) (share : Nat) : (s.touchCell k x g c share).events = s.events := rfl

/-! ### silencePorts -/

@[simp] theorem State.silencePorts_pending : (s.silencePorts).pending = s.pending := rfl
@[simp] theorem State.silencePorts_resetLow : (s.silencePorts).resetLow = s.resetLow := rfl
@[simp] theorem State.silencePorts_settings : (s.silencePorts).settings = s.settings := rfl
@[simp] theorem State.silencePorts_host : (s.silencePorts).host = s.host := rfl
@[simp] theorem State.silencePorts_queue : (s.silencePorts).queue = s.queue := rfl
@[simp] theorem State.silencePorts_cellTable : (s.silencePorts).cellTable = s.cellTable := rfl
@[simp] theorem State.silencePorts_cells : (s.silencePorts).cells = s.cells := rfl
@[simp] theorem State.silencePorts_pointTable : (s.silencePorts).pointTable = s.pointTable := rfl
@[simp] theorem State.silencePorts_points : (s.silencePorts).points = s.points := rfl
@[simp] theorem State.silencePorts_viewTable : (s.silencePorts).viewTable = s.viewTable := rfl
@[simp] theorem State.silencePorts_views : (s.silencePorts).views = s.views := rfl
@[simp] theorem State.silencePorts_limits : (s.silencePorts).limits = s.limits := rfl
@[simp] theorem State.silencePorts_map : (s.silencePorts).map = s.map := rfl
@[simp] theorem State.silencePorts_latched : (s.silencePorts).latched = s.latched := rfl
@[simp] theorem State.silencePorts_timerCount : (s.silencePorts).timerCount = s.timerCount := rfl
@[simp] theorem State.silencePorts_lines : (s.silencePorts).lines = s.lines := rfl
@[simp] theorem State.silencePorts_stage : (s.silencePorts).stage = s.stage := rfl
@[simp] theorem State.silencePorts_events : (s.silencePorts).events = s.events := rfl

/-! ### takeEvent -/

@[simp] theorem State.takeEvent_pending (old : State) : (old.takeEvent s).pending = s.pending := rfl
@[simp] theorem State.takeEvent_resetLow (old : State) : (old.takeEvent s).resetLow = s.resetLow := rfl
@[simp] theorem State.takeEvent_settings (old : State) : (old.takeEvent s).settings = s.settings := rfl
@[simp] theorem State.takeEvent_host (old : State) : (old.takeEvent s).host = s.host := rfl
@[simp] theorem State.takeEvent_ports (old : State) : (old.takeEvent s).ports = s.ports := rfl
@[simp] theorem State.takeEvent_queue (old : State) : (old.takeEvent s).queue = s.queue := rfl
@[simp] theorem State.takeEvent_cellTable (old : State) : (old.takeEvent s).cellTable = s.cellTable := rfl
@[simp] theorem State.takeEvent_cells (old : State) : (old.takeEvent s).cells = s.cells := rfl
@[simp] theorem State.takeEvent_pointTable (old : State) : (old.takeEvent s).pointTable = s.pointTable := rfl
@[simp] theorem State.takeEvent_points (old : State) : (old.takeEvent s).points = s.points := rfl
@[simp] theorem State.takeEvent_viewTable (old : State) : (old.takeEvent s).viewTable = s.viewTable := rfl
@[simp] theorem State.takeEvent_views (old : State) : (old.takeEvent s).views = s.views := rfl
@[simp] theorem State.takeEvent_limits (old : State) : (old.takeEvent s).limits = s.limits := rfl
@[simp] theorem State.takeEvent_map (old : State) : (old.takeEvent s).map = s.map := rfl
@[simp] theorem State.takeEvent_latched (old : State) : (old.takeEvent s).latched = s.latched := rfl
@[simp] theorem State.takeEvent_timerCount (old : State) : (old.takeEvent s).timerCount = s.timerCount := rfl
@[simp] theorem State.takeEvent_lines (old : State) : (old.takeEvent s).lines = s.lines := rfl
@[simp] theorem State.takeEvent_stage (old : State) : (old.takeEvent s).stage = s.stage := rfl
@[simp] theorem State.takeEvent_events_copy (old : State) : (old.takeEvent s).events.copy = s.events.copy := rfl

/-! ### transmit -/

@[simp] theorem State.transmit_pending : s.transmit.pending = s.pending := by unfold State.transmit; split <;> rfl
@[simp] theorem State.transmit_resetLow : s.transmit.resetLow = s.resetLow := by unfold State.transmit; split <;> rfl
@[simp] theorem State.transmit_settings : s.transmit.settings = s.settings := by unfold State.transmit; split <;> rfl
@[simp] theorem State.transmit_ports : s.transmit.ports = s.ports := by unfold State.transmit; split <;> rfl
@[simp] theorem State.transmit_queue : s.transmit.queue = s.queue := by unfold State.transmit; split <;> rfl
@[simp] theorem State.transmit_cellTable : s.transmit.cellTable = s.cellTable := by unfold State.transmit; split <;> rfl
@[simp] theorem State.transmit_cells : s.transmit.cells = s.cells := by unfold State.transmit; split <;> rfl
@[simp] theorem State.transmit_pointTable : s.transmit.pointTable = s.pointTable := by unfold State.transmit; split <;> rfl
@[simp] theorem State.transmit_points : s.transmit.points = s.points := by unfold State.transmit; split <;> rfl
@[simp] theorem State.transmit_viewTable : s.transmit.viewTable = s.viewTable := by unfold State.transmit; split <;> rfl
@[simp] theorem State.transmit_views : s.transmit.views = s.views := by unfold State.transmit; split <;> rfl
@[simp] theorem State.transmit_limits : s.transmit.limits = s.limits := by unfold State.transmit; split <;> rfl
@[simp] theorem State.transmit_map : s.transmit.map = s.map := by unfold State.transmit; split <;> rfl
@[simp] theorem State.transmit_latched : s.transmit.latched = s.latched := by unfold State.transmit; split <;> rfl
@[simp] theorem State.transmit_timerCount : s.transmit.timerCount = s.timerCount := by unfold State.transmit; split <;> rfl
@[simp] theorem State.transmit_lines : s.transmit.lines = s.lines := by unfold State.transmit; split <;> rfl
@[simp] theorem State.transmit_stage : s.transmit.stage = s.stage := by unfold State.transmit; split <;> rfl
@[simp] theorem State.transmit_host_assembly : s.transmit.host.assembly = s.host.assembly := by
  unfold State.transmit; split <;> rfl
@[simp] theorem State.transmit_host_buffer : s.transmit.host.buffer = s.host.buffer := by
  unfold State.transmit; split <;> rfl
@[simp] theorem State.transmit_host_service : s.transmit.host.service = s.host.service := by
  unfold State.transmit; split <;> rfl
@[simp] theorem State.transmit_host_badCrc : s.transmit.host.badCrc = s.host.badCrc := by
  unfold State.transmit; split <;> rfl
@[simp] theorem State.transmit_events_copy : s.transmit.events.copy = s.events.copy := by
  unfold State.transmit; split <;> rfl
@[simp] theorem State.transmit_events_alertDriven : s.transmit.events.alertDriven = s.events.alertDriven := by
  unfold State.transmit; split <;> rfl

/-! ### arbitrate -/

@[simp] theorem State.arbitrate_pending : s.arbitrate.pending = s.pending := by
  unfold State.arbitrate; split; · rfl
  split; · rfl
  split <;> rfl
@[simp] theorem State.arbitrate_resetLow : s.arbitrate.resetLow = s.resetLow := by
  unfold State.arbitrate; split; · rfl
  split; · rfl
  split <;> rfl
@[simp] theorem State.arbitrate_settings : s.arbitrate.settings = s.settings := by
  unfold State.arbitrate; split; · rfl
  split; · rfl
  split <;> rfl
@[simp] theorem State.arbitrate_host : s.arbitrate.host = s.host := by
  unfold State.arbitrate; split; · rfl
  split; · rfl
  split <;> rfl
@[simp] theorem State.arbitrate_ports : s.arbitrate.ports = s.ports := by
  unfold State.arbitrate; split; · rfl
  split; · rfl
  split <;> rfl
@[simp] theorem State.arbitrate_cellTable : s.arbitrate.cellTable = s.cellTable := by
  unfold State.arbitrate; split; · rfl
  split; · rfl
  split <;> rfl
@[simp] theorem State.arbitrate_cells : s.arbitrate.cells = s.cells := by
  unfold State.arbitrate; split; · rfl
  split; · rfl
  split <;> rfl
@[simp] theorem State.arbitrate_pointTable : s.arbitrate.pointTable = s.pointTable := by
  unfold State.arbitrate; split; · rfl
  split; · rfl
  split <;> rfl
@[simp] theorem State.arbitrate_points : s.arbitrate.points = s.points := by
  unfold State.arbitrate; split; · rfl
  split; · rfl
  split <;> rfl
@[simp] theorem State.arbitrate_viewTable : s.arbitrate.viewTable = s.viewTable := by
  unfold State.arbitrate; split; · rfl
  split; · rfl
  split <;> rfl
@[simp] theorem State.arbitrate_views : s.arbitrate.views = s.views := by
  unfold State.arbitrate; split; · rfl
  split; · rfl
  split <;> rfl
@[simp] theorem State.arbitrate_limits : s.arbitrate.limits = s.limits := by
  unfold State.arbitrate; split; · rfl
  split; · rfl
  split <;> rfl
@[simp] theorem State.arbitrate_timerCount : s.arbitrate.timerCount = s.timerCount := by
  unfold State.arbitrate; split; · rfl
  split; · rfl
  split <;> rfl
@[simp] theorem State.arbitrate_lines : s.arbitrate.lines = s.lines := by
  unfold State.arbitrate; split; · rfl
  split; · rfl
  split <;> rfl
@[simp] theorem State.arbitrate_stage : s.arbitrate.stage = s.stage := by
  unfold State.arbitrate; split; · rfl
  split; · rfl
  split <;> rfl
@[simp] theorem State.arbitrate_events : s.arbitrate.events = s.events := by
  unfold State.arbitrate; split; · rfl
  split; · rfl
  split <;> rfl
@[simp] theorem State.arbitrate_map_mode : s.arbitrate.map.mode = s.map.mode := by
  unfold State.arbitrate; split; · rfl
  split; · rfl
  split <;> rfl
@[simp] theorem State.arbitrate_map_hostHold : s.arbitrate.map.hostHold = s.map.hostHold := by
  unfold State.arbitrate; split; · rfl
  split; · rfl
  split <;> rfl
@[simp] theorem State.arbitrate_map_lineHold : s.arbitrate.map.lineHold = s.map.lineHold := by
  unfold State.arbitrate; split; · rfl
  split; · rfl
  split <;> rfl
@[simp] theorem State.arbitrate_map_epoch : s.arbitrate.map.epoch = s.map.epoch := by
  unfold State.arbitrate; split; · rfl
  split; · rfl
  split <;> rfl
@[simp] theorem State.arbitrate_map_hotList : s.arbitrate.map.hotList = s.map.hotList := by
  unfold State.arbitrate; split; · rfl
  split; · rfl
  split <;> rfl
@[simp] theorem State.arbitrate_map_buildingEpoch : s.arbitrate.map.buildingEpoch = s.map.buildingEpoch := by
  unfold State.arbitrate; split; · rfl
  split; · rfl
  split <;> rfl
@[simp] theorem State.arbitrate_map_topChanged : s.arbitrate.map.topChanged = s.map.topChanged := by
  unfold State.arbitrate; split; · rfl
  split; · rfl
  split <;> rfl
@[simp] theorem State.arbitrate_map_summaries : s.arbitrate.map.summaries = s.map.summaries := by
  unfold State.arbitrate; split; · rfl
  split; · rfl
  split <;> rfl
@[simp] theorem State.arbitrate_map_passFlags : s.arbitrate.map.passFlags = s.map.passFlags := by
  unfold State.arbitrate; split; · rfl
  split; · rfl
  split <;> rfl
@[simp] theorem State.arbitrate_map_unmappedDiscards : s.arbitrate.map.unmappedDiscards = s.map.unmappedDiscards := by
  unfold State.arbitrate; split; · rfl
  split; · rfl
  split <;> rfl
@[simp] theorem State.arbitrate_map_heldDiscards : s.arbitrate.map.heldDiscards = s.map.heldDiscards := by
  unfold State.arbitrate; split; · rfl
  split; · rfl
  split <;> rfl
@[simp] theorem State.arbitrate_map_softResetWaits : s.arbitrate.map.softResetWaits = s.map.softResetWaits := by
  unfold State.arbitrate; split; · rfl
  split; · rfl
  split <;> rfl

end Sys2Proof.Machine
end

