-- ==== Sys2Proof/Laws/Conclude.lean ====
section
/-! SUPPORT. What the end of a step does: the Event Unit takes the changes as one event, the idle transmitter and the free
map choose (`State.conclude`). Said here once; nothing else needs to unfold it. -/

namespace Sys2Proof.Machine

/-! ## What the end of a step leaves alone -/

theorem body_takeEvent (old s : State) : (old.takeEvent s).body = s.body := rfl

theorem body_transmit (s : State) : s.transmit.body = s.body := by
  unfold State.transmit; split <;> rfl

theorem body_arbitrate (s : State) : s.arbitrate.body = s.body := by
  unfold State.arbitrate; split; · rfl
  split; · rfl
  split <;> rfl

@[simp] theorem body_conclude (old s : State) : (State.conclude old s).body = s.body := by
  rw [State.conclude, body_arbitrate, body_transmit, body_takeEvent]

@[simp] theorem host_arbitrate (s : State) : s.arbitrate.host = s.host := by simp

@[simp] theorem body_reply (s : State) (r : Request) (p : List (List Byte)) : (s.reply r p).body = s.body := rfl

@[simp] theorem body_completeOp (s : State) : s.completeOp.body = s.body := rfl

/-! ## The arbiter -/

/-- What the arbiter takes depends on the map, the queue, the settings and the lines alone. -/
theorem arbiter_arbitrate_congr {s s' : State} (m : s'.map = s.map) (q : s'.queue = s.queue) (t : s'.settings = s.settings)
    (l : s'.lines = s.lines) (k : s'.latched = s.latched) : s'.arbitrate.arbiter = s.arbitrate.arbiter := by
  unfold State.arbitrate State.arbiter State.claims State.operationOf
  rw [m, q, t, l]
  split; · simp [m, q, k]
  split; · simp [k]
  split <;> simp [m, q, k]

@[simp] theorem arbiter_conclude (old s : State) : (State.conclude old s).arbiter = s.arbitrate.arbiter :=
  arbiter_arbitrate_congr (by simp) (by simp) (by simp) (by simp) (by simp)

@[simp] theorem arbiter_reply (s : State) (r : Request) (p : List (List Byte)) :
    (s.reply r p).arbitrate.arbiter = s.arbitrate.arbiter := arbiter_arbitrate_congr rfl rfl rfl rfl rfl

/-- A map with an operation in flight takes nothing. -/
theorem arbitrate_of_inFlight {s : State} {op : Operation} (h : s.map.inFlight = some op) : s.arbitrate = s := by
  simp [State.arbitrate, h]

theorem arbitrate_of_softReset {s : State} (h : s.map.softResetWaits = true) : s.arbitrate = s := by
  simp [State.arbitrate, h]

/-- A free map with no claimant stays as it is. -/
theorem arbitrate_of_no_claim {s : State} (h : s.claims = (false, [], [])) : s.arbitrate = s := by
  simp only [State.claims, Prod.mk.injEq] at h
  unfold State.arbitrate
  rw [h.1, h.2.1, h.2.2]
  simp

theorem State.Settled.arbitrate {s : State} (h : s.Settled) : s.arbitrate = s := by
  cases e : s.map.inFlight with
  | some op => exact arbitrate_of_inFlight e
  | none =>
    cases w : s.map.softResetWaits with
    | true => exact arbitrate_of_softReset w
    | false => exact arbitrate_of_no_claim (h.map e w)

/-- After the arbiter has chosen, a free map has no claimant unless a soft reset waits. -/
theorem no_claim_of_arbitrate (s : State) (h : s.arbitrate.map.inFlight = none) (w : s.map.softResetWaits = false) :
    s.arbitrate.claims = (false, [], []) := by
  revert h
  unfold State.arbitrate
  split
  · rename_i c
    intro h
    simp [w, h] at c
  · split
    · simp
    · rename_i p
      split
      · simp
      · simp
      · rename_i hi hq
        simp [State.claims, hi, hq, p]

/-! ## The Event Unit and the transmitter -/

@[simp] theorem groups_arbitrate (s : State) : s.arbitrate.groups = s.groups := by simp [State.groups]

@[simp] theorem groups_transmit (s : State) : s.transmit.groups = s.groups := by simp [State.groups]

@[simp] theorem groups_takeEvent (old s : State) : (old.takeEvent s).groups = s.groups := rfl

@[simp] theorem urgentSet_conclude (old s : State) : (State.conclude old s).urgentSet = s.urgentSet := by
  simp [State.urgentSet, State.conclude]

@[simp] theorem routineSet_conclude (old s : State) : (State.conclude old s).routineSet = s.routineSet := by
  simp [State.routineSet, State.conclude]

@[simp] theorem copy_conclude (old s : State) : (State.conclude old s).events.copy = s.events.copy := by
  simp [State.conclude]

@[simp] theorem outbox_takeEvent (old s : State) : (old.takeEvent s).host.outbox = s.host.outbox := rfl

/-- An idle transmitter that has no reply to send may begin a notice; otherwise what there is to send stays as it was. -/
theorem outbox_transmit (s : State) (h : s.host.outbox ≠ []) : s.transmit.host.outbox = s.host.outbox := by
  unfold State.transmit
  split
  · rfl
  · rename_i r rs _ _ e1 e2
    simp [HostLink.outbox, e1, e2]
  · rename_i e1 e2 _
    simp [HostLink.outbox, e1, e2] at h
  · rename_i e1 e2 _ _
    simp [HostLink.outbox, e1, e2] at h
  · rfl

theorem outbox_conclude (old s : State) (h : s.host.outbox ≠ []) :
    (State.conclude old s).host.outbox = s.host.outbox := by
  rw [State.conclude, host_arbitrate, outbox_transmit _ (by simpa using h), outbox_takeEvent]

@[simp] theorem service_conclude (old s : State) : (State.conclude old s).host.service = s.host.service := by
  simp [State.conclude]

/-- After the transmitter has chosen, it is idle only with nothing to send. -/
theorem idle_of_transmit (s : State) (h : s.transmit.host.sending = none) :
    s.transmit.host.ready = [] ∧ s.transmit.events.urgentNotice = none ∧ s.transmit.events.routineNotice = none := by
  revert h
  unfold State.transmit
  split <;> simp_all

/-- The end of a step leaves a settled state. -/
theorem settled_conclude (old s : State) : (State.conclude old s).Settled where
  alert := by
    rw [urgentSet_conclude]
    simp [State.conclude, State.takeEvent, State.urgentSet, State.groups]
  transmitter := by
    intro h
    have := idle_of_transmit (old.takeEvent s) (by simpa [State.conclude] using h)
    simpa [State.conclude] using this
  map := by
    intro h w
    exact no_claim_of_arbitrate _ h (by simpa [State.conclude] using w)

/-- In a settled state nothing is left to take, to send or to drive: a step that changes nothing ends in the same state. -/
theorem State.Settled.conclude {s s' : State} (h : s'.Settled) (u : s.urgentSet = s'.urgentSet)
    (r : s.routineSet = s'.routineSet) : State.conclude s s' = s' := by
  have e : s.takeEvent s' = s' := by
    have n : ∀ (x : BitVec 7) (n : Option Notice), formNotice x x s'.map.epoch n = n := by
      intro x n
      simp only [formNotice, ite_eq_right_iff]
      exact fun hx => absurd hx.1 hx.2
    unfold State.takeEvent
    rw [u, r, n, n, ← h.alert]
  have d : s'.transmit = s' := by
    unfold State.transmit
    split
    · rfl
    · rename_i e1 e2
      simp [(h.transmitter e1).1] at e2
    · rename_i e1 _ e3
      simp [(h.transmitter e1).2.1] at e3
    · rename_i e1 _ _ e4
      simp [(h.transmitter e1).2.2] at e4
    · rfl
  rw [State.conclude, e, d, h.arbitrate]

/-- A frame being sent goes on being sent, and with one under way no ready reply is taken. -/
theorem transmit_of_sending {s : State} {o : Outgoing} (h : s.host.sending = some o) : s.transmit = s := by
  unfold State.transmit
  split <;> simp_all

/-- A step that makes nothing ready and finishes nothing leaves the reply side of a settled state as it was. -/
theorem State.Settled.noReply {s s' : State} (h : s.Settled) (x : s'.host.service = s.host.service)
    (r : s'.host.ready = s.host.ready) (o : s'.host.sending = s.host.sending) (old : State) :
    s.NoReply (State.conclude old s') where
  service := by simp [x]
  ready := by
    rw [State.conclude, host_arbitrate]
    cases e : s.host.sending with
    | some q => rw [transmit_of_sending (o := q) (by simp [o, e])]; simp [r]
    | none =>
      have n := (h.transmitter e).1
      unfold State.transmit
      split <;> simp_all
  sending := by
    intro q e
    rw [State.conclude, host_arbitrate, transmit_of_sending (o := q) (by simp [o, e])]
    simp [o, e]

/-- What becomes of the two notice places at the end of a step. -/
theorem notices_transmit (s : State) :
    NoticeOutcome 1 s.events.urgentNotice s.transmit.events.urgentNotice s.transmit ∧
      NoticeOutcome 0 s.events.routineNotice s.transmit.events.routineNotice s.transmit := by
  unfold State.transmit NoticeOutcome
  split <;> simp_all

@[simp] theorem urgentNotice_takeEvent (old s : State) : (old.takeEvent s).events.urgentNotice =
    formNotice old.urgentSet s.urgentSet s.map.epoch s.events.urgentNotice := rfl

@[simp] theorem routineNotice_takeEvent (old s : State) : (old.takeEvent s).events.routineNotice =
    formNotice old.routineSet s.routineSet s.map.epoch s.events.routineNotice := rfl

theorem notices_conclude (old s : State) :
    NoticeOutcome 1 (formNotice old.urgentSet s.urgentSet s.map.epoch s.events.urgentNotice)
        (State.conclude old s).events.urgentNotice (State.conclude old s) ∧
      NoticeOutcome 0 (formNotice old.routineSet s.routineSet s.map.epoch s.events.routineNotice)
        (State.conclude old s).events.routineNotice (State.conclude old s) := by
  have := notices_transmit (old.takeEvent s)
  simpa [State.conclude, NoticeOutcome] using this

/-! ## The ends of steps, as claims state them -/

theorem endsAs_conclude (old s : State) : State.EndsAs s (State.conclude old s) := ⟨by simp, by simp⟩

/-- Two effects that differ only in the reply side and the Event Unit end alike. -/
theorem State.EndsAs.of_eq {s s' t : State} (h : State.EndsAs s' t) (b : s'.body = s.body)
    (a : s'.arbitrate.arbiter = s.arbitrate.arbiter) : State.EndsAs s t := ⟨h.body.trans b, h.arbiter.trans a⟩

/-- A state whose body is that of another has the other's tables, records, stage and settings. -/
theorem copyCurrent_of_body {t s' : State} (b : t.body = s'.body)
    (c : t.events.copy =
      ⟨s'.points.map PointRecord.flags, s'.map.passFlags, s'.map.topChanged, s'.stage.installed, s'.stage.dropped⟩) :
    t.CopyCurrent := by
  have p : t.body.points = s'.body.points := congrArg State.points b
  have f : t.body.map.passFlags = s'.body.map.passFlags := congrArg (fun x : State => x.map.passFlags) b
  have q : t.body.map.topChanged = s'.body.map.topChanged := congrArg (fun x : State => x.map.topChanged) b
  have g : t.body.stage = s'.body.stage := congrArg State.stage b
  rw [State.CopyCurrent, c]
  change FlagCopy.mk _ _ _ _ _ = FlagCopy.mk (t.body.points.map _) t.body.map.passFlags t.body.map.topChanged
    t.body.stage.installed t.body.stage.dropped
  rw [p, f, q, g]
  rfl

/-- The end of a map operation that made the changes `s'`. -/
theorem completes_conclude (old s' : State) : State.Completes s' (State.conclude old s'.completeOp) where
  ends := (endsAs_conclude old s'.completeOp).of_eq rfl (arbiter_arbitrate_congr rfl rfl rfl rfl rfl)
  copy := copyCurrent_of_body (s' := s') (by rw [body_conclude, body_completeOp]) (by simp)

end Sys2Proof.Machine
end

