-- ==== Sys2Proof/Laws/Arbiter.lean ====
section
/-! SUPPORT. What the free map and the idle transmitter do at the end of a step, said once for each way in which a step can
claim the map: not at all, by a close request, by a line's item; and how many items can wait. -/

namespace Sys2Proof.Machine

/-- A transmitter with nothing to send stays as it is (R153). -/
theorem transmit_idle {s : State} (h : s.host.sending = none → s.host.ready = [] ∧ s.events.urgentNotice = none ∧
    s.events.routineNotice = none) : s.transmit = s := by
  unfold State.transmit
  split
  · rfl
  · rename_i e1 e2; simp [(h e1).1] at e2
  · rename_i e1 _ e3; simp [(h e1).2.1] at e3
  · rename_i e1 _ _ e4; simp [(h e1).2.2] at e4
  · rfl

/-- A step that makes no claim leaves what the arbiter moves as it was (R14). -/
theorem arbiter_of_no_claim {s s' : State} (hs : s.Settled) (m : s'.map = s.map) (q : s'.queue = s.queue)
    (lt : s'.latched = s.latched) :
    s'.arbitrate.arbiter = s.arbiter := by
  have : s'.arbitrate = s' := by
    cases e : s.map.inFlight with
    | some op => exact arbitrate_of_inFlight (op := op) (by rw [m, e])
    | none =>
      cases w : s.map.softResetWaits with
      | true => exact arbitrate_of_softReset (by rw [m, w])
      | false => exact arbitrate_of_no_claim (by have := hs.map e w; simpa [State.claims, m, q] using this)
  rw [this]; simp [State.arbiter, State.claims, m, q, lt]

/-- A close request: the free map takes the close at once, otherwise the flag is set (R14, R15, R105). -/
theorem arbiter_of_close {s s' : State} (hs : s.Settled) (m : s'.map = { s.map with pendingClose :=
    true }) (q : s'.queue = s.queue)
    (a : s'.settings.staleAge = s.settings.staleAge) (b : s'.settings.hotFloor = s.settings.hotFloor)
        (lt : s'.latched = s.latched) :
    (s.map.inFlight = none → s.map.softResetWaits = false →
       s'.arbitrate.arbiter = (s.claims, some (.close s.settings.staleAge s.settings.hotFloor), s.latched)) ∧
     (s.map.inFlight ≠ none ∨ s.map.softResetWaits = true →
       s'.arbitrate.arbiter = ((true, s.map.items, s.queue), s.map.inFlight, s.latched)) := by
  constructor
  · intro h1 h2
    have c := hs.map h1 h2
    simp [State.claims] at c
    simp [State.arbitrate, m, h1, h2, State.arbiter, State.claims, q, a, b, lt, c]
  · intro h
    have : s'.arbitrate = s' := by
      unfold State.arbitrate; rw [m]
      rcases h with h | h
      · have : s.map.inFlight.isSome = true := Option.isSome_iff_ne_none.mpr h
        simp [this]
      · simp [h]
    rw [this]; simp [State.arbiter, State.claims, m, q, lt]

/-- A line item: the free map takes it at once, otherwise it waits, merged (R14, R16). -/
theorem arbiter_of_lineItem {s s' : State} (hs : s.Settled) (it : MapItem) (ho : it.isHost = false)
    (m : s'.map = { s.map with items := postItem it s.map.items }) (q : s'.queue = s.queue)
    (lt : s'.latched = s.latched) :
    (s.map.inFlight = none → s.map.softResetWaits = false →
       s'.arbitrate.arbiter = (s.claims, some (s'.operationOf it), s.latched)) ∧
     (s.map.inFlight ≠ none ∨ s.map.softResetWaits = true →
       s'.arbitrate.arbiter = ((s.map.pendingClose, if it ∈ s.map.items then s.map.items else s.map.items ++ [it],
           s.queue), s.map.inFlight, s.latched)) := by
  have po : postItem it s.map.items = if it ∈ s.map.items then s.map.items else s.map.items ++ [it] := by
    cases it <;> simp_all [postItem, MapItem.isHost]
  constructor
  · intro h1 h2
    have c := hs.map h1 h2
    simp [State.claims] at c
    have p1 : postItem it [] = [it] := by cases it <;> simp_all [postItem]
    simp [State.arbitrate, m, h1, h2, State.arbiter, State.claims, q, lt, c, p1]
  · intro h
    have : s'.arbitrate = s' := by
      unfold State.arbitrate; rw [m]
      rcases h with h | h
      · have : s.map.inFlight.isSome = true := Option.isSome_iff_ne_none.mpr h
        simp [this]
      · simp [h]
    rw [this]; simp [State.arbiter, State.claims, m, q, lt, po]

/-- A step whose state is settled already, with the groups and settings as they were, ends in that state. -/
theorem conclude_of_settled {s s' : State} (k : s'.Settled) (u : s'.groups = s.groups)
    (st : s'.settings = s.settings) : State.conclude s s' = s' := by
  apply k.conclude
  · simp [State.urgentSet, u, st]
  · simp [State.routineSet, u, st]

/-- A state stays settled while the transmitter stays as it was. -/
theorem State.Settled.withHost {s : State} (hs : s.Settled) (h : HostLink) (a : h.sending = s.host.sending)
    (b : h.ready = s.host.ready) : ({ s with host := h } : State).Settled :=
  ⟨hs.alert, by simp only [a, b]; exact hs.transmitter, hs.map⟩

/-- With at most one host item, and each line's items at most once, at most nine items wait (R16). -/
theorem items_length_le {items : List MapItem} (h : items.countP MapItem.isHost ≤ 1)
    (l : (items.filter fun i => !i.isHost).Nodup) : items.length ≤ 9 := by
  have sub : (items.filter fun i => !i.isHost) ⊆ [.hold 0, .hold 1, .hold 2, .hold 3, .rebase 0, .rebase 1, .rebase 2, .rebase 3] := by
    intro i hi
    replace hi := (List.mem_filter.1 hi).2
    cases i with
    | host r => simp [MapItem.isHost] at hi
    | hold n => clear hi; revert n; decide
    | rebase n => clear hi; revert n; decide
  have eight := (List.subperm_of_subset l sub).length_le
  have split := List.length_eq_countP_add_countP MapItem.isHost (l := items)
  rw [← List.countP_eq_length_filter] at eight
  simp only [List.length_cons, List.length_nil] at eight
  have : items.countP (fun i => !i.isHost) = items.countP (fun a => decide ¬ (a.isHost = true)) := by
    congr 1; funext i; cases i.isHost <;> rfl
  omega

end Sys2Proof.Machine
end

