-- ==== Sys2Proof/Laws/Table.lean ====
section
/-! SUPPORT. What the operations over fixed-size tables do, entry by entry. -/

namespace Sys2Proof.Table

variable {n : Nat} {α β γ : Type}

/-- Two tables with the same entries are the same table. -/
theorem ext_get {t u : Table n α} (h : ∀ i, t.get i = u.get i) : t = u := by
  obtain ⟨xs, hx⟩ := t
  obtain ⟨ys, hy⟩ := u
  have : xs = ys := by
    refine List.ext_getElem (hx.trans hy.symm) fun i h1 _ => ?_
    exact h ⟨i, hx ▸ h1⟩
  subst this
  rfl

@[simp] theorem get_replicate (x : α) (i : Fin n) : (replicate n x).get i = x := by
  simp [replicate, get]

theorem get_set (t : Table n α) (i j : Fin n) (x : α) : (t.set i x).get j = if i = j then x else t.get j := by
  simp only [get, set, List.getElem_set, Fin.ext_iff]

@[simp] theorem get_set_self (t : Table n α) (i : Fin n) (x : α) : (t.set i x).get i = x := by
  simp [get_set]

theorem get_set_ne (t : Table n α) {i j : Fin n} (h : i ≠ j) (x : α) : (t.set i x).get j = t.get j := by
  simp [get_set, h]

@[simp] theorem set_get (t : Table n α) (i : Fin n) : t.set i (t.get i) = t :=
  ext_get fun j => by rw [get_set]; split <;> simp_all

theorem get_upd (t : Table n α) (i j : Fin n) (f : α → α) :
    (t.upd i f).get j = if i = j then f (t.get i) else t.get j := get_set t i j _

@[simp] theorem get_upd_self (t : Table n α) (i : Fin n) (f : α → α) : (t.upd i f).get i = f (t.get i) :=
  get_set_self t i _

theorem get_upd_ne (t : Table n α) {i j : Fin n} (h : i ≠ j) (f : α → α) : (t.upd i f).get j = t.get j :=
  get_set_ne t h _

@[simp] theorem get_map (f : α → β) (t : Table n α) (i : Fin n) : (t.map f).get i = f (t.get i) := by
  simp [map, get]

@[simp] theorem get_zipWith (f : α → β → γ) (t : Table n α) (u : Table n β) (i : Fin n) :
    (zipWith f t u).get i = f (t.get i) (u.get i) := by
  simp [zipWith, get]

theorem getElem_mapFrom (f : Nat → α → β) (k : Nat) (xs : List α) (i : Nat) (h : i < (mapFrom f k xs).length) :
    (mapFrom f k xs)[i] = f (k + i) (xs[i]'(by rw [length_mapFrom] at h; exact h)) := by
  induction xs generalizing k i with
  | nil => simp [mapFrom] at h
  | cons x xs ih =>
    cases i with
    | zero => simp [mapFrom]
    | succ i =>
      simp only [mapFrom, List.getElem_cons_succ]
      rw [ih]
      congr 1
      omega

@[simp] theorem get_mapIx (f : Nat → α → β) (t : Table n α) (i : Fin n) : (t.mapIx f).get i = f i.val (t.get i) := by
  simp [mapIx, get, getElem_mapFrom]

/-- An entry of a table is one of its list. -/
theorem get_mem (t : Table n α) (i : Fin n) : t.get i ∈ t.toList := List.getElem_mem _

/-- Every entry of the list stands at some index. -/
theorem exists_get_of_mem {t : Table n α} {x : α} (h : x ∈ t.toList) : ∃ i, t.get i = x := by
  obtain ⟨k, hk, rfl⟩ := List.mem_iff_getElem.mp h
  exact ⟨⟨k, t.length_eq ▸ hk⟩, rfl⟩

@[simp] theorem any_iff (p : α → Bool) (t : Table n α) : t.any p = true ↔ ∃ i, p (t.get i) = true := by
  simp only [any, List.any_eq_true]
  constructor
  · rintro ⟨x, hx, hp⟩
    obtain ⟨i, rfl⟩ := exists_get_of_mem hx
    exact ⟨i, hp⟩
  · rintro ⟨i, hp⟩
    exact ⟨_, t.get_mem i, hp⟩

theorem any_eq_false_iff (p : α → Bool) (t : Table n α) : t.any p = false ↔ ∀ i, p (t.get i) = false := by
  rw [← Bool.not_eq_true, any_iff]
  simp

theorem findFrom_eq_some {p : α → Bool} {xs : List α} {k i : Nat} (h : findFrom p k xs = some i) :
    k ≤ i ∧ ∃ hi : i - k < xs.length, p xs[i - k] = true ∧ ∀ j, (hj : j < i - k) → p (xs[j]'(by omega)) = false := by
  induction xs generalizing k with
  | nil => simp [findFrom] at h
  | cons x xs ih =>
    by_cases hx : p x
    · simp only [findFrom, hx, if_true, Option.some.injEq] at h
      subst h
      exact ⟨le_refl _, by simp, by simp [hx], by simp⟩
    · simp only [findFrom, hx, Bool.false_eq_true, if_false] at h
      obtain ⟨h1, h2, h3, h4⟩ := ih h
      have e : i - k = (i - (k + 1)) + 1 := by omega
      refine ⟨by omega, by simp only [List.length_cons]; omega, ?_, ?_⟩
      · simp only [e, List.getElem_cons_succ]
        exact h3
      · intro j hj
        cases j with
        | zero => simpa using hx
        | succ j => simpa using h4 j (by omega)

theorem findFrom_eq_none {p : α → Bool} {xs : List α} {k : Nat} :
    findFrom p k xs = none ↔ ∀ x ∈ xs, p x = false := by
  induction xs generalizing k with
  | nil => simp [findFrom]
  | cons x xs ih =>
    by_cases hx : p x
    · simp [findFrom, hx]
    · simp [findFrom, hx, ih]

/-- What a lookup that finds an index says of it: its entry satisfies the test, and no lower one does. -/
theorem findIx_eq_some {p : α → Bool} {t : Table n α} {i : Fin n} (h : t.findIx p = some i) :
    p (t.get i) = true ∧ ∀ j, j < i → p (t.get j) = false := by
  unfold findIx at h
  split at h
  · rename_i k hk
    split at h
    · cases h
      obtain ⟨-, h2, h3, h4⟩ := findFrom_eq_some hk
      exact ⟨by simpa [get] using h3, fun j hj => by simpa [get] using h4 j.val hj⟩
    · cases h
  · cases h

/-- A lookup that finds nothing: no entry satisfies the test. -/
theorem findIx_eq_none {p : α → Bool} {t : Table n α} : t.findIx p = none ↔ ∀ i, p (t.get i) = false := by
  unfold findIx
  split
  · rename_i k hk
    obtain ⟨-, h2, h3, -⟩ := findFrom_eq_some hk
    have hn : k < n := by rw [← t.length_eq]; simpa using h2
    simp only [hn, dite_true, reduceCtorEq, false_iff, not_forall]
    exact ⟨⟨k, hn⟩, by simpa [get] using h3⟩
  · rename_i hk
    rw [findFrom_eq_none] at hk
    simp only [true_iff]
    exact fun i => hk _ (t.get_mem i)

/-- A lookup finds the only index whose entry satisfies the test. -/
theorem findIx_of_unique {p : α → Bool} {t : Table n α} {i : Fin n} (h : p (t.get i) = true)
    (unique : ∀ j, p (t.get j) = true → j = i) : t.findIx p = some i := by
  cases e : t.findIx p with
  | none => rw [findIx_eq_none] at e; simp [e i] at h
  | some j => rw [unique j (findIx_eq_some e).1]

@[simp] theorem map_map (f : α → β) (g : β → γ) (t : Table n α) : (t.map f).map g = t.map (g ∘ f) :=
  ext_get fun i => by simp

end Sys2Proof.Table
end

