-- ==== Sys2Proof/Laws/Arithmetic.lean ====
section
/-! SUPPORT. What the shared arithmetic does, said once: clamping, rounding, saturating counters, group sets. -/

namespace Sys2Proof.Machine

/-- A saturating counter counts one, up to its maximum (spec 0.6.6). -/
theorem countUp_eq_min (m n : Nat) : countUp m n = min m (n + 1) := by unfold countUp; split <;> omega

/-- The map range, as a clamp between two bounds (spec 0.6.1, 0.6.5). -/
theorem clampMap_eq (x : Int) : clampMap x = max 0 (min 12000 x) :=
    by unfold clampMap clamp; split <;> [skip; split] <;> omega

/-- A quotient rounded to nearest: from a positive side, half the divisor is added (spec 0.6.5). -/
theorem roundDiv_of_nonneg (x : Int) (h : 0 ≤ x) (d : Nat) : roundDiv x d = (x + (d / 2 : Nat)) / (d : Int) := by
  unfold roundDiv
  rw [if_neg (by omega)]
  push_cast
  rw [abs_of_nonneg h]

/-- A quotient rounded to nearest: from a negative side, ties go away from zero (spec 0.6.5). -/
theorem roundDiv_of_nonpos (x : Int) (h : x ≤ 0) (d : Nat) (hd : 2 ≤ d) : roundDiv x d = -((-x + (d / 2 : Nat)) /
    (d : Int)) := by
  unfold roundDiv
  split
  · push_cast
    rw [abs_of_nonpos h]
  · have : x = 0 := by omega
    subst this
    have h2 : d / 2 < d := by omega
    have : ((0:Int).natAbs + d / 2) / d = 0 := by simp [Nat.div_eq_of_lt h2]
    rw [this]
    have h3 : ((d / 2 : Nat) : Int) / (d : Int) = 0 := by
      rw [← Int.natCast_ediv, Nat.div_eq_of_lt h2]; rfl
    simp only [neg_zero, zero_add, h3]; rfl

/-- The bits of a group set are its seven groups (Table 9-1). -/
theorem groupSet_getLsbD (a b c d e f g : Bool) (n : Nat) : (groupSet a b c d e f g).getLsbD n =
   match n with | 0 => a | 1 => b | 2 => c | 3 => d | 4 => e | 5 => f | 6 => g | _ => false := by
  match n with
  | 0 | 1 | 2 | 3 | 4 | 5 | 6 => revert a b c d e f g; decide
  | n + 7 => simp

/-- A point has a flag set exactly when its flags are not all clear. -/
theorem PointFlags.any_iff (f : PointFlags) : f.any = true ↔ f ≠ PointFlags.clear := by
  obtain ⟨a,b,c,d,e,g⟩ := f; revert a b c d e g; decide

/-- A port has a flag set exactly when its flags are not all clear. -/
theorem PortFlags.any_iff (f : PortFlags) : f.any = true ↔ f ≠ PortFlags.clear := by
  obtain ⟨a,b,c,d,e⟩ := f; revert a b c d e; decide

/-- Flags joined over a list: a flag is set exactly if it was set or one of the list sets it (R113). -/
theorem foldl_join (l : List PassFlags) (f : PassFlags) : (l.foldl PassFlags.join f) =
  ⟨f.hhEntered || l.any (·.hhEntered), f.highEntered || l.any (·.highEntered), f.cleared || l.any (·.cleared),
      f.rise || l.any (·.rise)⟩ := by
  induction l generalizing f with
  | nil => simp
  | cons a l ih => rw [List.foldl_cons, ih]; simp [PassFlags.join, Bool.or_assoc]

/-- A touch keeps the anchor (R25). -/
theorem CellRecord.touch_anchor (m k v sh g) (c : CellRecord) : (c.touch m k v sh g).anchor = c.anchor := by
  unfold CellRecord.touch; simp only; split; · rfl
  split; · rfl
  · rfl
  · rfl
  · split <;> rfl

end Sys2Proof.Machine
end

