-- ==== Sys2Proof/Laws/Bytes.lean ====
section
/-! SUPPORT. What the receivers, the byte order and the slot fields do, said once: a frame that was sent, a quantity that was
laid out and a field that was packed are read back as they were. -/

namespace Sys2Proof.Machine

/-- A complete frame is judged one way or the other. -/
theorem judgeFrame_ne_partialFrame (l a) : judgeFrame l ≠ .partialFrame a := by
  unfold judgeFrame; split
  · split <;> simp
  · simp

/-- A receiver past the length byte collects the bytes it still needs, judges them, and leaves the rest (R82, R157). -/
theorem receive_collecting (start len : Byte) (bytes acc tail : List Byte) (h : acc.length + bytes.length = len.toNat + 2)
    (hb : bytes ≠ []) :
   receive (start :: len :: acc) (bytes ++ tail) = (judgeFrame (len :: acc ++ bytes), tail) := by
  induction bytes generalizing acc with
  | nil => exact absurd rfl hb
  | cons b bs ih =>
    simp only [List.cons_append, receive, receiveByte]
    simp only [List.length_cons] at h
    by_cases e : bs = []
    · subst e
      rw [if_pos (by simp at h; omega)]
      simp only [List.nil_append]
      split
      · rename_i a ha; exact absurd ha (judgeFrame_ne_partialFrame _ _)
      · simp
    · have : bs.length ≠ 0 := by simpa using e
      rw [if_neg (by omega)]
      simp only
      have := ih (acc ++ [b]) (by simp; omega) e
      simpa using this

/-- From hunting, a whole frame with these two CRC bytes is judged, and what follows it is left (R82, R157). -/
theorem receive_wholeFrame (kind tag hi lo : Byte) (body rest : List Byte) (hb : body.length ≤ 248) :
   receive [] (0xC3 :: (framePayload kind tag body ++ hi :: lo :: rest)) = (judgeFrame (framePayload kind tag body ++ [hi,
       lo]), rest) := by
  have hl : (byteOf (body.length + 2)).toNat = body.length + 2 := by
    simp [byteOf]; omega
  have := receive_collecting 0xC3 (byteOf (body.length + 2)) (kind :: tag :: body ++ [hi,
      lo]) [] rest (by rw [hl]; simp) (by simp)
  have r1 : receiveByte [] 0xC3 = .partialFrame [0xC3] := rfl
  have r2 : receiveByte [0xC3] (byteOf (body.length + 2)) = .partialFrame [0xC3, byteOf (body.length + 2)] := by
    simp only [receiveByte]; rw [if_pos (by rw [hl]; omega)]
  simp only [framePayload, List.cons_append]
  rw [receive, r1]; simp only
  rw [receive, r2]; simp only
  simpa using this

/-- A frame is good exactly when its two last bytes are the CRC of its payload (R83, R157). -/
theorem judgeFrame_payload (kind tag hi lo : Byte) (body : List Byte) :
   judgeFrame (framePayload kind tag body ++ [hi, lo]) =
     if (crc16 (framePayload kind tag body)).toNat = 256 * hi.toNat + lo.toNat then .good kind tag body else .badCrc := by
  unfold judgeFrame
  have h1 : (framePayload kind tag body ++ [hi, lo]).length - 2 = (framePayload kind tag body).length := by simp
  rw [h1, List.take_left, List.drop_left]
  simp only [framePayload, nat16]
  rfl

/-- An unsigned quantity laid out in two bytes reads back (spec 0.6.10). -/
theorem nat16_bytes16 (n : Nat) (h : n < 65536) : 256 * (BitVec.ofNat 8 (n / 256)).toNat + (BitVec.ofNat 8 n).toNat = n := by
  simp; omega

/-- A signed quantity laid out in two bytes reads back (spec 10.1). -/
theorem int16_bytesInt16 (x : Int) (h : -32768 ≤ x ∧
    x < 32768) : bytesInt16 x = [(BitVec.ofNat 8 ((BitVec.ofInt 16 x).toNat / 256)),
    BitVec.ofNat 8 (BitVec.ofInt 16 x).toNat] ∧
    int16 (BitVec.ofNat 8 ((BitVec.ofInt 16 x).toNat / 256)) (BitVec.ofNat 8 (BitVec.ofInt 16 x).toNat) = x := by
  refine ⟨rfl, ?_⟩
  unfold int16 nat16
  rw [nat16_bytes16 _ (BitVec.isLt _)]
  simp only [BitVec.ofNat_toNat, BitVec.setWidth_eq, BitVec.toInt_ofInt]
  rw [Int.bmod_def]
  omega

/-- An in-use byte reads back. -/
theorem parseFlag_byteOfBool (b : Bool) : parseFlag (byteOfBool b) = some b := by cases b <;> rfl

/-- The number of one of at most 256 things reads back. -/
theorem indexArg_byteOf {n} (h : n ≤ 256) (i : Fin n) : indexArg n (byteOf i.val) = some i := by
  have : (byteOf i.val).toNat = i.val := by simp [byteOf]; omega
  simp [indexArg, this]

/-- A one-byte argument that numbers a thing is read as that thing. -/
theorem indexArg_of_toNat {n : Nat} (b : Byte) (i : Fin n) (h : b.toNat = i.val) : indexArg n b = some i := by
  have : b.toNat < n := by have := i.isLt; omega
  simp only [indexArg, this, dite_true, Option.some.injEq]; exact Fin.ext h

/-- A one-byte argument that is read as a thing is its number. -/
theorem indexArg_some {n} {b : Byte} {i : Fin n} (h : indexArg n b = some i) : b = BitVec.ofNat 8 i.val := by
  unfold indexArg at h; split at h
  · simp at h; subst h; simp
  · simp at h

/-- A cell index laid out in two bytes reads back. -/
theorem parseCell_bytes (c : CellIx) : parseCell (BitVec.ofNat 8 (c.val / 256)) (BitVec.ofNat 8 c.val) = some c := by
  have h : c.val < 2048 := c.isLt
  unfold parseCell nat16
  simp only [nat16_bytes16 c.val (by omega)]
  simp [h]

/-- A spread list laid out in its places reads back (Table 10-7). -/
theorem parseSpread_bytes (k : Nat) (es : List SpreadEntry) (hk : es.length ≤ k) (h : ∀ x ∈ es, 1 ≤ x.share ∧ x.share ≤ 15) :
   parseSpread es.length (spreadBytes k es) = some es := by
  induction es generalizing k with
  | nil => rfl
  | cons e es ih =>
    cases k with
    | zero => simp at hk
    | succ k =>
      simp only [List.length_cons] at hk
      have hs := h e (by simp)
      have sh : (byteOf e.share).toNat = e.share := by simp [byteOf]; omega
      simp only [List.length_cons, spreadBytes, bytes16, List.cons_append, List.nil_append, parseSpread]
      rw [parseCell_bytes, ih k (by omega) (fun x hx => h x (by simp [hx])), sh]
      simp [hs]

/-- What a reading of a SAMPLES body is made of (Table 5-3). -/
theorem parseReading_some {c st hi lo : Byte} {x} (hp : parseReading c st hi lo = some x) :
   c = BitVec.ofNat 8 x.channel.val ∧ x.value = int16 hi lo ∧ (x.status = .ok ↔ st = 0x00) ∧
       (x.status = .openCircuit ↔ st = 0x01) ∧ (x.status = .unitRange ↔ st = 0x02)
    ∧ c.toNat ≤ 15 ∧ st.toNat ≤ 2 := by
  unfold parseReading at hp
  split at hp
  · rename_i c' st' e1 e2
    simp at hp; subst hp
    unfold indexArg at e1
    split at e1
    · simp at e1; subst e1
      refine ⟨by simp, rfl, ?_⟩
      unfold readingStatus at e2
      have : st = BitVec.ofNat 8 st.toNat := by simp
      split at e2 <;> simp at e2 <;> subst e2 <;> (rename_i hs; rw [hs] at this; subst this; simp; omega)
    · simp at e1
  · simp at hp

/-- Which readings pass (R89). -/
theorem parseReading_isSome {c st hi lo : Byte} : (parseReading c st hi lo).isSome = true ↔ c.toNat ≤ 15 ∧ st.toNat ≤ 2 := by
  constructor
  · intro h
    obtain ⟨x, hx⟩ := Option.isSome_iff_exists.1 h
    exact (parseReading_some hx).2.2.2.2.2
  · rintro ⟨h1, h2⟩
    have : st.toNat = 0 ∨ st.toNat = 1 ∨ st.toNat = 2 := by omega
    unfold parseReading indexArg readingStatus
    rw [dif_pos (by omega)]
    rcases this with e | e | e <;> rw [e] <;> rfl

/-- The readings of a body stand in its order, four bytes each (Table 5-3). -/
theorem parseReadings_spec : (body : List Byte) → (rs : List Reading) → (h : parseReadings body = some rs) →
    body.length = 4 * rs.length ∧ ∀ i x, rs[i]? = some x → ∃ hi lo st : Byte,
      body[4 * i]? = some (BitVec.ofNat 8 x.channel.val) ∧ body[4 * i + 1]? = some st ∧
      body[4 * i + 2]? = some hi ∧ body[4 * i + 3]? = some lo ∧ x.value = int16 hi lo ∧
      (x.status = .ok ↔ st = 0x00) ∧ (x.status = .openCircuit ↔ st = 0x01) ∧ (x.status = .unitRange ↔ st = 0x02)
  | [], rs, h => by simp [parseReadings] at h; subst h; simp
  | [_], rs, h => by simp [parseReadings] at h
  | [_, _], rs, h => by simp [parseReadings] at h
  | [_, _, _], rs, h => by simp [parseReadings] at h
  | c :: st :: hi :: lo :: rest, rs, h => by
    simp only [parseReadings] at h
    split at h
    · rename_i r rs' h1 h2
      simp at h; subst h
      obtain ⟨l, k⟩ := parseReadings_spec rest rs' h2
      refine ⟨by simp [l]; omega, ?_⟩
      intro i x hx
      cases i with
      | zero =>
        simp at hx; subst hx
        obtain ⟨a, b, q, q2, q3, -⟩ := parseReading_some h1
        exact ⟨hi, lo, st, by simp [a], rfl, rfl, rfl, b, q, q2, q3⟩
      | succ i =>
        simp only [List.getElem?_cons_succ] at hx
        obtain ⟨a, b, cc, q⟩ := k i x hx
        exact ⟨a, b, cc, by simpa [Nat.mul_add] using q⟩
    · simp at h

/-- Which runs of readings pass (R89). -/
theorem parseReadings_isSome : (body : List Byte) → ((parseReadings body).isSome = true ↔ ∃ n, body.length = 4 * n ∧ ∀ i,
    i < n → ∃ ch st : Byte,
        body[4 * i]? = some ch ∧ body[4 * i + 1]? = some st ∧ ch.toNat ≤ 15 ∧ st.toNat ≤ 2)
  | [] => by simp [parseReadings]
  | [_] => by simp [parseReadings]; intro n h; omega
  | [_, _] => by simp [parseReadings]; intro n h; omega
  | [_, _, _] => by simp [parseReadings]; intro n h; omega
  | c :: st :: hi :: lo :: rest => by
    have : (parseReadings (c :: st :: hi :: lo :: rest)).isSome = true ↔ (parseReading c st hi lo).isSome = true ∧
        (parseReadings rest).isSome = true := by
      simp only [parseReadings]
      cases parseReading c st hi lo <;> cases parseReadings rest <;> simp
    rw [this, parseReading_isSome, parseReadings_isSome rest]
    constructor
    · rintro ⟨⟨h1, h2⟩, n, l, k⟩
      refine ⟨n+1, by simp; omega, ?_⟩
      intro i hi'
      cases i with
      | zero => exact ⟨c, st, rfl, rfl, h1, h2⟩
      | succ i =>
        obtain ⟨a, b, q⟩ := k i (by omega)
        exact ⟨a, b, by simpa [Nat.mul_add] using q⟩
    · rintro ⟨n, l, k⟩
      simp at l
      constructor
      · obtain ⟨a, b, h1, h2, h3⟩ := k 0 (by omega)
        simp at h1 h2; subst h1; subst h2; exact h3
      · refine ⟨n-1, by omega, ?_⟩
        intro i hi'
        obtain ⟨a, b, q⟩ := k (i+1) (by omega)
        exact ⟨a, b, by simpa [Nat.mul_add] using q⟩

/-- The pixels of a body stand in its order, three bytes each (Table 5-3). -/
theorem parsePixels_spec : (body : List Byte) → (ps : List Pixel) → (h : parsePixels body = some ps) →
    body.length = 3 * ps.length ∧ ∀ i x, ps[i]? = some x → ∃ hi lo fl : Byte,
      body[3 * i]? = some fl ∧ body[3 * i + 1]? = some hi ∧
      body[3 * i + 2]? = some lo ∧ x.value = int16 hi lo ∧ x.saturated = fl.getLsbD 0 ∧ x.obscured = fl.getLsbD 1
  | [], rs, h => by simp [parsePixels] at h; subst h; simp
  | [_], rs, h => by simp [parsePixels] at h
  | [_, _], rs, h => by simp [parsePixels] at h
  | c :: hi :: lo :: rest, rs, h => by
    simp only [parsePixels] at h
    split at h
    · rename_i rs' h2
      simp only [Option.some.injEq] at h; subst h
      obtain ⟨l, k⟩ := parsePixels_spec rest rs' h2
      refine ⟨by simp [l]; omega, ?_⟩
      intro i x hx
      cases i with
      | zero =>
        simp only [List.getElem?_cons_zero, Option.some.injEq] at hx; subst hx
        exact ⟨hi, lo, c, rfl, rfl, rfl, rfl, rfl, rfl⟩
      | succ i =>
        simp only [List.getElem?_cons_succ] at hx
        obtain ⟨a, b, cc, q⟩ := k i x hx
        exact ⟨a, b, cc, by simpa [Nat.mul_add] using q⟩
    · simp at h

/-- Which runs of pixels pass (R89). -/
theorem parsePixels_isSome : (body : List Byte) → ((parsePixels body).isSome = true ↔ ∃ n, body.length = 3 * n)
  | [] => by simp [parsePixels]
  | [_] => by simp [parsePixels]; intro n h; omega
  | [_, _] => by simp [parsePixels]; intro n h; omega
  | c :: hi :: lo :: rest => by
    have : (parsePixels (c :: hi :: lo :: rest)).isSome = true ↔ (parsePixels rest).isSome = true := by
      simp only [parsePixels]
      cases parsePixels rest <;> simp
    rw [this, parsePixels_isSome rest]
    constructor
    · rintro ⟨n, h⟩; exact ⟨n+1, by simp; omega⟩
    · rintro ⟨n, h⟩; simp at h; exact ⟨n-1, by omega⟩

/-! ## The range test of a slot (R139, R140, Table 8-3): which bytes pass -/

/-- An in-use byte passes exactly when it is 0 or 1 (section 10.9). -/
theorem parseFlag_isSome (b : Byte) : (parseFlag b).isSome = true ↔ b.toNat ≤ 1 := by
  unfold parseFlag
  split
  · simp [*]
  · simp [*]
  · rename_i h0 h1
    simp only [Option.isSome_none, Bool.false_eq_true, false_iff]
    intro h
    have : b.toNat = 0 ∨ b.toNat = 1 := by omega
    exact this.elim h0 h1

/-- A one-byte argument passes exactly when it is in range. -/
theorem indexArg_isSome {n : Nat} (b : Byte) : (indexArg n b).isSome = true ↔ b.toNat < n := by
  unfold indexArg; split <;> simp_all

/-- A limit class byte passes exactly when it is 0 to 7 or 0xFF (Table 8-3). -/
theorem parseClass_isSome (b : Byte) : (parseClass b).isSome = true ↔ b.toNat ≤ 7 ∨ b.toNat = 255 := by
  unfold parseClass
  split
  · simp [*]
  · rw [Option.isSome_map, indexArg_isSome]; omega

/-- A cell index passes exactly when it is at most 2047 (Table 8-3). -/
theorem parseCell_isSome (hi lo : Byte) : (parseCell hi lo).isSome = true ↔ nat16 hi lo ≤ 2047 := by
  unfold parseCell; split <;> simp <;> omega

/-- Which CELLS slots pass the range test (Table 8-3). -/
theorem parseCellSlot_isSome (use cls hi lo : Byte) : (parseCellSlot [use, cls, hi, lo]).isSome = true ↔
    use.toNat ≤ 1 ∧ (cls.toNat ≤ 7 ∨ cls.toNat = 255) ∧ -2000 ≤ int16 hi lo ∧ int16 hi lo ≤ 2000 := by
  rw [← parseFlag_isSome, ← parseClass_isSome]
  cases u : parseFlag use <;> cases c : parseClass cls <;> simp [parseCellSlot, u, c]

/-- Which VIEWS slots pass the range test (Table 8-3). -/
theorem parseBindingSlot_isSome (use pixel hi lo share : Byte) : (parseBindingSlot [use, pixel, hi, lo, share]).isSome = true ↔
    use.toNat ≤ 1 ∧ pixel.toNat ≤ 63 ∧ nat16 hi lo ≤ 2047 ∧ 1 ≤ share.toNat ∧ share.toNat ≤ 16 := by
  have p : pixel.toNat ≤ 63 ↔ (indexArg 64 pixel).isSome = true := by rw [indexArg_isSome]; omega
  rw [← parseFlag_isSome, ← parseCell_isSome, p]
  cases u : parseFlag use <;> cases i : indexArg 64 pixel <;> cases c : parseCell hi lo <;> simp [parseBindingSlot, u, i, c]

/-- Which LIMITS slots pass the range test (Table 8-3, R140). -/
theorem parseLimitSlot_isSome (h1 h0 hh1 hh0 db1 db0 rl1 rl0 : Byte) :
    (parseLimitSlot [h1, h0, hh1, hh0, db1, db0, rl1, rl0]).isSome = true ↔
      nat16 h1 h0 ≤ 11999 ∧ 1 ≤ nat16 hh1 hh0 ∧ nat16 hh1 hh0 ≤ 12000 ∧ nat16 h1 h0 < nat16 hh1 hh0 ∧ nat16 db1 db0 ≤ 500 ∧
        1 ≤ nat16 rl1 rl0 ∧ nat16 rl1 rl0 ≤ 2000 := by
  unfold parseLimitSlot
  simp only
  split <;> simp_all

/-- What a spread list reads as: entry `j` of the first `k` from bytes 3j to 3j + 2. -/
theorem parseSpread_eq_some : ∀ (k : Nat) (bytes : List Byte) (es : List SpreadEntry), parseSpread k bytes = some es →
    es.length = k ∧ ∀ j (hj : j < es.length), es[j].cell.val = nat16 (bytes.getD (3 * j) 0) (bytes.getD (3 * j + 1) 0) ∧
      es[j].share = (bytes.getD (3 * j + 2) 0).toNat ∧ 1 ≤ es[j].share ∧ es[j].share ≤ 15
  | 0, bytes, es, h => by simp [parseSpread] at h; subst h; simp
  | k + 1, hi :: lo :: share :: rest, es, h => by
    unfold parseSpread at h
    split at h
    · rename_i c es' hc hes
      split at h
      · rename_i hs
        simp only [Option.some.injEq] at h
        subst h
        obtain ⟨l, a⟩ := parseSpread_eq_some k rest es' hes
        refine ⟨by simp [l], ?_⟩
        intro j hj
        cases j with
        | zero =>
          unfold parseCell at hc
          split at hc
          · simp only [Option.some.injEq] at hc
            subst hc
            exact ⟨rfl, rfl, hs⟩
          · cases hc
        | succ j =>
          have := a j (by simpa using hj)
          simpa [show 3 * (j + 1) = 3 * j + 3 by omega] using this
      · cases h
    · cases h
  | k + 1, [], es, h => by simp [parseSpread] at h
  | k + 1, [_], es, h => by simp [parseSpread] at h
  | k + 1, [_, _], es, h => by simp [parseSpread] at h

/-- Which spread entries pass the range test: the first `k`, each with cell and share in range (R140). -/
theorem parseSpread_isSome : ∀ (k : Nat) (bytes : List Byte), 3 * k ≤ bytes.length → ((parseSpread k bytes).isSome = true ↔
    ∀ j, j < k → nat16 (bytes.getD (3 * j) 0) (bytes.getD (3 * j + 1) 0) ≤ 2047 ∧ 1 ≤ (bytes.getD (3 * j + 2) 0).toNat ∧
      (bytes.getD (3 * j + 2) 0).toNat ≤ 15)
  | 0, bytes, _ => by simp [parseSpread]
  | k + 1, hi :: lo :: share :: rest, h => by
    have ih := parseSpread_isSome k rest (by simp at h; omega)
    have e : (parseSpread (k + 1) (hi :: lo :: share :: rest)).isSome = true ↔
        nat16 hi lo ≤ 2047 ∧ (1 ≤ share.toNat ∧ share.toNat ≤ 15) ∧ (parseSpread k rest).isSome = true := by
      rw [← parseCell_isSome]
      cases c : parseCell hi lo <;> cases p : parseSpread k rest <;> simp [parseSpread, c, p]
    rw [e, ih]
    constructor
    · rintro ⟨a, b, c⟩ j hj
      cases j with
      | zero => exact ⟨a, b⟩
      | succ j => simpa [show 3 * (j + 1) = 3 * j + 3 by omega] using c j (by omega)
    · intro a
      refine ⟨(a 0 (by omega)).1, (a 0 (by omega)).2, fun j hj => ?_⟩
      simpa [show 3 * (j + 1) = 3 * j + 3 by omega] using a (j + 1) (by omega)
  | k + 1, [], h => by simp at h
  | k + 1, [_], h => by simp at h; omega
  | k + 1, [_, _], h => by simp at h; omega

/-- Spread entries beyond the count are not looked at (R140). -/
theorem parseSpread_take : ∀ (k : Nat) (bytes : List Byte), parseSpread k (bytes.take (3 * k)) = parseSpread k bytes
  | 0, bytes => by simp [parseSpread]
  | k + 1, hi :: lo :: share :: rest => by
    rw [show 3 * (k + 1) = 3 * k + 1 + 1 + 1 by omega]
    simp only [List.take_succ_cons, parseSpread, parseSpread_take k rest]
  | k + 1, [] => by simp
  | k + 1, [a] => by rw [List.take_of_length_le (by simp; omega)]
  | k + 1, [a, b] => by rw [List.take_of_length_le (by simp; omega)]

/-- A spread list is distinct when no cell is the home cell and none repeats an earlier one (R39). -/
theorem spreadDistinct_iff (home : CellIx) (es : List SpreadEntry) : spreadDistinct home es = true ↔
    ∀ j (hj : j < es.length), es[j].cell ≠ home ∧ ∀ k (hk : k < j), es[k].cell ≠ es[j].cell := by
  unfold spreadDistinct
  rw [decide_eq_true_iff, List.nodup_cons, List.nodup_iff_pairwise_ne, List.pairwise_map, List.pairwise_iff_getElem]
  constructor
  · rintro ⟨a, b⟩ j hj
    exact ⟨fun e => a (by rw [← e]; exact List.mem_map.2 ⟨_, List.getElem_mem hj, rfl⟩), fun k hk => b k j (by omega) hj hk⟩
  · intro a
    refine ⟨fun h => ?_, fun k j hk hj l => (a j hj).2 k l⟩
    obtain ⟨x, hx, e⟩ := List.mem_map.1 h
    obtain ⟨j, hj, rfl⟩ := List.getElem_of_mem hx
    exact (a j hj).1 e

/-- A POINTS slot passes the range test when its bytes do and its spread list, read as a whole, is distinct (R140). -/
theorem parsePointSlot_isSome_iff (use port channel homeHi homeLo stepHi stepLo count : Byte) (spread : List Byte) :
    (parsePointSlot (use :: port :: channel :: homeHi :: homeLo :: stepHi :: stepLo :: count :: spread)).isSome = true ↔
      use.toNat ≤ 1 ∧ port.toNat ≤ 7 ∧ channel.toNat ≤ 15 ∧ count.toNat ≤ 4 ∧ 50 ≤ nat16 stepHi stepLo ∧ nat16 stepHi stepLo ≤ 5000 ∧
        ∃ home es, parseCell homeHi homeLo = some home ∧ parseSpread count.toNat spread = some es ∧ spreadDistinct home es = true := by
  have p : port.toNat ≤ 7 ↔ (indexArg 8 port).isSome = true := by rw [indexArg_isSome]; omega
  have c : channel.toNat ≤ 15 ↔ (indexArg 16 channel).isSome = true := by rw [indexArg_isSome]; omega
  rw [← parseFlag_isSome, p, c]
  cases u : parseFlag use <;> cases i : indexArg 8 port <;> cases ch : indexArg 16 channel <;>
    cases h : parseCell homeHi homeLo <;> simp [parsePointSlot, u, i, ch, h]
  cases parseSpread count.toNat spread <;> simp
  split
  · split <;> simp_all
  · simp
    tauto

/-- Which POINTS slots pass the range test (Table 8-3, R140). -/
theorem parsePointSlot_isSome (use port channel homeHi homeLo stepHi stepLo count : Byte) (spread : List Byte)
    (hl : spread.length = 12) :
    (parsePointSlot (use :: port :: channel :: homeHi :: homeLo :: stepHi :: stepLo :: count :: spread)).isSome = true ↔
      use.toNat ≤ 1 ∧ port.toNat ≤ 7 ∧ channel.toNat ≤ 15 ∧ nat16 homeHi homeLo ≤ 2047 ∧ 50 ≤ nat16 stepHi stepLo ∧
        nat16 stepHi stepLo ≤ 5000 ∧ count.toNat ≤ 4 ∧ ∀ j, j < count.toNat →
          nat16 (spread.getD (3 * j) 0) (spread.getD (3 * j + 1) 0) ≤ 2047 ∧
          1 ≤ (spread.getD (3 * j + 2) 0).toNat ∧ (spread.getD (3 * j + 2) 0).toNat ≤ 15 ∧
          nat16 (spread.getD (3 * j) 0) (spread.getD (3 * j + 1) 0) ≠ nat16 homeHi homeLo ∧
          ∀ k, k < j → nat16 (spread.getD (3 * k) 0) (spread.getD (3 * k + 1) 0) ≠
            nat16 (spread.getD (3 * j) 0) (spread.getD (3 * j + 1) 0) := by
  rw [parsePointSlot_isSome_iff]
  have homeV : ∀ home, parseCell homeHi homeLo = some home → home.val = nat16 homeHi homeLo := by
    intro home h; unfold parseCell at h; split at h <;> simp at h; rw [← h]
  constructor
  · rintro ⟨u, p, c, n, s1, s2, home, es, hh, he, hd⟩
    obtain ⟨l, a⟩ := parseSpread_eq_some _ _ _ he
    rw [spreadDistinct_iff] at hd
    have hv := homeV _ hh
    refine ⟨u, p, c, by have := home.isLt; unfold Config.nCells at this; omega, s1, s2, n, fun j hj => ?_⟩
    obtain ⟨a1, a2, a3, a4⟩ := a j (by omega)
    obtain ⟨d1, d2⟩ := hd j (by omega)
    have lt := (es[j]'(by omega)).cell.isLt
    unfold Config.nCells at lt
    refine ⟨by omega, by omega, by omega, ?_, fun k hk => ?_⟩
    · rw [← a1, ← hv]; exact fun e => d1 (Fin.ext e)
    · obtain ⟨b1, -⟩ := a k (by omega)
      rw [← a1, ← b1]; exact fun e => d2 k hk (Fin.ext e)
  · rintro ⟨u, p, c, hm, s1, s2, n, a⟩
    obtain ⟨home, hh⟩ := Option.isSome_iff_exists.1 ((parseCell_isSome homeHi homeLo).2 hm)
    obtain ⟨es, he⟩ := Option.isSome_iff_exists.1 ((parseSpread_isSome count.toNat spread (by omega)).2
      fun j hj => ⟨(a j hj).1, (a j hj).2.1, (a j hj).2.2.1⟩)
    obtain ⟨l, b⟩ := parseSpread_eq_some _ _ _ he
    have hv := homeV _ hh
    refine ⟨u, p, c, n, s1, s2, home, es, hh, he, (spreadDistinct_iff _ _).2 fun j hj => ?_⟩
    obtain ⟨-, -, -, a4, a5⟩ := a j (by omega)
    refine ⟨fun e => a4 ?_, fun k hk e => a5 k hk ?_⟩
    · rw [← (b j hj).1, e, hv]
    · rw [← (b j hj).1, ← (b k (by omega)).1, e]

/-- Spread entries beyond the count are neither tested nor stored (R140). -/
theorem parsePointSlot_beyond_count (use port channel homeHi homeLo stepHi stepLo count : Byte) (spread other : List Byte)
    (h : other.take (3 * count.toNat) = spread.take (3 * count.toNat)) :
    parsePointSlot (use :: port :: channel :: homeHi :: homeLo :: stepHi :: stepLo :: count :: other) =
      parsePointSlot (use :: port :: channel :: homeHi :: homeLo :: stepHi :: stepLo :: count :: spread) := by
  have e : parseSpread count.toNat other = parseSpread count.toNat spread := by
    rw [← parseSpread_take, h, parseSpread_take]
  unfold parsePointSlot
  simp only [e]

end Sys2Proof.Machine
end

