-- ==== Sys2Proof/Laws/Close.lean ====
section
/-! SUPPORT. What the stages of a close do, said once: the cells of a pass, the flags a cell latches, the best cell of a
summary, the ranking of the hot-spot list, and what a whole close leaves in each field. -/

namespace Sys2Proof.Machine

/-! ## The cells of a pass (R1) -/

/-- A cell is of a pass when its index says so (R1). -/
theorem mem_cellsOfPass (p : Fin 8) (c : CellIx) : c ∈ cellsOfPass p ↔ passOf c.val = p.val := by simp [cellsOfPass]

/-- A pass has 256 cells (R1). -/
theorem ofPass_length {α} (p : Fin 8) (t : Table 2048 α) : (ofPass p.val t).length = 256 := by
  have := p.isLt
  simp [ofPass, t.length_eq]; omega

/-- The cells of a pass are 256 consecutive indices (R1). -/
theorem cellsOfPass_eq : ∀ p : Fin 8, (cellsOfPass p).map (fun c : CellIx => c.val) =
    (List.range 256).map fun i => 256 * p.val + i := by decide +kernel

/-- The entries of a pass are those of its cells, in ascending index order (R1). -/
theorem ofPass_eq {α} (p : Fin 8) (t : Table 2048 α) : ofPass p.val t = (cellsOfPass p).map t.get := by
  have hp := p.isLt
  have hc := cellsOfPass_eq p
  have hl : (cellsOfPass p).length = 256 := by
    have := congrArg List.length hc; simpa using this
  apply List.ext_getElem
  · rw [ofPass_length, List.length_map, hl]
  · intro i h1 h2
    rw [ofPass_length] at h1
    have : ((cellsOfPass p)[i]'(by rw [hl]; exact h1)).val = 256 * p.val + i := by
      have h := congrArg (fun l => l[i]?) hc
      simp [h1, hl] at h
      exact h
    rw [List.getElem_map]
    simp [ofPass, Table.get, this]

/-- An entry of a pass is that of one of its cells. -/
theorem mem_ofPass {α} (p : Fin 8) (t : Table 2048 α) (x : α) : x ∈ ofPass p.val t ↔ ∃ c ∈ cellsOfPass p, t.get c = x := by
  have hp := p.isLt
  constructor
  · intro h
    obtain ⟨i, hi, e⟩ := List.getElem_of_mem h
    have hl := ofPass_length p t
    rw [hl] at hi
    have hb : 256 * p.val + i < 2048 := by omega
    refine ⟨⟨256 * p.val + i, hb⟩, ?_, ?_⟩
    · rw [mem_cellsOfPass]; simp [passOf]; omega
    · rw [← e]; simp [Table.get, ofPass]
  · rintro ⟨c, hc, rfl⟩
    rw [mem_cellsOfPass] at hc
    unfold passOf at hc
    have hcl : c.val < 2048 := c.isLt
    have : (ofPass p.val t)[c.val - 256 * p.val]'(by rw [ofPass_length]; omega) = t.get c := by
      simp [ofPass, Table.get]; congr 1; omega
    rw [← this]; exact List.getElem_mem _

/-- Some entry of a pass satisfies a test exactly when one of its cells does. -/
theorem any_ofPass {α} (p : Fin 8) (t : Table 2048 α) (q : α → Bool) : (ofPass p.val t).any q = true ↔ ∃ c ∈ cellsOfPass p,
    q (t.get c) = true := by
  rw [List.any_eq_true]
  constructor
  · rintro ⟨x, hx, hq⟩
    obtain ⟨c, hc, rfl⟩ := (mem_ofPass p t x).1 hx
    exact ⟨c, hc, hq⟩
  · rintro ⟨c, hc, hq⟩
    exact ⟨_, (mem_ofPass p t _).2 ⟨c, hc, rfl⟩, hq⟩

/-- Counting over a pass is counting over its cells. -/
theorem countP_ofPass {α} (p : Fin 8) (t : Table 2048 α) (q : α →
    Bool) : (ofPass p.val t).countP q = (cellsOfPass p).countP (fun c => q (t.get c)) := by
  rw [ofPass_eq, List.countP_map]; rfl

/-! ## Stage 3 (R110 to R113) -/

/-- What a cell latches for its pass, from where it was and where it goes (R112, R113). -/
theorem cellFlags_spec (lim : Table 8 LimitClass) (e : CellEntry) (a : Nat) (C : CellRecord) :
   let m := (C.grow a).measureRise
   let n := evaluateCell lim e m
   ((cellFlags lim e m).hhEntered = true ↔ C.alert ≠ .highHigh ∧ n.alert = .highHigh) ∧
   ((cellFlags lim e m).highEntered = true ↔ C.alert = .normal ∧ n.alert = .high) ∧
   ((cellFlags lim e m).cleared = true ↔ (C.alert = .highHigh ∧ n.alert ≠ .highHigh) ∨ (C.alert = .high ∧
       n.alert = .normal)) ∧
   ((cellFlags lim e m).rise = true ↔ ∃ k r, e.limitClass = some k ∧ n.rise = some r ∧ (lim.get k).riseLimit < r) := by
  intro m n
  obtain ⟨content, anchor⟩ := C
  have mv : ∀ x y : AlertState, ((moveFlags x y).hhEntered = true ↔ x ≠ .highHigh ∧ y = .highHigh) ∧
      ((moveFlags x y).highEntered = true ↔ x = .normal ∧ y = .high) ∧
    ((moveFlags x y).cleared = true ↔ (x = .highHigh ∧ y ≠ .highHigh) ∨ (x = .high ∧ y = .normal)) := by
    intro x y; cases x <;> cases y <;> decide
  have al : m.alert = (CellRecord.mk content anchor).alert := by
    simp only [m]
    cases content with
    | unused => rfl
    | empty => rfl
    | stale b => rfl
    | live b r => simp only [CellRecord.grow, CellContent.grow]; split <;> rfl
  rw [← al]
  clear_value m
  obtain ⟨mc, ma⟩ := m
  simp only [n]
  cases mc with
  | unused => simp [cellFlags, evaluateCell, CellRecord.alert, CellRecord.rise, PassFlags.clear]
  | empty => simp [cellFlags, evaluateCell, CellRecord.alert, CellRecord.rise, PassFlags.clear]
  | stale b => simp [cellFlags, evaluateCell, CellRecord.alert, CellRecord.rise, PassFlags.clear]; cases b.alert <;> simp
  | live b r =>
    cases hk : e.limitClass with
    | none => simp [cellFlags, evaluateCell, hk, CellRecord.alert, CellRecord.rise, PassFlags.clear]; cases b.alert <;> simp
    | some k =>
      simp only [cellFlags, evaluateCell, hk, CellRecord.alert, CellRecord.rise]
      refine ⟨(mv _ _).1, (mv _ _).2.1, (mv _ _).2.2, ?_⟩
      cases r with
      | none => simp [riseHit]
      | some r => simp [riseHit]

/-! ## Stage 4 (R114) -/

/-- The cell numbered from `i` with the greatest value, ties to the lowest index; none where no cell has a value (R114). -/
def IsBestCell (value : CellRecord → Option Int) (i : Nat) (cs : List CellRecord) (r : Option (Nat × Int)) : Prop :=
  (r = none → ∀ k (h : k < cs.length), value cs[k] = none) ∧
  ∀ n e, r = some (n, e) → ∃ k, ∃ h : k < cs.length, n = i + k ∧ value cs[k] = some e ∧ ∀ j (hj : j < cs.length) f,
      value cs[j] = some f → f < e ∨ (f = e ∧ k ≤ j)

/-- What the search for the best cell finds (R114). -/
theorem bestCell_spec (value : CellRecord →
    Option Int) (pre cs : List CellRecord) (i0 : Nat) (best) (h : IsBestCell value i0 pre best) :
   IsBestCell value i0 (pre ++ cs) (bestCell value (i0 + pre.length) cs best) := by
  induction cs generalizing pre best with
  | nil => simpa [bestCell] using h
  | cons c cs ih =>
    simp only [bestCell]
    have step : IsBestCell value i0 (pre ++ [c]) (better best (i0 + pre.length) (value c)) := by
      obtain ⟨h1, h2⟩ := h
      unfold better
      cases hv : value c with
      | none =>
        simp only
        refine ⟨?_, ?_⟩
        · intro hb k hk
          rw [List.getElem_append]; split
          · exact h1 hb k _
          · simpa using hv
        · intro n e hb
          obtain ⟨k, hk, a, b, cc⟩ := h2 n e hb
          refine ⟨k, by simp; omega, a, by rw [List.getElem_append_left hk]; exact b, ?_⟩
          intro j hj f hf
          rw [List.getElem_append] at hf; split at hf
          · exact cc j _ f hf
          · simp [hv] at hf
      | some x =>
        cases best with
        | none =>
          simp only
          refine ⟨by simp, ?_⟩
          intro n e hb
          simp at hb; obtain ⟨rfl, rfl⟩ := hb
          refine ⟨pre.length, by simp, rfl, by simpa using hv, ?_⟩
          intro j hj f hf
          rw [List.getElem_append] at hf; split at hf
          · rw [h1 rfl] at hf; simp at hf
          · rename_i hjl; simp [hv] at hf; simp at hj; right; exact ⟨hf.symm, by omega⟩
        | some b =>
          obtain ⟨n0, y⟩ := b
          obtain ⟨k, hk, a, bb, cc⟩ := h2 n0 y rfl
          simp only
          split
          · rename_i hlt
            refine ⟨by simp, ?_⟩
            intro n e hb
            simp at hb; obtain ⟨rfl, rfl⟩ := hb
            refine ⟨pre.length, by simp, rfl, by simpa using hv, ?_⟩
            intro j hj f hf
            rw [List.getElem_append] at hf; split at hf
            · rcases cc j _ f hf with h | h
              · left; omega
              · left; omega
            · simp [hv] at hf; simp at hj; right; exact ⟨hf.symm, by omega⟩
          · rename_i hlt
            refine ⟨by simp, ?_⟩
            intro n e hb
            simp at hb; obtain ⟨rfl, rfl⟩ := hb
            refine ⟨k, by simp; omega, a, by rw [List.getElem_append_left hk]; exact bb, ?_⟩
            intro j hj f hf
            rw [List.getElem_append] at hf; split at hf
            · exact cc j _ f hf
            · simp [hv] at hf
              simp at hj
              by_cases he : f = y
              · right; exact ⟨he, by omega⟩
              · left; omega
    have := ih (pre ++ [c]) _ step
    simpa [Nat.add_assoc] using this

/-- The best cell of a pass, said over the cells of the pass (R114). -/
theorem bestCell_ofPass (value : CellRecord →
    Option Int) (p : Fin 8) (t : Table 2048 CellRecord) (r) (hr : bestCell value (256 * p.val) (ofPass p.val t) none = r) :
   (r = none ↔ ∀ c ∈ cellsOfPass p, value (t.get c) = none) ∧
   (∀ n e, r = some (n, e) → ∃ c ∈ cellsOfPass p, c.val = n ∧ value (t.get c) = some e ∧
      ∀ d ∈ cellsOfPass p, ∀ f, value (t.get d) = some f → f < e ∨ (f = e ∧ c ≤ d)) := by
  have hp := p.isLt
  have h := bestCell_spec value [] (ofPass p.val t) (256 * p.val) none ⟨by simp, by simp⟩
  simp only [List.nil_append, List.length_nil, Nat.add_zero, hr] at h
  obtain ⟨h1, h2⟩ := h
  have getp : ∀ c ∈ cellsOfPass p, ∃ h : c.val - 256 * p.val < (ofPass p.val t).length,
      (ofPass p.val t)[c.val - 256 * p.val] = t.get c ∧ 256 * p.val ≤ c.val := by
    intro c hc
    rw [mem_cellsOfPass] at hc; unfold passOf at hc
    have hcl : c.val < 2048 := c.isLt
    have hb : 256 * p.val ≤ c.val := by omega
    refine ⟨by rw [ofPass_length]; omega, ?_, hb⟩
    simp [ofPass, Table.get, hb]
  have part2 : ∀ n e, r = some (n, e) → ∃ c ∈ cellsOfPass p, c.val = n ∧ value (t.get c) = some e ∧
      ∀ d ∈ cellsOfPass p, ∀ f, value (t.get d) = some f → f < e ∨ (f = e ∧ c ≤ d) := by
    intro n e hne
    obtain ⟨k, hk, rfl, b, cc⟩ := h2 n e hne
    rw [ofPass_length] at hk
    have hb : 256 * p.val + k < 2048 := by omega
    refine ⟨⟨256 * p.val + k, hb⟩, ?_, rfl, ?_, ?_⟩
    · rw [mem_cellsOfPass]; simp [passOf]; omega
    · rw [← b]; simp [ofPass, Table.get]
    · intro d hd f hf
      obtain ⟨hdl, hde, hdb⟩ := getp d hd
      rcases cc _ hdl f (by rw [hde]; exact hf) with h | h
      · left; exact h
      · right; refine ⟨h.1, ?_⟩
        rw [Fin.le_def]; simp; omega
  refine ⟨⟨?_, ?_⟩, part2⟩
  · intro hn c hc
    obtain ⟨hl, e, -⟩ := getp c hc
    rw [← e]; exact h1 hn _ hl
  · intro hall
    cases r with
    | none => rfl
    | some ne =>
      obtain ⟨c, hc, -, hv, -⟩ := part2 ne.1 ne.2 rfl
      rw [hall c hc] at hv; simp at hv

/-- Every in-use cell is EMPTY, LIVE or STALE (R114). -/
theorem countP_contents (l : List CellRecord) : l.countP CellRecord.isEmpty + l.countP CellRecord.isLive + l.countP CellRecord.isStale = l.countP CellRecord.inUse := by
  induction l with
  | nil => rfl
  | cons c l ih =>
    simp only [List.countP_cons]
    obtain ⟨content, anchor⟩ := c
    cases content <;> simp [CellRecord.isEmpty, CellRecord.isLive, CellRecord.isStale, CellRecord.inUse,
        CellRecord.liveEstimate, CellRecord.estimate] <;> omega

/-! ## Stage 5 (R116) -/

/-- A candidate that takes its rank joins the list, and nothing leaves it. -/
theorem insertHot_mem (h : HotSpot) (l : List HotSpot) (x) : x ∈ insertHot h l ↔ x = h ∨ x ∈ l := by
  induction l with
  | nil => simp [insertHot]
  | cons a l ih => simp only [insertHot]; split <;> simp [ih]; tauto

/-- A candidate that takes its rank makes the list one longer. -/
theorem insertHot_length (h : HotSpot) (l : List HotSpot) : (insertHot h l).length = l.length + 1 := by
  induction l with
  | nil => simp [insertHot]
  | cons a l ih => simp only [insertHot]; split <;> simp [ih]

/-- A candidate of the greatest index so far takes its rank in a ranked list (R116). -/
theorem insertHot_sorted (h : HotSpot) (l : List HotSpot) (hs : l.Pairwise HotSpot.before) (hc : ∀ x ∈ l,
    x.cell < h.cell) : (insertHot h l).Pairwise HotSpot.before := by
  induction l with
  | nil => simp [insertHot]
  | cons a l ih =>
    simp only [insertHot]
    rw [List.pairwise_cons] at hs
    split
    · rename_i hle
      rw [List.pairwise_cons]
      refine ⟨?_, ih hs.2 (fun x hx => hc x (by simp [hx]))⟩
      intro x hx
      rw [insertHot_mem] at hx
      rcases hx with rfl | hx
      · unfold HotSpot.before
        have := hc a (by simp)
        by_cases e : a.estimate = x.estimate
        · right; exact ⟨e, this⟩
        · left; omega
      · exact hs.1 x hx
    · rename_i hgt
      rw [List.pairwise_cons]
      refine ⟨?_, List.pairwise_cons.2 hs⟩
      intro x hx
      rcases List.mem_cons.1 hx with rfl | hx
      · left; omega
      · left
        rcases hs.1 x hx with h | h <;> omega

/-- The list is right for the cells scanned so far: ranked, at most 16, sound,
    and missing a candidate only when full of cells that rank before it (R116). -/
structure HotScan (floor : Nat) (pre : List CellRecord) (acc : List HotSpot) : Prop where
  len : acc.length ≤ 16
  sorted : acc.Pairwise HotSpot.before
  sound : ∀ h ∈ acc, ∃ k, ∃ hk : k < pre.length, hotSpotOf floor k pre[k] = some h
  complete : ∀ k (hk : k < pre.length) h, hotSpotOf floor k pre[k] = some h → h ∈ acc ∨ (acc.length = 16 ∧ ∀ x ∈ acc,
      x.before h)

/-- A candidate names its own cell. -/
theorem hotSpotOf_cell {floor i c h} (e : hotSpotOf floor i c = some h) : h.cell = i := by
  unfold hotSpotOf at e; split at e
  · split at e
    · simp at e; rw [← e]
    · simp at e
  · simp at e
  · simp at e
  · simp at e

/-- Ranking is transitive. -/
theorem HotSpot.before_trans {a b c : HotSpot} (h1 : a.before b) (h2 : b.before c) : a.before c := by
  unfold HotSpot.before at *; omega

/-- The scan keeps the list right (R116). -/
theorem rankHot_scan (floor : Nat) (pre cs : List CellRecord) (acc) (h : HotScan floor pre acc) : HotScan floor
    (pre ++ cs) (rankHot floor pre.length cs acc) := by
  induction cs generalizing pre acc with
  | nil => simpa [rankHot] using h
  | cons c cs ih =>
    have step : HotScan floor (pre ++ [c]) (match hotSpotOf floor pre.length c with
        | some h => (insertHot h acc).take 16
        | none => acc) := by
      obtain ⟨l, so, sd, cp⟩ := h
      cases hv : hotSpotOf floor pre.length c with
      | none =>
        refine ⟨l, so, ?_, ?_⟩
        · intro x hx
          obtain ⟨k, hk, e⟩ := sd x hx
          exact ⟨k, by simp; omega, by rw [List.getElem_append_left hk]; exact e⟩
        · intro k hk x hx
          rw [List.getElem_append] at hx; split at hx
          · exact cp k _ x hx
          · have : k = pre.length := by simp at hk; omega
            subst this; simp [hv] at hx
      | some y =>
        simp only
        have cy := hotSpotOf_cell hv
        have hlt : ∀ x ∈ acc, x.cell < y.cell := by
          intro x hx
          obtain ⟨k, hk, e⟩ := sd x hx
          rw [hotSpotOf_cell e, cy]; exact hk
        have srt := insertHot_sorted y acc so hlt
        refine ⟨by simp, srt.sublist (List.take_sublist _ _), ?_, ?_⟩
        · intro x hx
          have := List.mem_of_mem_take hx
          rw [insertHot_mem] at this
          rcases this with rfl | hx
          · exact ⟨pre.length, by simp, by simpa using hv⟩
          · obtain ⟨k, hk, e⟩ := sd x hx
            exact ⟨k, by simp; omega, by rw [List.getElem_append_left hk]; exact e⟩
        · -- complete
          have gen : ∀ x ∈ insertHot y acc, x ∈ (insertHot y acc).take 16 ∨ (((insertHot y acc).take 16).length = 16 ∧
              ∀ z ∈ (insertHot y acc).take 16, z.before x) := by
            intro x hx
            by_cases hm : x ∈ (insertHot y acc).take 16
            · exact .inl hm
            · right
              have hd : x ∈ (insertHot y acc).drop 16 := by
                have := List.take_append_drop 16 (insertHot y acc)
                rw [← this] at hx
                rcases List.mem_append.1 hx with h | h
                · exact absurd h hm
                · exact h
              refine ⟨?_, ?_⟩
              · have : 0 < ((insertHot y acc).drop 16).length := List.length_pos_of_mem hd
                simp at this ⊢; omega
              · intro z hz
                have := List.take_append_drop 16 (insertHot y acc)
                rw [← this, List.pairwise_append] at srt
                exact srt.2.2 z hz x hd
          intro k hk x hx
          rw [List.getElem_append] at hx; split at hx
          · rcases cp k _ x hx with h | ⟨h16, h⟩
            · exact gen x (by rw [insertHot_mem]; exact .inr h)
            · right
              refine ⟨by simp [insertHot_length, h16], ?_⟩
              intro z hz
              -- z in take of insert; y or acc
              have hz2 := List.mem_of_mem_take hz
              rw [insertHot_mem] at hz2
              rcases hz2 with rfl | hz2
              · -- z = y; last of insert dropped is before x?
                have hex : ∃ w ∈ acc, w ∉ (insertHot z acc).take 16 := by
                  by_contra hno
                  push Not at hno
                  have nd : (insertHot z acc).Nodup :=
                      srt.imp (fun {a b} hb e => by subst e; unfold HotSpot.before at hb; omega)
                  have ndz : z ∉ acc := fun hzz => by have := hlt z hzz; omega
                  have nda : acc.Nodup := so.imp (fun {a b} hb e => by subst e; unfold HotSpot.before at hb; omega)
                  have sub : (z :: acc) ⊆ (insertHot z acc).take 16 := by
                    intro w hw
                    rcases List.mem_cons.1 hw with rfl | hw
                    · exact hz
                    · exact hno w hw
                  have := (List.nodup_cons.2 ⟨ndz, nda⟩).length_le_of_subset sub
                  simp [h16] at this
                obtain ⟨w, hw, hwn⟩ := hex
                rcases gen w (by rw [insertHot_mem]; exact .inr hw) with h' | ⟨_, h'⟩
                · exact absurd h' hwn
                · exact HotSpot.before_trans (h' z hz) (h w hw)
              · exact h z hz2
          · have : k = pre.length := by simp at hk; omega
            subst this; simp [hv] at hx; subst hx
            exact gen y (by rw [insertHot_mem]; exact .inl rfl)
    have := ih (pre ++ [c]) _ step
    simp only [rankHot]
    cases hv : hotSpotOf floor pre.length c with
    | none => rw [hv] at this; simpa using this
    | some y => rw [hv] at this; simpa using this

/-- Which cells are candidates (R116). -/
theorem hotSpotOf_iff (floor i : Nat) (c : CellRecord) (h : HotSpot) : hotSpotOf floor i c = some h ↔ ∃ b r,
    c.content = .live b r ∧ (floor : Int) ≤ b.estimate ∧ h = ⟨i, b.estimate, b.alert, b.age, r⟩ := by
  unfold hotSpotOf
  split
  · rename_i b r e
    split
    · rename_i hf
      constructor
      · intro hh; simp at hh; exact ⟨b, r, e, hf, hh.symm⟩
      · rintro ⟨b', r', e', _, rfl⟩; rw [e] at e'; cases e'; rfl
    · rename_i hf
      constructor
      · intro hh; simp at hh
      · rintro ⟨b', r', e', hf', rfl⟩; rw [e] at e'; cases e'; exact absurd hf' hf
  all_goals (rename_i e; rw [e]; simp)

/-- A list right for the cells scanned shows no cell twice: an entry is what its cell makes it, and none ranks before
itself (R116). -/
theorem HotScan.distinct {floor pre acc} (h : HotScan floor pre acc) : (acc.map HotSpot.cell).Nodup := by
  have once : acc.Nodup := h.sorted.imp fun {a b} hb e => by subst e; unfold HotSpot.before at hb; omega
  refine once.map_on fun x hx y hy e => ?_
  obtain ⟨i, hi, hx⟩ := h.sound x hx
  obtain ⟨j, hj, hy⟩ := h.sound y hy
  obtain rfl : i = j := by rw [← hotSpotOf_cell hx, ← hotSpotOf_cell hy, e]
  exact Option.some.inj (hx.symm.trans hy)

/-! ## A whole close -/

/-- The close in flight runs when CLOSE is commanded (R105). -/
theorem exec_close_of_runs {s : State} {a b} (h : s.Runs (.close a b)) : exec .close s = .next (s.runClose a b) := by
  simp [exec, execClose, h.1, arbitrate_of_inFlight h.2, h.2]

/-- A close completes as a map operation with the effect of its stages and its completion (R105, R149). -/
theorem runClose_completes (s : State) (a b) :
   State.Completes ((s.closeStages a b).completeClose).silencePorts (s.runClose a b) := by
  have h := completes_conclude (State.transmit (((s.closeStages a b).completeClose).takeEvent
      ((s.closeStages a b).completeClose).silencePorts)) (State.transmit (((s.closeStages a b).completeClose).takeEvent
      ((s.closeStages a b).completeClose).silencePorts))
  refine ⟨h.ends.of_eq ?_ ?_, h.copy⟩
  · have := body_transmit (((s.closeStages a b).completeClose).takeEvent ((s.closeStages a b).completeClose).silencePorts)
    have e : ∀ s : State, State.body { s with map := { s.map with inFlight := none } } = s.body := fun s => rfl
    rw [e, e, this]; rfl
  · apply arbiter_arbitrate_congr <;> simp

/-- What a close leaves in each field (R119). -/
theorem runClose_fields (s : State) (a b) :
  let d := (s.closeStages a b).completeClose
  let t := s.runClose a b
  t.cells = d.cells ∧ t.cellTable = d.cellTable ∧ t.points = d.points ∧ t.pointTable = d.pointTable ∧ t.views = d.views ∧
      t.viewTable = d.viewTable ∧ t.limits = d.limits ∧
  t.stage = d.stage ∧ t.ports = d.silencePorts.ports ∧ t.map.mode = d.map.mode ∧ t.map.epoch = d.map.epoch ∧
      t.map.hotList = d.map.hotList ∧ t.map.buildingEpoch = d.map.buildingEpoch ∧
  t.map.summaries = d.map.summaries ∧ t.map.passFlags = d.map.passFlags ∧ t.map.topChanged = d.map.topChanged ∧
      t.settings = d.settings ∧ t.lines = d.lines := by
  simp [State.runClose, State.conclude]

/-- With nothing pending nothing installs (R143). -/
theorem installPending_empty {s : State} (h : s.stage.pendingPages = []) : s.installPending = s := by
  simp [State.installPending, h]

/-- Completion with nothing pending: the epoch number, and the mode (R119). -/
theorem completeClose_empty {s : State} (h : s.stage.pendingPages = []) : s.completeClose = State.settleMode { s with map := { s.map with epoch := s.map.epoch + 1 } } := by
  rw [State.completeClose, installPending_empty (by simpa using h)]

/-- The stages leave the stage alone. -/
theorem closeStages_stage (s : State) (a b) : (s.closeStages a b).stage = s.stage :=
    by unfold State.closeStages; split <;> rfl

/-- The stages leave the cell table alone. -/
theorem closeStages_cellTable (s : State) (a b) : (s.closeStages a b).cellTable = s.cellTable :=
    by unfold State.closeStages; split <;> rfl

/-- The stages leave the mode and the epoch number alone. -/
theorem closeStages_map (s : State) (a b) : (s.closeStages a b).map.mode = s.map.mode ∧
    (s.closeStages a b).map.epoch = s.map.epoch := by unfold State.closeStages; split <;> exact ⟨rfl, rfl⟩

/-- How a port countP_contents silence (R92). -/
theorem PortRecord.countSilence_eq (l : Nat) (p : PortRecord) : p.countSilence l = if p.state = .live then
          if l ≤ p.silence + 1 then
            { p with silence := p.silence + 1, state := .quiet, flags := { p.flags with quiet := true } }
          else { p with silence := p.silence + 1 }
        else p := by
  unfold PortRecord.countSilence
  cases h : p.state <;> simp

end Sys2Proof.Machine
end

