-- ==== Sys2Proof/Laws/Points.lean ====
section
/-! SUPPORT. What the law of the point table gives, what the two lookups find, and what a run of touches changes. -/

namespace Sys2Proof.Machine

/-- Two entries conflict when both are in use and they share port and channel, or home cell (R141). -/
theorem PointEntry.conflicts_iff (a b : PointEntry) : a.conflicts b = true ↔ a.inUse = true ∧ b.inUse = true ∧
    (a.port = b.port ∧ a.channel = b.channel ∨ a.home = b.home) := by
  simp [PointEntry.conflicts, and_assoc]

/-- Conflict looks at both entries alike. -/
theorem PointEntry.conflicts_comm (a b : PointEntry) : a.conflicts b = b.conflicts a := by
  simp only [PointEntry.conflicts, eq_comm (a := a.port), eq_comm (a := a.channel), eq_comm (a := a.home),
      Bool.and_comm a.inUse]

/-- No entry of the list conflicts with a later one. -/
theorem noConflict_iff_pairwise (l : List PointEntry) : noConflict l = true ↔ l.Pairwise
    (fun a b => a.conflicts b = false) := by
  induction l with
  | nil => simp [noConflict]
  | cons a l ih => simp [noConflict, ih]

/-- The law of the live point table, entry against entry (R38). -/
theorem pointLaw_iff (t : Table 96 PointEntry) : pointLaw t = true ↔ ∀ i j : Fin 96, i ≠ j →
    (t.get i).conflicts (t.get j) = false := by
  rw [pointLaw, noConflict_iff_pairwise, List.pairwise_iff_getElem]
  constructor
  · intro h i j hij
    rcases Nat.lt_or_gt_of_ne (fun e => hij (Fin.ext e)) with hl | hl
    · exact h i.val j.val (by rw [t.length_eq]; exact i.isLt) (by rw [t.length_eq]; exact j.isLt) hl
    · rw [PointEntry.conflicts_comm]; exact h j.val i.val (by rw [t.length_eq]; exact j.isLt)
          (by rw [t.length_eq]; exact i.isLt) hl
  · intro h i j hi hj hl
    rw [t.length_eq] at hi hj
    exact h ⟨i, hi⟩ ⟨j, hj⟩ (by simp; omega)

/-- Under the law of the point table the lookup finds the point of a reading (R40). -/
theorem findPoint_of_pointOf {s : State} (hl : s.PointTableLaw) {port channel i}
    (h : s.PointOf port channel i) : findPoint s.pointTable port channel = some i := by
  have := (pointLaw_iff _).1 hl
  apply Table.findIx_of_unique
  · simp [h.1, h.2.1, h.2.2]
  · intro j hj
    by_contra hne
    have hc := this i j (fun e => hne e.symm)
    simp at hj
    simp [PointEntry.conflicts, h.1, h.2.1, h.2.2, hj] at hc

/-- Where no in-use point has the port and channel, the lookup finds none (R40). -/
theorem findPoint_eq_none {s : State} {port channel} (h : ∀ i,
    ¬ s.PointOf port channel i) : findPoint s.pointTable port channel = none := by
  unfold findPoint
  rw [Table.findIx_eq_none]
  intro i
  have := h i
  simp only [State.PointOf] at this
  simp; intro a b c; exact this ⟨a, b, c⟩

/-- Under the law of the point table the lookup finds the point homed on a cell (R40). -/
theorem homePoint_of_home {s : State} (hl : s.PointTableLaw) {c i} (h : (s.pointTable.get i).inUse = true) (h2 :
    (s.pointTable.get i).home = c) : homePoint s.pointTable c = some i := by
  have := (pointLaw_iff _).1 hl
  apply Table.findIx_of_unique
  · simp [h, h2]
  · intro j hj
    by_contra hne
    have hc := this i j (fun e => hne e.symm)
    simp at hj
    simp [PointEntry.conflicts, h, h2, hj] at hc

/-- A point that the lookup finds is in use and homed on the cell (R40). -/
theorem homePoint_some {t : Table 96 PointEntry} {c i} (h : homePoint t c = some i) : (t.get i).inUse = true ∧
    (t.get i).home = c := by
  have := (Table.findIx_eq_some h).1
  simpa using this

/-- A run of touches over distinct cells: each is touched once with its share, and nothing else changes (R30). -/
theorem touchCell_foldl (kind value gain) (l : List SpreadEntry) (hd : (l.map SpreadEntry.cell).Nodup) (s : State) :
  let t := l.foldl (fun acc x => acc.touchCell kind value gain x.cell x.share) s
  t = { s with cells := t.cells } ∧ (∀ x ∈ l,
      t.cells.get x.cell = (s.cells.get x.cell).touch s.latched.refreshMin kind value x.share gain) ∧
   (∀ c, (∀ x ∈ l, x.cell ≠ c) → t.cells.get c = s.cells.get c) := by
  induction l generalizing s with
  | nil => simp
  | cons a l ih =>
    simp only [List.map_cons, List.nodup_cons] at hd
    obtain ⟨h1, h2, h3⟩ := ih hd.2 (s.touchCell kind value gain a.cell a.share)
    simp only [List.foldl_cons]
    refine ⟨h1, ?_, ?_⟩
    · intro x hx
      rcases List.mem_cons.1 hx with rfl | hx
      · rw [h3 x.cell (fun y hy e => hd.1 (by rw [← e]; exact List.mem_map_of_mem hy))]
        simp [State.touchCell]
      · rw [h2 x hx]
        have : a.cell ≠ x.cell := fun e => hd.1 (by rw [e]; exact List.mem_map_of_mem hx)
        simp [State.touchCell, Table.get_upd_ne _ this]
    · intro c hc
      rw [h3 c (fun x hx => hc x (by simp [hx]))]
      simp [State.touchCell, Table.get_upd_ne _ (hc a (by simp))]

end Sys2Proof.Machine
end

