-- ==== Sys2Proof/Laws/Install.lean ====
section
/-! SUPPORT. What the installs of a close do, said once: folds over the filled slots of a page, one cell installed, a page of
cells, the anchors of a page of points, and what no install touches. -/

namespace Sys2Proof.Machine

/-! ## Folds over filled slots -/

/-- A fold over filled slots visits the slots in order. -/
theorem foldFilled_eq {n : Nat} {α σ : Type} (f : σ → Fin n → α → σ) (slots : Table n (Option α)) (s : σ) :
  slots.foldFilled f s = (List.finRange n).foldl
      (fun acc i => match slots.get i with | some x => f acc i x | none => acc) s := by
  unfold Table.foldFilled; congr 1

/-- A run of filled slots written into a table, each at its own place. -/
theorem foldl_set_slots {n m : Nat} {α} (g : Fin n → Fin m) (hg : ∀ i j, g i = g j →
    i = j) (slots : Table n (Option α)) (l : List (Fin n)) (hn : l.Nodup) (t : Table m α) :
  let u := l.foldl (fun acc i => match slots.get i with | some x => acc.set (g i) x | none => acc) t
  (∀ k, (∀ i ∈ l, ∀ e, slots.get i = some e → g i ≠ k) → u.get k = t.get k) ∧ (∀ i ∈ l, ∀ e, slots.get i = some e →
      u.get (g i) = e) := by
  induction l generalizing t with
  | nil => exact ⟨fun _ _ => rfl, by simp⟩
  | cons i l ih =>
    rw [List.nodup_cons] at hn
    simp only [List.foldl_cons]
    cases hs : slots.get i with
    | none =>
      obtain ⟨h1, h2⟩ := ih hn.2 t
      refine ⟨fun k hk => h1 k fun j hj => hk j (by simp [hj]), ?_⟩
      intro k hk e he
      rcases List.mem_cons.1 hk with rfl | hk
      · rw [hs] at he; cases he
      · exact h2 k hk e he
    | some x =>
      obtain ⟨h1, h2⟩ := ih hn.2 (t.set (g i) x)
      refine ⟨?_, ?_⟩
      · intro k hk
        rw [h1 k fun j hj => hk j (by simp [hj]), Table.get_set_ne _ (hk i (by simp) x hs)]
      · intro k hk e he
        rcases List.mem_cons.1 hk with rfl | hk
        · rw [hs] at he; cases he
          rw [h1 (g k) (fun m hm e' _ heq => hn.1 (by rw [← hg _ _ heq]; exact hm))]
          simp
        · exact h2 k hk e he

/-- Filled slots written into a table: each stands at its place, and the other places are as they were. -/
theorem foldFilled_set {n m : Nat} {α} (g : Fin n → Fin m) (hg : ∀ i j, g i = g j →
    i = j) (slots : Table n (Option α)) (t : Table m α) :
  (∀ k, (∀ i e, slots.get i = some e → g i ≠ k) → (slots.foldFilled (fun acc i e => acc.set (g i) e) t).get k = t.get k) ∧
      (∀ i e, slots.get i = some e → (slots.foldFilled (fun acc i e => acc.set (g i) e) t).get (g i) = e) := by
  obtain ⟨h1, h2⟩ := foldl_set_slots g hg slots (List.finRange n) (List.nodup_finRange n) t
  rw [foldFilled_eq]
  exact ⟨fun k hk => h1 k fun i _ => hk i, fun i => h2 i (List.mem_finRange i)⟩

/-- A page with a filled slot counts at least one. -/
theorem filled_ne_zero {n α} {t : Table n (Option α)} (h : ∃ i, t.get i ≠ none) : t.count Option.isSome ≠ 0 := by
  obtain ⟨i, hi⟩ := h
  unfold Table.count
  have : 0 < t.toList.countP Option.isSome := by
    rw [List.countP_pos_iff]
    exact ⟨_, Table.get_mem t i, by rw [Option.isSome_iff_ne_none]; exact hi⟩
  omega

/-- One slot of a fold over filled slots. -/
def slotStep {n : Nat} {α σ : Type} (f : σ → Fin n → α → σ) (slots : Table n (Option α)) (i : Fin n) (s : σ) : σ :=
    match slots.get i with | some x => f s i x | none => s

/-- A filled slot is taken. -/
theorem slotStep_some {n : Nat} {α σ : Type} {f : σ → Fin n → α →
    σ} {slots : Table n (Option α)} {i : Fin n} {s : σ} {x} (h : slots.get i = some x) : slotStep f slots i s = f s i x :=
    by simp [slotStep, h]

/-- An unfilled slot is passed over. -/
theorem slotStep_none {n : Nat} {α σ : Type} {f : σ → Fin n → α →
    σ} {slots : Table n (Option α)} {i : Fin n} {s : σ} (h : slots.get i = none) : slotStep f slots i s = s :=
    by simp [slotStep, h]

/-- A fold over the filled slots of a run of slots. -/
def slotFold {n : Nat} {α σ : Type} (f : σ → Fin n → α → σ) (slots : Table n (Option α)) (l : List (Fin n)) (s : σ) : σ :=
    l.foldl (fun acc i => slotStep f slots i acc) s

@[simp] theorem slotFold_cons {n : Nat} {α σ : Type} (f : σ → Fin n → α →
    σ) (slots : Table n (Option α)) (i l) (s : σ) : slotFold f slots (i :: l) s = slotFold f slots l
    (slotStep f slots i s) := rfl

/-- A fold over all slots of a page. -/
theorem foldFilled_slot {n : Nat} {α σ : Type} (f : σ → Fin n → α →
    σ) (slots : Table n (Option α)) (s : σ) : slots.foldFilled f s = slotFold f slots (List.finRange n) s := by
  unfold Table.foldFilled slotFold; congr 1

/-! ## A page of cells (R9 to R11, R59, R60) -/

/-- The record of a cell after its entry is replaced (R9 to R11). -/
def cellAfterInstall (old e : CellEntry) (isHome : Bool) (C : CellRecord) : CellRecord :=
  match old.inUse, e.inUse with
  | true, false => ⟨.unused, none⟩
  | false, true => ⟨.empty, if isHome then some Anchor.fresh else none⟩
  | true, true => if e.limitClass = old.limitClass then C else C.alertNormal
  | false, false => C

/-- The record of the point homed on a cell that leaves or enters use (R59, R60). -/
def pointAfterInstall (old e : Bool) (r : PointRecord) : PointRecord :=
  match old, e with
  | true, false => r.unbind
  | false, true => r.bind
  | _, _ => r

/-- Whether an in-use point is homed on a cell. -/
def isHome (t : Table 96 PointEntry) (c : CellIx) : Bool := (homePoint t c).isSome

/-- A fresh anchor for a home cell, and for no other. -/
theorem freshAnchor_map (o : Option PointIx) :
    o.map (fun _ => Anchor.fresh) = if o.isSome = true then some Anchor.fresh else none := by cases o <;> rfl

/-- Only the point homed on the cell is changed. -/
theorem updHomePoint_spec {s : State} (hl : pointLaw s.pointTable = true) (c : CellIx)
    (f) : s.updHomePoint c f = { s with points := (s.updHomePoint c f).points } ∧
   ∀ j : PointIx, (s.updHomePoint c f).points.get j = if (s.pointTable.get j).inUse = true ∧
       (s.pointTable.get j).home = c then f (s.points.get j) else s.points.get j := by
  unfold State.updHomePoint
  cases h : homePoint s.pointTable c with
  | none =>
    refine ⟨rfl, ?_⟩
    intro j
    simp only
    rw [if_neg]
    rintro ⟨a, b⟩
    rw [homePoint_of_home (s := s) hl a b] at h; cases h
  | some i =>
    refine ⟨rfl, ?_⟩
    intro j
    simp only [Table.get_upd]
    obtain ⟨a, b⟩ := homePoint_some h
    by_cases e : i = j
    · subst e; simp [a, b]
    · rw [if_neg e, if_neg]
      rintro ⟨a', b'⟩
      have := homePoint_of_home (s := s) hl a' b'
      rw [h] at this; cases this; exact e rfl

/-- One filled CELLS slot installs: the entry, the record, and the point homed on the cell (R9 to R11, R59, R60). -/
theorem installCell_spec {s : State} (hl : pointLaw s.pointTable = true) (cell : CellIx) (e : CellEntry) :
   let t := s.installCell cell e
   t = { s with cellTable := s.cellTable.set cell e, cells := t.cells, points := t.points } ∧
   (∀ c, t.cells.get c = if cell = c then cellAfterInstall (s.cellTable.get c) e (isHome s.pointTable c)
       (s.cells.get c) else s.cells.get c) ∧
   (∀ j : PointIx, t.points.get j = if (s.pointTable.get j).inUse = true ∧
       (s.pointTable.get j).home = cell then pointAfterInstall (s.cellTable.get cell).inUse e.inUse
       (s.points.get j) else s.points.get j) := by
  intro t
  have hu := fun f => updHomePoint_spec (s := { s with cellTable := s.cellTable.set cell e }) hl cell f
  have eq : t = s.installCell cell e := rfl
  simp only [State.installCell] at eq
  cases ho : (s.cellTable.get cell).inUse <;> cases he : e.inUse
  · rw [ho, he] at eq; simp only at eq; rw [eq]
    refine ⟨rfl, ?_, ?_⟩
    · intro c; simp only; split
      · rename_i h; subst h; simp [cellAfterInstall, ho, he]
      · rfl
    · intro j; simp [pointAfterInstall]
  · rw [ho, he] at eq; simp only at eq
    obtain ⟨h1, h2⟩ := hu PointRecord.bind
    refine ⟨?_, ?_, ?_⟩
    · rw [eq]; rw [h1]
    · intro c; rw [eq]; simp only [Table.get_set]; split
      · rename_i h; subst h; simp only [cellAfterInstall, ho, he,
            isHome]; exact congrArg (CellRecord.mk CellContent.empty) (freshAnchor_map _)
      · rfl
    · intro j; rw [eq]; simp only; rw [h2]; simp [pointAfterInstall]
  · rw [ho, he] at eq; simp only at eq
    obtain ⟨h1, h2⟩ := hu PointRecord.unbind
    refine ⟨?_, ?_, ?_⟩
    · rw [eq]; rw [h1]
    · intro c; rw [eq]; simp only [Table.get_set]; split
      · rename_i h; subst h; simp [cellAfterInstall, ho, he]
      · rfl
    · intro j; rw [eq]; simp only; rw [h2]; simp [pointAfterInstall]
  · rw [ho, he] at eq; simp only at eq
    split at eq
    · rename_i hc
      rw [eq]
      refine ⟨rfl, ?_, ?_⟩
      · intro c; simp only; split
        · rename_i h; subst h; simp [cellAfterInstall, ho, he, hc]
        · rfl
      · intro j; simp [pointAfterInstall]
    · rename_i hc
      rw [eq]
      refine ⟨rfl, ?_, ?_⟩
      · intro c; simp only [Table.get_upd]; split
        · rename_i h; subst h; simp [cellAfterInstall, ho, he, hc]
        · rfl
      · intro j; simp [pointAfterInstall]

/-- The slots of a page are cells of their own. -/
theorem cellOfSlot_inj {p : Fin 64} {i j : Fin 32} (h : cellOfSlot p i = cellOfSlot p j) : i = j := by
  have := congrArg Fin.val h
  simp [cellOfSlot] at this; exact Fin.ext this

/-- A run of CELLS slots installs, each slot once. -/
theorem installCell_foldl (p : Fin 64) (slots : Table 32 (Option CellEntry)) (l : List (Fin 32)) (hn : l.Nodup)
    (s : State) (hl : pointLaw s.pointTable = true) :
  let t := l.foldl (fun acc i => match slots.get i with | some x => acc.installCell (cellOfSlot p i) x | none => acc) s
  t = { s with cellTable := t.cellTable, cells := t.cells, points := t.points } ∧
  (∀ c, (∀ i ∈ l, ∀ e, slots.get i = some e → cellOfSlot p i ≠ c) → t.cellTable.get c = s.cellTable.get c ∧
      t.cells.get c = s.cells.get c ∧
     ∀ j : PointIx, (s.pointTable.get j).home = c → t.points.get j = s.points.get j) ∧
  (∀ j : PointIx, (s.pointTable.get j).inUse = false → t.points.get j = s.points.get j) ∧
  (∀ i ∈ l, ∀ e, slots.get i = some e → t.cellTable.get (cellOfSlot p i) = e ∧
      t.cells.get (cellOfSlot p i) = cellAfterInstall (s.cellTable.get (cellOfSlot p i)) e (isHome s.pointTable
      (cellOfSlot p i)) (s.cells.get (cellOfSlot p i)) ∧
     ∀ j : PointIx, (s.pointTable.get j).inUse = true → (s.pointTable.get j).home = cellOfSlot p i →
         t.points.get j = pointAfterInstall (s.cellTable.get (cellOfSlot p i)).inUse e.inUse (s.points.get j)) := by
  induction l generalizing s with
  | nil => exact ⟨rfl, fun _ _ => ⟨rfl, rfl, fun _ _ => rfl⟩, fun _ _ => rfl, by simp⟩
  | cons i l ih =>
    rw [List.nodup_cons] at hn
    simp only [List.foldl_cons]
    cases hs : slots.get i with
    | none =>
      simp only
      obtain ⟨h1, h2, h3, h4⟩ := ih hn.2 s hl
      refine ⟨h1, ?_, h3, ?_⟩
      · intro c hc; exact h2 c fun k hk => hc k (by simp [hk])
      · intro k hk e he
        rcases List.mem_cons.1 hk with rfl | hk
        · rw [hs] at he; cases he
        · exact h4 k hk e he
    | some x =>
      simp only
      obtain ⟨a1, a2, a3⟩ := installCell_spec hl (cellOfSlot p i) x
      generalize hg : s.installCell (cellOfSlot p i) x = g at *
      have gp : g.pointTable = s.pointTable := by rw [a1]
      have gc : g.cellTable = s.cellTable.set (cellOfSlot p i) x := by rw [a1]
      obtain ⟨h1, h2, h3, h4⟩ := ih hn.2 g (by rw [gp]; exact hl)
      refine ⟨?_, ?_, ?_, ?_⟩
      · rw [h1]; rw [a1]
      · intro c hc
        have hne : cellOfSlot p i ≠ c := hc i (by simp) x hs
        obtain ⟨b1, b2, b3⟩ := h2 c fun k hk => hc k (by simp [hk])
        refine ⟨by rw [b1, gc, Table.get_set_ne _ hne], by rw [b2, a2, if_neg hne], ?_⟩
        intro j hj
        rw [b3 j (by rw [gp]; exact hj), a3, if_neg]
        rintro ⟨-, h⟩; exact hne (by rw [← h, hj])
      · intro j hj
        rw [h3 j (by rw [gp]; exact hj), a3, if_neg]
        rintro ⟨h, -⟩; rw [h] at hj; cases hj
      · intro k hk e he
        rcases List.mem_cons.1 hk with rfl | hk
        · rw [hs] at he; cases he
          obtain ⟨b1, b2, b3⟩ := h2 (cellOfSlot p k) (fun m hm e' _ heq => hn.1 (by rw [← cellOfSlot_inj heq]; exact hm))
          refine ⟨by rw [b1, gc]; simp, by rw [b2, a2, if_pos rfl], ?_⟩
          intro j hj hh
          rw [b3 j (by rw [gp]; exact hh), a3, if_pos ⟨hj, hh⟩]
        · have hne : cellOfSlot p i ≠ cellOfSlot p k := fun e => hn.1 (by rw [cellOfSlot_inj e]; exact hk)
          obtain ⟨b1, b2, b3⟩ := h4 k hk e he
          refine ⟨b1, ?_, ?_⟩
          · rw [b2, a2, if_neg hne, gc, Table.get_set_ne _ hne, gp]
          · intro j hj hh
            rw [b3 j (by rw [gp]; exact hj) (by rw [gp]; exact hh), gc, Table.get_set_ne _ hne, a3, if_neg]
            rintro ⟨-, h⟩; exact hne (by rw [← h, hh])

/-- A cell is a home exactly when an in-use point names it. -/
theorem homed_iff {s : State} (hl : s.PointTableLaw) (c) : isHome s.pointTable c = true ↔ ∃ j,
    (s.pointTable.get j).inUse = true ∧ (s.pointTable.get j).home = c := by
  unfold isHome
  constructor
  · intro h
    obtain ⟨i, hi⟩ := Option.isSome_iff_exists.1 h
    exact ⟨i, homePoint_some hi⟩
  · rintro ⟨j, a, b⟩
    rw [homePoint_of_home hl a b]; rfl

/-! ## A page of points (R58) -/

/-- The slots of a page are points of their own. -/
theorem pointOfSlot_inj {p : Fin 3} (i j : Fin 32) (h : pointOfSlot p i = pointOfSlot p j) : i = j := by
  have := congrArg Fin.val h
  simp [pointOfSlot] at this; exact Fin.ext this

/-- The old home cells of the filled slots lose their anchors (R58). -/
theorem dropAnchor_foldl (p : Fin 3) (slots : Table 32 (Option PointEntry)) (l : List (Fin 32)) (s : State) :
  let t := slotFold (fun (acc : State) i (_ : PointEntry) => acc.dropAnchor (pointOfSlot p i)) slots l s
  t = { s with cells := t.cells } ∧ (∀ c, (t.cells.get c).content = (s.cells.get c).content) ∧
  (∀ c, (t.cells.get c).anchor = if (∃ i ∈ l, slots.get i ≠ none ∧ (s.pointTable.get (pointOfSlot p i)).inUse = true ∧
      (s.pointTable.get (pointOfSlot p i)).home = c) then none else (s.cells.get c).anchor) := by
  induction l generalizing s with
  | nil => exact ⟨rfl, fun _ => rfl, by intro c; simp; rfl⟩
  | cons i l ih =>
    simp only [slotFold_cons]
    have one : (slotStep (fun (acc : State) i (_ : PointEntry) => acc.dropAnchor
        (pointOfSlot p i)) slots i s) = { s with cells :=
        (slotStep (fun (acc : State) i (_ : PointEntry) => acc.dropAnchor (pointOfSlot p i)) slots i s).cells } ∧
       (∀ c, ((slotStep (fun (acc : State) i (_ : PointEntry) => acc.dropAnchor
           (pointOfSlot p i)) slots i s).cells.get c).content = (s.cells.get c).content) ∧
       (∀ c, ((slotStep (fun (acc : State) i (_ : PointEntry) => acc.dropAnchor
           (pointOfSlot p i)) slots i s).cells.get c).anchor = if slots.get i ≠ none ∧
           (s.pointTable.get (pointOfSlot p i)).inUse = true ∧
           (s.pointTable.get (pointOfSlot p i)).home = c then none else (s.cells.get c).anchor) := by
      cases hs : slots.get i with
      | none => rw [slotStep_none hs]; exact ⟨rfl, fun _ => rfl, by simp⟩
      | some x =>
        rw [slotStep_some hs]; simp only [State.dropAnchor]
        split
        · rename_i hu
          refine ⟨rfl, ?_, ?_⟩
          · intro c; simp only [Table.get_upd]; split
            · rename_i h; rw [h]
            · rfl
          · intro c; simp only [Table.get_upd]; split
            · rename_i h; subst h; simp [hu]
            · rename_i h; rw [if_neg]; rintro ⟨_, _, h'⟩; exact h h'
        · rename_i hu
          refine ⟨rfl, fun _ => rfl, ?_⟩
          intro c; rw [if_neg]; rintro ⟨_, h', _⟩; exact hu h'
    generalize hg : (slotStep (fun (acc : State) i (_ : PointEntry) => acc.dropAnchor (pointOfSlot p i)) slots i s) = g at one
    obtain ⟨o1, o2, o3⟩ := one
    obtain ⟨h1, h2, h3⟩ := ih g
    have gp : g.pointTable = s.pointTable := by rw [o1]
    refine ⟨?_, ?_, ?_⟩
    · rw [h1]; rw [o1]
    · intro c; rw [h2, o2]
    · intro c
      rw [h3, o3, gp]
      by_cases ha : ∃ k ∈ l, slots.get k ≠ none ∧ (s.pointTable.get (pointOfSlot p k)).inUse = true ∧
          (s.pointTable.get (pointOfSlot p k)).home = c
      · rw [if_pos ha, if_pos]; obtain ⟨k, hk, r⟩ := ha; exact ⟨k, by simp [hk], r⟩
      · rw [if_neg ha]
        by_cases hb : slots.get i ≠ none ∧ (s.pointTable.get (pointOfSlot p i)).inUse = true ∧
            (s.pointTable.get (pointOfSlot p i)).home = c
        · rw [if_pos hb, if_pos ⟨i, by simp, hb⟩]
        · rw [if_neg hb, if_neg]
          rintro ⟨k, hk, r⟩
          rcases List.mem_cons.1 hk with rfl | hk
          · exact hb r
          · exact ha ⟨k, hk, r⟩

/-- The new home cells in use gain fresh anchors (R58). -/
theorem giveAnchor_foldl (slots : Table 32 (Option PointEntry)) (l : List (Fin 32)) (s : State) :
  let t := slotFold (fun (acc : State) (_ : Fin 32) e => acc.giveAnchor e) slots l s
  t = { s with cells := t.cells } ∧ (∀ c, (t.cells.get c).content = (s.cells.get c).content) ∧
  (∀ c, (t.cells.get c).anchor = if (∃ i ∈ l, ∃ e, slots.get i = some e ∧ e.inUse = true ∧
      (s.cellTable.get e.home).inUse = true ∧ e.home = c) then some Anchor.fresh else (s.cells.get c).anchor) := by
  induction l generalizing s with
  | nil => exact ⟨rfl, fun _ => rfl, by intro c; simp; rfl⟩
  | cons i l ih =>
    simp only [slotFold_cons]
    have one : (slotStep (fun (acc : State) (_ : Fin 32) e => acc.giveAnchor e) slots i s) = { s with cells :=
        (slotStep (fun (acc : State) (_ : Fin 32) e => acc.giveAnchor e) slots i s).cells } ∧
       (∀ c, ((slotStep (fun (acc : State) (_ : Fin 32) e => acc.giveAnchor e) slots i s).cells.get c).content =
           (s.cells.get c).content) ∧
       (∀ c, ((slotStep (fun (acc : State) (_ : Fin 32) e => acc.giveAnchor e) slots i s).cells.get c).anchor = if ∃ e,
           slots.get i = some e ∧ e.inUse = true ∧ (s.cellTable.get e.home).inUse = true ∧
           e.home = c then some Anchor.fresh else (s.cells.get c).anchor) := by
      cases hs : slots.get i with
      | none => rw [slotStep_none hs]; exact ⟨rfl, fun _ => rfl, by simp⟩
      | some x =>
        rw [slotStep_some hs]; simp only [State.giveAnchor]
        split
        · rename_i hu
          simp at hu
          refine ⟨rfl, ?_, ?_⟩
          · intro c; simp only [Table.get_upd]; split
            · rename_i h; rw [h]
            · rfl
          · intro c; simp only [Table.get_upd]; split
            · rename_i h; subst h; simp [hu]
            · rename_i h; rw [if_neg]; rintro ⟨_, he, _, _, h'⟩; cases he; exact h h'
        · rename_i hu
          simp at hu
          refine ⟨rfl, fun _ => rfl, ?_⟩
          intro c; rw [if_neg]; rintro ⟨_, he, h1, h2, _⟩; cases he; simp [hu h1] at h2
    generalize hg : (slotStep (fun (acc : State) (_ : Fin 32) e => acc.giveAnchor e) slots i s) = g at one
    obtain ⟨o1, o2, o3⟩ := one
    obtain ⟨h1, h2, h3⟩ := ih g
    have gp : g.cellTable = s.cellTable := by rw [o1]
    refine ⟨?_, ?_, ?_⟩
    · rw [h1]; rw [o1]
    · intro c; rw [h2, o2]
    · intro c
      rw [h3, o3, gp]
      by_cases ha : ∃ k ∈ l, ∃ e, slots.get k = some e ∧ e.inUse = true ∧ (s.cellTable.get e.home).inUse = true ∧ e.home = c
      · rw [if_pos ha, if_pos]; obtain ⟨k, hk, r⟩ := ha; exact ⟨k, by simp [hk], r⟩
      · rw [if_neg ha]
        by_cases hb : ∃ e, slots.get i = some e ∧ e.inUse = true ∧ (s.cellTable.get e.home).inUse = true ∧ e.home = c
        · rw [if_pos hb, if_pos ⟨i, by simp, hb⟩]
        · rw [if_neg hb, if_neg]
          rintro ⟨k, hk, r⟩
          rcases List.mem_cons.1 hk with rfl | hk
          · exact hb r
          · exact ha ⟨k, hk, r⟩

/-- The entries and records of the filled slots are rewritten (R58). -/
theorem installPoint_foldl (p : Fin 3) (slots : Table 32 (Option PointEntry)) (l : List (Fin 32)) (s : State) :
  slotFold (fun acc i e => acc.installPoint (pointOfSlot p i) e) slots l s =
   { s with pointTable := slotFold (fun acc i e => acc.set (pointOfSlot p i) e) slots l s.pointTable
            points := slotFold (fun acc i e => acc.set (pointOfSlot p i) e) (slots.map
                (Option.map fun e => PointRecord.rebuilt (rebuiltState s.cellTable e))) l s.points } := by
  induction l generalizing s with
  | nil => rfl
  | cons i l ih =>
    simp only [slotFold_cons]
    cases hs : slots.get i with
    | none => rw [slotStep_none hs, slotStep_none hs, slotStep_none (by simp [hs])]; exact ih s
    | some x => rw [slotStep_some hs, slotStep_some hs, slotStep_some (x :=
        PointRecord.rebuilt (rebuiltState s.cellTable x)) (by simp [hs]), ih]; simp [State.installPoint]

/-! ## What no install touches -/

/-- A page leaves the map, the stage, the Event Unit, the ports, the settings and the lines alone (R143). -/
theorem installPage_frame (s : State) (p : Page) : let t := (s.installPage p).1
  t.map = s.map ∧ t.stage = s.stage ∧ t.events = s.events ∧ t.ports = s.ports ∧ t.settings = s.settings ∧
      t.lines = s.lines := by
  have ff : ∀ {α : Type} {n} (f : State → Fin n → α → State) (P : State → State → Prop) (_ : ∀ s, P s s) (_ : ∀ a b c,
      P a b → P b c → P a c) (_ : ∀ s i a, P s (f s i a)) (t : Table n (Option α)) (s), P s (t.foldFilled f s) := by
    intro α n f P h0 ht h t s
    unfold Table.foldFilled
    generalize List.finRange n = l
    induction l generalizing s with
    | nil => exact h0 s
    | cons a l ih =>
      simp only [List.foldl_cons]
      refine ht _ _ _ ?_ (ih _)
      split
      · exact h _ _ _
      · exact h0 s
  let P : State → State → Prop := fun s t => t.map = s.map ∧ t.stage = s.stage ∧ t.events = s.events ∧ t.ports = s.ports ∧
      t.settings = s.settings ∧ t.lines = s.lines
  have P0 : ∀ s, P s s := fun s => ⟨rfl, rfl, rfl, rfl, rfl, rfl⟩
  have Pt : ∀ a b c, P a b → P b c → P a c := by
    rintro a b c ⟨h1, h2, h3, h4, h5, h6⟩ ⟨g1, g2, g3, g4, g5, g6⟩
    exact ⟨g1.trans h1, g2.trans h2, g3.trans h3, g4.trans h4, g5.trans h5, g6.trans h6⟩
  change P s (s.installPage p).1
  unfold State.installPage
  split; · exact P0 s
  split
  · refine ff _ P P0 Pt ?_ _ _
    intro s i e
    unfold State.installCell; simp only
    have uh : ∀ (s : State) c f, P s (s.updHomePoint c f) := by
      intro s c f; unfold State.updHomePoint; split
      · exact ⟨rfl, rfl, rfl, rfl, rfl, rfl⟩
      · exact P0 s
    split
    · exact uh { s with cellTable := _ } _ _
    · exact uh { s with cellTable := _ } _ _
    · split <;> exact ⟨rfl, rfl, rfl, rfl, rfl, rfl⟩
    · exact ⟨rfl, rfl, rfl, rfl, rfl, rfl⟩
  · split
    · simp only [State.installPoints]
      refine Pt _ _ _ (Pt _ _ _ (ff _ P P0 Pt ?_ _ _) (ff _ P P0 Pt ?_ _ _)) (ff _ P P0 Pt ?_ _ _)
      · intro s i a; unfold State.dropAnchor; split <;> exact ⟨rfl, rfl, rfl, rfl, rfl, rfl⟩
      · intro s i a; exact ⟨rfl, rfl, rfl, rfl, rfl, rfl⟩
      · intro s i a; unfold State.giveAnchor; split <;> exact ⟨rfl, rfl, rfl, rfl, rfl, rfl⟩
    · exact P0 s
  · exact ⟨rfl, rfl, rfl, rfl, rfl, rfl⟩
  · exact ⟨rfl, rfl, rfl, rfl, rfl, rfl⟩

/-- The pages leave the map, the stage, the Event Unit, the ports, the settings and the lines alone (R143). -/
theorem installAll_frame (ps : List Page) (s : State) : let t := (installAll ps s).1
  t.map = s.map ∧ t.stage = s.stage ∧ t.events = s.events ∧ t.ports = s.ports ∧ t.settings = s.settings ∧
      t.lines = s.lines := by
  induction ps generalizing s with
  | nil => exact ⟨rfl, rfl, rfl, rfl, rfl, rfl⟩
  | cons p ps ih =>
    obtain ⟨g1, g2, g3, g4, g5, g6⟩ := ih (s.installPage p).1
    obtain ⟨h1, h2, h3, h4, h5, h6⟩ := installPage_frame s p
    exact ⟨g1.trans h1, g2.trans h2, g3.trans h3, g4.trans h4, g5.trans h5, g6.trans h6⟩

/-- The same state with the map's own state replaced. -/
def withMap (m : MapState) (s : State) : State := { s with map := m }

/-- A walk over filled slots that does not look at the map does the same whatever the map holds. -/
theorem foldFilled_withMap {n : Nat} {α : Type} (f : State → Fin n → α → State) (m : MapState)
    (h : ∀ s i a, f (withMap m s) i a = withMap m (f s i a)) (slots : Table n (Option α)) (s : State) :
    slots.foldFilled f (withMap m s) = withMap m (slots.foldFilled f s) := by
  unfold Table.foldFilled
  generalize List.finRange n = l
  induction l generalizing s with
  | nil => rfl
  | cons i l ih =>
    simp only [List.foldl_cons]
    cases slots.get i with
    | none => exact ih s
    | some a => simp only [h, ih]

/-- Installing a page does not look at the map: it does the same to the tables and the records whatever the map holds. -/
theorem installPage_withMap (m : MapState) (s : State) (p : Page) :
    (withMap m s).installPage p = (withMap m (s.installPage p).1, (s.installPage p).2) := by
  unfold State.installPage
  split
  · rfl
  cases p with
  | cells p slots =>
    simp only
    rw [foldFilled_withMap]
    intro s i e
    by_cases l : e.limitClass = (s.cellTable.get (cellOfSlot p i)).limitClass <;>
      cases o : (s.cellTable.get (cellOfSlot p i)).inUse <;> cases u : e.inUse <;>
      cases h : homePoint s.pointTable (cellOfSlot p i) <;> simp [State.installCell, State.updHomePoint, withMap, o, u, h, l]
  | points p slots =>
    simp only [show (withMap m s).pointTable = s.pointTable from rfl]
    split
    · simp only [State.installPoints]
      rw [foldFilled_withMap, foldFilled_withMap, foldFilled_withMap]
      · intro s _ e
        by_cases h : (e.inUse && (s.cellTable.get e.home).inUse) = true <;> simp [State.giveAnchor, withMap, h]
      · exact fun _ _ _ => rfl
      · intro s i _
        by_cases h : (s.pointTable.get (pointOfSlot p i)).inUse = true <;> simp [State.dropAnchor, withMap, h]
    · rfl
  | views p slots => rfl
  | limits slots => rfl

/-- Installing the pending pages does the same whatever the map holds (R143). -/
theorem installAll_withMap (m : MapState) (ps : List Page) (s : State) :
    installAll ps (withMap m s) = (withMap m (installAll ps s).1, (installAll ps s).2) := by
  induction ps generalizing s with
  | nil => rfl
  | cons p ps ih => simp only [installAll, installPage_withMap, ih]

/-- The outcomes stand in the order of the list (R143, R145). -/
theorem installAll_targets (ps : List Page) (s : State) : (installAll ps s).2.map Prod.fst = ps.map Page.target := by
  induction ps generalizing s with
  | nil => rfl
  | cons p ps ih => simp [installAll, ih]

/-- Settling the mode touches the map alone, and not its epoch number (R12). -/
theorem settleMode_frame (s : State) : s.settleMode = { s with map := s.settleMode.map } ∧
    s.settleMode.map.epoch = s.map.epoch := by
  unfold State.settleMode; split
  · split <;> exact ⟨rfl, rfl⟩
  · exact ⟨rfl, rfl⟩

/-- A fold of changes that leave the host link alone leaves it alone. -/
theorem host_foldFilled {α n} (f : State → Fin n → α → State) (h : ∀ s i a,
    (f s i a).host = s.host) (t : Table n (Option α)) (s) : (t.foldFilled f s).host = s.host := by
  unfold Table.foldFilled
  generalize List.finRange n = l
  induction l generalizing s with
  | nil => rfl
  | cons a l ih => simp only [List.foldl_cons]; rw [ih]; split <;> simp [h]

theorem host_updHome (s : State) (c f) : (s.updHomePoint c f).host = s.host := by
  unfold State.updHomePoint; split <;> rfl

theorem host_installCell (s : State) (c f) : (s.installCell c f).host = s.host := by
  unfold State.installCell; simp only
  split
  · simp [host_updHome]
  · simp [host_updHome]
  · split <;> rfl
  · rfl

theorem host_installPage (s : State) (p) : (s.installPage p).1.host = s.host := by
  unfold State.installPage
  split; · rfl
  split
  · exact host_foldFilled _ (fun s _ _ => host_installCell s _ _) _ _
  · split
    · simp only [State.installPoints]
      rw [host_foldFilled, host_foldFilled, host_foldFilled]
      · intro s i a; unfold State.dropAnchor; split <;> rfl
      · intro s i a; rfl
      · intro s i a; unfold State.giveAnchor; split <;> rfl
    · rfl
  · rfl
  · rfl

/-- The installs leave the host link alone. -/
theorem host_installAll (ps) (s : State) : (installAll ps s).1.host = s.host := by
  induction ps generalizing s with
  | nil => rfl
  | cons p ps ih => simp [installAll, ih, host_installPage]

end Sys2Proof.Machine
end

