-- ==== Sys2Proof/Laws/Ports.lean ====
section
/-! SUPPORT. What a port does with a frame, said once. -/

namespace Sys2Proof.Machine

/-- Step 1 of a good-CRC frame: the port as it has heard it (R82, R86). -/
theorem PortRecord.heard_eq (p : PortRecord) : ({ p with assembly := [] } : PortRecord).heard = p.afterGoodFrame := by
  obtain ⟨st, _, _, _, _, _, _, _, _, ⟨a,b,c,d,e⟩, _, _⟩ := p
  cases st <;> simp [PortRecord.heard, PortRecord.afterGoodFrame]

/-- An answer joins the reply list, or is dropped (R84). -/
theorem PortRecord.place_eq (p : PortRecord) (k : AnswerKind) (t : Bool) :
    p.place k t = { p with answers := placed p.answers ⟨k, t⟩ } := by
  unfold PortRecord.place placed; split <;> rfl

/-- An entry written over a changed one. -/
theorem set_upd_same {α : Type} {n : Nat} (t : Table n α) (i : Fin n) (f : α → α) (x : α) :
    (t.upd i f).set i x = t.set i x := by
  apply Table.ext_get; intro j; simp only [Table.get_set, Table.get_upd]; split <;> rfl

end Sys2Proof.Machine
end

