-- ==== Sys2Proof/Laws/Ranges.lean ====
section
/-! SUPPORT. The ranges of table entries (Table 8-3): what the range test lets through is within them, and an install writes
nothing else. -/

namespace Sys2Proof.Machine

/-! ## What passes the range test is in range -/

theorem parseCellSlot_inRange {raw : List Byte} {e : CellEntry} (h : parseCellSlot raw = some e) : e.InRange := by
  unfold parseCellSlot at h
  split at h
  · split at h
    · split at h
      · rename_i r
        cases h
        exact r
      · cases h
    · cases h
  · cases h

theorem parsePointSlot_inRange {raw : List Byte} {e : PointEntry} (h : parsePointSlot raw = some e) : e.InRange := by
  unfold parsePointSlot at h
  split at h
  · split at h
    · split at h
      · rename_i r
        split at h
        · rename_i es hes
          split at h
          · rename_i d
            cases h
            obtain ⟨l, a⟩ := parseSpread_eq_some _ _ _ hes
            refine ⟨by simp only; omega, ?_, by simpa [spreadDistinct] using d, r.2⟩
            intro x hx
            obtain ⟨j, hj, rfl⟩ := List.getElem_of_mem hx
            exact (a j hj).2.2
          · cases h
        · cases h
      · cases h
    · cases h
  · cases h

theorem parseBindingSlot_inRange {raw : List Byte} {b : Binding} (h : parseBindingSlot raw = some b) : b.InRange := by
  unfold parseBindingSlot at h
  split at h
  · split at h
    · split at h
      · rename_i r
        cases h
        exact r
      · cases h
    · cases h
  · cases h

theorem parseLimitSlot_inRange {raw : List Byte} {l : LimitClass} (h : parseLimitSlot raw = some l) : l.InRange := by
  unfold parseLimitSlot at h
  split at h
  · simp only at h
    split at h
    · rename_i r
      cases h
      exact ⟨by simp only; omega, by simp only; omega, by simp only; omega, by simp only; omega⟩
    · cases h
  · cases h

theorem rangeTested_page {α : Type} {n : Nat} {parse : List Byte → Option α} {slots : Table n (Option (List Byte))}
    {page : Table n (Option α) → CommitResult} {p : Page} (h : rangeTested parse slots page = .page p) :
    page (readSlots parse slots) = .page p := by
  unfold rangeTested at h
  split at h
  · cases h
  · exact h

theorem readSlots_some {α : Type} {n : Nat} {parse : List Byte → Option α} {slots : Table n (Option (List Byte))} {i : Fin n}
    {e : α} (h : (readSlots parse slots).get i = some e) : ∃ raw, parse raw = some e := by
  simp only [readSlots, Table.get_map, Option.bind_eq_some_iff] at h
  obtain ⟨raw, -, h⟩ := h
  exact ⟨raw, h⟩

/-- A page that a commit places is within its ranges (R139). -/
theorem validate_inRange {g : Stage} {t : Target} {p : Page} (h : g.validate t = .page p) : p.InRange := by
  unfold Stage.validate at h
  split at h
  · cases h
  split at h
  · cases rangeTested_page h
    intro i e he
    obtain ⟨raw, h⟩ := readSlots_some he
    exact parseCellSlot_inRange h
  · have q := rangeTested_page h
    split at q <;> cases q
    intro i e he
    obtain ⟨raw, h⟩ := readSlots_some he
    exact parsePointSlot_inRange h
  · cases rangeTested_page h
    intro i e he
    obtain ⟨raw, h⟩ := readSlots_some he
    exact parseBindingSlot_inRange h
  · cases rangeTested_page h
    intro i e he
    obtain ⟨raw, h⟩ := readSlots_some he
    exact parseLimitSlot_inRange h

/-! ## Installing keeps the ranges -/

/-- What every filled slot keeps, the fold over the filled slots keeps. -/
theorem foldFilled_keeps {n : Nat} {α σ : Type} (P : σ → Prop) {f : σ → Fin n → α → σ} {slots : Table n (Option α)}
    (hf : ∀ s i e, slots.get i = some e → P s → P (f s i e)) {s : σ} (h : P s) : P (slots.foldFilled f s) := by
  unfold Table.foldFilled
  generalize List.finRange n = l
  induction l generalizing s with
  | nil => exact h
  | cons a l ih =>
    simp only [List.foldl_cons]
    refine ih ?_
    split
    · rename_i e
      exact hf _ _ _ e h
    · exact h

/-- The law of the ranges looks at the four live tables and the pending pages only. -/
theorem State.TableLaw.of_eq {s t : State} (h : s.TableLaw) (c : t.cellTable = s.cellTable) (p : t.pointTable = s.pointTable)
    (v : t.viewTable = s.viewTable) (l : t.limits = s.limits) (g : t.stage.pendingPages = s.stage.pendingPages) : t.TableLaw :=
  ⟨by rw [c]; exact h.cells, by rw [p]; exact h.points, by rw [v]; exact h.views, by rw [l]; exact h.limits,
    by rw [g]; exact h.pages⟩

theorem installCell_tableLaw {s : State} (h : s.TableLaw) (c : CellIx) {e : CellEntry} (he : e.InRange) :
    (s.installCell c e).TableLaw := by
  have key : State.TableLaw { s with cellTable := s.cellTable.set c e } := by
    refine ⟨fun d => ?_, h.points, h.views, h.limits, h.pages⟩
    simp only [Table.get_set]
    split
    · exact he
    · exact h.cells d
  unfold State.installCell State.updHomePoint
  simp only
  repeat' (first | exact key.of_eq rfl rfl rfl rfl rfl | split)

theorem installPoints_tableLaw {s : State} (h : s.TableLaw) (p : Fin 3) {slots : Table 32 (Option PointEntry)}
    (hs : (Page.points p slots).InRange) : (s.installPoints p slots).TableLaw := by
  refine foldFilled_keeps State.TableLaw (fun s i e _ h => ?_) (foldFilled_keeps State.TableLaw (fun s i e he h => ?_)
    (foldFilled_keeps State.TableLaw (fun s i e _ h => ?_) h))
  · unfold State.giveAnchor
    split <;> exact h.of_eq rfl rfl rfl rfl rfl
  · refine ⟨h.cells, fun j => ?_, h.views, h.limits, h.pages⟩
    simp only [State.installPoint, Table.get_set]
    split
    · exact hs i e he
    · exact h.points j
  · unfold State.dropAnchor
    split <;> exact h.of_eq rfl rfl rfl rfl rfl

/-- One pending page within its ranges is taken, whatever becomes of it (R143). -/
theorem installPage_tableLaw {s : State} (h : s.TableLaw) {p : Page} (hp : p.InRange) : (s.installPage p).1.TableLaw := by
  unfold State.installPage
  split
  · exact h
  split
  · rename_i p slots _
    exact foldFilled_keeps (slots := slots) (f := fun acc i e => acc.installCell (cellOfSlot p i) e) State.TableLaw
      (fun s i e he h => installCell_tableLaw h _ (hp i e he)) h
  · rename_i p slots _
    split
    · exact installPoints_tableLaw (slots := slots) h p hp
    · exact h
  · refine ⟨h.cells, h.points, fun v n => ?_, h.limits, h.pages⟩
    simp only [State.installViews, Table.get_upd]
    split
    · refine foldFilled_keeps (fun t : Table 64 Binding => ∀ n, (t.get n).InRange) (fun t i e he ht n => ?_)
        (fun n => h.views _ n) n
      simp only [Table.get_set]
      split
      · exact hp i e he
      · exact ht n
    · exact h.views v n
  · refine ⟨h.cells, h.points, h.views, fun k => ?_, h.pages⟩
    refine foldFilled_keeps (fun t : Table 8 LimitClass => ∀ n, (t.get n).InRange) (fun t i e he ht n => ?_)
      (fun n => h.limits n) k
    simp only [Table.get_set]
    split
    · exact hp i e he
    · exact ht n

/-- The pending pages are taken one after the other (R143). -/
theorem installAll_tableLaw : ∀ (ps : List Page) {s : State}, s.TableLaw → (∀ p ∈ ps, p.InRange) → (installAll ps s).1.TableLaw
  | [], _, h, _ => h
  | _ :: ps, _, h, hp =>
    installAll_tableLaw ps (installPage_tableLaw h (hp _ List.mem_cons_self)) fun q hq => hp q (List.mem_cons_of_mem _ hq)

end Sys2Proof.Machine
end

