-- ==== Sys2Proof/Laws/Replies.lean ====
section
/-! SUPPORT. The layouts of Tables 10-6 and 10-7, each once as one list: what fills a list of fixed places, and which entry
stands in which slot of a page. -/

namespace Sys2Proof.Machine

/-! ## Lists of fixed places, the unused ones 0 -/

/-- The 16 entries of a hot-spot reply (Table 10-6). -/
theorem hotBytes_eq (k : Nat) (l : List HotSpot) :
    hotBytes k l = (l.take k).flatMap HotSpot.bytes ++ List.replicate (9 * (k - l.length)) 0 := by
  induction k generalizing l with
  | zero => simp [hotBytes]
  | succ k ih =>
    cases l with
    | nil =>
      rw [hotBytes, ih]
      simp only [List.take_nil, List.flatMap_nil, List.nil_append, List.length_nil, Nat.sub_zero, List.replicate_append_replicate]
      congr 1
      omega
    | cons h l => rw [hotBytes, ih]; simp

/-- The four spread entries of a POINTS slot (Table 10-7). -/
theorem spreadBytes_eq (k : Nat) (l : List SpreadEntry) :
    spreadBytes k l = (l.take k).flatMap (fun y => bytes16 y.cell.val ++ [byteOf y.share]) ++
      List.replicate (3 * (k - l.length)) 0 := by
  induction k generalizing l with
  | zero => simp [spreadBytes]
  | succ k ih =>
    cases l with
    | nil =>
      rw [spreadBytes, ih, show ([0, 0, 0] : List Byte) = List.replicate 3 0 from rfl]
      simp only [List.take_nil, List.flatMap_nil, List.nil_append, List.length_nil, Nat.sub_zero, List.replicate_append_replicate]
      congr 1
      omega
    | cons h l => rw [spreadBytes, ih]; simp

/-- The four places of three bytes in a READ-STAGE reply (Table 10-6). -/
theorem fourPlaces_eq (k : Nat) (l : List (List Byte)) :
    fourPlaces k l = (l.take k).flatten ++ List.replicate (3 * (k - l.length)) 0 := by
  induction k generalizing l with
  | zero => simp [fourPlaces]
  | succ k ih =>
    cases l with
    | nil =>
      rw [fourPlaces, ih, show ([0, 0, 0] : List Byte) = List.replicate 3 0 from rfl]
      simp only [List.take_nil, List.flatten_nil, List.nil_append, List.length_nil, Nat.sub_zero, List.replicate_append_replicate]
      congr 1
      omega
    | cons h l => rw [fourPlaces, ih]; simp

/-! ## The slots of a live page (R147) -/

/-- The entry in a slot of a page of 32 entries. -/
theorem pageSlot {n : Nat} {α β : Type} (t : Table n α) (f : α → β) (page : Nat) (i : Fin n) (h : i.val / 32 = page) :
    (((t.toList.drop (32 * page)).take 32).map f)[i.val % 32]? = some (f (t.get i)) := by
  have e : 32 * page + i.val % 32 = i.val := by omega
  rw [List.getElem?_map, List.getElem?_take_of_lt (by omega), List.getElem?_drop, e,
    List.getElem?_eq_getElem (by rw [t.length_eq]; exact i.isLt)]
  rfl

/-- A page of 32 entries has 32 slots. -/
theorem pageSlots_length {n : Nat} {α β : Type} (t : Table n α) (f : α → β) (page : Nat) (h : 32 * (page + 1) ≤ n) :
    (((t.toList.drop (32 * page)).take 32).map f).length = 32 := by
  rw [List.length_map, List.length_take, List.length_drop, t.length_eq]
  omega

end Sys2Proof.Machine
end

