-- ==== Sys2Proof/Laws/Serve.lean ====
section
/-! SUPPORT. What serving a request does, for the requests the Host Link Port serves itself and for those the map performs:
said once, for every kind. -/

namespace Sys2Proof.Machine

/-! ## Replies -/

theorem outbox_reply (s : State) (r : Request) (parts : List (List Byte)) :
    (s.reply r parts).host.outbox = s.host.outbox ++ [Reply.outgoing ⟨replyKind r.kind, r.tag, parts, true⟩] := by
  simp [HostLink.outbox, State.reply]

/-- A step that makes a reply ready answers its request. -/
theorem answers_conclude {s s' : State} (h : s'.host.outbox = s.host.outbox) (old : State) (r : Request)
    (parts : List (List Byte)) : s.Answers (State.conclude old (s'.reply r parts)) r parts := by
  constructor
  · rw [outbox_conclude _ _ (by simp [outbox_reply]), outbox_reply, h]
  · simp

/-- A reply goes before a notice: the transmitter changes its own side alone. -/
theorem transmit_reply (s : State) (r : Request) (parts : List (List Byte)) :
    (s.reply r parts).transmit.apartFromReply = (s.reply r parts).apartFromReply := by
  unfold State.transmit
  split
  · rfl
  · rfl
  · rename_i _ e _
    simp at e
  · rename_i _ e _ _
    simp at e
  · rfl

/-- A request that only reads: in a settled state nothing changes but the reply side. -/
theorem State.Settled.apartFromReply {s : State} (h : s.Settled) (r : Request) (parts : List (List Byte)) :
    (State.conclude s (s.reply r parts)).apartFromReply = s.apartFromReply := by
  have n : ∀ (x : BitVec 7) (n : Option Notice), formNotice x x s.map.epoch n = n := by
    intro x n
    simp only [formNotice, ite_eq_right_iff]
    exact fun hx => absurd hx.1 hx.2
  have e : s.takeEvent (s.reply r parts) = s.reply r parts := by
    have u : (s.reply r parts).urgentSet = s.urgentSet := rfl
    have v : (s.reply r parts).routineSet = s.routineSet := rfl
    unfold State.takeEvent
    rw [u, v]
    simp only [State.reply_map, State.reply_events, n]
    rw [← h.alert]
    rfl
  have a : (s.reply r parts).transmit.arbitrate = (s.reply r parts).transmit := by
    have t := h.map
    cases i : s.map.inFlight with
    | some op => exact arbitrate_of_inFlight (op := op) (by simp [i])
    | none =>
      cases w : s.map.softResetWaits with
      | true => exact arbitrate_of_softReset (by simp [w])
      | false =>
        refine arbitrate_of_no_claim ?_
        have := t i w
        simpa [State.claims] using this
  rw [State.conclude, e, a, transmit_reply]
  rfl

/-- A request that changes only what neither the Event Unit nor the arbiter looks at: in a settled state the change and
the reply are all that happens. -/
theorem State.Settled.apartFromReply_of {s s' : State} (h : s.Settled) (g : s'.groups = s.groups)
    (t : s'.settings = s.settings) (e : s'.events = s.events) (m : s'.map = s.map) (q : s'.queue = s.queue)
    (x : s'.host.sending = s.host.sending) (y : s'.host.ready = s.host.ready) (r : Request) (parts : List (List Byte)) :
    (State.conclude s (s'.reply r parts)).apartFromReply = s'.apartFromReply := by
  have u : s'.urgentSet = s.urgentSet := by simp only [State.urgentSet, g, t]
  have v : s'.routineSet = s.routineSet := by simp only [State.routineSet, g, t]
  have k : s'.Settled :=
    ⟨by rw [e, u]; exact h.alert, by rw [x, y, e]; exact h.transmitter, by simp only [State.claims, m, q]; exact h.map⟩
  have c : State.conclude s (s'.reply r parts) = State.conclude s' (s'.reply r parts) := by
    simp only [State.conclude, State.takeEvent, u, v]
  rw [c]
  exact k.apartFromReply r parts

/-! ## Requests the Host Link Port serves itself -/

section direct

variable {s : State} {r : Request} {kind : Byte} {serve : State → Request → State × List (List Byte)}

/-- A request of the right length is served by its rule, and its reply is ready. -/
theorem serveDirect_good (h : s.Takes kind r) (l : goodLength kind r.body.length = true) :
    s.serveDirect kind serve = State.conclude s ((serve s r).1.reply r (serve s r).2) := by
  obtain ⟨a, b, c⟩ := h
  simp [State.serveDirect, a, b, c, l]

/-- A request of the wrong length is answered BAD-LENGTH and has no effect. -/
theorem serveDirect_badLength (h : s.Takes kind r) (l : goodLength kind r.body.length = false) :
    s.serveDirect kind serve = State.conclude s (s.reply r (plain .badLength)) := by
  obtain ⟨a, b, c⟩ := h
  simp [State.serveDirect, a, b, c, l]

/-- Everything serving a request of the right length does, given what its rule makes of the state. -/
theorem serveDirect_spec (h : s.Takes kind r) (l : goodLength kind r.body.length = true) {s' : State}
    {parts : List (List Byte)} (e : serve s r = (s', parts)) (o : s'.host.outbox = s.host.outbox) :
    s.Answers (s.serveDirect kind serve) r parts ∧ State.EndsAs s' (s.serveDirect kind serve) ∧
      (s.serveDirect kind serve).events.copy = s'.events.copy := by
  rw [serveDirect_good h l, e]
  refine ⟨answers_conclude o s r parts, (endsAs_conclude s _).of_eq rfl (by simp), by simp⟩

/-- A request whose rule only reads changes nothing but the reply side of a settled state. -/
theorem serveDirect_reads (k : s.Settled) (h : s.Takes kind r) (l : goodLength kind r.body.length = true)
    {parts : List (List Byte)} (e : serve s r = (s, parts)) :
    s.Answers (s.serveDirect kind serve) r parts ∧
      (s.serveDirect kind serve).apartFromReply = s.apartFromReply := by
  rw [serveDirect_good h l, e]
  exact ⟨answers_conclude rfl s r parts, k.apartFromReply r parts⟩

/-- A request that changes only what neither the Event Unit nor the arbiter looks at, given what its rule makes of a
settled state: its changes and its reply are all that happens. -/
theorem serveDirect_changes (k : s.Settled) (h : s.Takes kind r) (l : goodLength kind r.body.length = true) {s' : State}
    {parts : List (List Byte)} (c : serve s r = (s', parts)) (g : s'.groups = s.groups) (t : s'.settings = s.settings)
    (e : s'.events = s.events) (m : s'.map = s.map) (q : s'.queue = s.queue) (x : s'.host.sending = s.host.sending)
    (y : s'.host.ready = s.host.ready) :
    s.Answers (s.serveDirect kind serve) r parts ∧
      (s.serveDirect kind serve).apartFromReply = s'.apartFromReply := by
  rw [serveDirect_good h l, c]
  exact ⟨answers_conclude (by simp only [HostLink.outbox, x, y]) s r parts, k.apartFromReply_of g t e m q x y r parts⟩

end direct

/-! ## Requests the map performs -/

section mapSide

variable {s : State} {r : Request} {kind : Byte} {perform : State → Request → State × List (List Byte)}

/-- The item in flight is performed, and its reply is built at its completion. -/
theorem serveMapSide_performs (h : s.Performs kind r) :
    s.serveMapSide kind perform =
      State.conclude s ((perform s r).1.completeOp.reply r (perform s r).2) := by
  obtain ⟨a, b, c, d⟩ := h
  simp [State.serveMapSide, a, b, arbitrate_of_inFlight c, c, d]

/-- A map-side request of the wrong length is answered without the map. -/
theorem serveMapSide_badLength (h : s.Takes kind r) (l : goodLength kind r.body.length = false) :
    s.serveMapSide kind perform = State.conclude s (s.reply r (plain .badLength)) := by
  obtain ⟨a, b, c⟩ := h
  simp [State.serveMapSide, a, b, c, l]

theorem completes_reply (old s' : State) (r : Request) (parts : List (List Byte)) :
    State.Completes s' (State.conclude old (s'.completeOp.reply r parts)) where
  ends := (endsAs_conclude old _).of_eq rfl (by rw [arbiter_reply]; exact arbiter_arbitrate_congr rfl rfl rfl rfl rfl)
  copy := copyCurrent_of_body (s' := s') (by rw [body_conclude]; rfl) (by simp)

/-- Everything the item in flight does, given what its rule makes of the state. -/
theorem serveMapSide_spec (h : s.Performs kind r) {s' : State} {parts : List (List Byte)}
    (e : perform s r = (s', parts)) (o : s'.host.outbox = s.host.outbox) :
    s.Answers (s.serveMapSide kind perform) r parts ∧ State.Completes s' (s.serveMapSide kind perform) := by
  rw [serveMapSide_performs h, e]
  exact ⟨answers_conclude (s' := s'.completeOp) (by simpa [HostLink.outbox] using o) s r parts, completes_reply s s' r parts⟩

end mapSide

end Sys2Proof.Machine
end

