-- ==== Sys2Proof/Laws/Settings.lean ====
section
/-! SUPPORT. What SET does, said once: clamping, what its owner does afterwards, and what stays. -/

namespace Sys2Proof.Machine

/-- A clamp setting takes the value clamped to its range, and says whether it was (R162). -/
theorem storeClamped_eq (lo hi v : Nat) (h : lo ≤ hi) (put : Nat → Settings) :
    storeClamped lo hi v put = some (put (max lo (min hi v)), max lo (min hi v), !decide (lo ≤ v ∧ v ≤ hi)) := by
  unfold storeClamped
  split
  · have : max lo (min hi v) = lo := by omega
    have : ¬ (lo ≤ v ∧ v ≤ hi) := by omega
    simp_all
  · split
    · have : max lo (min hi v) = hi := by omega
      have : ¬ (lo ≤ v ∧ v ≤ hi) := by omega
      simp_all
    · have : max lo (min hi v) = v := by omega
      have : (lo ≤ v ∧ v ≤ hi) := by omega
      simp_all

/-- What the owner of a setting does leaves the settings alone. -/
theorem afterSet_settings (s : State) (id : Nat) : (s.afterSet id).settings = s.settings := by
  have f : ∀ n, (s.followHold n).settings = s.settings := by
    intro n; unfold State.followHold; simp only; split <;> rfl
  unfold State.afterSet; split <;> try rfl
  split <;> first | exact f _ | rfl

/-- What the owner of a setting does leaves the host link alone. -/
theorem afterSet_host (s : State) (id : Nat) : (s.afterSet id).host = s.host := by
  have f : ∀ n, (s.followHold n).host = s.host := by
    intro n; unfold State.followHold; simp only; split <;> rfl
  unfold State.afterSet; split <;> try rfl
  split <;> first | exact f _ | rfl

/-- A line that follows its hold flag changes that flag and nothing else of its own (R129, R130). -/
theorem followHold_body (s : State) (n : LineIx) : (s.followHold n).body =
    { s.body with
      lines := s.lines.set n { s.lines.get n with
        holdFlag := derivedHold (s.settings.lineEdge.get n) (s.settings.lineAction.get n) (s.lines.get n).level } } := by
  unfold State.followHold; simp only; split <;> rfl

/-- The end of a step leaves the settings alone. -/
theorem settings_conclude (o s : State) : (State.conclude o s).settings = s.settings := by simp [State.conclude]

/-- A SET that stores is answered with the value stored; a SET that is refused changes nothing (R162). -/
theorem serveSet_spec (s : State) (r : Request) (id hi lo : Byte) (hs : s.Settled) (ht : s.Takes 0x02 r)
    (hb : r.body = [id, hi, lo]) :
    (∀ t v c, storeSetting s.settings id.toNat (256 * hi.toNat + lo.toNat) = some (t, v, c) →
      s.Answers (s.serveDirect 0x02 serveSet) r [(if c then 0x01 else 0x00) :: id :: bytes16 v] ∧
      (s.serveDirect 0x02 serveSet).settings = t) ∧
    (storeSetting s.settings id.toNat (256 * hi.toNat + lo.toNat) = none →
      s.Answers (s.serveDirect 0x02 serveSet) r [[0x13]] ∧
          (s.serveDirect 0x02 serveSet).apartFromReply = s.apartFromReply) := by
  have gl : goodLength 0x02 r.body.length = true := by rw [hb]; rfl
  constructor
  · intro t v c h
    have e : serveSet s r = ({ s with settings := t }.afterSet id.toNat,
        answer (if c then .clamped else .ok) ([id] ++ bytes16 v)) := by
      simp [serveSet, hb, nat16, h]
    have q := serveDirect_spec (serve := serveSet) ht gl e (by rw [afterSet_host])
    refine ⟨?_, ?_⟩
    · have := q.1; cases c <;> exact this
    · rw [serveDirect_good ht gl, e, settings_conclude]
      simp [State.reply, afterSet_settings]
  · intro h
    exact serveDirect_reads (serve := serveSet) hs ht gl (by simp [serveSet, hb, nat16, h, plain, answer, ResultCode.byte])

end Sys2Proof.Machine
end

