-- ==== Sys2Proof/Laws/Stage.lean ====
section
/-! SUPPORT. What the stage does, said once: entries split and put, and the two tests of a commit, slot by slot. -/

namespace Sys2Proof.Machine

/-- Entries of one size that stand in a row are split as they were (R137). -/
theorem splitEntries_flatten (n : Nat) : ∀ (es : List (List Byte)), (∀ e ∈ es, e.length = n) →
    splitEntries n es.length es.flatten = es := by
  intro es; induction es with
  | nil => intro _; rfl
  | cons e es ih =>
    intro h
    have he := h e (by simp)
    simp only [List.length_cons, List.flatten_cons, splitEntries]
    rw [← he, List.take_left, List.drop_left, he, ih fun x hx => h x (by simp [hx])]

/-- The length of entries of one size that stand in a row. -/
theorem length_flatten_of_all (n : Nat) : ∀ (es : List (List Byte)), (∀ e ∈ es, e.length = n) →
    es.flatten.length = n * es.length := by
  intro es; induction es with
  | nil => intro _; rfl
  | cons e es ih =>
    intro h
    simp only [List.flatten_cons, List.length_append, List.length_cons, ih fun x hx => h x (by simp [hx]), h e (by simp)]
    ring

/-- A run of entries put from the pointer on: where each goes, where the pointer ends, and when OVERRUN is latched (R137). -/
theorem put_foldl (L : Nat) (hL : L < 32) : ∀ (es : List (List Byte)) (g : Stage), g.pointer ≤ L →
    ∀ g', es.foldl (Stage.put L) g = g' →
    g' = { g with slots := g'.slots, pointer := min (g.pointer + es.length) L, overrun := g'.overrun } ∧
    (∀ i : Fin 32, i.val < g.pointer ∨ g.pointer + es.length ≤ i.val → g'.slots.get i = g.slots.get i) ∧
    (∀ i : Fin 32, g.pointer ≤ i.val → i.val < L → ∀ e, es[i.val - g.pointer]? = some e → g'.slots.get i = some e) ∧
    (L < g.pointer + es.length → ∀ i : Fin 32, i.val = L → g'.slots.get i = es.getLast?) ∧
    (g'.overrun = true ↔ g.overrun = true ∨ L + 1 < g.pointer + es.length ∨
      (L < g.pointer + es.length ∧ ∃ i : Fin 32, i.val = L ∧ g.slots.get i ≠ none)) := by
  intro es
  induction es with
  | nil =>
    intro g hg g' h
    simp at h; subst h
    refine ⟨?_, fun _ _ => rfl, by simp, ?_, ?_⟩
    · have : min g.pointer L = g.pointer := by omega
      simp [this]
    · intro h; simp at h; omega
    · simp only [List.length_nil]
      constructor
      · exact Or.inl
      · rintro (h | h | h); exact h; omega; omega
  | cons e es ih =>
    intro g hg g' h
    simp only [List.foldl_cons] at h
    have hp : g.pointer < 32 := by omega
    obtain ⟨a1, a2, a3, a4, a5⟩ := ih (g.put L e) (by simp only [Stage.put, hp, dite_true]; split <;> omega) g' h
    have fp : (g.put L e).pointer = if g.pointer < L then g.pointer + 1 else g.pointer := by simp [Stage.put, hp]
    have fs : ∀ i, (g.put L e).slots.get i = if i.val = g.pointer then some e else g.slots.get i := by
      intro i; simp only [Stage.put, hp, dite_true, Table.get_set]
      by_cases q : i.val = g.pointer
      · rw [if_pos q, if_pos (Fin.ext q.symm)]
      · rw [if_neg q, if_neg (fun x => q (by rw [← x]))]
    have fo : (g.put L e).overrun = true ↔ g.overrun = true ∨ (g.pointer = L ∧ ∃ i : Fin 32, i.val = L ∧
        g.slots.get i ≠ none) := by
      simp only [Stage.put, hp, dite_true, Bool.or_eq_true, Bool.and_eq_true, decide_eq_true_eq]
      constructor
      · rintro (x | ⟨x, y⟩); exact .inl x
        exact .inr ⟨x, ⟨g.pointer, hp⟩, x, by intro z; simp [z] at y⟩
      · rintro (x | ⟨x, i, y, z⟩); exact .inl x
        have : i = ⟨g.pointer, hp⟩ := by ext; simp; omega
        subst this
        exact .inr ⟨x, Option.isSome_iff_ne_none.mpr z⟩
    simp only [List.length_cons]
    refine ⟨?_, ?_, ?_, ?_, ?_⟩
    · rw [a1]
      have : (g.put L e) = { g with slots := (g.put L e).slots, pointer := (g.put L e).pointer, overrun :=
          (g.put L e).overrun } := by
        simp [Stage.put, hp]
      rw [this]
      simp only [Stage.mk.injEq, true_and, and_true]
      rw [fp]; split <;> omega
    · intro i hi
      rw [a2 i, fs, if_neg (by omega)]
      rw [fp]; split <;> omega
    · intro i h1 h2 x hx
      by_cases q : i.val = g.pointer
      · rw [q] at hx; simp at hx; subst hx
        rw [a2 i, fs, if_pos q]
        rw [fp]; split <;> omega
      · apply a3 i
        · rw [fp]; split <;> omega
        · exact h2
        · rw [fp, if_pos (by omega)]
          have : i.val - g.pointer = (i.val - (g.pointer + 1)) + 1 := by omega
          rw [this] at hx; simpa using hx
    · intro h1 i hi
      by_cases q : L < (g.put L e).pointer + es.length
      · rw [a4 q i hi]
        rw [fp] at q
        cases es with
        | nil => simp at q; split at q <;> omega
        | cons y ys => simp [List.getLast?_cons_cons]
      · rw [fp] at q
        split at q
        · omega
        · have : es = [] := by
            cases es with
            | nil => rfl
            | cons y ys => simp at q; omega
          subst this
          rw [a2 i, fs, if_pos (by omega)]; rfl
          right; rw [fp, if_neg (by assumption)]; simp; omega
    · rw [a5, fo, fp]
      have e1 : (∃ i : Fin 32, i.val = L ∧ (g.put L e).slots.get i ≠ none) ↔
          (g.pointer = L ∨ ∃ i : Fin 32, i.val = L ∧ g.slots.get i ≠ none) := by
        constructor
        · rintro ⟨i, x, y⟩
          rw [fs] at y
          by_cases z : i.val = g.pointer
          · exact .inl (by omega)
          · rw [if_neg z] at y; exact .inr ⟨i, x, y⟩
        · rintro (x | ⟨i, x, y⟩)
          · exact ⟨⟨L, hL⟩, rfl, by rw [fs, if_pos x.symm]; simp⟩
          · refine ⟨i, x, ?_⟩; rw [fs]; split; simp; exact y
      rw [e1]
      by_cases P : ∃ i : Fin 32, i.val = L ∧ g.slots.get i ≠ none
      · simp only [P, or_true, and_true]
        cases g.overrun <;> simp
        split <;> omega
      · simp only [P, or_false, and_false]
        cases g.overrun <;> simp
        split <;> omega

/-- The range test names the lowest filled slot that does not read (R140). -/
theorem rangeFailure_eq_some {α : Type} {n : Nat} (parse : List Byte →
    Option α) (t : Table n (Option (List Byte))) (i : Fin n) :
    rangeFailure parse t = some i ↔ (∃ raw, t.get i = some raw ∧ parse raw = none ∧
      ∀ j, j < i → ∀ raw', t.get j = some raw' → parse raw' ≠ none) := by
  constructor
  · intro h
    obtain ⟨a, b⟩ := Table.findIx_eq_some h
    cases q : t.get i with
    | none => rw [q] at a; cases a
    | some raw =>
      rw [q] at a
      refine ⟨raw, rfl, by simpa using a, ?_⟩
      intro j hj raw' hr
      have := b j hj
      rw [hr] at this
      intro z; simp [z] at this
  · rintro ⟨raw, a, b, c⟩
    unfold rangeFailure
    cases q : t.findIx _ with
    | none =>
      rw [Table.findIx_eq_none] at q
      have := q i; rw [a] at this; simp [b] at this
    | some k =>
      obtain ⟨x, y⟩ := Table.findIx_eq_some q
      congr 1
      rcases lt_trichotomy k i with h | h | h
      · exfalso
        cases z : t.get k with
        | none => rw [z] at x; cases x
        | some raw' => rw [z] at x; exact c k h raw' z (by simpa using x)
      · exact h
      · have := y i h; rw [a] at this; simp [b] at this

/-- The range test passes exactly when every filled slot reads (R140). -/
theorem rangeFailure_eq_none {α : Type} {n : Nat} (parse : List Byte → Option α) (t : Table n (Option (List Byte))) :
    rangeFailure parse t = none ↔ ∀ i raw, t.get i = some raw → parse raw ≠ none := by
  unfold rangeFailure
  rw [Table.findIx_eq_none]
  constructor
  · intro h i raw hr z
    have := h i; rw [hr] at this; simp [z] at this
  · intro h i
    cases q : t.get i with
    | none => rfl
    | some raw => simp; cases z : parse raw with
      | none => exact absurd z (h i raw q)
      | some _ => rfl

/-- A commit is answered with the range test exactly at the lowest filled slot that does not read (R139, R140). -/
theorem rangeTested_range_iff {α : Type} {n : Nat} (parse : List Byte → Option α) (slots : Table n (Option (List Byte)))
    (page : Table n (Option α) → CommitResult) (hp : ∀ x m, page x ≠ .range m) (m : Nat) :
    rangeTested parse slots page = .range m ↔ ∃ i raw, i.val = m ∧ slots.get i = some raw ∧
       parse raw = none ∧ ∀ j, j < i → ∀ raw', slots.get j = some raw' → parse raw' ≠ none := by
  unfold rangeTested
  cases q : rangeFailure parse slots with
  | none =>
    simp only []
    constructor
    · intro h; exact absurd h (hp _ _)
    · rintro ⟨i, raw, -, a, b, -⟩
      rw [rangeFailure_eq_none] at q; exact absurd b (q i raw a)
  | some i =>
    simp only [CommitResult.range.injEq]
    rw [rangeFailure_eq_some] at q
    constructor
    · rintro rfl; obtain ⟨raw, h⟩ := q; exact ⟨i, raw, rfl, h⟩
    · rintro ⟨k, raw, rfl, a, b, c⟩
      obtain ⟨raw', a', b', c'⟩ := q
      rcases lt_trichotomy i k with h | h | h
      · exact absurd b' (c i h raw' a')
      · rw [h]
      · exact absurd b (c' k h raw a)

/-- The duplicate test names the lowest slot that conflicts with a lower one (R141). -/
theorem duplicateFrom_eq_some : ∀ (sl : List (Option PointEntry)) (k : Nat) (lower : List PointEntry) (n : Nat),
    duplicateFrom k lower sl = some n ↔ ∃ i, n = k + i ∧
      (∃ b, sl[i]? = some (some b) ∧ ((∃ a ∈ lower, a.conflicts b = true) ∨ ∃ j a, j < i ∧ sl[j]? = some (some a) ∧
          a.conflicts b = true)) ∧
      ∀ m, m < i → ∀ b, sl[m]? = some (some b) → (∀ a ∈ lower, a.conflicts b = false) ∧ ∀ j a, j < m →
          sl[j]? = some (some a) → a.conflicts b = false := by
  intro sl
  induction sl with
  | nil => intro k lower n; simp [duplicateFrom]
  | cons x sl ih =>
    intro k lower n
    cases x with
    | none =>
      simp only [duplicateFrom, ih]
      constructor
      · rintro ⟨i, rfl, ⟨b, b1, b2⟩, c⟩
        refine ⟨i + 1, by omega, ⟨b, by simpa using b1, ?_⟩, ?_⟩
        · rcases b2 with b2 | ⟨j, a, j1, j2, j3⟩
          · exact .inl b2
          · exact .inr ⟨j + 1, a, by omega, by simpa using j2, j3⟩
        · intro m hm b hb
          cases m with
          | zero => simp at hb
          | succ m =>
            obtain ⟨c1, c2⟩ := c m (by omega) b (by simpa using hb)
            refine ⟨c1, ?_⟩
            intro j a hj ha
            cases j with
            | zero => simp at ha
            | succ j => exact c2 j a (by omega) (by simpa using ha)
      · rintro ⟨i, rfl, ⟨b, b1, b2⟩, c⟩
        cases i with
        | zero => simp at b1
        | succ i =>
          refine ⟨i, by omega, ⟨b, by simpa using b1, ?_⟩, ?_⟩
          · rcases b2 with b2 | ⟨j, a, j1, j2, j3⟩
            · exact .inl b2
            · cases j with
              | zero => simp at j2
              | succ j => exact .inr ⟨j, a, by omega, by simpa using j2, j3⟩
          · intro m hm b hb
            obtain ⟨c1, c2⟩ := c (m+1) (by omega) b (by simpa using hb)
            exact ⟨c1, fun j a hj ha => c2 (j+1) a (by omega) (by simpa using ha)⟩
    | some e =>
      simp only [duplicateFrom]
      by_cases q : lower.any (fun x => x.conflicts e) = true
      · simp only [q, if_true, Option.some.injEq]
        rw [List.any_eq_true] at q
        constructor
        · rintro rfl
          exact ⟨0, rfl, ⟨e, rfl, .inl q⟩, by omega⟩
        · rintro ⟨i, rfl, -, c⟩
          cases i with
          | zero => rfl
          | succ i =>
            obtain ⟨c1, -⟩ := c 0 (by omega) e rfl
            obtain ⟨a, a1, a2⟩ := q
            rw [c1 a a1] at a2; cases a2
      · simp only [q, if_false, ih, Bool.false_eq_true]
        have q' : ∀ a ∈ lower, a.conflicts e = false := by simpa using q
        constructor
        · rintro ⟨i, rfl, ⟨b, b1, b2⟩, c⟩
          refine ⟨i + 1, by omega, ⟨b, by simpa using b1, ?_⟩, ?_⟩
          · rcases b2 with ⟨a, a1, a2⟩ | ⟨j, a, j1, j2, j3⟩
            · simp only [List.mem_cons] at a1
              rcases a1 with rfl | a1
              · exact .inr ⟨0, a, by omega, rfl, a2⟩
              · exact .inl ⟨a, a1, a2⟩
            · exact .inr ⟨j + 1, a, by omega, by simpa using j2, j3⟩
          · intro m hm b hb
            cases m with
            | zero => simp at hb; subst hb; exact ⟨q', by omega⟩
            | succ m =>
              obtain ⟨c1, c2⟩ := c m (by omega) b (by simpa using hb)
              refine ⟨fun a ha => c1 a (by simp [ha]), ?_⟩
              intro j a hj ha
              cases j with
              | zero => simp at ha; subst ha; exact c1 e (by simp)
              | succ j => exact c2 j a (by omega) (by simpa using ha)
        · rintro ⟨i, rfl, ⟨b, b1, b2⟩, c⟩
          cases i with
          | zero =>
            simp at b1; subst b1
            rcases b2 with ⟨a, a1, a2⟩ | ⟨j, a, j1, -⟩
            · rw [q' a a1] at a2; cases a2
            · omega
          | succ i =>
            refine ⟨i, by omega, ⟨b, by simpa using b1, ?_⟩, ?_⟩
            · rcases b2 with ⟨a, a1, a2⟩ | ⟨j, a, j1, j2, j3⟩
              · exact .inl ⟨a, by simp [a1], a2⟩
              · cases j with
                | zero => simp at j2; subst j2; exact .inl ⟨e, by simp, j3⟩
                | succ j => exact .inr ⟨j, a, by omega, by simpa using j2, j3⟩
            · intro m hm b hb
              obtain ⟨c1, c2⟩ := c (m+1) (by omega) b (by simpa using hb)
              refine ⟨fun a ha => ?_, fun j a hj ha => c2 (j+1) a (by omega) (by simpa using ha)⟩
              simp only [List.mem_cons] at ha
              rcases ha with rfl | ha
              · exact c2 0 a (by omega) rfl
              · exact c1 a ha

/-- The duplicate test passes exactly when no entry conflicts with a lower one (R141). -/
theorem duplicateFrom_eq_none (sl : List (Option PointEntry)) (k : Nat) (lower : List PointEntry) :
    duplicateFrom k lower sl = none ↔ ∀ (m : Nat) (b : PointEntry), sl[m]? = some (some b) →
      (∀ a ∈ lower, a.conflicts b = false) ∧ ∀ (j : Nat) (a : PointEntry), j < m → sl[j]? = some (some a) → a.conflicts b = false := by
  constructor
  · intro h
    by_contra hn
    have ex : ∃ m : Nat, ∃ b, sl[m]? = some (some b) ∧ ((∃ a ∈ lower, a.conflicts b = true) ∨
        ∃ (j : Nat) (a : PointEntry), j < m ∧ sl[j]? = some (some a) ∧ a.conflicts b = true) := by
      push Not at hn
      obtain ⟨m, b, hb, hc⟩ := hn
      refine ⟨m, b, hb, ?_⟩
      by_cases hl : ∀ a ∈ lower, a.conflicts b = false
      · obtain ⟨j, a, hj, ha, c⟩ := hc hl
        exact .inr ⟨j, a, hj, ha, by simpa using c⟩
      · push Not at hl
        obtain ⟨a, ha, c⟩ := hl
        exact .inl ⟨a, ha, by simpa using c⟩
    classical
    have e := (duplicateFrom_eq_some sl k lower (k + Nat.find ex)).2 ⟨Nat.find ex, rfl, Nat.find_spec ex, fun m hm b hb => ?_⟩
    · rw [h] at e; cases e
    · have no := Nat.find_min ex hm
      refine ⟨fun a ha => ?_, fun j a hj ha => ?_⟩
      · cases c : a.conflicts b with
        | false => rfl
        | true => exact absurd ⟨b, hb, .inl ⟨a, ha, c⟩⟩ no
      · cases c : a.conflicts b with
        | false => rfl
        | true => exact absurd ⟨b, hb, .inr ⟨j, a, hj, ha, c⟩⟩ no
  · intro h
    cases e : duplicateFrom k lower sl with
    | none => rfl
    | some n =>
      obtain ⟨i, -, ⟨b, hb, c⟩, -⟩ := (duplicateFrom_eq_some sl k lower n).1 e
      obtain ⟨h1, h2⟩ := h i b hb
      rcases c with ⟨a, ha, c⟩ | ⟨j, a, hj, ha, c⟩
      · rw [h1 a ha] at c; cases c
      · rw [h2 j a hj ha] at c; cases c

/-- A commit that passes the range test commits exactly the filled slots, as they read (R139, R142). -/
theorem rangeTested_page_iff {α : Type} {n : Nat} (parse : List Byte → Option α) (slots : Table n (Option (List Byte)))
    (mk : Table n (Option α) → Page) (p : Page) :
    rangeTested parse slots (fun s => .page (mk s)) = .page p ↔ ∃ out, p = mk out ∧
      (∀ i raw, slots.get i = some raw → parse raw ≠ none) ∧ ∀ i, out.get i = (slots.get i).bind parse := by
  unfold rangeTested
  cases q : rangeFailure parse slots with
  | some i =>
    rw [rangeFailure_eq_some] at q
    obtain ⟨raw, a, b, -⟩ := q
    simp only [reduceCtorEq, false_iff]
    rintro ⟨_, -, c, -⟩
    exact c i raw a b
  | none =>
    rw [rangeFailure_eq_none] at q
    simp only [CommitResult.page.injEq]
    constructor
    · rintro rfl
      exact ⟨_, rfl, q, fun i => by simp [readSlots]⟩
    · rintro ⟨out, rfl, -, h⟩
      congr 1
      exact Table.ext_get fun i => by rw [h i]; simp [readSlots]

/-- The first entries of a table are those of the table. -/
theorem get_firstOf {α : Type} {n m : Nat} (t : Table n α) (h : m ≤ n) (i : Fin m) : (t.firstOf m h).get i = t.get ⟨i.val,
    by omega⟩ := by
  simp [Table.firstOf, Table.get]

/-- An entry of a table by its place in the list. -/
theorem toList_getElem? {α : Type} {n : Nat} (t : Table n α) (i : Nat) (x : α) : t.toList[i]? = some x ↔ ∃ k : Fin n,
    k.val = i ∧ t.get k = x := by
  rw [List.getElem?_eq_some_iff]
  constructor
  · rintro ⟨h, e⟩; exact ⟨⟨i, by rw [← t.length_eq]; exact h⟩, rfl, e⟩
  · rintro ⟨k, rfl, e⟩; exact ⟨by rw [t.length_eq]; exact k.isLt, e⟩

end Sys2Proof.Machine
end

