-- ==== Sys2Proof/Laws/Steps.lean ====
section
/-! SUPPORT. Everything that the five shared ways of performing a command can do, said once: a request served directly or by the
map, bytes received on either link, and a request that numbers one thing. -/

namespace Sys2Proof.Machine

variable {s : State} {kind : Byte} {serve perform : State → Request → State × List (List Byte)}

/-- A direct request does not occur, is served, or is answered BAD-LENGTH (R158, R160). -/
theorem serveDirect_cases (s : State) (kind : Byte) (serve : State → Request → State × List (List Byte)) :
    s.serveDirect kind serve = s ∨
    (∃ r, s.Takes kind r ∧ goodLength kind r.body.length = true ∧
      s.serveDirect kind serve = State.conclude s ((serve s r).1.reply r (serve s r).2)) ∨
    ∃ r, s.Takes kind r ∧ goodLength kind r.body.length = false ∧
      s.serveDirect kind serve = State.conclude s (s.reply r (plain .badLength)) := by
  unfold State.serveDirect
  split
  · exact .inl rfl
  · rename_i low
    split
    · rename_i r taken
      split
      · rename_i same
        have takes : s.Takes kind r := ⟨by simpa using low, taken, same⟩
        split
        · rename_i good; exact .inr (.inl ⟨r, takes, good, rfl⟩)
        · rename_i bad; exact .inr (.inr ⟨r, takes, by simpa using bad, rfl⟩)
      · exact .inl rfl
    · exact .inl rfl

/-- A map-side request does not occur, is performed as the operation in flight, or is answered BAD-LENGTH (section 1.6,
R160). -/
theorem serveMapSide_cases (s : State) (kind : Byte) (perform : State → Request → State × List (List Byte)) :
    s.serveMapSide kind perform = s ∨
    (∃ r, s.resetLow = false ∧ s.nextRequest = none ∧ s.arbitrate.map.inFlight = some (.host r) ∧ r.kind = kind ∧
      s.serveMapSide kind perform =
        State.conclude s ((perform s.arbitrate r).1.completeOp.reply r (perform s.arbitrate r).2)) ∨
    ∃ r, s.Takes kind r ∧ goodLength kind r.body.length = false ∧
      s.serveMapSide kind perform = State.conclude s (s.reply r (plain .badLength)) := by
  unfold State.serveMapSide
  split
  · exact .inl rfl
  · rename_i low
    have up : s.resetLow = false := by simpa using low
    split
    · rename_i r taken
      split
      · rename_i bad; exact .inr (.inr ⟨r, ⟨up, taken, bad.1⟩, bad.2, rfl⟩)
      · exact .inl rfl
    · rename_i r none flight
      split
      · rename_i same; exact .inr (.inl ⟨r, up, none, flight, same, rfl⟩)
      · exact .inl rfl
    · exact .inl rfl

/-- Bytes on HRXD are another command's, stay in assembly, or end with an event that has its effect (R157, log entry 4). -/
theorem hostStep_cases (s : State) (bytes : List Byte) (effect : RxEvent → Option (State → State)) :
    s.hostStep bytes effect = s ∨ (∃ a, s.hostStep bytes effect = s.hostAssemble a) ∨
    ∃ event f, receive s.host.assembly bytes = (event, []) ∧ effect event = some f ∧
      s.hostStep bytes effect = State.conclude s (f (s.hostAssemble [])) := by
  unfold State.hostStep
  split
  · exact .inl rfl
  · split
    · rename_i a _ _; exact .inr (.inl ⟨a, rfl⟩)
    · rename_i event _ received
      split
      · rename_i f same; exact .inr (.inr ⟨event, f, received, same, rfl⟩)
      · exact .inl rfl
    · exact .inl rfl

/-- Bytes on a port are another command's, stay in assembly, or end with an event that has its effect (R82, log entry 4). -/
theorem fieldStep_cases (s : State) (port : PortIx) (bytes : List Byte) (effect : RxEvent → Option (State → State)) :
    s.fieldStep port bytes effect = s ∨ (∃ a, s.fieldStep port bytes effect = s.fieldAssemble port a) ∨
    ∃ event f, receive (s.ports.get port).assembly bytes = (event, []) ∧ effect event = some f ∧
      s.fieldStep port bytes effect = State.conclude s (f (s.fieldAssemble port [])) := by
  unfold State.fieldStep
  split
  · exact .inl rfl
  · split
    · rename_i a _ _; exact .inr (.inl ⟨a, rfl⟩)
    · rename_i event _ received
      split
      · rename_i f same; exact .inr (.inr ⟨event, f, received, same, rfl⟩)
      · exact .inl rfl
    · exact .inl rfl

/-- A request that numbers one of `n` things is performed on that thing, or changes nothing. -/
theorem performIndexed_cases {n : Nat} (perform : State → Fin n → State × List (List Byte)) (s : State) (r : Request) :
    (∃ i, performIndexed n perform s r = perform s i) ∨ (performIndexed n perform s r).1 = s := by
  unfold performIndexed
  split
  · split
    · rename_i i _; exact .inl ⟨i, rfl⟩
    · exact .inr rfl
  · exact .inr rfl

/-- The mode effect of the holds, by the three cases of R125 and R126. -/
theorem modeEffect_cases (s : State) :
    (s.map.mode = .running ∧ s.map.anyHold = true ∧ s.modeEffect = { s with map := { s.map with mode := .held } }) ∨
    (s.map.mode = .held ∧ s.map.anyHold = false ∧
      s.modeEffect = { s with cells := s.cells.map CellRecord.rebase, map := { s.map with mode := .running } }) ∨
    ¬ (s.map.mode = .running ∧ s.map.anyHold = true) ∧ ¬ (s.map.mode = .held ∧ s.map.anyHold = false) ∧ s.modeEffect = s := by
  unfold State.modeEffect
  cases mode : s.map.mode <;> cases hold : s.map.anyHold <;> simp [State.rebase]

end Sys2Proof.Machine
end

