-- ==== Sys2Proof/Tests/Slice0.lean ====
section
/-! SUPPORT. The tests: ill-formed commands are refused, the spec's worked examples come out as it prints them, and each
command completes on a small state. -/

namespace Sys2Proof.Tests

-- One theorem at a time: each holds the state of a whole device.
set_option Elab.async false

open Sys2Proof.Machine

/-! ## WellFormed: one ill-formed command for each check, and the same command with a byte -/

theorem test_wellFormed_hostFrame : (Instr.hostFrameReceived []).wellFormed = false := by decide
theorem test_wellFormed_hostLength : (Instr.hostLengthOutOfRange []).wellFormed = false := by decide
theorem test_wellFormed_fieldLength : (Instr.fieldLengthOutOfRange 0 []).wellFormed = false := by decide
theorem test_wellFormed_fieldCrc : (Instr.fieldCrcFailure 0 []).wellFormed = false := by decide
theorem test_wellFormed_fieldKind : (Instr.fieldUnknownKind 0 []).wellFormed = false := by decide
theorem test_wellFormed_hello : (Instr.helloFrame 0 []).wellFormed = false := by decide
theorem test_wellFormed_samples : (Instr.samplesFrame 0 []).wellFormed = false := by decide
theorem test_wellFormed_scan : (Instr.scanFrame 0 []).wellFormed = false := by decide
theorem test_wellFormed_accepts : (Instr.samplesFrame 0 [0]).wellFormed = true := by decide

/-! ## Helpers -/

/-- A request with tag 7. -/
def req (kind : Byte) (body : List Byte) : Request := ⟨kind, 7, body⟩

/-- The state after reset with a request about to be taken. -/
def taking (r : Request) : State := { State.reset with host := { HostLink.initial with buffer := [r] } }

/-- The state after reset with an operation in flight. -/
def flying (op : Operation) : State := { State.reset with map := { MapState.initial with inFlight := some op } }

/-- The state after reset with a host item in flight, its request in service. -/
def performing (r : Request) : State :=
  { flying (.host r) with host := { HostLink.initial with buffer := [r], service := .waiting } }

/-- What is seen of the next state of a command. -/
def seen {α : Type} (c : Instr) (s : State) (view : State → α) : Option α :=
  match exec c s with
  | .next t => some (view t)
  | .fault _ => none
  | .refused _ => none

/-- What the transmitter sends next, by kind and body. -/
def sent (t : State) : Option (Byte × List Byte) := t.host.sending.map fun o => (o.kind, o.body)

theorem test_identify : seen .identify (taking (req 0x01 [])) sent =
    some (some (0x81, [0x00, 0x24, 0x80, 3, 0x08, 0x00, 96, 16, 64, 8, 8, 16, 32, 4, 4])) := by decide +kernel

/-! ## The table's commands carry no bits -/

theorem test_no_word_spells_a_command : decodeTableWord 16 0x1234 = none := rfl
theorem test_withFetchWord_puts_nothing : State.reset.withFetchWord 16 0x1234 = State.reset := rfl

/-! ## Arithmetic, from the tables of the spec -/

/-- Section 0.6.2: cell 291 is pass 1, tube 4, band 3. -/
theorem test_cell_index : (passOf 291, tubeOf 291, bandOf 291) = (1, 4, 3) := by decide

/-- Section 0.6.5: 52.5 becomes 53 and −67.5 becomes −68. -/
theorem test_rounding : (roundDiv 105 2, roundDiv (-135) 2) = (53, -68) := by decide

/-- A LIVE cell last touched by the scanner. -/
def live (estimate : Int) (age : Nat) : CellRecord := ⟨.live ⟨estimate, age, .scanner, none, .normal⟩ none, none⟩

/-- A STALE cell last touched by the scanner. -/
def stale (estimate : Int) (age : Nat) : CellRecord := ⟨.stale ⟨estimate, age, .scanner, none, .normal⟩, none⟩

/-- A cell's state, estimate and age as a row of Table 2-5 gives them. -/
def row (c : CellRecord) : Byte × Option Int × Option Nat := (c.stateCode, c.estimate, c.body.map CellBody.age)

/-- Table 2-5, its rows on LIVE cells. -/
theorem test_touch_live :
    row ((live 8500 3).touch 64 .thermocouple 8740 16 12) = (2, some 8680, some 0) ∧
    row ((live 8600 1).touch 64 .thermocouple 8740 8 12) = (2, some 8653, some 0) ∧
    row ((live 9240 2).touch 64 .thermocouple 9000 6 12) = (2, some 9172, some 0) ∧
    row ((live 8000 2).touch 64 .scanner 8001 16 6) = (2, some 8000, some 0) ∧
    row ((live 5000 2).touch 64 .thermocouple 11000 16 16) = (2, some 11000, some 0) ∧
    (live 5000 2).touch 64 .thermocouple 11000 16 0 = live 5000 2 := by decide

/-- Table 2-5, its rows on EMPTY and STALE cells. -/
theorem test_touch_other :
    row (CellRecord.touch 64 .thermocouple 8740 8 12 ⟨.empty, none⟩) = (2, some 8740, some 0) ∧
    row (CellRecord.touch 64 .thermocouple 4200 1 1 ⟨.empty, none⟩) = (2, some 4200, some 0) ∧
    row ((stale 8400 12).touch 64 .thermocouple 8740 4 12) = (3, some 8464, some 12) ∧
    row ((stale 7800 15).touch 64 .scanner 7900 16 6) = (2, some 7838, some 0) := by decide

/-- Table 4-4, every row. -/
theorem test_bias_updates :
    [biasAfter (-120) (-360) 2 4, biasAfter 0 (-7) 2 4, biasAfter (-40) (-50) 1 4, biasAfter 950 1700 1 8, biasAfter 300 100 1 16,
      biasAfter 200 0 0 4, biasAfter 60 127 2 4, biasAfter 500 900 1 0] = [-135, -1, -43, 1000, 100, 200, 61, 500] := by decide

/-- Table 6-3 with class 2 of section 6.8 (H 10500, HH 11000, DB 200), at each limit and just below it. -/
theorem test_alert_transitions :
    [10499, 10500, 10999, 11000].map (alertAfter ⟨10500, 11000, 200, 300⟩ .normal) = [.normal, .high, .high, .highHigh] ∧
    [10299, 10300, 10999, 11000].map (alertAfter ⟨10500, 11000, 200, 300⟩ .high) = [.normal, .high, .high, .highHigh] ∧
    [10299, 10300, 10799, 10800].map (alertAfter ⟨10500, 11000, 200, 300⟩ .highHigh) = [.normal, .high, .high, .highHigh] := by
  decide

/-! ## The worked examples of the spec, one step each -/

/-- A state with some cells given. -/
def withCells (s : State) (cells : List (CellIx × CellRecord)) : State :=
  cells.foldl (fun acc x => { acc with cells := acc.cells.set x.1 x.2 }) s

/-- A state with some points given, entry and state. -/
def withPoints (s : State) (points : List (PointIx × PointEntry × PointState)) : State :=
  points.foldl (fun acc x =>
    { acc with
      pointTable := acc.pointTable.set x.1 x.2.1
      points := acc.points.set x.1 { PointRecord.initial with state := x.2.2 } }) s

/-- A frame about to be fused in RUNNING, at epoch number 418. -/
def fusing (f : Frame) : State :=
  { State.reset with map := { MapState.initial with mode := .running, epoch := 418#16, inFlight := some (.frame f) } }

/-- Section 2.7, Tables 2-6 and 2-7. -/
def sampleSet : State :=
  withCells (withPoints (fusing (.samples 2 [⟨3, 8740, .ok⟩, ⟨5, 8700, .ok⟩, ⟨9, 8800, .ok⟩]))
    [(17, ⟨true, 2, 3, 291, [⟨292, 8⟩, ⟨290, 8⟩, ⟨299, 4⟩, ⟨288, 2⟩], 400⟩, .active), (18, ⟨true, 2, 5, 292, [], 400⟩, .suspect)])
    [(290, ⟨.empty, none⟩), (291, { live 8500 3 with anchor := some ⟨some 8520, 3⟩ }),
      (292, { live 8600 1 with anchor := some ⟨some 8610, 1⟩ }), (299, stale 8400 12)]

/-- Table 2-9, and what section 2.7 says of point 18 and of port 2. -/
theorem test_sample_set : seen .frameFusion sampleSet (fun t =>
      [decide (([288, 290, 291, 292, 299].map fun c : CellIx => row (t.cells.get c)) =
          [(0, none, none), (2, some 8740, some 0), (2, some 8680, some 0), (2, some 8662, some 0), (3, some 8464, some 12)]),
        decide ((t.cells.get 291).anchor = some ⟨some 8740, 0⟩ ∧ (t.cells.get 292).anchor = some ⟨some 8700, 0⟩),
        decide ((t.points.get 18).cleanCount = 1 ∧ (t.ports.get 2).unknownChannel = 1)]) =
    some [true, true, true] := by decide +kernel

/-- Section 4.8: pixels 10 to 14 and 20 of 24, the others not read. -/
def scanPixels : List Pixel :=
  List.replicate 10 ⟨0, false, false⟩ ++
    [⟨8900, false, false⟩, ⟨8750, false, false⟩, ⟨8760, false, false⟩, ⟨8780, false, false⟩, ⟨8700, false, false⟩] ++
    List.replicate 5 ⟨0, false, false⟩ ++ [⟨0, true, false⟩] ++ List.replicate 3 ⟨0, false, false⟩

/-- The eight bindings of Table 4-5, by number. -/
def viewFive : Table 64 Binding :=
  [((0 : Fin 64), (⟨true, 10, 291, 16⟩ : Binding)), (1, ⟨true, 11, 300, 16⟩), (2, ⟨true, 12, 292, 16⟩), (3, ⟨true, 13, 301, 16⟩),
    (4, ⟨true, 14, 302, 16⟩), (5, ⟨true, 20, 303, 16⟩), (6, ⟨true, 40, 304, 16⟩), (7, ⟨true, 10, 290, 8⟩)].foldl
    (fun acc x => acc.set x.1 x.2) (Table.replicate 64 Binding.initial)

/-- Section 4.8, Tables 4-5 and 4-6. -/
def scanFrame : State :=
  withCells (withPoints
    { fusing (.scan 6 5 scanPixels) with
      viewTable := State.reset.viewTable.set 5 viewFive
      views := State.reset.views.set 5 ⟨-120, none, 40, 11, 0, 0⟩
      cellTable := State.reset.cellTable.set 291 ⟨true, none, 50⟩ }
    [(17, ⟨true, 2, 3, 291, [], 400⟩, .active), (18, ⟨true, 2, 5, 292, [], 400⟩, .suspect), (20, ⟨true, 0, 0, 300, [], 500⟩, .active),
      (21, ⟨true, 0, 1, 301, [], 500⟩, .active), (22, ⟨true, 0, 2, 302, [], 500⟩, .active)])
    [(290, live 8740 0), (291, { live 8680 0 with anchor := some ⟨some 8740, 0⟩ }),
      (292, { live 8662 0 with anchor := some ⟨some 8700, 0⟩ }), (300, { live 8640 0 with anchor := some ⟨some 8600, 1⟩ }),
      (301, { live 9480 0 with anchor := some ⟨some 9600, 0⟩ }), (302, { live 8710 0 with anchor := some ⟨some 8500, 3⟩ }),
      (303, live 8900 0), (304, ⟨.empty, none⟩)]

/-- Table 4-8. -/
theorem test_scan_frame : seen .frameFusion scanFrame (fun t =>
      (t.views.get 5, [290, 291, 292, 300, 301, 302, 303, 304].map fun c : CellIx => (t.cells.get c).estimate,
        (t.points.get 21).disagreeCount)) =
    some (⟨-135, some 418#16, 41, 13, 2, 1⟩,
      [some 8748, some 8736, some 8654, some 8636, some 9172, some 8661, some 8900, none], 1) := by decide +kernel

/-- A LIVE cell before a close. -/
def before (estimate : Int) (baseline : Option Int) (age : Nat) (alert : AlertState) : CellRecord :=
  ⟨.live ⟨estimate, age, .scanner, baseline, alert⟩ none, none⟩

/-- A state with a close in flight in this mode, these cells in use, of the class given. -/
def closing (mode : MapMode) (use : List (CellIx × Option (Fin 8))) : State :=
  { flying (.close 10 6000) with
    map := { MapState.initial with mode := mode, inFlight := some (.close 10 6000) }
    cellTable := use.foldl (fun acc x => acc.set x.1 ⟨true, x.2, 0⟩) State.reset.cellTable }

/-- Section 6.8, Table 6-4; cells 1100 and 291 stand so that they have the rises the section gives. -/
def passThree : State :=
  let s := closing .running [(800, some 2), (801, some 2), (802, some 2), (803, some 2), (810, some 2), (811, none), (812, some 2),
    (820, some 2), (1100, none), (291, none)]
  withCells
    { s with
      limits := s.limits.set 2 ⟨10500, 11000, 200, 300⟩
      map := { s.map with epoch := 1200#16, hotList := [⟨803, 11050, .highHigh, 0, none⟩] } }
    [(800, before 10450 (some 10300) 0 .normal), (801, before 10620 (some 10250) 2 .normal),
      (802, before 11080 (some 11000) 0 .high), (803, before 10790 (some 11050) 1 .highHigh),
      (810, ⟨.stale ⟨11200, 12, .scanner, some 11200, .highHigh⟩, none⟩), (811, before 9800 none 0 .normal),
      (812, before 7000 (some 7050) 9 .normal), (820, ⟨.empty, none⟩), (1100, before 9042 (some 9050) 0 .normal),
      (291, before 8736 (some 8680) 0 .normal)]

/-- Table 6-5 (state, baseline, rise and alert state), Table 6-6, the summary of stage 4, the flags and the epoch number. -/
theorem test_close : seen .close passThree (fun t =>
      [decide (([800, 801, 802, 803, 810, 811, 812, 820].map fun c : CellIx => ((t.cells.get c).stateCode,
            (t.cells.get c).body.bind CellBody.baseline, (t.cells.get c).rise, (t.cells.get c).alert.code)) =
          [(2, some 10450, some 150, 0), (2, some 10620, some 370, 1), (2, some 11080, some 80, 2), (2, some 10790, some (-260), 1),
            (3, some 11200, none, 2), (2, some 9800, none, 0), (3, some 7000, none, 0), (1, none, none, 0)]),
        decide (t.map.hotList = [⟨802, 11080, .highHigh, 1, some 80⟩, ⟨803, 10790, .high, 2, some (-260)⟩,
          ⟨801, 10620, .high, 3, some 370⟩, ⟨800, 10450, .normal, 1, some 150⟩, ⟨811, 9800, .normal, 1, none⟩,
          ⟨1100, 9042, .normal, 1, some (-8)⟩, ⟨291, 8736, .normal, 1, some 56⟩]),
        decide (t.map.summaries.get 3 = ⟨8, 1, 5, 2, 2, 2, some (802, 11080), some (801, 370)⟩),
        decide (t.map.buildingEpoch = some 1200#16 ∧ t.map.passFlags.get 3 = ⟨true, true, true, true⟩ ∧
          t.map.topChanged = true ∧ t.map.epoch = 1201#16)]) =
    some [true, true, true, true] := by decide +kernel

/-- A frame whose contents do not matter. -/
def someFrame : Frame := .samples 0 [⟨0, 9000, .ok⟩]

/-- Section 5.9: port 2 LIVE with a POINTS unit, and this many frames queued while the map runs a close. -/
def portTwo (frames : Nat) (toggle : Bool) : State :=
  { flying (.close 10 6000) with
    queue := List.replicate frames someFrame
    ports := State.reset.ports.upd 2 fun p =>
      { p with state := .live, unitKind := some .points, expectedToggle := toggle, silence := 1 } }

/-- A SAMPLES frame with one reading, its toggle as given. -/
def samplesBytes (toggle : Byte) : List Byte := frameBytes 0x02 toggle [1, 3, 0, 0x22, 0x24]

/-- Section 5.9, step 1: the frame takes the last place, and the expected toggle becomes 0. -/
theorem test_samples_appended : seen (.samplesFrame 2 (samplesBytes 1)) (portTwo 31 true)
      (fun t => (t.queue.length, (t.ports.get 2).answers, (t.ports.get 2).expectedToggle, (t.ports.get 2).silence)) =
    some (32, [⟨.ack, true⟩], false, 0) := by decide +kernel

/-- Section 5.9, step 2: the queue is full, and HOLD(0) is answered. -/
theorem test_samples_held : seen (.samplesFrame 2 (samplesBytes 0)) (portTwo 32 false)
      (fun t => (t.queue.length, (t.ports.get 2).answers, (t.ports.get 2).expectedToggle, (t.ports.get 2).holds)) =
    some (32, [⟨.hold, false⟩], false, 1) := by decide +kernel

/-! ## Each command on a small state, by the layouts of sections 10.1 to 10.9 -/

/-- The state with a map in this mode, its queue and records as given by `f`. -/
def inMode (mode : MapMode) (s : State) : State := { s with map := { s.map with mode := mode } }

/-- R167: RESET_N stands low after a full reset, and its release raises it. -/
theorem test_full_reset : seen .fullReset (taking (req 0x01 [])) (fun t => (t.resetLow, t.host.buffer)) = some (true, []) := by
  decide +kernel

theorem test_reset_n_release : seen .resetNRelease { State.reset with resetLow := true } State.resetLow = some false := by
  decide +kernel

/-- R157, R158: a good frame joins the buffer. -/
theorem test_host_frame : seen (.hostFrameReceived (frameBytes 0x48 7 [])) State.reset (fun t => t.host.buffer) =
    some [req 0x48 []] := by decide +kernel

/-- Section 10.7: READ-LINES finds four requests in the buffer and is answered BUSY at once. -/
theorem test_host_busy : seen (.hostFrameReceived (frameBytes 0x48 5 []))
      { State.reset with
        host := { HostLink.initial with
          buffer := [req 0x20 [1, 0x20, 32], req 0x40 [2], req 0x03 [0x10], req 0x60 []], service := .waiting } }
      (fun t => (t.host.buffer.length, t.host.sending)) = some (4, some ⟨0xC8, 5, [0x10], [], false⟩) := by decide +kernel

theorem test_host_gap : seen (.hostGapTimeout [0xC3, 2]) State.reset (fun t => (t.host.badCrc, t.host.assembly)) = some (1, []) := by
  decide +kernel

theorem test_host_length : seen (.hostLengthOutOfRange [0x55, 0xC3, 251]) State.reset (fun t => t.host.badCrc) = some 1 := by
  decide +kernel

theorem test_host_item_posted : seen .hostItemPosted (taking (req 0x16 [])) (fun t => (t.host.service, t.map.inFlight)) =
    some (.waiting, some (.host (req 0x16 []))) := by decide +kernel

theorem test_unknown_request : seen .unknownRequest (taking (req 0x77 [1])) sent = some (some (0xFF, [0x12])) := by decide +kernel

/-- R162: GAIN_TC is a clamp setting of range 0..16. -/
theorem test_set_clamps : seen .set (taking (req 0x02 [0x10, 0, 20])) (fun t => (sent t, t.settings.gainTc)) =
    some (some (0x82, [0x01, 0x10, 0, 16]), 16) := by decide +kernel

/-- Section 7.5: LINE1_ACTION to HOLD with the edge BOTH and the level high. -/
theorem test_set_line_hold : seen .set
      { taking (req 0x02 [0x49, 0, 1]) with
        settings := { Settings.initial with lineEdge := Settings.initial.lineEdge.set 1 .both }
        lines := State.reset.lines.set 1 ⟨true, true, 0, false, false⟩ }
      (fun t => (sent t, t.settings.lineEdge.get 1, (t.lines.get 1).holdFlag, (t.lines.get 1).edge, t.map.inFlight)) =
    some (some (0x82, [0x01, 0x49, 0, 1]), .rise, true, false, some (.hold 1 true)) := by decide +kernel

/-- Table 10-3: the default of EVENT_URGENT is 0x09. -/
theorem test_get : seen .get (taking (req 0x03 [0x51])) sent = some (some (0x83, [0x00, 0x51, 0, 9])) := by decide +kernel

theorem test_restart : seen .restart { taking (req 0x04 []) with host := { (taking (req 0x04 [])).host with badCrc := 9 } }
    (fun t => (t.host.badCrc, t.map.softResetWaits, sent t)) = some (0, true, none) := by decide +kernel

theorem test_map_soft_reset : seen .mapSoftReset
      { State.reset with
        host := { HostLink.initial with buffer := [req 0x04 []], service := .waiting }
        cellTable := State.reset.cellTable.set 2047 ⟨true, none, 0⟩
        map := { MapState.initial with mode := .running, epoch := 77#16, softResetWaits := true } }
      (fun t => (sent t, t.map.mode, t.map.epoch, (t.cells.get 2047).content)) =
    some (some (0x84, [0x00]), .commissioning, 0#16, .empty) := by decide +kernel

theorem test_read_link_status : seen .readLinkStatus
      { State.reset with host := { HostLink.initial with buffer := [req 0x05 []], badCrc := 3 } }
      (fun t => (sent t, t.host.badCrc)) = some (some (0x85, [0x00, 3]), 0) := by decide +kernel

/-- R122: a hold record set makes START lead to HELD. -/
theorem test_start : seen .start
      (inMode .commissioning { performing (req 0x10 []) with
        map := { (performing (req 0x10 [])).map with lineHold := MapState.initial.lineHold.set 3 true } })
      (fun t => (sent t, t.map.mode)) = some (some (0x90, [0x00]), .held) := by decide +kernel

theorem test_start_refused : seen .start (performing (req 0x10 [])) (fun t => (sent t, t.map.mode)) =
    some (some (0x90, [0x14]), .blank) := by decide +kernel

/-- R123, R126: STOP from HELD rebases. -/
theorem test_stop : seen .stop (inMode .held (withCells (performing (req 0x11 [])) [(5, before 9042 (some 9050) 0 .high)]))
      (fun t => (sent t, t.map.mode, (t.cells.get 5).body.bind CellBody.baseline)) =
    some (some (0x91, [0x00]), .commissioning, some 9042) := by decide +kernel

theorem test_hold : seen .hold (inMode .running (performing (req 0x12 []))) (fun t => (sent t, t.map.mode, t.map.hostHold)) =
    some (some (0x92, [0x00]), .held, true) := by decide +kernel

/-- Section 7.4, step 7: the last record clears, and the map leaves HELD with a rebase. -/
theorem test_resume : seen .resume
      (inMode .held (withCells { performing (req 0x13 []) with map := { (performing (req 0x13 [])).map with hostHold := true } }
        [(1100, before 9042 (some 9050) 0 .normal)]))
      (fun t => (sent t, t.map.mode, (t.cells.get 1100).body.bind CellBody.baseline)) =
    some (some (0x93, [0x00]), .running, some 9042) := by decide +kernel

/-- R13: the cell becomes EMPTY, its anchor kept with T_last absent, and the bias 0. -/
theorem test_clear_map : seen .clearMap
      (withCells { performing (req 0x14 []) with views := State.reset.views.set 2 ⟨-7, none, 3, 0, 0, 0⟩ }
        [(9, { live 8000 4 with anchor := some ⟨some 8100, 2⟩ })])
      (fun t => (sent t, t.cells.get 9, t.views.get 2)) =
    some (some (0x94, [0x00]), ⟨.empty, some ⟨none, 0⟩⟩, ⟨0, none, 3, 0, 0, 0⟩) := by decide +kernel

theorem test_close_epoch : seen .closeEpoch (taking (req 0x15 [])) (fun t => (sent t, t.map.inFlight)) =
    some (some (0x95, [0x00]), some (.close 10 6000)) := by decide +kernel

theorem test_read_map_status : seen .readMapStatus
      { performing (req 0x16 []) with
        map := { (performing (req 0x16 [])).map with
          mode := .held, hostHold := true, lineHold := MapState.initial.lineHold.set 2 true, epoch := 0x1234#16
          unmappedDiscards := 258, heldDiscards := 3 } }
      (fun t => (sent t, t.map.unmappedDiscards, t.map.heldDiscards)) =
    some (some (0x96, [0x00, 3, 0b01001, 0x12, 0x34, 0, 0, 1, 2, 0, 3]), 0, 0) := by decide +kernel

/-- Table 10-7: the record of cell 288, LIVE with baseline, anchor and T_last. -/
theorem test_read_cells : seen .readCells
      (withCells (performing (req 0x20 [1, 0x20, 1]))
        [(288, ⟨.live ⟨9042, 5, .thermocouple, some (-1), .high⟩ none, some ⟨some 8740, 2⟩⟩)]) sent =
    some (some (0xA0, [0x00, 0x80, 1, 0x20, 1, 2, 1, 0, 0b1101, 0x23, 0x52, 5, 0xFF, 0xFF, 0, 0, 0x22, 0x24, 2])) := by
  decide +kernel

/-- R161: 18 cells take two parts, of 17 and 1. -/
theorem test_read_cells_parts : seen .readCells (performing (req 0x20 [0, 0, 18]))
      (fun t => t.host.sending.map fun o => (o.body.length, o.body.take 5, o.rest.map fun b => (b.length, b.take 5))) =
    some (some (5 + 14 * 17, [0x00, 0x00, 0, 0, 17], [(5 + 14, [0x00, 0x81, 0, 17, 1])])) := by decide +kernel

theorem test_read_hotspots : seen .readHotspots
      { performing (req 0x21 []) with
        map := { (performing (req 0x21 [])).map with
          hotList := [⟨802, 11080, .highHigh, 1, some 80⟩], buildingEpoch := some 1200#16, topChanged := true } }
      (fun t => (t.host.sending.map fun o => (o.body.take 14, o.body.length), t.map.topChanged)) =
    some (some ([0x00, 1, 1, 0x04, 0xB0, 1, 0x03, 0x22, 0x2B, 0x48, 2, 1, 1, 0], 6 + 9 * 16), false) := by decide +kernel

theorem test_read_pass : seen .readPass
      { performing (req 0x22 [3]) with
        map := { (performing (req 0x22 [3])).map with
          summaries := MapState.initial.summaries.set 3 ⟨8, 1, 5, 2, 2, 2, some (802, 11080), none⟩
          passFlags := MapState.initial.passFlags.set 3 ⟨true, false, true, false⟩ } }
      (fun t => (sent t, t.map.passFlags.get 3)) =
    some (some (0xA2, [0x00, 3, 0, 8, 0, 1, 0, 5, 0, 2, 0, 2, 0, 2, 1, 0x03, 0x22, 0x2B, 0x48, 0, 0, 0, 0, 0, 0b0101]),
      PassFlags.clear) := by decide +kernel

/-- A point in use, its record as given. -/
def withPoint (s : State) (r : PointRecord) : State :=
  { s with pointTable := s.pointTable.set 95 ⟨true, 7, 15, 291, [⟨292, 8⟩], 400⟩, points := s.points.set 95 r }

theorem test_read_point : seen .readPoint (withPoint (performing (req 0x30 [95])) ⟨.suspect, 1, 2, 3, 0, 9, 4, ⟨true, false, false, true, false, true⟩⟩)
      (fun t => (sent t, t.points.get 95)) =
    some (some (0xB0, [0x00, 95, 1, 7, 15, 1, 0x23, 1, 0x90, 1, 1, 0x24, 8, 0, 0, 0, 0, 0, 0, 0, 0, 0, 2, 1, 2, 3, 0, 9, 4, 0b101001]),
      ⟨.suspect, 1, 2, 3, 0, 0, 0, PointFlags.clear⟩) := by decide +kernel

theorem test_restore_point : seen .restorePoint (withPoint (performing (req 0x31 [95])) ⟨.failed, 3, 6, 0, 1, 9, 4, PointFlags.clear⟩)
      (fun t => (sent t, t.points.get 95)) =
    some (some (0xB1, [0x00]), ⟨.active, 0, 0, 0, 0, 9, 4, ⟨false, false, false, false, false, true⟩⟩) := by decide +kernel

theorem test_exclude_point : seen .excludePoint (withPoint (performing (req 0x32 [95])) ⟨.suspect, 1, 2, 3, 1, 9, 4, PointFlags.clear⟩)
      (fun t => (sent t, t.points.get 95)) =
    some (some (0xB2, [0x00]), ⟨.excluded, 0, 0, 0, 0, 9, 4, PointFlags.clear⟩) := by decide +kernel

theorem test_read_view : seen .readView
      { performing (req 0x38 [15]) with views := State.reset.views.set 15 ⟨-135, some 418#16, 41, 13, 2, 1⟩ }
      (fun t => (sent t, t.views.get 15)) =
    some (some (0xB8, [0x00, 15, 0xFF, 0x79, 1, 0x01, 0xA2, 0, 41, 0, 13, 2, 1]), ⟨-135, some 418#16, 0, 0, 2, 1⟩) := by
  decide +kernel

/-- Section 5.9, the READ-PORT after step 6. -/
theorem test_read_port : seen .readPort
      { taking (req 0x40 [2]) with
        ports := State.reset.ports.upd 2 fun p =>
          { p with state := .live, unitKind := some .points, expectedToggle := true, holds := 2, duplicates := 1 } }
      (fun t => (sent t, (t.ports.get 2).holds, (t.ports.get 2).duplicates)) =
    some (some (0xC0, [0x00, 2, 1, 0, 1, 0, 0, 0, 1, 0, 2, 0, 0]), 0, 0) := by decide +kernel

/-- R100: an injected SAMPLES frame is taken at once by the free map, or refused outside COMMISSIONING. -/
theorem test_inject : seen .inject (inMode .commissioning (taking (req 0x41 [2, 0x02, 1, 3, 0, 0x22, 0x24])))
      (fun t => (sent t, t.map.inFlight)) =
    some (some (0xC1, [0x00]), some (.frame (.samples 2 [⟨3, 8740, .ok⟩]))) := by decide +kernel

theorem test_inject_refused : seen .inject (taking (req 0x41 [2, 0x02, 1, 3, 0, 0x22, 0x24])) sent = some (some (0xC1, [0x14])) := by
  decide +kernel

theorem test_read_lines : seen .readLines
      { taking (req 0x48 []) with lines := State.reset.lines.set 2 ⟨true, true, 0, false, true⟩ }
      (fun t => (sent t, (t.lines.get 2).edge)) =
    some (some (0xC8, [0x00, 0, 0, 0, 0, 0, 0, 0, 0, 0, 0, 1, 0, 0, 0, 1, 0, 0, 0, 0, 0]), false) := by decide +kernel

/-- The stage open on CELLS page 9 with its pointer at slot 30. -/
def staging (r : Request) : State :=
  { taking r with stage := { Stage.initial with target := some (.cells 9), pointer := 30 } }

theorem test_stage_open : seen .stageOpen (taking (req 0x50 [3, 0, 7])) (fun t => (sent t, t.stage.target, t.stage.pointer)) =
    some (some (0xD0, [0x00]), some .limits, 7) := by decide +kernel

/-- R137: three entries from slot 30 fill 30 and 31, and the third overwrites slot 31 and latches OVERRUN. -/
theorem test_stage_put : seen .stagePut (staging (req 0x51 [1, 2, 0, 0, 1, 2, 0, 1, 2, 2, 0, 2]))
      (fun t => (sent t, t.stage.slots.get 30, t.stage.slots.get 31)) =
    some (some (0xD1, [0x00, 31, 1]), some [1, 2, 0, 0], some [2, 2, 0, 2]) := by decide +kernel

theorem test_stage_clear : seen .stageClear (staging (req 0x52 [])) (fun t => (sent t, t.stage.target, t.stage.pointer)) =
    some (some (0xD2, [0x00]), some (.cells 9), 0) := by decide +kernel

theorem test_stage_commit : seen .stageCommit
      { staging (req 0x53 []) with
        stage := { (staging (req 0x53 [])).stage with slots := Stage.initial.slots.set 3 (some [1, 0xFF, 0xF8, 0x30]) } }
      (fun t => (sent t, t.stage.target, t.stage.pendingPages.map fun p => (p.target, p.filled))) =
    some (some (0xD3, [0x00]), none, [(.cells 9, 1)]) := by decide +kernel

/-- R139: an in-use byte of 2 fails the range test, slot 3. -/
theorem test_stage_commit_refused : seen .stageCommit
      { staging (req 0x53 []) with
        stage := { (staging (req 0x53 [])).stage with slots := Stage.initial.slots.set 3 (some [2, 0xFF, 0, 0]) } }
      (fun t => (sent t, t.stage.target)) = some (some (0xD3, [0x21, 0x02, 3]), some (.cells 9)) := by decide +kernel

theorem test_read_stage : seen .readStage
      { staging (req 0x54 []) with
        stage := { (staging (req 0x54 [])).stage with
          slots := Stage.initial.slots.set 31 (some [0, 0, 0, 0]), installed := true
          lastInstall := some ⟨2#16, [(.limits, .empty), (.points 2, .dropped)]⟩ } }
      (fun t => (sent t, t.stage.installed)) =
    some (some (0xD4, [0x00, 1, 0, 9, 30, 0x80, 0, 0, 0, 0, 0, 0, 0, 0, 0, 0, 0, 0, 0, 0, 0, 0, 0, 1, 0, 2, 2, 3, 0, 2, 1, 2, 1, 0, 0, 0,
      0, 0, 0, 1]), false) := by decide +kernel

/-- R109, R147: the LIMITS page after a full reset, eight classes 11000, 11500, 100, 500. -/
theorem test_read_page : seen .readPage (taking (req 0x55 [3, 0])) sent =
    some (some (0xD5, [0x00, 0x80, 3, 0, 0, 8] ++
      (List.replicate 8 [0x2A, 0xF8, 0x2C, 0xEC, 0, 100, 0x01, 0xF4]).flatten)) := by decide +kernel

/-- R154: point 1 and port 7 have flags; point n is bit n of the twelve bytes, high byte first. -/
theorem test_read_events : seen .readEvents
      { taking (req 0x60 []) with
        ports := State.reset.ports.upd 7 fun p => { p with flags := { PortFlags.clear with crc := true } }
        events := { EventUnit.initial with
          copy := { FlagCopy.clear with points := FlagCopy.clear.points.set 1 { PointFlags.clear with step := true } } } }
      sent =
    some (some (0xE0, [0x00, 0b0000011, 0, 0, 0, 0, 0, 0, 0, 0, 0, 0, 0, 2, 0x80, 0, 0])) := by decide +kernel

/-- R153, R158: the reply is sent, its request leaves the buffer, and the URGENT notice goes before the ROUTINE one. -/
theorem test_host_frame_sent : seen .hostFrameSent
      { State.reset with
        host := { HostLink.initial with buffer := [req 0x01 [], req 0x60 []], service := .replied, sending := some ⟨0x81, 7, [0], [], true⟩ }
        events := { EventUnit.initial with urgentNotice := some ⟨0b1000#7, 1201#16⟩, routineNotice := some ⟨4#7, 9#16⟩ } }
      (fun t => (t.host.buffer, sent t, t.events.urgentNotice, t.events.routineNotice)) =
    some ([req 0x60 []], some (0xF0, [1, 8, 0x04, 0xB1]), none, some ⟨4#7, 9#16⟩) := by decide +kernel

theorem test_field_gap : seen (.fieldGapTimeout 4 [0xC3]) State.reset (fun t => ((t.ports.get 4).crcErrors, (t.ports.get 4).flags.crc)) =
    some (1, true) := by decide +kernel

theorem test_field_length : seen (.fieldLengthOutOfRange 4 [0xC3, 1]) State.reset (fun t => (t.ports.get 4).crcErrors) = some 1 := by
  decide +kernel

theorem test_field_crc : seen (.fieldCrcFailure 4 ((frameBytes 0x01 0 [0]).dropLast ++ [0])) State.reset
    (fun t => (t.ports.get 4).crcErrors) = some 1 := by decide +kernel

/-- R88: on a LIVE port an unknown kind is refused with BAD-BODY, with the toggle of the frame. -/
theorem test_field_unknown_kind : seen (.fieldUnknownKind 2 (frameBytes 0x09 3 [])) (portTwo 0 true)
      (fun t => ((t.ports.get 2).answers, (t.ports.get 2).refused)) = some ([⟨.refuse .badBody, true⟩], 1) := by decide +kernel

theorem test_hello : seen (.helloFrame 6 (frameBytes 0x01 1 [1])) State.reset
      (fun t => ((t.ports.get 6).state, (t.ports.get 6).unitKind, (t.ports.get 6).expectedToggle, (t.ports.get 6).answers)) =
    some (.live, some .scanner, false, [⟨.ack, true⟩]) := by decide +kernel

/-- R88: a SCAN on a port with a POINTS unit is refused with WRONG-KIND. -/
theorem test_scan_wrong_kind : seen (.scanFrame 2 (frameBytes 0x03 0 [5, 1, 0, 0x22, 0xC4])) (portTwo 0 false)
      (fun t => (t.ports.get 2).answers) = some [⟨.refuse .wrongKind, false⟩] := by decide +kernel

theorem test_scan_appended : seen (.scanFrame 6 (frameBytes 0x03 0 [5, 1, 0xFD, 0x22, 0xC4]))
      { flying (.close 10 6000) with
        ports := State.reset.ports.upd 6 fun p => { p with state := .live, unitKind := some .scanner } }
      State.queue = some [.scan 6 5 [⟨8900, true, false⟩]] := by decide +kernel

theorem test_field_answer_sent : seen (.fieldAnswerSent 2)
      { State.reset with ports := State.reset.ports.upd 2 fun p => { p with answers := [⟨.ack, true⟩, ⟨.hold, false⟩] } }
      (fun t => t.ftxd 2) = some (some (frameBytes 0x82 0 [])) := by decide +kernel

/-- R102: in SINGLE mode the expiry stops the timer. -/
theorem test_epoch_timer_expiry : seen .epochTimerExpiry
      { State.reset with settings := { Settings.initial with epochRun := true, epochMode := .single }, timerCount := 999 }
      (fun t => (t.settings.epochRun, t.timerCount, t.map.inFlight)) = some (false, 0, some (.close 10 6000)) := by decide +kernel

/-- Section 7.4, step 2. -/
theorem test_hold_item : seen .holdItem (inMode .running (flying (.hold 0 true))) (fun t => (t.map.mode, t.map.lineHold.get 0)) =
    some (.held, true) := by decide +kernel

theorem test_rebase_item : seen .rebaseItem (withCells (flying (.rebase 2)) [(7, before 9042 (some 9050) 0 .normal)])
      (fun t => (t.cells.get 7).body.bind CellBody.baseline) = some (some 9042) := by decide +kernel

/-- Section 7.4, step 1: line 0 is set to edge RISE, action HOLD, and its pin has risen. -/
theorem test_line_debounced_edge : seen (.lineDebouncedEdge 0)
      { State.reset with
        settings := { Settings.initial with
          lineEdge := Settings.initial.lineEdge.set 0 .rise, lineAction := Settings.initial.lineAction.set 0 .hold }
        lines := State.reset.lines.set 0 ⟨true, false, 19, false, false⟩ }
      (fun t => (t.lines.get 0, t.map.inFlight)) = some (⟨true, true, 0, true, true⟩, some (.hold 0 true)) := by decide +kernel

theorem test_line_pin_change : seen (.linePinChange 1) State.reset (fun t => t.lines.get 1) = some ⟨true, false, 0, false, false⟩ := by
  decide +kernel

/-- R143 to R145: a close installs a pending LIMITS page and records it with the advanced epoch number. -/
theorem test_install : seen .close
      { closing .commissioning [(0, none)] with
        stage := { Stage.initial with pendingPages := [.limits ((Table.replicate 8 none).set 7 (some ⟨1, 2, 3, 4⟩))] } }
      (fun t => (t.limits.get 7, t.limits.get 6, t.stage.lastInstall, t.stage.installed)) =
    some (⟨1, 2, 3, 4⟩, ⟨11000, 11500, 100, 500⟩, some ⟨1#16, [(.limits, .installed)]⟩, true) := by decide +kernel

/-- The model's choice (log entry 5): the twentieth millisecond of a departed pin makes its edge. -/
theorem test_idle_debounce : (match step { State.reset with lines := State.reset.lines.set 3 ⟨true, false, 19, false, false⟩ } with
    | .next t => some (t.lines.get 3)
    | .fault _ => none
    | .refused _ => none) = some ⟨true, true, 0, false, false⟩ := by decide +kernel

/-! ## Witnesses: for every statement with hypotheses, states and operands that meet them, clause by clause

A statement whose clauses leave a record or a number free has it free here too: the witness then holds for every value,
those at the limits of the clauses among them. -/

/-- With no group enabled and ALERT_N released, a state is settled if its transmitter and its map are. -/
theorem quiet {s : State} (h : s.settings.eventEnable = 0 ∧ s.events.alertDriven = false)
    (transmitter : s.host.sending = none → s.host.ready = [] ∧ s.events.urgentNotice = none ∧ s.events.routineNotice = none)
    (map : s.map.inFlight = none → s.map.softResetWaits = false → s.claims = (false, [], [])) : s.Settled :=
  ⟨by simp [State.urgentSet, h.1, h.2], transmitter, map⟩

/-- No claimant waits. -/
theorem quiet_idle {s : State} (h : s.settings.eventEnable = 0 ∧ s.events.alertDriven = false ∧ s.host.ready = [] ∧
    s.events.urgentNotice = none ∧ s.events.routineNotice = none ∧ s.claims = (false, [], [])) : s.Settled :=
  quiet ⟨h.1, h.2.1⟩ (fun _ => ⟨h.2.2.1, h.2.2.2.1, h.2.2.2.2.1⟩) fun _ _ => h.2.2.2.2.2

/-- The map is busy. -/
theorem quiet_busy {s : State} (op : Operation) (h : s.settings.eventEnable = 0 ∧ s.events.alertDriven = false ∧ s.host.ready = [] ∧
    s.events.urgentNotice = none ∧ s.events.routineNotice = none ∧ s.map.inFlight = some op) : s.Settled :=
  quiet ⟨h.1, h.2.1⟩ (fun _ => ⟨h.2.2.1, h.2.2.2.1, h.2.2.2.2.1⟩) fun h' => by simp [h.2.2.2.2.2] at h'

/-- The request of this kind and body is about to be taken in a settled state. -/
abbrev Taken (s : State) (kind : Byte) (body : List Byte) : Prop := s.Settled ∧ s.Takes kind (req kind body)

/-- The request of this kind and body is in flight at the map in a settled state. -/
abbrev Performed (s : State) (kind : Byte) (body : List Byte) : Prop := s.Settled ∧ s.Performs kind (req kind body)

/-- The operation is in flight in a settled state. -/
abbrev Running (s : State) (op : Operation) : Prop := s.Settled ∧ s.Runs op

theorem taken (kind : Byte) (body : List Byte) : Taken (taking (req kind body)) kind body :=
  ⟨quiet_idle ⟨rfl, rfl, rfl, rfl, rfl, rfl⟩, rfl, rfl, rfl⟩

theorem performed (kind : Byte) (body : List Byte) (mode : MapMode) :
    Performed (inMode mode (performing (req kind body))) kind body :=
  ⟨quiet_busy _ ⟨rfl, rfl, rfl, rfl, rfl, rfl⟩, rfl, rfl, rfl, rfl⟩

theorem running (op : Operation) (mode : MapMode) : Running (inMode mode (flying op)) op :=
  ⟨quiet_busy _ ⟨rfl, rfl, rfl, rfl, rfl, rfl⟩, rfl, rfl⟩

/-- The timer runs with this count. -/
def ticking (count : Nat) : State := { State.reset with settings := { Settings.initial with epochRun := true }, timerCount := count }

/-- Line 2's pin has departed for so many milliseconds. -/
def departed (ms : Nat) : State := { State.reset with lines := State.reset.lines.set 2 ⟨true, false, ms, false, false⟩ }

theorem witness_EmptyQueueIsAMillisecond :
    (State.reset.Settled ∧ State.reset.pending = [] ∧ State.reset.resetLow = false ∧ State.reset.settings.epochRun = false ∧
      ∀ n, (State.reset.lines.get n).pin = (State.reset.lines.get n).level) ∧
    (∀ count, (ticking count).Settled ∧ (ticking count).resetLow = false ∧ (ticking count).settings.epochRun = true ∧
      ∀ n, ((ticking count).lines.get n).pin = ((ticking count).lines.get n).level) ∧
    ((ticking 998).timerCount + 1 < (ticking 998).settings.epochPeriod ∧
      (ticking 999).settings.epochPeriod ≤ (ticking 999).timerCount + 1) ∧
    (∀ ms, (departed ms).Settled ∧ (departed ms).settings.epochRun = false ∧
      ((departed ms).lines.get 2).pin ≠ ((departed ms).lines.get 2).level ∧ ((departed ms).lines.get 2).heldMs = ms) ∧
    (∀ m, m ≠ 2 → ((departed 19).lines.get m).pin = ((departed 19).lines.get m).level) := by
  refine ⟨⟨quiet_idle ⟨rfl, rfl, rfl, rfl, rfl, rfl⟩, rfl, rfl, rfl, by decide⟩,
    fun _ => ⟨quiet_idle ⟨rfl, rfl, rfl, rfl, rfl, rfl⟩, rfl, rfl, ?_⟩, by decide,
    fun _ => ⟨quiet_idle ⟨rfl, rfl, rfl, rfl, rfl, rfl⟩, rfl, by simp [departed], by simp [departed]⟩, by decide⟩
  show ∀ n, (State.reset.lines.get n).pin = (State.reset.lines.get n).level
  decide

theorem witness_WhileResetIsLow : ({ State.reset with resetLow := true } : State).resetLow = true ∧ State.reset.resetLow = false ∧
    Instr.identify ≠ .fullReset ∧ Instr.identify ≠ .resetNRelease ∧ ∀ n, Instr.identify ≠ .linePinChange n :=
  ⟨rfl, rfl, by decide, by decide, by decide⟩

theorem witness_FramesAreReceivedAsSent :
    ((∀ b ∈ [(0x00 : Byte), 0xC2], b ≠ 0xC3) ∧ (List.replicate 248 (0xC3 : Byte)).length ≤ 248) ∧
    (¬ (2 ≤ (1 : Byte).toNat ∧ (1 : Byte).toNat ≤ 250) ∧ ¬ (2 ≤ (251 : Byte).toNat ∧ (251 : Byte).toNat ≤ 250)) ∧
    256 * (0 : Byte).toNat + (0 : Byte).toNat ≠ (crc16 (framePayload 1 7 [])).toNat ∧
    receive [] [0xC3, 2, 1] = (.partialFrame [0xC3, 2, 1], []) := by decide +kernel

theorem witness_SlotsReadBack :
    ((-2000 : Int) ≤ (⟨true, some 7, -2000⟩ : CellEntry).irOffset ∧ (⟨true, none, 2000⟩ : CellEntry).irOffset ≤ 2000) ∧
    (∀ e ∈ [(⟨true, 7, 15, 2047, [⟨0, 1⟩, ⟨1, 15⟩, ⟨2, 8⟩, ⟨3, 8⟩], 5000⟩ : PointEntry), ⟨false, 0, 0, 0, [], 50⟩],
      e.spread.length ≤ 4 ∧ (∀ x ∈ e.spread, 1 ≤ x.share ∧ x.share ≤ 15) ∧ (e.home :: e.spread.map SpreadEntry.cell).Nodup ∧
        50 ≤ e.stepLimit ∧ e.stepLimit ≤ 5000) ∧
    (∀ b ∈ [(⟨true, 63, 2047, 16⟩ : Binding), ⟨false, 0, 0, 1⟩], 1 ≤ b.share ∧ b.share ≤ 16) ∧
    (∀ l ∈ [(⟨0, 1, 0, 1⟩ : LimitClass), ⟨11999, 12000, 500, 2000⟩], (0 ≤ l.high ∧ l.high < l.highHigh ∧ l.highHigh ≤ 12000) ∧
      (0 ≤ l.deadband ∧ l.deadband ≤ 500) ∧ 1 ≤ l.riseLimit ∧ l.riseLimit ≤ 2000) := by decide

/-- CELLS and POINTS slots at the limits of Table 8-3 pass, and those one beyond do not. -/
theorem test_slot_ranges :
    ([[1, 7, 0x07, 0xD0], [0, 255, 0xF8, 0x30]].map fun raw => (parseCellSlot raw).isSome) = [true, true] ∧
    ([[2, 7, 0, 0], [1, 8, 0, 0], [1, 7, 0x07, 0xD1], [1, 7, 0xF8, 0x2F]].map fun raw => (parseCellSlot raw).isSome) =
      [false, false, false, false] ∧
    ([[1, 7, 15, 7, 255, 0x13, 0x88, 4, 0, 0, 1, 0, 1, 15, 0, 2, 8, 0, 3, 8], [0, 0, 0, 0, 0, 0, 50, 1, 0, 1, 1, 0, 1, 99, 9, 9, 9, 9, 9, 9]].map
      fun raw => (parsePointSlot raw).isSome) = [true, true] ∧
    ([[1, 8, 15, 0, 9, 0, 50, 0], [1, 7, 16, 0, 9, 0, 50, 0], [1, 7, 15, 8, 0, 0, 50, 0], [1, 7, 15, 0, 9, 0, 49, 0],
      [1, 7, 15, 0, 9, 0x13, 0x89, 0], [1, 7, 15, 0, 9, 0, 50, 5], [1, 7, 15, 0, 9, 0, 50, 1, 0, 9, 1], [1, 7, 15, 0, 9, 0, 50, 1, 0, 8, 16],
      [1, 7, 15, 0, 9, 0, 50, 2, 0, 8, 1, 0, 8]].map fun raw => (parsePointSlot (raw ++ List.replicate (20 - raw.length) 1)).isSome) =
      List.replicate 9 false := by decide +kernel

/-- VIEWS and LIMITS slots at the limits of Table 8-3 pass, and those one beyond, or with H not below HH, do not. -/
theorem test_slot_ranges_views_limits :
    ([[1, 63, 7, 255, 16], [0, 0, 0, 0, 1]].map fun raw => (parseBindingSlot raw).isSome) = [true, true] ∧
    ([[2, 0, 0, 0, 1], [1, 64, 0, 0, 1], [1, 0, 8, 0, 1], [1, 0, 0, 0, 0], [1, 0, 0, 0, 17]].map fun raw => (parseBindingSlot raw).isSome) =
      List.replicate 5 false ∧
    ([[0x2E, 0xDF, 0x2E, 0xE0, 1, 0xF4, 7, 0xD0], [0, 0, 0, 1, 0, 0, 0, 1]].map fun raw => (parseLimitSlot raw).isSome) = [true, true] ∧
    ([[0x2E, 0xE0, 0x2E, 0xE1, 0, 0, 0, 1], [0, 5, 0, 5, 0, 0, 0, 1], [0, 0, 0, 1, 1, 0xF5, 0, 1], [0, 0, 0, 1, 0, 0, 0, 0],
      [0, 0, 0, 1, 0, 0, 7, 0xD1]].map fun raw => (parseLimitSlot raw).isSome) = List.replicate 5 false := by decide +kernel

/-- SlotsReadBack: 12 spread bytes of a count of 1, and the same with other bytes beyond it. -/
theorem witness_SlotsReadBack_spread :
    ([0, 1, 1, 0, 0, 0, 0, 0, 0, 0, 0, 0] : List Byte).length = 12 ∧ ([0, 1, 1, 9, 9, 9, 9, 9, 9, 9, 9, 9] : List Byte).length = 12 ∧
    ([0, 1, 1, 9, 9, 9, 9, 9, 9, 9, 9, 9] : List Byte).take (3 * (1 : Byte).toNat) =
      ([0, 1, 1, 0, 0, 0, 0, 0, 0, 0, 0, 0] : List Byte).take (3 * (1 : Byte).toNat) := by decide

/-- Bodies with 1 and 16 readings, and with 1 and 64 pixels, pass; one more of either, or none, does not. -/
theorem witness_BodyChecks :
    ([1, 16].map fun n : Nat => (parseField 0 0x02 (byteOf n :: (List.replicate n [15, 2, 0xFF, 0xFE]).flatten)).isSome) = [true, true] ∧
    ([0, 17].map fun n : Nat => (parseField 0 0x02 (byteOf n :: (List.replicate n [15, 2, 0xFF, 0xFE]).flatten)).isSome) = [false, false] ∧
    ([1, 64].map fun n : Nat => (parseField 0 0x03 (15 :: byteOf n :: (List.replicate n [3, 0xFF, 0xFE]).flatten)).isSome) = [true, true] ∧
    ([0, 65].map fun n : Nat => (parseField 0 0x03 (15 :: byteOf n :: (List.replicate n [3, 0xFF, 0xFE]).flatten)).isSome) = [false, false] ∧
    parseField 0 0x02 [1, 15, 2, 0xFF, 0xFE] = some (.samples 0 [⟨15, -2, .unitRange⟩]) ∧
    parseField 0 0x03 [15, 1, 2, 0xFF, 0xFE] = some (.scan 0 15 [⟨-2, false, true⟩]) ∧ ((0x04 : Byte) ≠ 0x02 ∧ (0x04 : Byte) ≠ 0x03) := by
  decide +kernel

/-- A lawful state with a command in front of its queue. -/
def lawful : State := { taking (req 0x01 []) with pending := [.identify] }

/-- SettledKept. -/
theorem witness_SettledKept : lawful.Settled ∧ ∃ t, step lawful = .next t := ⟨quiet_idle ⟨rfl, rfl, rfl, rfl, rfl, rfl⟩, _, rfl⟩

/-- MapLawsKept. -/
theorem witness_MapLawsKept : lawful.HoldLaw ∧ lawful.UseLaw ∧ lawful.BlankLaw ∧ ∃ t, step lawful = .next t := by
  refine ⟨⟨nofun, nofun⟩, fun c => ⟨?_, fun _ => ?_⟩, ⟨fun _ => ?_, fun _ => rfl⟩, _, rfl⟩
  · show (State.reset.cells.get c).inUse = (State.reset.cellTable.get c).inUse
    simp [State.reset, State.fullReset, CellRecord.initial, CellEntry.initial, CellRecord.inUse]
  · show (State.reset.cells.get c).anchor = none
    simp [State.reset, State.fullReset, CellRecord.initial]
  · show State.reset.cellTable.any CellEntry.inUse = false
    decide +kernel

/-- RangesAndRankingKept. -/
theorem witness_RangesAndRankingKept : lawful.EstimateLaw ∧ lawful.BiasLaw ∧ lawful.HotLaw ∧ lawful.TableLaw ∧
    ∃ t, step lawful = .next t := by
  refine ⟨fun c e h => ?_, fun v => ?_, ⟨by decide, List.Pairwise.nil, List.nodup_nil⟩,
    ⟨fun c => ?_, fun i => ?_, fun v n => ?_, fun k => ?_, nofun⟩, _, rfl⟩
  · have : (State.reset.cells.get c).estimate = some e := h
    simp [State.reset, State.fullReset, CellRecord.initial, CellRecord.estimate] at this
  · show -1000 ≤ (State.reset.views.get v).bias ∧ (State.reset.views.get v).bias ≤ 1000
    simp [State.reset, State.fullReset, ViewRecord.initial]
  · show (State.reset.cellTable.get c).InRange
    simp [State.reset, State.fullReset, CellEntry.initial, CellEntry.InRange]
  · show (State.reset.pointTable.get i).InRange
    simp only [State.reset, State.fullReset, Table.get_replicate]
    constructor <;> simp [PointEntry.initial]
  · show ((State.reset.viewTable.get v).get n).InRange
    simp [State.reset, State.fullReset, Binding.initial, Binding.InRange]
  · show (State.reset.limits.get k).InRange
    simp only [State.reset, State.fullReset, Table.get_replicate]
    constructor <;> simp [LimitClass.initial]

/-- PointLawsKept. -/
theorem witness_PointLawsKept : lawful.PointTableLaw ∧ lawful.BindingLaw ∧ lawful.AnchorLaw ∧ ∃ t, step lawful = .next t := by
  refine ⟨?_, fun i => ?_, fun c => ?_, _, rfl⟩
  · show pointLaw State.reset.pointTable = true
    decide +kernel
  · show (State.reset.points.get i).state = .unbound ↔ ¬ ((State.reset.pointTable.get i).inUse = true ∧
      (State.reset.cellTable.get (State.reset.pointTable.get i).home).inUse = true)
    simp [State.reset, State.fullReset, PointEntry.initial, PointRecord.initial]
  · show (State.reset.cells.get c).anchor.isSome = true ↔ ∃ i : PointIx, (State.reset.pointTable.get i).inUse = true ∧
      (State.reset.pointTable.get i).home = c ∧ (State.reset.points.get i).state ≠ .unbound
    simp [State.reset, State.fullReset, PointEntry.initial, CellRecord.initial]

/-- CapacitiesKept. -/
theorem witness_CapacitiesKept : lawful.QueueLaw ∧ lawful.PendingLaw ∧ lawful.StageLaw ∧ ∃ t, step lawful = .next t := by
  refine ⟨⟨by decide, by decide, by decide, fun p => ?_⟩, ⟨by decide, List.nodup_nil⟩, nofun, _, rfl⟩
  show (State.reset.ports.get p).answers.length ≤ 2
  simp [State.reset, State.fullReset, PortRecord.initial]

/-- SettingsLawsKept. -/
theorem witness_SettingsLawsKept : lawful.settings.InRange ∧ lawful.TimerLaw ∧ lawful.HoldFlagLaw ∧ ∃ t, step lawful = .next t := by
  refine ⟨?_, ⟨fun _ => rfl, by decide⟩, ⟨fun n => ?_, nofun⟩, _, rfl⟩
  · show Settings.initial.InRange
    constructor <;> simp [Settings.initial, Settings.LineLaw]
  · show (State.reset.lines.get n).holdFlag = derivedHold (Settings.initial.lineEdge.get n) (Settings.initial.lineAction.get n)
      (State.reset.lines.get n).level
    revert n
    decide

/-- ServiceLawKept. -/
theorem witness_ServiceLawKept : lawful.ServiceLaw ∧ ∃ t, step lawful = .next t :=
  ⟨⟨rfl, nofun, rfl, fun h => absurd rfl h, List.nodup_nil, by decide⟩, _, rfl⟩

/-- One command that each of the three clauses speaks of. -/
theorem witness_MapChangesOnlyByItsCommands : (∃ t, exec .identify (taking (req 0x01 [])) = .next t) ∧ Instr.identify ≠ .close ∧
    Instr.identify ≠ .fullReset ∧ Instr.identify ∉ [.start, .stop, .hold, .resume, .holdItem, .close, .mapSoftReset, .fullReset] ∧
    Instr.identify ∉ [.start, .stop, .hold, .resume, .clearMap, .readPoint, .restorePoint, .excludePoint, .readView, .frameFusion,
      .close, .holdItem, .rebaseItem, .mapSoftReset, .fullReset] := ⟨⟨_, rfl⟩, by decide, by decide, by decide, by decide⟩

/-- Every group is enabled, none active, and a line is about to latch its EDGE flag. -/
def watched : State :=
  { departed 19 with
    settings := { Settings.initial with eventEnable := 0x7F#7, lineEdge := Settings.initial.lineEdge.set 2 .rise } }

/-- Every group is enabled, and a close is in flight that takes port 3 to QUIET. -/
def watchedClose : State :=
  { flying (.close 10 6000) with
    settings := { Settings.initial with eventEnable := 0x7F#7 }
    ports := State.reset.ports.upd 3 fun p => { p with state := .live, silence := 2 } }

theorem witness_NoticesFormed :
    (watched.Settled ∧ Instr.lineDebouncedEdge 2 ∉ [.close, .restart, .fullReset] ∧ ∃ t, exec (.lineDebouncedEdge 2) watched = .next t) ∧
    (watchedClose.Settled ∧ watchedClose.Runs (.close 10 6000) ∧ ∃ t, exec .close watchedClose = .next t) :=
  ⟨⟨⟨by decide +kernel, fun _ => ⟨rfl, rfl, rfl⟩, fun _ _ => rfl⟩, by decide, _, rfl⟩,
    ⟨by decide +kernel, fun _ => ⟨rfl, rfl, rfl⟩, nofun⟩, ⟨rfl, rfl⟩, _, rfl⟩

/-- A notice is formed and begins to be sent in that state; at that close the QUIET flag's notice is the one sent. -/
theorem test_notice : seen (.lineDebouncedEdge 2) watched sent = some (some (0xF0, [0, 0x40, 0, 0])) ∧
    seen .close watchedClose sent = some (some (0xF0, [0, 0x02, 0, 1])) := by decide +kernel

/-- The map is free, with these claimants. -/
def claiming (close : Bool) (items : List MapItem) (queue : List Frame) : State :=
  { State.reset with queue := queue, map := { MapState.initial with pendingClose := close, items := items } }

theorem witness_ArbiterOrder (close : Bool) (items : List MapItem) (queue : List Frame) :
    ((flying (.rebase 0)).map.inFlight ≠ none ∧ ({ State.reset with map := { MapState.initial with softResetWaits := true } } : State).map.softResetWaits = true) ∧
    (claiming close items queue).map.inFlight = none ∧ (claiming close items queue).map.softResetWaits = false ∧
    (claiming close items queue).map.pendingClose = close ∧ (claiming close items queue).map.items = items ∧
    (claiming close items queue).queue = queue := ⟨⟨nofun, rfl⟩, rfl, rfl, rfl, rfl, rfl⟩

/-- Samples, shares, gains and thresholds at the limits of TouchArithmetic, and a cell of each content. -/
theorem witness_TouchArithmetic :
    (∀ x ∈ [((0 : Int), 16, 16, 1), (12000, 1, 1, 256), (12000, 16, 0, 64), (0, 8, 8, 64)],
      (0 ≤ x.1 ∧ x.1 ≤ 12000) ∧ x.2.1 * x.2.2.1 ≤ 256 ∧ 1 ≤ x.2.2.2) ∧
    (∀ e ∈ [(0 : Int), 12000], 0 ≤ (CellBody.mk e 3 .scanner none .normal).estimate ∧ (CellBody.mk e 3 .scanner none .normal).estimate ≤ 12000) ∧
    (CellRecord.mk .unused none).content = .unused ∧ (CellRecord.mk .empty none).content = .empty ∧
    (∃ b r, (live 12000 3).content = .live b r) ∧ (∃ b, (stale 0 12).content = .stale b) :=
  ⟨by decide, by decide, rfl, rfl, ⟨_, _, rfl⟩, _, rfl⟩

/-- Point 17 of Table 2-6, with this record. -/
def probe (r : PointRecord) : State :=
  { State.reset with
    pointTable := State.reset.pointTable.set 17 ⟨true, 2, 3, 291, [⟨292, 8⟩], 400⟩
    points := State.reset.points.set 17 r
    cells := State.reset.cells.set 291 (live 8500 3) }

/-- The law of the point table holds of that one point. -/
theorem probe_law : pointLaw (State.reset.pointTable.set 17 ⟨true, 2, 3, 291, [⟨292, 8⟩], 400⟩) = true := by decide +kernel

theorem witness_ReadingsAreChecked (r : PointRecord) :
    (probe r).PointTableLaw ∧ (probe r).PointOf 2 3 17 ∧ (∀ i, ¬ (probe r).PointOf 2 9 i) ∧ (probe r).points.get 17 = r ∧
    ((probe r).cells.get 291).estimate = some 8500 ∧ ((probe r).pointTable.get 17).stepLimit = 400 ∧
    400 < ((8901 : Int) - 8500).natAbs ∧ ((8900 : Int) - 8500).natAbs ≤ 400 ∧ ((8100 : Int) - 8500).natAbs ≤ 400 ∧
    (∀ v ∈ [(0 : Int), 12000], 0 ≤ v ∧ v ≤ 12000) ∧ (∀ v ∈ [(-1 : Int), 12001], v < 0 ∨ 12000 < v) := by
  refine ⟨probe_law, ⟨?_, ?_, ?_⟩, ?_, ?_, ?_, ?_, by decide, by decide, by decide, by decide, by decide⟩
  · simp [probe]
  · simp [probe]
  · simp [probe]
  · show ∀ i : PointIx, ¬ (((State.reset.pointTable.set 17 ⟨true, 2, 3, 291, [⟨292, 8⟩], 400⟩).get i).inUse = true ∧
      ((State.reset.pointTable.set 17 ⟨true, 2, 3, 291, [⟨292, 8⟩], 400⟩).get i).port = 2 ∧
      ((State.reset.pointTable.set 17 ⟨true, 2, 3, 291, [⟨292, 8⟩], 400⟩).get i).channel = 9)
    decide +kernel
  · simp [probe]
  · simp [probe, live, CellRecord.estimate]
  · simp [probe]

theorem witness_AdmittedReadingTouches : spreadDistinct 291 [⟨292, 8⟩, ⟨290, 8⟩, ⟨299, 4⟩, ⟨288, 2⟩] = true := by decide

/-- Point 17 with a tested home cell: offset 0, this T_last and T_age. -/
def tested (r : PointRecord) (tLast : Int) (tAge : Nat) : State :=
  { probe r with cells := State.reset.cells.set 291 { live 8500 3 with anchor := some ⟨some tLast, tAge⟩ } }

theorem witness_ScanBindings (r : PointRecord) (tLast : Int) (tAge : Nat) :
    ((Binding.initial).inUse = false ∧ scanPixels.length ≤ (24 : Fin 64).val ∧ scanPixels[(23 : Fin 64).val]? = some ⟨0, false, false⟩ ∧
      scanPixels[(20 : Fin 64).val]? = some ⟨0, true, false⟩) ∧
    ((tested r tLast tAge).PointTableLaw ∧ ((tested r tLast tAge).pointTable.get 17).inUse = true ∧
      ((tested r tLast tAge).pointTable.get 17).home = 291 ∧
      ((tested r tLast tAge).cells.get 291).anchor = some ⟨some tLast, tAge⟩ ∧ (tested r tLast tAge).points.get 17 = r ∧
      (tested r tLast tAge).latched.anchorAge = 2 ∧ (tested r tLast tAge).latched.disagreeLimit = 800) ∧
    ((800 : Nat) < ((9801 : Int) - (9000 + 0) - 0).natAbs ∧ ((9800 : Int) - (9000 + 0) - 0).natAbs ≤ 800) ∧
    (¬ ∃ i a t, ((tested r tLast 3).pointTable.get i).inUse = true ∧ ((tested r tLast 3).pointTable.get i).home = 291 ∧
      ((tested r tLast 3).cells.get 291).anchor = some a ∧ a.tLast = some t ∧ a.tAge ≤ (tested r tLast 3).latched.anchorAge ∧
      (((tested r tLast 3).points.get i).state = .active ∨ ((tested r tLast 3).points.get i).state = .suspect)) ∧
    ((∀ d, ((17 : PointIx), d) ∉ [((18 : PointIx), true)]) ∧ ((17 : PointIx), false) ∈ [((17 : PointIx), false)] ∧
      ((17 : PointIx), true) ∉ [((17 : PointIx), false)] ∧ ((17 : PointIx), true) ∈ [((17 : PointIx), false), (17, true)]) := by
  refine ⟨by decide, ⟨probe_law, by simp [tested, probe], by simp [tested, probe], by simp [tested],
    by simp [tested, probe], rfl, rfl⟩, by decide, ?_, by decide⟩
  rintro ⟨_, a, _, _, _, h, _, le, _⟩
  have : (⟨some tLast, 3⟩ : Anchor) = a := by simpa [tested] using h
  subst this
  exact absurd le (by decide : ¬ 3 ≤ 2)

theorem witness_SamplesFrameFused (mode : MapMode) :
    Running (inMode mode (flying (.frame (.samples 2 [⟨3, 8740, .ok⟩])))) (.frame (.samples 2 [⟨3, 8740, .ok⟩])) ∧
    (inMode mode (flying (.frame (.samples 2 [⟨3, 8740, .ok⟩])))).map.mode = mode := ⟨running _ mode, rfl⟩

/-- Section 4.8, where two residuals enter the mean; and a view with no binding in use, where none does. -/
theorem witness_ScanFrameFused :
    (Running scanFrame (.frame (.scan 6 5 scanPixels)) ∧ scanFrame.map.mode = .running ∧ (scanFrame.walkScan 5 scanPixels).included = 2) ∧
    (Running (fusing (.scan 6 5 scanPixels)) (.frame (.scan 6 5 scanPixels)) ∧ (fusing (.scan 6 5 scanPixels)).map.mode = .running ∧
      ((fusing (.scan 6 5 scanPixels)).walkScan 5 scanPixels).included = 0) :=
  ⟨⟨⟨quiet_busy _ ⟨rfl, rfl, rfl, rfl, rfl, rfl⟩, rfl, rfl⟩, rfl, by decide +kernel⟩,
    ⟨quiet_busy _ ⟨rfl, rfl, rfl, rfl, rfl, rfl⟩, rfl, rfl⟩, rfl, by decide +kernel⟩

theorem witness_CloseCompletes (mode : MapMode) (use : List (CellIx × Option (Fin 8))) :
    Running (closing mode use) (.close 10 6000) ∧ (closing mode use).stage.pendingPages = [] ∧ (closing mode use).map.mode = mode ∧
    (closing .held [(0, none)]).someInUse = true ∧ (closing .blank []).someInUse = false ∧
    ((portTwo 0 true).ports.get 2).state = .live ∧ ¬ (3 ≤ 1 + 1) ∧ watchedClose.settings.silenceLimit ≤ (watchedClose.ports.get 3).silence + 1 :=
  ⟨⟨quiet_busy _ ⟨rfl, rfl, rfl, rfl, rfl, rfl⟩, rfl, rfl⟩, rfl, rfl, by decide +kernel, by decide +kernel, by decide, by decide, by decide⟩

/-- A close in flight, cell 0 in use with this record, of class 2 of section 6.8. -/
def closeOn (mode : MapMode) (c : CellRecord) : State :=
  { closing mode [(0, some 2)] with
    cells := State.reset.cells.set 0 c, limits := State.reset.limits.set 2 ⟨10500, 11000, 200, 300⟩ }

/-- CloseMovesEachCell, CloseLatchesPassFlags and CloseRebuildsReports. -/
theorem witness_CloseMovesEachCell (mode : MapMode) (c : CellRecord) :
    (closeOn mode c).Runs (.close 10 6000) ∧ (closeOn mode c).stage.pendingPages = [] ∧ (closeOn mode c).map.mode = mode ∧
    (∃ t, exec .close (closeOn mode c) = .next t) ∧ (closeOn mode c).cells.get 0 = c ∧
    ((closeOn mode c).cellTable.get 0).limitClass = some 2 ∧ (closeOn mode c).limits.get 2 = ⟨10500, 11000, 200, 300⟩ ∧
    (closeOn mode c).someInUse = true ∧ (10 ≤ min 255 (9 + 1) ∧ min 255 (8 + 1) < 10) := by
  refine ⟨⟨rfl, rfl⟩, rfl, rfl, ⟨_, rfl⟩, by simp [closeOn], by simp [closeOn, closing, flying], by simp [closeOn], ?_, by decide⟩
  show (closing .running [(0, some 2)]).cellTable.any CellEntry.inUse = true
  decide +kernel

/-- A close in any mode, with pages pending and without, with a cell in use and with none. -/
theorem witness_CloseInstalls (mode : MapMode) (use : List (CellIx × Option (Fin 8))) (pages : List Page) :
    Running { closing mode use with stage := { Stage.initial with pendingPages := pages } } (.close 10 6000) ∧
    (closing mode use).map.mode = mode ∧ (closing mode [(0, none)]).someInUse = true ∧
    (∃ c, ((closing mode [(0, none)]).cellTable.get c).inUse = true) ∧ ∀ c, ((closing mode []).cellTable.get c).inUse = false := by
  refine ⟨⟨quiet_busy _ ⟨rfl, rfl, rfl, rfl, rfl, rfl⟩, rfl, rfl⟩, rfl, ?_, ⟨0, ?_⟩, fun c => ?_⟩
  · show (closing .blank [(0, none)]).cellTable.any CellEntry.inUse = true
    decide +kernel
  · show ((closing .blank [(0, none)]).cellTable.get 0).inUse = true
    decide +kernel
  · show (State.reset.cellTable.get c).inUse = false
    simp [State.reset, State.fullReset, CellEntry.initial]

/-- R12, R143: the pages of one close are taken in list order, each on what the earlier ones left; the last cell in use leaves
use, and the map is BLANK with no list. -/
theorem test_install_order : seen .close
      { closing .commissioning [(0, none)] with
        stage := { Stage.initial with pendingPages :=
          [.cells 0 ((Table.replicate 32 none).set 0 (some ⟨false, none, 0⟩)), .points 0 ((Table.replicate 32 none).set 0 (some ⟨true, 0, 0, 0, [], 50⟩))] } }
      (fun t => (t.map.mode, t.map.buildingEpoch, (t.points.get 0).state, t.stage.pendingPages.length)) =
    some (.blank, none, .unbound, 0) := by decide +kernel

/-- Slot 31 of CELLS page 63, the last cell: any entry takes the place of any other. -/
theorem witness_CellsPageInstalls (old new : CellEntry) :
    ({ probe PointRecord.initial with cellTable := State.reset.cellTable.set 2047 old } : State).PointTableLaw ∧
    cellOfSlot 63 31 = 2047 ∧ (State.reset.cellTable.set 2047 old).get 2047 = old ∧
    ((Table.replicate 32 none).set 31 (some new)).get 31 = some new :=
  ⟨probe_law, by decide, by simp, by simp⟩

/-- The point table of `probe` with an entry in the last slot, which POINTS page 2 carries in its slot 31. -/
theorem witness_OtherPagesInstall (e : PointEntry) :
    ((∃ i, ((Table.replicate 32 none).set 31 (some e)).get i ≠ none) ∧ pointOfSlot 2 31 = 95 ∧
      (∀ i x, ((Table.replicate 32 none).set 31 (some e)).get i = some x →
        ((probe PointRecord.initial).pointTable.set 95 e).get (pointOfSlot 2 i) = x) ∧
      (∀ i, ((Table.replicate 32 none).set 31 (some e)).get i = none →
        ((probe PointRecord.initial).pointTable.set 95 e).get (pointOfSlot 2 i) = (probe PointRecord.initial).pointTable.get (pointOfSlot 2 i)) ∧
      (∀ j : PointIx, j.val / 32 ≠ (2 : Fin 3).val →
        ((probe PointRecord.initial).pointTable.set 95 e).get j = (probe PointRecord.initial).pointTable.get j)) ∧
    pointLaw ((probe PointRecord.initial).pointTable.set 95 ⟨true, 5, 5, 291, [], 50⟩) = false ∧
    pointLaw ((probe PointRecord.initial).pointTable.set 95 ⟨true, 5, 5, 290, [], 50⟩) = true ∧
    (Page.limits (Table.replicate 8 none)).filled = 0 ∧
    (∃ i, ((Table.replicate 32 none).set 31 (some Binding.initial)).get i ≠ none) ∧
    (∃ i, ((Table.replicate 8 none).set 7 (some LimitClass.initial)).get i ≠ none) := by
  refine ⟨⟨⟨31, by simp⟩, by decide, fun i x h => ?_, fun i h => ?_, fun j h => ?_⟩, by decide +kernel, by decide +kernel, by decide,
    ⟨31, by simp⟩, ⟨7, by simp⟩⟩
  · by_cases hi : i = 31
    · subst hi
      rw [Table.get_set, if_pos rfl] at h
      rw [show pointOfSlot 2 31 = 95 by decide, Table.get_set, if_pos rfl]
      exact Option.some.inj h
    · simp [Table.get_set, Ne.symm hi] at h
  · by_cases hi : i = 31
    · subst hi
      simp at h
    · rw [Table.get_set, if_neg]
      intro h'
      apply hi
      have := congrArg Fin.val h'
      simp only [pointOfSlot] at this
      ext
      simp at this ⊢
      omega
  · rw [Table.get_set, if_neg]
    intro h'
    subst h'
    exact absurd rfl h

/-- So many requests in the buffer, so many BUSY replies ready, a NOTICE being sent. -/
def crowded (requests busy : Nat) : State :=
  { State.reset with
    host := { HostLink.initial with
      buffer := List.replicate requests (req 0x60 []), service := .waiting
      ready := List.replicate busy ⟨0xE0, 7, [[0x10]], false⟩
      sending := some ⟨0xF0, 0, [1, 8, 0, 0], [], false⟩ } }

theorem witness_RequestsAreReceived (requests : Nat) :
    (∀ busy, (crowded requests busy).Settled ∧ (crowded requests busy).resetLow = false) ∧
    (crowded 3 0).host.buffer.length < 4 ∧ 4 ≤ (crowded 4 0).host.buffer.length ∧
    ([2, 3, 4].map fun n => (crowded 4 n).host.ready.countP fun r => !r.inService) = [2, 3, 4] ∧
    (∀ o, (crowded 4 3).host.sending = some o → o.inService = true ∨ o.kind = 0xF0) ∧
    receive [] (frameBytes 0x48 7 []) = (.good 0x48 7 [], []) ∧
    receive [] ((frameBytes 0x48 7 []).dropLast ++ [0]) = (.badCrc, []) ∧ receive [] [0xC3, 251] = (.badLength, []) ∧
    receive [] [0xC3] = (.partialFrame [0xC3], []) ∧ receive [] [0x55] = (.partialFrame [], []) := by
  refine ⟨fun _ => ⟨quiet ⟨rfl, rfl⟩ nofun fun _ _ => rfl, rfl⟩, by decide, by decide, by decide, ?_, by decide +kernel,
    by decide +kernel, by decide, by decide, by decide⟩
  intro o h
  cases h
  exact .inr rfl

/-- The transmitter is sending a frame with this much to follow. -/
def talking (rest : List (List Byte)) (ready : List Reply) (urgent routine : Option Notice) : State :=
  { State.reset with
    host := { HostLink.initial with
      buffer := [req 0x01 []], service := .replied, ready := ready, sending := some ⟨0x81, 7, [0], rest, true⟩ }
    events := { EventUnit.initial with urgentNotice := urgent, routineNotice := routine } }

theorem witness_TransmitterChooses (rest : List (List Byte)) (ready : List Reply) (urgent routine : Option Notice) :
    (talking rest ready urgent routine).Settled ∧ (talking rest ready urgent routine).resetLow = false ∧
    (talking rest ready urgent routine).host.sending = some ⟨0x81, 7, [0], rest, true⟩ ∧
    (talking rest ready urgent routine).host.ready = ready ∧ (talking rest ready urgent routine).events.urgentNotice = urgent ∧
    (talking rest ready urgent routine).events.routineNotice = routine :=
  ⟨quiet ⟨rfl, rfl⟩ nofun fun _ _ => rfl, rfl, rfl, rfl, rfl, rfl⟩

/-- The oldest request is to be taken while the map runs a close. -/
def takingBusy (r : Request) : State := { flying (.close 10 6000) with host := { HostLink.initial with buffer := [r] } }

theorem takenBusy (kind : Byte) (body : List Byte) : Taken (takingBusy (req kind body)) kind body ∧
    (takingBusy (req kind body)).map.inFlight ≠ none := ⟨⟨quiet_busy _ ⟨rfl, rfl, rfl, rfl, rfl, rfl⟩, rfl, rfl, rfl⟩, nofun⟩

/-- A request of any kind and body, with a free and with a busy map; for each length of Table 10-6 a body of one byte less
or more, and map-side bodies of 0, 1 and 3 bytes. -/
theorem witness_RequestsAreTaken (kind : Byte) (body : List Byte) :
    (Taken (taking (req kind body)) kind body ∧ (taking (req kind body)).map.inFlight = none ∧
      (taking (req kind body)).map.softResetWaits = false) ∧
    (Taken (takingBusy (req kind body)) kind body ∧ (takingBusy (req kind body)).map.inFlight ≠ none) ∧
    ((0x77 : Byte) ∉ requestCommands.map Prod.snd ∧
      (∀ x ∈ [(Instr.identify, (0x01 : Byte)), (.get, 0x03), (.readPage, 0x55), (.readCells, 0x20), (.inject, 0x41)], x ∈ requestCommands)) ∧
    (([0] : List Byte).length ≠ 0 ∧ ([] : List Byte).length ≠ 1 ∧ ([0, 0] : List Byte).length ≠ 1 ∧ ([0] : List Byte).length ≠ 2 ∧
      ([0, 0] : List Byte).length ≠ 3 ∧ ([0, 0, 0, 0] : List Byte).length ≠ 3 ∧ ([0] : List Byte).length < 2) ∧
    (0x16 ∈ ([0x10, 0x11, 0x12, 0x13, 0x14, 0x16, 0x21] : List Byte) ∧ 0x38 ∈ ([0x22, 0x30, 0x31, 0x32, 0x38] : List Byte)) :=
  ⟨⟨taken _ _, rfl, rfl⟩, takenBusy _ _, by decide, by decide, by decide⟩

/-- IdentifyReply, LinkStatusReadAndCleared, RestartIsTaken, ClosesArePosted (its request), StageAndPagesAreRead (READ-STAGE),
PortsLinesAndEventsAreRead (READ-LINES, READ-EVENTS): the requests without a body. -/
theorem witness_requests_without_body : Taken (taking (req 0x01 [])) 0x01 [] ∧ Taken (taking (req 0x05 [])) 0x05 [] ∧
    Taken (taking (req 0x04 [])) 0x04 [] ∧ Taken (taking (req 0x15 [])) 0x15 [] ∧ Taken (takingBusy (req 0x15 [])) 0x15 [] ∧
    Taken (taking (req 0x54 [])) 0x54 [] ∧ Taken (taking (req 0x48 [])) 0x48 [] ∧ Taken (taking (req 0x60 [])) 0x60 [] :=
  ⟨taken _ _, taken _ _, taken _ _, taken _ _, (takenBusy _ _).1, taken _ _, taken _ _, taken _ _⟩

theorem witness_LinkStatusReadAndCleared : State.reset.resetLow = false ∧
    (∃ t, exec (.hostFrameReceived (frameBytes 0x48 7 [])) State.reset = .next t) ∧
    receive State.reset.host.assembly (frameBytes 0x48 7 []) = (.good 0x48 7 [], []) ∧
    receive State.reset.host.assembly ((frameBytes 0x48 7 []).dropLast ++ [0]) = (.badCrc, []) :=
  ⟨rfl, ⟨_, rfl⟩, by decide +kernel, by decide +kernel⟩

/-- GetReturnsTheStoredValue, for every id, those of Table 10-3 and others. -/
theorem witness_GetReturnsTheStoredValue (id : Byte) : Taken (taking (req 0x03 [id])) 0x03 [id] := taken _ _

/-- The line's two settings, whatever they are, with a SET of any id and value about to be taken. -/
theorem witness_SetStoresTheValue (id hi lo : Byte) (edge : LineEdge) (action : LineAction) :
    Taken { taking (req 0x02 [id, hi, lo]) with
      settings := { Settings.initial with
        lineEdge := Settings.initial.lineEdge.set 3 edge, lineAction := Settings.initial.lineAction.set 3 action } }
      0x02 [id, hi, lo] ∧
    (Settings.initial.lineEdge.set 3 edge).get 3 = edge ∧ (Settings.initial.lineAction.set 3 action).get 3 = action ∧
    (0x43 : Byte).toNat = 0x40 + (3 : LineIx).val ∧ (0x4B : Byte).toNat = 0x48 + (3 : LineIx).val :=
  ⟨⟨quiet_idle ⟨rfl, rfl, rfl, rfl, rfl, rfl⟩, rfl, rfl, rfl⟩, by simp, by simp, by decide, by decide⟩

/-- A SET that is not refused, of a timer setting, of a line setting and of another, with a free and with a busy map. -/
theorem witness_SetMovesTimerAndHolds :
    (∀ id ∈ [(0x01 : Byte), 0x03, 0x40, 0x4B, 0x51], ∃ t, exec .set (taking (req 0x02 [id, 0, 1])) = .next t ∧
      ¬ (taking (req 0x02 [id, 0, 1])).Answers t (req 0x02 [id, 0, 1]) [[0x13]]) ∧
    (∀ id, Taken (taking (req 0x02 [id, 0, 1])) 0x02 [id, 0, 1] ∧ Taken (takingBusy (req 0x02 [id, 0, 1])) 0x02 [id, 0, 1]) := by
  refine ⟨?_, fun _ => ⟨taken _ _, (takenBusy _ _).1⟩⟩
  intro id h
  have refused : ∀ id ∈ [(0x01 : Byte), 0x03, 0x40, 0x4B, 0x51],
      ((taking (req 0x02 [id, 0, 1])).serveDirect 0x02 serveSet).host.outbox ≠
        (taking (req 0x02 [id, 0, 1])).host.outbox ++ [Reply.outgoing ⟨0x82, 7, [[0x13]], true⟩] := by decide +kernel
  exact ⟨_, rfl, fun h' => refused id h h'.1⟩

theorem witness_ClosesArePosted :
    (State.reset.Settled ∧ State.reset.resetLow = false ∧ State.reset.settings.epochRun = false) ∧
    ((ticking 999).Settled ∧ (ticking 999).settings.epochRun = true ∧ (ticking 999).map.inFlight = none ∧
      (ticking 999).map.softResetWaits = false) ∧
    (({ flying (.rebase 0) with settings := { Settings.initial with epochRun := true } } : State).Settled) :=
  ⟨⟨quiet_idle ⟨rfl, rfl, rfl, rfl, rfl, rfl⟩, rfl, rfl⟩, ⟨quiet_idle ⟨rfl, rfl, rfl, rfl, rfl, rfl⟩, rfl, rfl, rfl⟩,
    quiet_busy _ ⟨rfl, rfl, rfl, rfl, rfl, rfl⟩⟩

/-- A RESTART waits for the free map. -/
def restarting : State :=
  { State.reset with
    host := { HostLink.initial with buffer := [req 0x04 []], service := .waiting }
    map := { MapState.initial with softResetWaits := true } }

theorem witness_MapSoftReset : restarting.Settled ∧ restarting.resetLow = false ∧ restarting.map.softResetWaits = true ∧
    restarting.map.inFlight = none ∧ restarting.host.buffer = [req 0x04 []] ∧ ∀ q, .host q ∉ restarting.map.items :=
  ⟨quiet_idle ⟨rfl, rfl, rfl, rfl, rfl, rfl⟩, rfl, rfl, rfl, rfl, nofun⟩

/-- StartAndStop, ClearMapEmptiesTheMap and MapReports (its requests without a body), in every mode. -/
theorem witness_StartAndStop (mode : MapMode) :
    Performed (inMode mode (performing (req 0x10 []))) 0x10 [] ∧ Performed (inMode mode (performing (req 0x11 []))) 0x11 [] ∧
    Performed (inMode mode (performing (req 0x14 []))) 0x14 [] ∧ Performed (inMode mode (performing (req 0x16 []))) 0x16 [] ∧
    Performed (inMode mode (performing (req 0x21 []))) 0x21 [] ∧ (inMode mode (performing (req 0x10 []))).map.mode = mode :=
  ⟨performed _ _ _, performed _ _ _, performed _ _ _, performed _ _ _, performed _ _ _, rfl⟩

/-- HoldsAndRebases: HOLD, RESUME, a hold item of either value, and a rebase item, in every mode and with either host hold. -/
theorem witness_HoldsAndRebases (mode : MapMode) (flag : Bool) (n : LineIx) :
    Performed (inMode mode (performing (req 0x12 []))) 0x12 [] ∧ Performed (inMode mode (performing (req 0x13 []))) 0x13 [] ∧
    Running (inMode mode (flying (.hold n flag))) (.hold n flag) ∧ Running (inMode mode (flying (.rebase n))) (.rebase n) ∧
    Performed { performing (req 0x12 []) with map := { (performing (req 0x12 [])).map with hostHold := flag } } 0x12 [] :=
  ⟨performed _ _ _, performed _ _ _, running _ _, running _ _, quiet_busy _ ⟨rfl, rfl, rfl, rfl, rfl, rfl⟩, rfl, rfl, rfl, rfl⟩

/-- MapReports, PointRequests: the last number of each kind and the first beyond it. -/
theorem witness_PointRequests (mode : MapMode) (b : Byte) :
    (Performed (inMode mode (performing (req 0x22 [b]))) 0x22 [b] ∧ Performed (inMode mode (performing (req 0x38 [b]))) 0x38 [b] ∧
      Performed (inMode mode (performing (req 0x30 [b]))) 0x30 [b] ∧ Performed (inMode mode (performing (req 0x31 [b]))) 0x31 [b] ∧
      Performed (inMode mode (performing (req 0x32 [b]))) 0x32 [b]) ∧
    ((7 : Byte).toNat = (7 : Fin 8).val ∧ 7 < (8 : Byte).toNat ∧ (15 : Byte).toNat = (15 : ViewIx).val ∧ 15 < (16 : Byte).toNat ∧
      (95 : Byte).toNat = (95 : PointIx).val ∧ 95 < (96 : Byte).toNat) ∧
    (∀ r, (withPoint State.reset r).points.get 95 = r ∧ ((withPoint State.reset r).pointTable.get 95).inUse = true ∧
      ((withPoint State.reset r).pointTable.get 94).inUse = false) := by
  refine ⟨⟨performed _ _ _, performed _ _ _, performed _ _ _, performed _ _ _, performed _ _ _⟩, by decide, fun r => ?_⟩
  exact ⟨by simp [withPoint], by simp [withPoint], (by decide +kernel : (((State.reset.pointTable.set 95 ⟨true, 7, 15, 291, [⟨292, 8⟩], 400⟩).get 94).inUse = false))⟩

/-- CellsAreRead: the counts 0, 1, 17, 18, 32 and 33, and the last cell. -/
theorem witness_CellsAreRead (hi lo count : Byte) :
    Performed (inMode .running (performing (req 0x20 [hi, lo, count]))) 0x20 [hi, lo, count] ∧
    (32 < (33 : Byte).toNat ∧ 2047 < 256 * (8 : Byte).toNat + (0 : Byte).toNat ∧
      2047 < 256 * (7 : Byte).toNat + (0xE1 : Byte).toNat + (32 : Byte).toNat - 1) ∧
    (1 ≤ (1 : Byte).toNat ∧ 256 * (7 : Byte).toNat + (0xFF : Byte).toNat + (1 : Byte).toNat ≤ 2048 ∧ (17 : Byte).toNat ≤ 17 ∧
      17 < (18 : Byte).toNat) ∧
    ((32 : Byte).toNat ≤ 32 ∧ 256 * (7 : Byte).toNat + (0xE0 : Byte).toNat + (32 : Byte).toNat ≤ 2048) :=
  ⟨performed _ _ _, by decide, by decide, by decide⟩

/-- PortsLinesAndEventsAreRead (READ-PORT) and StageAndPagesAreRead (READ-PAGE): the last page of each table and the first beyond. -/
theorem witness_PortsAndPages (b table page : Byte) :
    Taken (taking (req 0x40 [b])) 0x40 [b] ∧ Taken (taking (req 0x55 [table, page])) 0x55 [table, page] ∧
    ((63 : Byte).toNat < 64 ∧ (2 : Byte).toNat < 3 ∧ (31 : Byte).toNat < 32 ∧ 64 ≤ (64 : Byte).toNat ∧ 3 ≤ (3 : Byte).toNat ∧
      32 ≤ (32 : Byte).toNat ∧ 1 ≤ (1 : Byte).toNat ∧ 3 < (4 : Byte).toNat) ∧
    ((2047 : CellIx).val / 32 = (63 : Byte).toNat ∧ (95 : PointIx).val / 32 = (2 : Byte).toNat ∧
      2 * (15 : ViewIx).val + (63 : Fin 64).val / 32 = (31 : Byte).toNat) :=
  ⟨taken _ _, taken _ _, by decide, by decide⟩

/-- InjectAppendsAFrame: any body in any mode, with 31 and 32 frames queued behind a close. -/
theorem witness_InjectAppendsAFrame (mode : MapMode) (port kind : Byte) (body : List Byte) (frames : Nat) :
    Taken { inMode mode (takingBusy (req 0x41 (port :: kind :: body))) with queue := List.replicate frames someFrame }
      0x41 (port :: kind :: body) ∧
    ((List.replicate 31 someFrame).length < 32 ∧ 32 ≤ (List.replicate 32 someFrame).length) ∧
    (7 < (8 : Byte).toNat ∧ (7 : Byte).toNat = (7 : PortIx).val ∧ (4 : Byte) ≠ 0x02 ∧ (4 : Byte) ≠ 0x03) ∧
    (parseField 7 0x02 [1, 3, 0, 0x22, 0x24] = some (.samples 7 [⟨3, 8740, .ok⟩]) ∧ parseField 7 0x02 [1, 16, 0, 0x22, 0x24] = none) :=
  ⟨⟨quiet_busy (.close 10 6000) ⟨rfl, rfl, rfl, rfl, rfl, rfl⟩, rfl, rfl, rfl⟩, by decide, by decide, by decide⟩

theorem witness_StageOpenAndClear (table page first : Byte) :
    Taken (taking (req 0x50 [table, page, first])) 0x50 [table, page, first] ∧ Taken (taking (req 0x52 [])) 0x52 [] ∧
    Taken (staging (req 0x52 [])) 0x52 [] ∧ (staging (req 0x52 [])).stage.target ≠ none ∧
    ((63 : Byte).toNat < 64 ∧ (31 : Byte).toNat ≤ 31 ∧ 64 ≤ (64 : Byte).toNat ∧ 7 < (8 : Byte).toNat ∧ 3 < (4 : Byte).toNat) :=
  ⟨taken _ _, taken _ _, ⟨quiet_idle ⟨rfl, rfl, rfl, rfl, rfl, rfl⟩, rfl, rfl, rfl⟩, nofun, by decide⟩

/-- One entry and eight entries; 31 bytes, no byte and nine entries. -/
theorem witness_StagePutWritesEntries (body : List Byte) :
    Taken (taking (req 0x51 body)) 0x51 body ∧ Taken (staging (req 0x51 body)) 0x51 body ∧
    (staging (req 0x51 body)).stage.target = some (.cells 9) ∧ (staging (req 0x51 body)).stage.pointer ≤ Target.lastSlot (.cells 9) ∧
    (List.replicate 31 (0 : Byte)).length % Target.slotBytes (.cells 9) ≠ 0 ∧
    8 * Target.slotBytes (.cells 9) < (List.replicate 36 (0 : Byte)).length ∧
    (∀ k ∈ [1, 8], List.replicate (4 * k) (0 : Byte) = (List.replicate k [(0 : Byte), 0, 0, 0]).flatten ∧
      ∀ e ∈ List.replicate k [(0 : Byte), 0, 0, 0], e.length = Target.slotBytes (.cells 9)) :=
  ⟨taken _ _, ⟨quiet_idle ⟨rfl, rfl, rfl, rfl, rfl, rfl⟩, rfl, rfl, rfl⟩, rfl, (by decide : 30 ≤ 31), by decide, by decide, by decide⟩

/-- A stage for CELLS page 9 with one slot filled. -/
def filledStage (raw : List Byte) : Stage := { Stage.initial with target := some (.cells 9), slots := Stage.initial.slots.set 31 (some raw) }

/-- What a commit finds of a stage for LIMITS with slot 7, its last, filled. -/
def limitStage (raw : List Byte) : CommitResult :=
  { Stage.initial with slots := Stage.initial.slots.set 7 (some raw) }.validate .limits

/-- A stage with two in-use points of one home cell. -/
def twoOfOneHome : Stage :=
  { Stage.initial with
    slots := (Stage.initial.slots.set 0 (some (PointEntry.bytes ⟨true, 0, 0, 291, [], 50⟩))).set 31
      (some (PointEntry.bytes ⟨true, 0, 1, 291, [], 50⟩)) }

/-- Four pending pages, none of them CELLS page 9. -/
def fourPages : List Page :=
  [.limits (Table.replicate 8 none), .cells 0 (Table.replicate 32 none), .cells 1 (Table.replicate 32 none),
    .cells 2 (Table.replicate 32 none)]

/-- A stage of any contents is committed; one whose slot fails, one with two points of one home, and one that passes. -/
theorem witness_StageCommitPlacesAPage (g : Stage) :
    Taken { taking (req 0x53 []) with stage := g } 0x53 [] ∧ (filledStage []).overrun = false ∧
    (filledStage [2, 0, 0, 0]).validate (.cells 9) = .range 31 ∧
    (∃ p, (filledStage [1, 7, 0xF8, 0x30]).validate (.cells 9) = .page p) ∧
    (twoOfOneHome.validate (.points 0) = .duplicate 31) ∧
    ((filledStage [1, 63, 7, 255, 16]).validate (.views 31) = .page (.views 31 ((Table.replicate 32 none).set 31 (some ⟨true, 63, 2047, 16⟩))) ∧
      (filledStage [1, 63, 7, 255, 17]).validate (.views 31) = .range 31 ∧
      (filledStage (PointEntry.bytes ⟨true, 7, 15, 291, [], 50⟩)).validate (.points 2) =
        .page (.points 2 ((Table.replicate 32 none).set 31 (some ⟨true, 7, 15, 291, [], 50⟩))) ∧
      (filledStage (PointEntry.bytes ⟨true, 7, 15, 291, [], 49⟩)).validate (.points 2) = .range 31) ∧
    (limitStage [0, 5, 0, 5, 0, 0, 0, 1] = .range 7 ∧
      limitStage [0, 5, 0, 6, 0, 0, 0, 1] = .page (.limits ((Table.replicate 8 none).set 7 (some ⟨5, 6, 0, 1⟩)))) ∧
    ((∀ q ∈ fourPages, q.target ≠ .cells 9) ∧ 4 ≤ fourPages.length ∧
      (fourPages.tail.filter fun q => decide (q.target ≠ .cells 9)).length < 4) :=
  ⟨⟨quiet_idle ⟨rfl, rfl, rfl, rfl, rfl, rfl⟩, rfl, rfl, rfl⟩, rfl, by decide +kernel, ⟨_, rfl⟩, by decide +kernel, by decide +kernel,
    by decide +kernel, by decide⟩

/-- Port 2 in any state, with so many frames queued behind a close. -/
def hearing (p : PortRecord) (frames : Nat) : State :=
  { flying (.close 10 6000) with queue := List.replicate frames someFrame, ports := State.reset.ports.set 2 { p with assembly := [] } }

/-- DataFramesAreHandled, HelloAnnouncesTheUnit and BadFieldFramesAreCounted. -/
theorem witness_DataFramesAreHandled (p : PortRecord) (frames : Nat) :
    ((hearing p frames).Settled ∧ (hearing p frames).resetLow = false ∧ ((hearing p frames).ports.get 2).assembly = [] ∧
      (hearing p frames).ports.get 2 = { p with assembly := [] }) ∧
    (receive [] (samplesBytes 1) = (.good 0x02 1 [1, 3, 0, 0x22, 0x24], []) ∧
      receive [] (frameBytes 0x03 0 [5, 1, 0, 0x22, 0xC4]) = (.good 0x03 0 [5, 1, 0, 0x22, 0xC4], []) ∧
      receive [] (frameBytes 0x09 3 []) = (.good 0x09 3 [], [])) ∧
    (parseField 2 0x02 [1, 3, 0, 0x22, 0x24] = some (.samples 2 [⟨3, 8740, .ok⟩]) ∧ parseField 2 0x02 [1, 3, 3, 0x22, 0x24] = none) ∧
    (receive [] (frameBytes 0x01 1 [1]) = (.good 0x01 1 [1], []) ∧ receive [] (frameBytes 0x01 1 [2]) = (.good 0x01 1 [2], [])) ∧
    (receive [] ((samplesBytes 1).dropLast ++ [0]) = (.badCrc, []) ∧ receive [] [0xC3, 1] = (.badLength, []) ∧
      receive [] [0xC3] = (.partialFrame [0xC3], []) ∧ receive [] [0xC2] = (.partialFrame [], [])) := by
  refine ⟨⟨quiet_busy _ ⟨rfl, rfl, rfl, rfl, rfl, rfl⟩, rfl, by simp [hearing], by simp [hearing]⟩, ?_, by decide, ?_, ?_⟩ <;>
    decide +kernel

theorem witness_AnswersAreSentInOrder : State.reset.resetLow = false ∧ (State.reset.ports.get 2).answers = [] ∧
    ((State.reset.ports.set 2 { PortRecord.initial with answers := [⟨.ack, true⟩, ⟨.hold, false⟩] }).get 2).answers =
      [⟨.ack, true⟩, ⟨.hold, false⟩] := ⟨rfl, by decide, by decide⟩

/-- LineEdges: any line record and settings, with a free and with a busy map. -/
theorem witness_LineEdges (l : LineRecord) (edge : LineEdge) (action : LineAction) (op : Operation) :
    ({ State.reset with
      settings := { Settings.initial with
        lineEdge := Settings.initial.lineEdge.set 3 edge, lineAction := Settings.initial.lineAction.set 3 action }
      lines := State.reset.lines.set 3 l } : State).Settled ∧
    (State.reset.lines.set 3 l).get 3 = l ∧ (Settings.initial.lineEdge.set 3 edge).get 3 = edge ∧
    (Settings.initial.lineAction.set 3 action).get 3 = action ∧
    ({ flying op with lines := State.reset.lines.set 3 l } : State).Settled :=
  ⟨quiet_idle ⟨rfl, rfl, rfl, rfl, rfl, rfl⟩, by simp, by simp, by simp, quiet_busy _ ⟨rfl, rfl, rfl, rfl, rfl, rfl⟩⟩

end Sys2Proof.Tests
end

/-! PROOFS. CLEAR-MAP (R13): what it makes of one cell and of the state, and the statement about it. -/

namespace Sys2Proof.Machine

/-! ## What a completed operation leaves to be read -/

/-- What a map operation leaves outside the reply side, the Event Unit and the arbiter is its effect. -/
theorem State.Completes.body_eq {s' t : State} (h : State.Completes s' t) : t.body = s'.body := h.ends.body

/-- The cells after a map operation are those of its effect: the end of the step moves none. -/
theorem State.Completes.cells_eq {s' t : State} (h : State.Completes s' t) : t.cells = s'.cells := by
  have same : t.body.cells = s'.body.cells := congrArg State.cells h.body_eq
  exact same

/-- The views after a map operation are those of its effect: the end of the step moves none. -/
theorem State.Completes.views_eq {s' t : State} (h : State.Completes s' t) : t.views = s'.views := by
  have same : t.body.views = s'.body.views := congrArg State.views h.body_eq
  exact same

/-! ## One cell cleared -/

/-- A cell out of use is passed over. -/
theorem clear_of_unused {c : CellRecord} (h : c.content = .unused) : c.clear = c := by
  simp [CellRecord.clear, h]

/-- An in-use cell, whatever it held, becomes EMPTY and its anchor fresh; it gains no anchor. -/
theorem clear_of_inUse {c : CellRecord} (h : c.content ≠ .unused) :
    c.clear = ⟨.empty, c.anchor.map fun _ => ⟨none, 0⟩⟩ := by
  obtain ⟨content, anchor⟩ := c
  cases content with
  | unused => exact absurd rfl h
  | empty => rfl
  | live b r => rfl
  | stale b => rfl

/-! ## The request -/

theorem exec_clearMap (s : State) : exec .clearMap s = .next (s.serveMapSide 0x14 performClearMap) := rfl

/-- The item CLEAR-MAP in flight is answered OK, and completes with the effect of its rule. -/
theorem clearMap_completes {s : State} {r : Request} (h : s.Performs 0x14 r) :
    s.Answers (s.serveMapSide 0x14 performClearMap) r [[0x00]] ∧
      State.Completes (performClearMap s r).1 (s.serveMapSide 0x14 performClearMap) :=
  serveMapSide_spec h rfl rfl

/-- Settles O46. The rule of CLEAR-MAP asks nothing of the mode, and the end of the step moves neither cells nor
views, so both can be read off the rule's effect entry by entry. -/
theorem clearMapEmptiesTheMap : Obligations.ClearMapEmptiesTheMap := by
  intro s r _ performs
  obtain ⟨answers, completes⟩ := clearMap_completes performs
  have cells : (s.serveMapSide 0x14 performClearMap).cells = s.cells.map CellRecord.clear := completes.cells_eq
  have views : (s.serveMapSide 0x14 performClearMap).views = s.views.map fun v => { v with bias := 0 } :=
    completes.views_eq
  refine ⟨_, exec_clearMap s, answers, ?_, fun v => ?_, fun c => ⟨fun unused => ?_, fun inUse => ?_⟩⟩
  · rw [cells, views]
    exact completes
  · rw [views, Table.get_map]
  · rw [cells, Table.get_map, clear_of_unused unused]
  · rw [cells, Table.get_map, clear_of_inUse inUse]

end Sys2Proof.Machine

/-! PROOFS. One touch of one cell (R25 to R28): the arithmetic of the adjustment, what a touch makes of each content of
a cell, and the statement about it. -/

namespace Sys2Proof.Machine

/-! ## The magnitude of the adjustment -/

/-- A fraction of at most the whole, rounded to nearest, is at most the whole. -/
theorem adjustment_bounds {d : Int} {w : Nat} (hd : 0 ≤ d) (hw : w ≤ 256) :
    0 ≤ (d * w + 128) / 256 ∧ (d * w + 128) / 256 ≤ d := by
  have nonneg : 0 ≤ d * w := mul_nonneg hd w.cast_nonneg
  have le : d * w ≤ d * 256 := mul_le_mul_of_nonneg_left (by exact_mod_cast hw) hd
  omega

/-- At weight 256 the adjustment is the whole difference. -/
theorem adjustment_full (d : Int) : (d * (256 : Nat) + 128) / 256 = d := by omega

/-! ## The estimate after a touch -/

/-- The estimate that a touch of weight `w` makes of `old` (R27). -/
def touchedEstimate (sample : Int) (w : Nat) (old : Int) : Int :=
  clampMap (old + roundDiv ((sample - old) * (w : Int)) 256)

theorem CellBody.touch_eq (refreshMin : Nat) (kind : Source) (sample : Int) (w : Nat) (b : CellBody) :
    b.touch refreshMin kind sample w =
      if refreshMin ≤ w then { b with estimate := touchedEstimate sample w b.estimate, age := 0, source := kind }
      else { b with estimate := touchedEstimate sample w b.estimate } := rfl

section
variable {sample old : Int} {w : Nat}

/-- Toward a lower sample; the clamp has nothing to do, since the estimate stays at or above the sample. -/
theorem touchedEstimate_of_le (hs : 0 ≤ sample) (ho : old ≤ 12000) (hw : w ≤ 256) (h : sample ≤ old) :
    touchedEstimate sample w old = old - ((old - sample) * w + 128) / 256 := by
  have down : (sample - old) * (w : Int) ≤ 0 := mul_nonpos_of_nonpos_of_nonneg (by omega) w.cast_nonneg
  have bounds := adjustment_bounds (sub_nonneg.mpr h) hw
  rw [touchedEstimate, clampMap_eq, roundDiv_of_nonpos _ down 256 (by decide), ← neg_mul, neg_sub]
  push_cast
  omega

/-- Toward a higher sample; the clamp has nothing to do, since the estimate stays at or below the sample. -/
theorem touchedEstimate_of_ge (hs : sample ≤ 12000) (ho : 0 ≤ old) (hw : w ≤ 256) (h : old ≤ sample) :
    touchedEstimate sample w old = old + ((sample - old) * w + 128) / 256 := by
  have up : 0 ≤ (sample - old) * (w : Int) := mul_nonneg (by omega) w.cast_nonneg
  have bounds := adjustment_bounds (sub_nonneg.mpr h) hw
  rw [touchedEstimate, clampMap_eq, roundDiv_of_nonneg _ up]
  push_cast
  omega

/-- A touch does not move the estimate past the sample, nor away from it. -/
theorem touchedEstimate_between (hs : 0 ≤ sample ∧ sample ≤ 12000) (ho : 0 ≤ old ∧ old ≤ 12000) (hw : w ≤ 256) :
    min old sample ≤ touchedEstimate sample w old ∧ touchedEstimate sample w old ≤ max old sample := by
  obtain h | h := le_total sample old
  · have bounds := adjustment_bounds (sub_nonneg.mpr h) hw
    rw [touchedEstimate_of_le hs.1 ho.2 hw h]
    omega
  · have bounds := adjustment_bounds (sub_nonneg.mpr h) hw
    rw [touchedEstimate_of_ge hs.2 ho.1 hw h]
    omega

/-- At weight 256 the sample replaces the estimate. -/
theorem touchedEstimate_full (hs : 0 ≤ sample ∧ sample ≤ 12000) (ho : 0 ≤ old ∧ old ≤ 12000) :
    touchedEstimate sample 256 old = sample := by
  obtain h | h := le_total sample old
  · rw [touchedEstimate_of_le hs.1 ho.2 le_rfl h, adjustment_full, sub_sub_cancel]
  · rw [touchedEstimate_of_ge hs.2 ho.1 le_rfl h, adjustment_full, add_sub_cancel]

end

/-! ## What a touch makes of a cell -/

section
variable {refreshMin share gain : Nat} {kind : Source} {sample : Int} {c : CellRecord}

/-- Weight 0 changes nothing, whatever the cell holds. -/
theorem CellRecord.touch_of_weight_zero (hw : share * gain = 0) : c.touch refreshMin kind sample share gain = c :=
  if_pos hw

/-- An UNUSED cell is passed over at every weight. -/
theorem CellRecord.touch_of_unused (h : c.content = .unused) : c.touch refreshMin kind sample share gain = c := by
  simp [CellRecord.touch, h]

/-- An EMPTY cell takes the sample in full, however weak the touch (R26). -/
theorem CellRecord.touch_of_empty (hw : 0 < share * gain) (h : c.content = .empty) :
    c.touch refreshMin kind sample share gain = { c with content := .live ⟨sample, 0, kind, none, .normal⟩ none } := by
  simp only [CellRecord.touch, if_neg hw.ne', h]

/-- A LIVE cell stays LIVE with its rise. -/
theorem CellRecord.touch_of_live (hw : 0 < share * gain) {b : CellBody} {r : Option Int} (h : c.content = .live b r) :
    c.touch refreshMin kind sample share gain =
      { c with content := .live (b.touch refreshMin kind sample (share * gain)) r } := by
  simp only [CellRecord.touch, if_neg hw.ne', h]

/-- A STALE cell is revived by a strong touch alone, and then has no rise (R28). -/
theorem CellRecord.touch_of_stale (hw : 0 < share * gain) {b : CellBody} (h : c.content = .stale b) :
    c.touch refreshMin kind sample share gain =
      if refreshMin ≤ share * gain then
        { c with content := .live (b.touch refreshMin kind sample (share * gain)) none }
      else { c with content := .stale (b.touch refreshMin kind sample (share * gain)) } := by
  simp only [CellRecord.touch, if_neg hw.ne', h]

end

/-- Settles O20. The estimate of the statement is `touchedEstimate`; what is left of a LIVE or STALE cell is whether
the touch is strong, which decides the body and, for a STALE cell, the state. -/
theorem touchArithmetic : Obligations.TouchArithmetic := by
  intro refreshMin share gain kind sample c hs hw _
  refine ⟨CellRecord.touch_of_unused, CellRecord.touch_of_weight_zero, CellRecord.touch_of_empty, fun pos b ho =>
    ⟨touchedEstimate sample (share * gain) b.estimate, fun h => ?lower, fun h => ?higher,
      (touchedEstimate_between hs ho hw).1, (touchedEstimate_between hs ho hw).2, fun full => ?full,
      fun r h => ?live, fun h => ?stale⟩⟩
  case lower => rw [touchedEstimate_of_le hs.1 ho.2 hw h, Nat.cast_mul]
  case higher => rw [touchedEstimate_of_ge hs.2 ho.1 hw h, Nat.cast_mul]
  case full => rw [full, touchedEstimate_full hs ho]
  case live =>
    rw [CellRecord.touch_of_live pos h, CellBody.touch_eq]
    split <;> rfl
  case stale =>
    rw [CellRecord.touch_of_stale pos h, CellBody.touch_eq]
    split <;> rfl

end Sys2Proof.Machine

/-! PROOFS. One binding of a scan (R32, R68 to R73), and what a scan's tests do to a point (R52 to R54, R76): when a
binding is tested, what each case of it makes of the working state, the outcome of a list of tests, and the statement
about them. -/

namespace Sys2Proof.Machine

/-! ## When a binding is tested (R70) -/

theorem PointState.serving_iff (p : PointState) : p.serving = true ↔ p = .active ∨ p = .suspect := by
  cases p <;> decide

/-- A cell with a home point that serves and an anchor that is not too old is tested with them. -/
theorem testOf_of_tested {s : State} {cell : CellIx} {i : PointIx} {a : Anchor} {t : Int}
    (home : homePoint s.pointTable cell = some i) (anchor : (s.cells.get cell).anchor = some a) (tLast : a.tLast = some t)
    (age : a.tAge ≤ s.latched.anchorAge) (serves : (s.points.get i).state = .active ∨ (s.points.get i).state = .suspect) :
    testOf s cell = some (i, t) := by
  simp [testOf, home, anchor, tLast, age, (PointState.serving_iff _).mpr serves]

/-- A cell that is tested has them. -/
theorem tested_of_testOf {s : State} {cell : CellIx} {i : PointIx} {t : Int} (h : testOf s cell = some (i, t)) :
    ∃ a, (s.pointTable.get i).inUse = true ∧ (s.pointTable.get i).home = cell ∧ (s.cells.get cell).anchor = some a ∧
      a.tLast = some t ∧ a.tAge ≤ s.latched.anchorAge ∧
      ((s.points.get i).state = .active ∨ (s.points.get i).state = .suspect) := by
  unfold testOf at h
  split at h
  next a j anchor home =>
    split at h
    next t' tLast =>
      obtain ⟨⟨serves, age⟩, rfl, rfl⟩ : ((s.points.get j).state.serving = true ∧ a.tAge ≤ s.latched.anchorAge) ∧
          j = i ∧ t' = t := by
        simpa [and_assoc] using h
      obtain ⟨inUse, homed⟩ := homePoint_some home
      exact ⟨a, inUse, homed, anchor, tLast, age, (PointState.serving_iff _).mp serves⟩
    next => cases h
  next => cases h

/-! ## The residual of a binding (R71 to R73) -/

section
variable {s : State} {bias value t : Int} {b : Binding} {w : ScanWork} {i : PointIx}

theorem ScanWork.test_of_untested (h : testOf s b.cell = none) : w.test s bias b value = w := by
  simp only [ScanWork.test, h]

/-- A residual more than DISAGREE_LIMIT from the bias is a disagreement, and does not enter the mean. -/
theorem ScanWork.test_of_far (h : testOf s b.cell = some (i, t))
    (far : s.latched.disagreeLimit < (t - (value + (s.cellTable.get b.cell).irOffset) - bias).natAbs) :
    w.test s bias b value = { w with tally := w.tally + 1, tests := (i, true) :: w.tests } := by
  simp only [ScanWork.test, h, disagrees, bindingResidual, far, decide_true, if_true]

/-- A residual within it enters the mean if the point is ACTIVE. -/
theorem ScanWork.test_of_near (h : testOf s b.cell = some (i, t))
    (near : (t - (value + (s.cellTable.get b.cell).irOffset) - bias).natAbs ≤ s.latched.disagreeLimit) :
    w.test s bias b value =
      if (s.points.get i).state = .active then
        { w with
          sum := w.sum + (t - (value + (s.cellTable.get b.cell).irOffset)), included := w.included + 1
          tests := (i, false) :: w.tests }
      else { w with tests := (i, false) :: w.tests } := by
  simp [ScanWork.test, h, disagrees, bindingResidual, near.not_gt]

/-- A test touches no cell and skips nothing. -/
theorem ScanWork.test_keeps : (w.test s bias b value).cells = w.cells ∧ (w.test s bias b value).skipped = w.skipped := by
  unfold ScanWork.test
  split
  · exact ⟨rfl, rfl⟩
  · simp only
    split
    · exact ⟨rfl, rfl⟩
    · split <;> exact ⟨rfl, rfl⟩

/-! ## The three cases of a binding (R32) -/

/-- The working state with the cell of a binding touched by the corrected pixel. -/
def ScanWork.touched (s : State) (bias : Int) (b : Binding) (value : Int) (w : ScanWork) : ScanWork :=
  { w with cells := w.cells.upd b.cell (CellRecord.touch s.latched.refreshMin .scanner
      (max 0 (min 12000 (value + (s.cellTable.get b.cell).irOffset + bias))) b.share s.latched.gainIr) }

variable {pixels : List Pixel} {p : Pixel}

theorem ScanWork.binding_of_unused (h : b.inUse = false) : w.binding s bias pixels b = w := by
  simp [ScanWork.binding, h]

/-- A pixel beyond the count is skipped. -/
theorem ScanWork.binding_of_beyond (inUse : b.inUse = true) (beyond : pixels.length ≤ b.pixel.val) :
    w.binding s bias pixels b = { w with skipped := w.skipped + 1 } := by
  simp [ScanWork.binding, inUse, beyond]

/-- A saturated or obscured pixel is skipped. -/
theorem ScanWork.binding_of_flagged (inUse : b.inUse = true) (pixel : pixels[b.pixel.val]? = some p)
    (flagged : p.saturated = true ∨ p.obscured = true) :
    w.binding s bias pixels b = { w with skipped := w.skipped + 1 } := by
  simp only [ScanWork.binding, inUse, pixel, Bool.or_eq_true, flagged, if_true, Bool.not_true, Bool.false_eq_true, if_false]

/-- A clear pixel touches the cell with its corrected value, and is then tested. -/
theorem ScanWork.binding_of_clear (inUse : b.inUse = true) (pixel : pixels[b.pixel.val]? = some p)
    (unsaturated : p.saturated = false) (unobscured : p.obscured = false) :
    w.binding s bias pixels b = (w.touched s bias b p.value).test s bias b p.value := by
  simp [ScanWork.binding, ScanWork.touched, inUse, pixel, unsaturated, unobscured, correctPixel, clampMap_eq]

end

/-! ## What a list of tests does to a point (R52 to R54, R76) -/

/-- A hit if a test of the point disagreed, a clean frame if it was tested and none did, and else nothing. -/
theorem scanOutcome_eq (tests : List (PointIx × Bool)) (i : PointIx) (r : PointRecord) :
    scanOutcome tests i.val r =
      if (i, true) ∈ tests then r.disagreeHit else if (i, false) ∈ tests then r.cleanFrame else r := by
  have hit : (tests.any fun t => decide (t.1.val = i.val) && t.2) = true ↔ (i, true) ∈ tests := by
    simp [Fin.val_inj]
  have tested : (tests.any fun t => decide (t.1.val = i.val)) = true ↔ (i, true) ∈ tests ∨ (i, false) ∈ tests := by
    simp [Fin.val_inj, or_comm]
  unfold scanOutcome
  rw [if_congr hit rfl rfl, if_congr tested rfl rfl]
  split
  · rfl
  · next h => simp [h]

/-- A point that does not serve takes no hit. -/
theorem PointRecord.disagreeHit_of_out {r : PointRecord} (h : r.state ∈ [.unbound, .failed, .excluded]) :
    r.disagreeHit = r := by
  cases e : r.state <;> simp [e, PointRecord.disagreeHit] at h ⊢

/-- A point that does not serve takes no clean frame. -/
theorem PointRecord.cleanFrame_of_out {r : PointRecord} (h : r.state ∈ [.unbound, .failed, .excluded]) :
    r.cleanFrame = r := by
  cases e : r.state <;> simp [e, PointRecord.cleanFrame, PointState.serving] at h ⊢

theorem PointRecord.cleanFrame_of_serving {r : PointRecord} (h : r.state ∈ [.active, .suspect]) :
    r.cleanFrame = { r with disagreeCount := 0 } :=
  if_pos ((PointState.serving_iff _).mpr (by simpa using h))

/-- The third hit in a row makes an ACTIVE point SUSPECT. -/
theorem PointRecord.disagreeHit_of_active {r : PointRecord} (h : r.state = .active) :
    r.disagreeHit = { r with
      disagreeCount := min 3 (r.disagreeCount + 1), cleanCount := 0
      state := if 2 ≤ r.disagreeCount then .suspect else .active
      flags := { r.flags with disagree := r.flags.disagree || decide (2 ≤ r.disagreeCount) } } := by
  by_cases third : 2 ≤ r.disagreeCount <;>
    simp [PointRecord.disagreeHit, h, third, countUp_eq_min, PointRecord.latch, PointFlags.join, flagDisagree,
      PointFlags.clear]

/-- A SUSPECT point latches DISAGREE at its third hit alone, and fails with its sixth bad hit. -/
theorem PointRecord.disagreeHit_of_suspect {r : PointRecord} (h : r.state = .suspect) :
    r.disagreeHit = { r with
      disagreeCount := min 3 (r.disagreeCount + 1), cleanCount := 0, badCount := min 6 (r.badCount + 1)
      state := if 5 ≤ r.badCount then .failed else .suspect
      flags := { r.flags with
        disagree := r.flags.disagree || decide (r.disagreeCount = 2)
        failed := r.flags.failed || decide (5 ≤ r.badCount) } } := by
  by_cases third : r.disagreeCount = 2 <;> by_cases sixth : 5 ≤ r.badCount <;>
    simp [PointRecord.disagreeHit, h, third, sixth, countUp_eq_min, PointRecord.latch, PointRecord.fail, PointFlags.join,
      flagDisagree, flagFailed, PointFlags.clear]

/-- Settles O23. A clear pixel is `touched` and then tested, and the test turns on `testOf` alone, which is some exactly
where the statement's conditions hold; the outcomes are `scanOutcome_eq` with the fields after a hit. -/
theorem scanBindings : Obligations.ScanBindings := by
  refine ⟨fun s bias pixels w b => ⟨ScanWork.binding_of_unused, ScanWork.binding_of_beyond, fun inUse p pixel =>
    ⟨ScanWork.binding_of_flagged inUse pixel, ?clear⟩⟩, fun tests i r => ⟨?untested, ?out, ?clean, ?active, ?suspect⟩⟩
  case clear =>
    rintro unsaturated unobscured offset w' rfl rfl
    rw [ScanWork.binding_of_clear inUse pixel unsaturated unobscured]
    obtain ⟨cells, skipped⟩ := ScanWork.test_keeps (s := s) (bias := bias) (value := p.value) (b := b)
      (w := w.touched s bias b p.value)
    refine ⟨cells, skipped, fun i a t law used homed anchor tLast age serves => ?_, fun lacking => ?_⟩
    · have tested := testOf_of_tested (homePoint_of_home law used homed) anchor tLast age serves
      refine ⟨fun far => ?_, fun near active => ?_, fun near suspect => ?_⟩
      · rw [ScanWork.test_of_far tested far]
        exact ⟨rfl, rfl, rfl, rfl⟩
      · rw [ScanWork.test_of_near tested near, if_pos active]
        exact ⟨rfl, rfl, rfl, rfl⟩
      · rw [ScanWork.test_of_near tested near, if_neg (by simp [suspect])]
        exact ⟨rfl, rfl, rfl, rfl⟩
    · have untested : testOf s b.cell = none := Option.eq_none_iff_forall_ne_some.mpr fun ⟨i, t⟩ h =>
        lacking ((tested_of_testOf h).elim fun a conditions => ⟨i, a, t, conditions⟩)
      rw [ScanWork.test_of_untested untested]
      exact ⟨rfl, rfl, rfl, rfl⟩
  case untested =>
    intro untested
    rw [scanOutcome_eq, if_neg (untested true), if_neg (untested false)]
  case out =>
    intro out
    rw [scanOutcome_eq, PointRecord.disagreeHit_of_out out, PointRecord.cleanFrame_of_out out, ite_self, ite_self]
  case clean =>
    intro serves tested agreed
    rw [scanOutcome_eq, if_neg agreed, if_pos tested, PointRecord.cleanFrame_of_serving serves]
  case active =>
    intro active disagreed
    rw [scanOutcome_eq, if_pos disagreed, PointRecord.disagreeHit_of_active active]
  case suspect =>
    intro suspect disagreed
    rw [scanOutcome_eq, if_pos disagreed, PointRecord.disagreeHit_of_suspect suspect]

end Sys2Proof.Machine

/-! PROOFS. READ-POINT, RESTORE-POINT and EXCLUDE-POINT (R55 to R57): a request that numbers a thing, the two requests
that change a point's record by one rule, and the statement about the three. -/

namespace Sys2Proof.Machine

/-! ## A request that numbers one of `n` things -/

section
variable {n : Nat} {perform : State → Fin n → State × List (List Byte)} {s : State} {r : Request} {b : Byte}

theorem performIndexed_of_toNat (body : r.body = [b]) {i : Fin n} (h : b.toNat = i.val) :
    performIndexed n perform s r = perform s i := by
  simp only [performIndexed, body, indexArg_of_toNat b i h]

theorem performIndexed_beyond (body : r.body = [b]) (h : n ≤ b.toNat) :
    performIndexed n perform s r = (s, plain .badArgument) := by
  have beyond : indexArg n b = none := dif_neg (Nat.not_lt.mpr h)
  simp only [performIndexed, body, beyond]

end

/-! ## A point's record changed -/

section
variable {s t : State} {i : PointIx} {f g : PointRecord → PointRecord}

/-- Two changes that agree on the point's record have the same effect. -/
theorem State.Completes.of_same_change (completes : State.Completes { s with points := s.points.upd i f } t)
    (same : f (s.points.get i) = g (s.points.get i)) : State.Completes { s with points := s.points.upd i g } t := by
  rwa [Table.upd, same] at completes

/-- A change that keeps the point's record as it is changes nothing. -/
theorem State.Completes.of_no_change (completes : State.Completes { s with points := s.points.upd i f } t)
    (fixed : f (s.points.get i) = s.points.get i) : State.Completes s t := by
  rwa [Table.upd, fixed, Table.set_get] at completes

end

/-! ## The two changes of a point's record -/

/-- A FAILED or EXCLUDED point becomes ACTIVE (R55). -/
theorem PointRecord.restore_of_out {x : PointRecord} (h : x.state ∈ [.failed, .excluded]) :
    x.restore = { x with
      state := .active, rangeCount := 0, badCount := 0, cleanCount := 0, disagreeCount := 0
      flags := { x.flags with recovered := true } } := by
  cases e : x.state <;>
    simp [e, PointRecord.restore, PointRecord.latch, PointRecord.zeroCounts, PointFlags.join, flagRecovered,
      PointFlags.clear] at h ⊢

/-- A point in any other state is kept as it is (R55). -/
theorem PointRecord.restore_of_other {x : PointRecord} (h : x.state ∈ [.active, .suspect, .unbound]) : x.restore = x := by
  cases e : x.state <;> simp [e, PointRecord.restore] at h ⊢

/-- An ACTIVE, SUSPECT or FAILED point becomes EXCLUDED (R56). -/
theorem PointRecord.exclude_of_in {x : PointRecord} (h : x.state ∈ [.active, .suspect, .failed]) :
    x.exclude = { x with
      state := .excluded, rangeCount := 0, badCount := 0, cleanCount := 0, disagreeCount := 0 } := by
  cases e : x.state <;> simp [e, PointRecord.exclude, PointRecord.zeroCounts] at h ⊢

/-- A point in any other state is kept as it is (R56). -/
theorem PointRecord.exclude_of_other {x : PointRecord} (h : x.state ∈ [.excluded, .unbound]) : x.exclude = x := by
  cases e : x.state <;> simp [e, PointRecord.exclude] at h ⊢

/-! ## A request that changes the record of one in-use point -/

/-- The common rule of RESTORE-POINT and EXCLUDE-POINT: `f` changes the record, where the slot is in use. -/
def performChange (f : PointRecord → PointRecord) : State → Request → State × List (List Byte) :=
  performIndexed 96 fun s i =>
    if (s.pointTable.get i).inUse then ({ s with points := s.points.upd i f }, plain .ok) else (s, plain .badArgument)

section
variable {s : State} {r : Request} {b : Byte} {kind : Byte} {f : PointRecord → PointRecord}

/-- A number beyond the points is answered BAD-ARGUMENT, whatever the request would do with a point. -/
theorem serveIndexed_beyond {n : Nat} {perform : State → Fin n → State × List (List Byte)} (performs : s.Performs kind r)
    (body : r.body = [b]) (h : n ≤ b.toNat) :
    s.Answers (s.serveMapSide kind (performIndexed n perform)) r [[0x13]] ∧
      State.Completes s (s.serveMapSide kind (performIndexed n perform)) :=
  serveMapSide_spec performs (performIndexed_beyond body h) rfl

/-- A slot not in use is answered BAD-ARGUMENT, and nothing changes. -/
theorem serveChange_of_unused (performs : s.Performs kind r) (body : r.body = [b]) {i : PointIx} (h : b.toNat = i.val)
    (unused : (s.pointTable.get i).inUse = false) :
    s.Answers (s.serveMapSide kind (performChange f)) r [[0x13]] ∧
      State.Completes s (s.serveMapSide kind (performChange f)) :=
  serveMapSide_spec performs ((performIndexed_of_toNat body h).trans (if_neg (by simp [unused]))) rfl

/-- A point in use is answered OK, and its record changes by the rule. -/
theorem serveChange_of_inUse (performs : s.Performs kind r) (body : r.body = [b]) {i : PointIx} (h : b.toNat = i.val)
    (inUse : (s.pointTable.get i).inUse = true) :
    s.Answers (s.serveMapSide kind (performChange f)) r [[0x00]] ∧
      State.Completes { s with points := s.points.upd i f } (s.serveMapSide kind (performChange f)) :=
  serveMapSide_spec performs ((performIndexed_of_toNat body h).trans (if_pos inUse)) rfl

end

/-! ## The three requests -/

/-- A POINTS slot, with its spread entries as one list (Table 10-7). -/
theorem PointEntry.bytes_eq (e : PointEntry) :
    e.bytes = [byteOfBool e.inUse, byteOf e.port.val, byteOf e.channel.val] ++ bytes16 e.home.val ++ bytes16 e.stepLimit ++
      [byteOf e.spread.length] ++ ((e.spread.take 4).flatMap fun y => bytes16 y.cell.val ++ [byteOf y.share]) ++
      List.replicate (3 * (4 - e.spread.length)) 0 := by
  rw [PointEntry.bytes, spreadBytes_eq, List.append_assoc _ (List.flatMap _ _)]

/-- READ-POINT answers the entry and the record, and clears the counters and the flags (R57). -/
theorem readPoint_spec {s : State} {r : Request} {b : Byte} (performs : s.Performs 0x30 r) (body : r.body = [b])
    {i : PointIx} (h : b.toNat = i.val) :
    s.Answers (s.serveMapSide 0x30 performReadPoint) r
        (answer .ok (pointContent i.val (s.pointTable.get i) (s.points.get i))) ∧
      State.Completes { s with points := s.points.upd i PointRecord.read } (s.serveMapSide 0x30 performReadPoint) :=
  serveMapSide_spec performs (performIndexed_of_toNat body h) rfl

theorem exec_readPoint (s : State) : exec .readPoint s = .next (s.serveMapSide 0x30 performReadPoint) := rfl

theorem exec_restorePoint (s : State) :
    exec .restorePoint s = .next (s.serveMapSide 0x31 (performChange PointRecord.restore)) := rfl

theorem exec_excludePoint (s : State) :
    exec .excludePoint s = .next (s.serveMapSide 0x32 (performChange PointRecord.exclude)) := rfl

/-- Settles O49. Each request is its rule on the point that its byte numbers; what is left is the layout of the reply of
READ-POINT, and which states of a point the two changes move. -/
theorem pointRequests : Obligations.PointRequests := by
  refine ⟨rfl, fun s r b _ body => ⟨fun performs => ?read, fun performs => ?restore, fun performs => ?exclude⟩⟩
  case read =>
    refine ⟨_, exec_readPoint s, fun beyond => serveIndexed_beyond performs body beyond, ?_⟩
    rintro i e x number rfl rfl
    obtain ⟨answers, completes⟩ := readPoint_spec performs body number
    have sent : byteOf i.val = b := by rw [← number, byteOf, BitVec.ofNat_toNat, BitVec.setWidth_eq]
    rw [pointContent, PointEntry.bytes_eq, sent] at answers
    exact ⟨answers, completes⟩
  case restore =>
    refine ⟨_, exec_restorePoint s, fun beyond => serveIndexed_beyond performs body beyond, fun i number =>
      ⟨serveChange_of_unused performs body number, fun inUse => ?_⟩⟩
    obtain ⟨answers, completes⟩ := serveChange_of_inUse (f := PointRecord.restore) performs body number inUse
    exact ⟨answers, fun out => completes.of_same_change (PointRecord.restore_of_out out),
      fun other => completes.of_no_change (PointRecord.restore_of_other other)⟩
  case exclude =>
    refine ⟨_, exec_excludePoint s, fun beyond => serveIndexed_beyond performs body beyond, fun i number =>
      ⟨serveChange_of_unused performs body number, fun inUse => ?_⟩⟩
    obtain ⟨answers, completes⟩ := serveChange_of_inUse (f := PointRecord.exclude) performs body number inUse
    exact ⟨answers, fun serves => completes.of_same_change (PointRecord.exclude_of_in serves),
      fun other => completes.of_no_change (PointRecord.exclude_of_other other)⟩

end Sys2Proof.Machine

/-! PROOFS. HELLO on a field port (R87): what a good frame that a command knows does to the state, what a step that moves
ports alone leaves as it was, what each body of a HELLO makes of the port, and the statement about it. -/

namespace Sys2Proof.Machine

/-! ## A good-CRC frame of a kind the command takes -/

theorem frameEffect_good {wanted : Byte → Bool} {handle : Byte → Bool → List Byte → State → State} {kind tag : Byte}
    {body : List Byte} (h : wanted kind = true) :
    frameEffect wanted handle (.good kind tag body) = some (handle kind (toggleOf tag) body) :=
  if_pos h

/-- Bytes that end with a good-CRC frame of the command's kind have the effect of that frame, in a port that hunts again
(R82). -/
theorem fieldStep_of_good {s : State} {port : PortIx} {bytes body : List Byte} {kind tag : Byte} {wanted : Byte → Bool}
    {handle : Byte → Bool → List Byte → State → State} (high : s.resetLow = false)
    (received : receive (s.ports.get port).assembly bytes = (.good kind tag body, [])) (known : wanted kind = true) :
    s.fieldStep port bytes (frameEffect wanted handle) =
      State.conclude s (handle kind (toggleOf tag) body (s.fieldAssemble port [])) := by
  simp only [State.fieldStep, high, Bool.false_eq_true, if_false, received, frameEffect_good known]

/-! ## A step that moves the ports alone -/

section
variable {s : State} (q : Table 8 PortRecord)

theorem State.body_withPorts : ({ s with ports := q } : State).body = { s.body with ports := q } := rfl

/-- The end of a step whose effect is on the ports alone: no reply, no claim on the map, and the Event Unit's copy of the
in-map flags stays (R14, R149). -/
theorem conclude_withPorts (settled : s.Settled) :
    s.NoReply (State.conclude s { s with ports := q }) ∧
      (State.conclude s { s with ports := q }).events.copy = s.events.copy ∧
      (State.conclude s { s with ports := q }).arbiter = s.arbiter ∧
      (State.conclude s { s with ports := q }).body = { s.body with ports := q } :=
  ⟨settled.noReply (s' := { s with ports := q }) rfl rfl rfl s, by rw [copy_conclude],
    (arbiter_conclude _ _).trans (arbiter_of_no_claim (s' := { s with ports := q }) settled rfl rfl rfl),
    by rw [body_conclude, State.body_withPorts]⟩

end

/-! ## What a HELLO makes of the port (R87) -/

/-- A body other than the two of R87 declares no unit: one byte of another value, or a body of another length. -/
theorem helloKind_of_malformed {body : List Byte} (notPoints : body ≠ [0x00]) (notScanner : body ≠ [0x01]) :
    helloKind body = none := by
  match body with
  | [] => rfl
  | _ :: _ :: _ => rfl
  | [b] =>
    have nonzero : b.toNat ≠ 0 := fun h => notPoints (congrArg (fun x => [x]) (BitVec.eq_of_toNat_eq h))
    have notOne : b.toNat ≠ 1 := fun h => notScanner (congrArg (fun x => [x]) (BitVec.eq_of_toNat_eq h))
    simp only [helloKind]

theorem helloKind_of_unit {body : List Byte} {unit : UnitKind}
    (h : (body = [0x00] ∧ unit = .points) ∨ (body = [0x01] ∧ unit = .scanner)) : helloKind body = some unit := by
  obtain ⟨rfl, rfl⟩ | ⟨rfl, rfl⟩ := h <;> rfl

section
variable {p : PortRecord} {body : List Byte} {toggle : Bool}

/-- A HELLO that declares a unit makes the port LIVE with it. -/
theorem PortRecord.hello_of_unit {unit : UnitKind} (h : helloKind body = some unit) :
    p.hello body toggle = { p with
      state := .live, unitKind := some unit, expectedToggle := false, flags := { p.flags with hello := true }
      answers := placed p.answers ⟨.ack, toggle⟩ } := by
  simp only [PortRecord.hello, h, PortRecord.place_eq]

/-- A HELLO that declares none is refused with BAD-BODY. -/
theorem PortRecord.hello_of_malformed (h : helloKind body = none) :
    p.hello body toggle = { p with
      refused := min 255 (p.refused + 1), flags := { p.flags with refused := true }
      answers := placed p.answers ⟨.refuse .badBody, toggle⟩ } := by
  simp only [PortRecord.hello, h, PortRecord.refuse, PortRecord.place_eq, countUp_eq_min]

end

/-! ## The command -/

/-- The port takes the HELLO as it has heard it (R82, R86); nothing else moves. -/
theorem handleHello_fieldAssemble (s : State) (port : PortIx) (toggle : Bool) (body : List Byte) :
    (s.fieldAssemble port []).handleHello port toggle body =
      { s with ports := s.ports.set port ((s.ports.get port).afterGoodFrame.hello body toggle) } := by
  have ports : (s.fieldAssemble port []).ports.upd port (fun p => p.heard.hello body toggle) =
      s.ports.set port ((s.ports.get port).afterGoodFrame.hello body toggle) := by
    rw [Table.upd, State.fieldAssemble, set_upd_same, Table.get_upd_self, PortRecord.heard_eq]
  exact congrArg (fun q => { s with ports := q }) ports

/-- HELLO_FRAME with a good-CRC HELLO. -/
theorem exec_helloFrame_of_good {s : State} {port : PortIx} {bytes body : List Byte} {tag : Byte}
    (high : s.resetLow = false)
    (received : receive (s.ports.get port).assembly bytes = (.good kindHello tag body, [])) :
    exec (.helloFrame port bytes) s = .next (State.conclude s { s with
      ports := s.ports.set port ((s.ports.get port).afterGoodFrame.hello body (tag.getLsbD 0)) }) := by
  have exec_eq : exec (.helloFrame port bytes) s = execHelloFrame port bytes s := rfl
  rw [exec_eq, execHelloFrame, fieldStep_of_good high received (decide_eq_true rfl), handleHello_fieldAssemble, toggleOf]

/-- Settles O57. The step moves the ports alone, so all but the port's new record is the end of such a step; the record
is the rule of R87 by whether the body declares a unit. -/
theorem helloAnnouncesTheUnit : Obligations.HelloAnnouncesTheUnit := by
  rintro s port bytes body tag p settled high received rfl
  obtain ⟨noReply, copy, arbiter, rest⟩ := conclude_withPorts
    (s.ports.set port ((s.ports.get port).afterGoodFrame.hello body (tag.getLsbD 0))) settled
  refine ⟨_, exec_helloFrame_of_good high received, noReply, copy, arbiter, fun unit declared => ?_,
    fun notPoints notScanner => ?_⟩
  · rw [rest, PortRecord.hello_of_unit (helloKind_of_unit declared)]
  · rw [rest, PortRecord.hello_of_malformed (helloKind_of_malformed notPoints notScanner)]

end Sys2Proof.Machine

/-! PROOFS. START and STOP (R122, R123): the rule of each in each mode, and the statement about them. -/

namespace Sys2Proof.Machine

/-! ## The holds and the cells -/

/-- One of the five hold records is set: the host's, or that of a line (R124). -/
theorem MapState.anyHold_iff (m : MapState) : m.anyHold = true ↔ m.hostHold = true ∨ ∃ n, m.lineHold.get n = true := by
  rw [MapState.anyHold, Bool.or_eq_true, Table.any_iff]
  rfl

/-- An effect on every cell and on the map, seen from the completed operation: the cells are the changed ones. -/
theorem State.Completes.of_map_cells {s t : State} {f : CellRecord → CellRecord} {m : MapState}
    (completes : State.Completes { s with cells := s.cells.map f, map := m } t) :
    State.Completes { s with cells := t.cells, map := m } t ∧ ∀ c, t.cells.get c = f (s.cells.get c) := by
  have cells : t.cells = s.cells.map f := completes.cells_eq
  rw [cells]
  exact ⟨completes, fun c => Table.get_map f s.cells c⟩

/-! ## The two rules, mode by mode -/

section
variable {s : State} (r : Request)

/-- START in COMMISSIONING: alert states NORMAL, and the mode by the hold records. -/
theorem performStart_of_commissioning (mode : s.map.mode = .commissioning) :
    performStart s r = ({ s with
      cells := s.cells.map CellRecord.alertNormal
      map := { s.map with
        mode := if s.map.hostHold = true ∨ ∃ n, s.map.lineHold.get n = true then .held else .running } },
      plain .ok) := by
  simp only [performStart, mode, MapState.anyHold_iff]

theorem performStart_of_other (mode : s.map.mode ≠ .commissioning) : performStart s r = (s, plain .wrongMode) := by
  unfold performStart
  split
  case h_1 commissioning => exact absurd commissioning mode
  all_goals rfl

theorem performStop_of_running (mode : s.map.mode = .running) :
    performStop s r = ({ s with map := { s.map with mode := .commissioning } }, plain .ok) := by
  simp only [performStop, mode]

/-- STOP in HELD rebases on the way out (R126). -/
theorem performStop_of_held (mode : s.map.mode = .held) :
    performStop s r = ({ s with
      cells := s.cells.map CellRecord.rebase, map := { s.map with mode := .commissioning } }, plain .ok) := by
  simp only [performStop, mode, State.rebase]

theorem performStop_of_other (mode : s.map.mode = .blank ∨ s.map.mode = .commissioning) :
    performStop s r = (s, plain .wrongMode) := by
  obtain mode | mode := mode <;> simp only [performStop, mode]

end

/-! ## The requests -/

theorem exec_start (s : State) : exec .start s = .next (s.serveMapSide 0x10 performStart) := rfl

theorem exec_stop (s : State) : exec .stop s = .next (s.serveMapSide 0x11 performStop) := rfl

/-- Settles O44. In each mode the request completes with the effect of its rule there; where the rule changes every cell,
the cells are read off the completed operation. -/
theorem startAndStop : Obligations.StartAndStop := by
  refine fun s r _ => ⟨fun performs => ⟨_, exec_start s, fun mode => ?started, fun mode => ?notStarted⟩,
    fun performs => ⟨_, exec_stop s, fun mode => ?stopped, fun mode => ?released, fun mode => ?notStopped⟩⟩
  case started =>
    obtain ⟨answers, completes⟩ := serveMapSide_spec performs (performStart_of_commissioning r mode) rfl
    exact ⟨answers, completes.of_map_cells⟩
  case notStarted => exact serveMapSide_spec performs (performStart_of_other r mode) rfl
  case stopped => exact serveMapSide_spec performs (performStop_of_running r mode) rfl
  case released =>
    obtain ⟨answers, completes⟩ := serveMapSide_spec performs (performStop_of_held r mode) rfl
    exact ⟨answers, completes.of_map_cells⟩
  case notStopped => exact serveMapSide_spec performs (performStop_of_other r mode) rfl

end Sys2Proof.Machine

/-! PROOFS. STAGE-OPEN and STAGE-CLEAR (R136, R138): which target a table byte and a page byte name, what a request that
changes the stage alone does, the rule of each of the two requests, and the statement about them. -/

namespace Sys2Proof.Machine

/-! ## Naming a target (Table 8-1, R134) -/

/-- Table 8-1: the code of each table, the number of its pages and the last slot of a page. -/
def tableRows : List (Nat × Nat × Nat) := [(0, 64, 31), (1, 3, 31), (2, 32, 31), (3, 1, 7)]

section
variable {table page : Byte}

theorem parseTarget_of_cells (h : table.toNat = 0) : parseTarget table page = (indexArg 64 page).map .cells := by
  simp only [parseTarget, h]

theorem parseTarget_of_points (h : table.toNat = 1) : parseTarget table page = (indexArg 3 page).map .points := by
  simp only [parseTarget, h]

theorem parseTarget_of_views (h : table.toNat = 2) : parseTarget table page = (indexArg 32 page).map .views := by
  simp only [parseTarget, h]

theorem parseTarget_of_limits (h : table.toNat = 3) :
    parseTarget table page = if page.toNat = 0 then some .limits else none := by
  simp only [parseTarget, h]

theorem parseTarget_of_unknown_table (h : 3 < table.toNat) : parseTarget table page = none := by
  unfold parseTarget
  split
  case h_5 => rfl
  all_goals omega

/-- A byte in the range of an index is that index. -/
theorem indexArg_of_lt {n : Nat} {b : Byte} (h : b.toNat < n) : indexArg n b = some ⟨b.toNat, h⟩ := dif_pos h

theorem indexArg_of_le {n : Nat} {b : Byte} (h : n ≤ b.toNat) : indexArg n b = none := dif_neg (Nat.not_lt.mpr h)

variable {pages last : Nat}

/-- A page within its table is a target, with the table's last slot. -/
theorem parseTarget_of_page_lt (row : (table.toNat, pages, last) ∈ tableRows) (h : page.toNat < pages) :
    ∃ g, parseTarget table page = some g ∧ g.table = table.toNat ∧ g.page = page.toNat ∧ g.lastSlot = last := by
  simp only [tableRows, List.mem_cons, Prod.mk.injEq, List.not_mem_nil, or_false] at row
  obtain ⟨code, rfl, rfl⟩ | ⟨code, rfl, rfl⟩ | ⟨code, rfl, rfl⟩ | ⟨code, rfl, rfl⟩ := row
  · exact ⟨.cells ⟨_, h⟩, by rw [parseTarget_of_cells code, indexArg_of_lt h]; rfl, code.symm, rfl, rfl⟩
  · exact ⟨.points ⟨_, h⟩, by rw [parseTarget_of_points code, indexArg_of_lt h]; rfl, code.symm, rfl, rfl⟩
  · exact ⟨.views ⟨_, h⟩, by rw [parseTarget_of_views code, indexArg_of_lt h]; rfl, code.symm, rfl, rfl⟩
  · have zero : page.toNat = 0 := Nat.lt_one_iff.mp h
    exact ⟨.limits, by rw [parseTarget_of_limits code, if_pos zero], code.symm, zero.symm, rfl⟩

/-- A page beyond its table names nothing. -/
theorem parseTarget_of_page_beyond (row : (table.toNat, pages, last) ∈ tableRows) (h : pages ≤ page.toNat) :
    parseTarget table page = none := by
  simp only [tableRows, List.mem_cons, Prod.mk.injEq, List.not_mem_nil, or_false] at row
  obtain ⟨code, rfl, rfl⟩ | ⟨code, rfl, rfl⟩ | ⟨code, rfl, rfl⟩ | ⟨code, rfl, rfl⟩ := row
  · rw [parseTarget_of_cells code, indexArg_of_le h, Option.map_none]
  · rw [parseTarget_of_points code, indexArg_of_le h, Option.map_none]
  · rw [parseTarget_of_views code, indexArg_of_le h, Option.map_none]
  · rw [parseTarget_of_limits code, if_neg (Nat.pos_iff_ne_zero.mp h)]

/-- A target that the bytes name within the table has the table's last slot. -/
theorem lastSlot_of_parseTarget (row : (table.toNat, pages, last) ∈ tableRows) {g : Target}
    (named : parseTarget table page = some g) : g.lastSlot = last := by
  obtain within | beyond := Nat.lt_or_ge page.toNat pages
  · obtain ⟨g', named', _, _, slot⟩ := parseTarget_of_page_lt row within
    obtain rfl : g' = g := Option.some.inj (named'.symm.trans named)
    exact slot
  · exact absurd (named.symm.trans (parseTarget_of_page_beyond row beyond)) nofun

end

/-! ## A request that changes the stage alone -/

/-- The Event Unit looks at its copy of INSTALLED and DROPPED and not at the stage (R149), and the arbiter never looks at
the stage, so the change and the reply are all that happens. -/
theorem serveDirect_changes_stage {s : State} {r : Request} {kind : Byte} {serve : State → Request → State × List (List Byte)}
    {g : Stage} {parts : List (List Byte)} (settled : s.Settled) (takes : s.Takes kind r)
    (length : goodLength kind r.body.length = true) (rule : serve s r = ({ s with stage := g }, parts)) :
    s.Answers (s.serveDirect kind serve) r parts ∧
      (s.serveDirect kind serve).apartFromReply = { s with stage := g }.apartFromReply :=
  serveDirect_changes settled takes length rule rfl rfl rfl rfl rfl rfl rfl

/-! ## The two rules -/

section
variable {s : State} {r : Request}

theorem serveStageOpen_of_target {table page first : Byte} {g : Target} (body : r.body = [table, page, first])
    (named : parseTarget table page = some g) (slot : first.toNat ≤ g.lastSlot) :
    serveStageOpen s r = ({ s with stage := s.stage.opened g first.toNat }, plain .ok) := by
  simp only [serveStageOpen, body, named, if_pos slot]

/-- The bytes name no target, or one whose page ends below the first slot. -/
theorem serveStageOpen_of_no_slot {table page first : Byte} (body : r.body = [table, page, first])
    (none_named : ∀ g, parseTarget table page = some g → g.lastSlot < first.toNat) :
    serveStageOpen s r = (s, plain .badArgument) := by
  cases named : parseTarget table page with
  | none => simp only [serveStageOpen, body, named]
  | some g => simp only [serveStageOpen, body, named, if_neg (Nat.not_le.mpr (none_named g named))]

theorem serveStageClear_of_closed (closed : s.stage.target = none) : serveStageClear s r = (s, plain .stageClosed) := by
  simp only [serveStageClear, closed]

/-- An open stage is emptied and keeps its target. -/
theorem serveStageClear_of_open (isOpen : s.stage.target ≠ none) :
    serveStageClear s r = ({ s with stage := { s.stage with
      slots := Table.replicate 32 none, pointer := 0, overrun := false } }, plain .ok) := by
  obtain ⟨g, target⟩ := Option.ne_none_iff_exists'.mp isOpen
  simp only [serveStageClear, Stage.opened, target]

end

/-! ## The requests -/

theorem exec_stageOpen (s : State) : exec .stageOpen s = .next (s.serveDirect 0x50 serveStageOpen) := rfl

theorem exec_stageClear (s : State) : exec .stageClear s = .next (s.serveDirect 0x52 serveStageClear) := rfl

/-- Settles O52. A request that is refused only reads; one that is answered OK changes the stage alone. Which of the two
a STAGE-OPEN is, Table 8-1 says row by row. -/
theorem stageOpenAndClear : Obligations.StageOpenAndClear := by
  constructor
  case left =>
    intro s r table page first settled takes body
    have length : goodLength 0x50 r.body.length = true := by rw [body]; rfl
    have refused (h : ∀ g, parseTarget table page = some g → g.lastSlot < first.toNat) :
        s.Answers (s.serveDirect 0x50 serveStageOpen) r [[0x13]] ∧
          (s.serveDirect 0x50 serveStageOpen).apartFromReply = s.apartFromReply :=
      serveDirect_reads settled takes length (serveStageOpen_of_no_slot body h)
    refine ⟨_, exec_stageOpen s, fun pages last row => ⟨fun within slot => ?opened, fun beyond => refused ?beyond⟩,
      fun unknown => refused fun g named => absurd (named.symm.trans (parseTarget_of_unknown_table unknown)) nofun⟩
    case opened =>
      obtain ⟨g, named, isTable, isPage, rfl⟩ := parseTarget_of_page_lt row within
      exact ⟨g, named, isTable, isPage,
        serveDirect_changes_stage settled takes length (serveStageOpen_of_target body named slot)⟩
    case beyond =>
      intro g named
      obtain pageBeyond | slotBeyond := beyond
      · exact absurd (named.symm.trans (parseTarget_of_page_beyond row pageBeyond)) nofun
      · exact lastSlot_of_parseTarget row named ▸ slotBeyond
  case right =>
    intro s r settled takes body
    have length : goodLength 0x52 r.body.length = true := by rw [body]; rfl
    exact ⟨_, exec_stageClear s,
      fun closed => serveDirect_reads settled takes length (serveStageClear_of_closed closed),
      fun isOpen => serveDirect_changes_stage settled takes length (serveStageClear_of_open isOpen)⟩

end Sys2Proof.Machine

/-! PROOFS. IDENTIFY and READ-LINK-STATUS (R164, R165): what a received frame does to the bad-CRC counter (R157), and the
statements about the two requests. -/

namespace Sys2Proof.Machine

/-! ## The bad-CRC counter along a step (R157) -/

/-- The end of a step leaves the counter alone. -/
theorem badCrc_conclude (old s : State) : (State.conclude old s).host.badCrc = s.host.badCrc := by
  rw [State.conclude, State.arbitrate_host, State.transmit_host_badCrc, State.takeEvent_host]

/-- A good request is not counted, whether it joins the buffer, is answered BUSY or is discarded (R158, R159). -/
theorem badCrc_receiveRequest (s : State) (r : Request) : (s.receiveRequest r).host.badCrc = s.host.badCrc := by
  rw [State.receiveRequest]
  split
  case isTrue => rfl
  case isFalse => split <;> rfl

/-- Bytes that end with an event of the command have its effect, in a receiver that hunts again. -/
theorem exec_hostFrameReceived_of_event {s : State} {bytes : List Byte} {event : RxEvent} {effect : State → State}
    (high : s.resetLow = false) (received : receive s.host.assembly bytes = (event, []))
    (known : hostFrameEffect event = some effect) :
    exec (.hostFrameReceived bytes) s = .next (State.conclude s (effect (s.hostAssemble []))) := by
  have exec_eq : exec (.hostFrameReceived bytes) s = .next (s.hostStep bytes hostFrameEffect) := rfl
  rw [exec_eq, State.hostStep, high, received]
  cases event with
  | partialFrame a | badLength => exact absurd known nofun
  | badCrc | good kind tag body => simp only [Bool.false_eq_true, if_false, known]

/-- The counter after such a step is the one its event's effect leaves. -/
theorem badCrc_of_hostFrameReceived {s t : State} {bytes : List Byte} {event : RxEvent} {effect : State → State}
    (high : s.resetLow = false) (step : exec (.hostFrameReceived bytes) s = .next t)
    (received : receive s.host.assembly bytes = (event, [])) (known : hostFrameEffect event = some effect) :
    t.host.badCrc = (effect (s.hostAssemble [])).host.badCrc := by
  rw [exec_hostFrameReceived_of_event high received known] at step
  obtain rfl := Host.Outcome.next.inj step
  exact badCrc_conclude s _

/-! ## The requests -/

theorem exec_identify (s : State) : exec .identify s = .next (s.serveDirect 0x01 serveIdentify) := rfl

theorem exec_readLinkStatus (s : State) :
    exec .readLinkStatus s = .next (s.serveDirect 0x05 serveReadLinkStatus) := rfl

theorem serveIdentify_eq (s : State) (r : Request) :
    serveIdentify s r = (s, [[0x00, 0x24, 0x80, 3, 0x08, 0x00, 96, 16, 64, 8, 8, 16, 32, 4, 4]]) := rfl

theorem serveReadLinkStatus_eq (s : State) (r : Request) :
    serveReadLinkStatus s r =
      ({ s with host := { s.host with badCrc := 0 } }, [[0x00, BitVec.ofNat 8 s.host.badCrc]]) := rfl

/-- Settles O36. The rule of IDENTIFY only reads, and its reply is the same from every state. -/
theorem identifyReply : Obligations.IdentifyReply := by
  intro s r settled takes body
  have length : goodLength 0x01 r.body.length = true := by rw [body]; rfl
  exact ⟨_, exec_identify s, serveDirect_reads settled takes length (serveIdentify_eq s r)⟩

/-- Settles O37. The request changes the counter alone, at which neither the Event Unit nor the arbiter looks; of the two
events of a received frame only the bad CRC counts, and the end of the step counts nothing. -/
theorem linkStatusReadAndCleared : Obligations.LinkStatusReadAndCleared := by
  refine ⟨fun s r settled takes body => ?readAndCleared, fun s t bytes high step =>
    ⟨fun received => ?counted, fun k tag body received => ?notCounted⟩⟩
  case readAndCleared =>
    have length : goodLength 0x05 r.body.length = true := by rw [body]; rfl
    exact ⟨_, exec_readLinkStatus s,
      serveDirect_changes settled takes length (serveReadLinkStatus_eq s r) rfl rfl rfl rfl rfl rfl rfl⟩
  case counted =>
    rw [badCrc_of_hostFrameReceived high step received rfl, State.countBadCrc_host_badCrc, countUp_eq_min,
      State.hostAssemble_host_badCrc]
  case notCounted =>
    rw [badCrc_of_hostFrameReceived high step received rfl, badCrc_receiveRequest, State.hostAssemble_host_badCrc]

end Sys2Proof.Machine

/-! PROOFS. GET (R163): the stored values by the rows of Table 10-3, the two answers of the rule, and the statement about
it. -/

namespace Sys2Proof.Machine

/-! ## The stored value of each id (Table 10-3) -/

theorem EpochMode.code_eq (m : EpochMode) : m.code = if m = .single then 1 else 0 := by
  cases m <;> rfl

/-- The ids of Table 10-3, each with the value that the store holds. -/
def settingRows (g : Settings) : List (Nat × Nat) :=
  [(0x01, g.epochPeriod), (0x02, if g.epochMode = .single then 1 else 0), (0x03, if g.epochRun then 1 else 0),
    (0x10, g.gainTc), (0x11, g.gainIr), (0x12, g.refreshMin), (0x13, g.staleAge), (0x14, g.hotFloor),
    (0x20, g.disagreeLimit), (0x21, g.anchorAge), (0x22, g.biasGain), (0x30, g.silenceLimit),
    (0x40, (g.lineEdge.get 0).code), (0x41, (g.lineEdge.get 1).code), (0x42, (g.lineEdge.get 2).code),
    (0x43, (g.lineEdge.get 3).code), (0x48, (g.lineAction.get 0).code), (0x49, (g.lineAction.get 1).code),
    (0x4A, (g.lineAction.get 2).code), (0x4B, (g.lineAction.get 3).code), (0x50, g.eventEnable.toNat),
    (0x51, g.eventUrgent.toNat)]

/-- An id of the table has the value of its row. -/
theorem settingValue_of_mem {g : Settings} {n v : Nat} (row : (n, v) ∈ settingRows g) : settingValue g n = some v := by
  have mode : settingValue g 0x02 = some (if g.epochMode = .single then 1 else 0) :=
    congrArg some (EpochMode.code_eq g.epochMode)
  have values : ∀ row ∈ settingRows g, settingValue g row.1 = some row.2 := by
    simp only [settingRows, List.forall_mem_cons]
    exact ⟨rfl, mode, rfl, rfl, rfl, rfl, rfl, rfl, rfl, rfl, rfl, rfl, rfl, rfl, rfl, rfl, rfl, rfl, rfl, rfl, rfl, rfl,
      nofun⟩
  exact values (n, v) row

/-- Any other id has none: it is no line's either. -/
theorem settingValue_of_not_mem {g : Settings} {n : Nat} (unknown : n ∉ (settingRows g).map Prod.fst) :
    settingValue g n = none := by
  simp only [settingRows, List.map_cons, List.map_nil, List.mem_cons, List.not_mem_nil, or_false, not_or] at unknown
  have noEdge : lineOfEdgeId n = none := dif_neg (by omega)
  have noAction : lineOfActionId n = none := dif_neg (by omega)
  unfold settingValue
  split
  case h_15 => rw [noEdge, noAction]
  all_goals omega

/-! ## The request -/

theorem exec_get (s : State) : exec .get s = .next (s.serveDirect 0x03 serveGet) := rfl

section
variable {s : State} {r : Request} {id : Byte}

theorem serveGet_of_some {v : Nat} (body : r.body = [id]) (value : settingValue s.settings id.toNat = some v) :
    serveGet s r = (s, [[0x00, id, BitVec.ofNat 8 (v / 256), BitVec.ofNat 8 v]]) := by
  simp only [serveGet, body, value]
  rfl

theorem serveGet_of_none (body : r.body = [id]) (value : settingValue s.settings id.toNat = none) :
    serveGet s r = (s, [[0x13]]) := by
  simp only [serveGet, body, value]
  rfl

/-- GET only reads, whatever the id. -/
theorem serveGet_fst (s : State) (r : Request) : (serveGet s r).1 = s := by
  unfold serveGet
  split
  · split <;> rfl
  · rfl

end

/-- Settles O38. The rule of GET only reads, and what it answers is what Table 10-3 gives the id. -/
theorem getReturnsTheStoredValue : Obligations.GetReturnsTheStoredValue := by
  rintro s r id g settled takes body rfl
  have length : goodLength 0x03 r.body.length = true := by rw [body]; rfl
  have served {parts : List (List Byte)} (rule : serveGet s r = (s, parts)) :
      s.Answers (s.serveDirect 0x03 serveGet) r parts ∧
        (s.serveDirect 0x03 serveGet).apartFromReply = s.apartFromReply :=
    serveDirect_reads settled takes length rule
  refine ⟨_, exec_get s, (served (Prod.ext (serveGet_fst s r) rfl)).2, ?known, fun unknown => ?unknown⟩
  case known =>
    rintro _ v rfl row
    exact (served (serveGet_of_some body (settingValue_of_mem row))).1
  case unknown => exact (served (serveGet_of_none body (settingValue_of_not_mem unknown))).1

end Sys2Proof.Machine
/-! PROOFS. What a command can do, said once: the changes it can make before the end of the step, by the blocks that make
them, and the end of the step. The laws that every step keeps are proved over these changes. -/

namespace Sys2Proof.Machine

/-! ## The changes -/

/-- A change with which a command ends at once: neither the Event Unit nor the transmitter nor the arbiter has anything to
do. -/
inductive QuietEffect (s : State) : Instr → State → Prop
  | fullReset : QuietEffect s .fullReset (State.fullReset (s.lines.map LineRecord.pin) true s.pending)
  /-- Bytes on HRXD that end no frame stay in assembly (R157). -/
  | hostBytes (c : Instr) (a : List Byte) : s.resetLow = false → QuietEffect s c (s.hostAssemble a)
  /-- Bytes on a port that end no frame stay in assembly (R82). -/
  | fieldBytes (c : Instr) (p : PortIx) (a : List Byte) : s.resetLow = false → QuietEffect s c (s.fieldAssemble p a)
  | nextPart (o : Outgoing) (p : List Byte) (ps : List (List Byte)) : s.host.sending = some o → o.rest = p :: ps →
      s.resetLow = false → QuietEffect s .hostFrameSent { s with host := { s.host with sending := some { o with body := p, rest := ps } } }
  | answerSent (p : PortIx) : s.resetLow = false →
      QuietEffect s (.fieldAnswerSent p) { s with ports := s.ports.upd p fun r => { r with answers := r.answers.tail } }
  | pinChange (n : LineIx) :
      QuietEffect s (.linePinChange n) { s with lines := s.lines.upd n fun l => { l with pin := !l.pin, heldMs := 0 } }
  | release : s.resetLow = true → QuietEffect s .resetNRelease
      { s with resetLow := false, lines := s.lines.map fun l => { l with level := l.pin, heldMs := 0 } }

/-- What serving a direct request changes, its reply left out (R158). -/
inductive ServeEffect (s : State) : Instr → State → Prop
  | reads (c : Instr) : ServeEffect s c s
  | readLinkStatus : ServeEffect s .readLinkStatus { s with host := { s.host with badCrc := 0 } }
  | setTimer {id v stored : Nat} {t : Settings} {clamped : Bool} :
      storeSetting s.settings id v = some (t, stored, clamped) → id ∈ [0x01, 0x02, 0x03] →
      ServeEffect s .set { s with settings := t, timerCount := 0 }
  | setLine {id v stored : Nat} {t : Settings} {clamped : Bool} (n : LineIx) (items : List MapItem) :
      storeSetting s.settings id v = some (t, stored, clamped) → id ∉ [0x01, 0x02, 0x03] →
      lineOfEdgeId id = some n ∨ lineOfActionId id = some n →
      items = s.map.items ∨ items = postItem (.hold n) s.map.items →
      ServeEffect s .set { s with
        settings := t
        lines := s.lines.set n { s.lines.get n with
          holdFlag := derivedHold (t.lineEdge.get n) (t.lineAction.get n) (s.lines.get n).level }
        map := { s.map with items := items } }
  | setOther {id v stored : Nat} {t : Settings} {clamped : Bool} :
      storeSetting s.settings id v = some (t, stored, clamped) → id ∉ [0x01, 0x02, 0x03] → lineOfEdgeId id = none →
      lineOfActionId id = none → ServeEffect s .set { s with settings := t }
  | closeEpoch (count : Nat) : count = s.timerCount ∨ count = 0 →
      ServeEffect s .closeEpoch { s.postClose with timerCount := count }
  | readPort (p : PortIx) : ServeEffect s .readPort { s with ports := s.ports.upd p PortRecord.read }
  | inject (f : Frame) : s.queue.length < 32 → ServeEffect s .inject { s with queue := s.queue ++ [f] }
  | readLines : ServeEffect s .readLines { s with lines := s.lines.map fun l => { l with edge := false } }
  | stageOpen (t : Target) (first : Nat) : first ≤ t.lastSlot →
      ServeEffect s .stageOpen { s with stage := s.stage.opened t first }
  | stagePut (t : Target) (entries : List (List Byte)) : s.stage.target = some t →
      ServeEffect s .stagePut { s with stage := entries.foldl (Stage.put t.lastSlot) s.stage }
  | stageClear (t : Target) : s.stage.target = some t →
      ServeEffect s .stageClear { s with stage := s.stage.opened t 0 }
  | stageCommit (t : Target) (p : Page) : s.stage.target = some t → s.stage.validate t = .page p →
      (otherPages t s.stage.pendingPages).length < 4 →
      ServeEffect s .stageCommit
        { s with stage := { s.stage.closed with pendingPages := placePage p s.stage.pendingPages } }
  | readStage :
      ServeEffect s .readStage ({ s with stage := { s.stage with installed := false, dropped := false } }).refreshStageCopy

/-- What a map-side request in flight changes, its completion and its reply left out (section 1.6). -/
inductive PerformEffect (s : State) : Instr → State → Prop
  | reads (c : Instr) : PerformEffect s c s
  | start : s.map.mode = .commissioning → PerformEffect s .start { s with
      cells := s.cells.map CellRecord.alertNormal
      map := { s.map with mode := if s.map.anyHold then .held else .running } }
  | stop : s.map.mode = .running → PerformEffect s .stop { s with map := { s.map with mode := .commissioning } }
  | stopHeld : s.map.mode = .held → PerformEffect s .stop
      { s with cells := s.cells.map CellRecord.rebase, map := { s.map with mode := .commissioning } }
  | hold : PerformEffect s .hold (s.writeHostHold true)
  | resume : PerformEffect s .resume (s.writeHostHold false)
  | clearMap : PerformEffect s .clearMap { s with
      cells := s.cells.map CellRecord.clear
      map := s.map.emptied
      views := s.views.map fun v => { v with bias := 0 } }
  | readMapStatus :
      PerformEffect s .readMapStatus { s with map := { s.map with unmappedDiscards := 0, heldDiscards := 0 } }
  | readHotspots : PerformEffect s .readHotspots { s with map := { s.map with topChanged := false } }
  | readPass (p : Fin 8) : PerformEffect s .readPass
      { s with map := { s.map with passFlags := s.map.passFlags.set p PassFlags.clear } }
  | readPoint (i : PointIx) : PerformEffect s .readPoint { s with points := s.points.upd i PointRecord.read }
  | restorePoint (i : PointIx) : PerformEffect s .restorePoint { s with points := s.points.upd i PointRecord.restore }
  | excludePoint (i : PointIx) : PerformEffect s .excludePoint { s with points := s.points.upd i PointRecord.exclude }
  | readView (v : ViewIx) : PerformEffect s .readView
      { s with views := s.views.upd v fun r => { r with framesFused := 0, pixelsSkipped := 0 } }

/-- What an operation in flight that no request asked for changes, its completion left out; a close is apart. -/
inductive OperateEffect (s : State) : Operation → Instr → State → Prop
  | frame (f : Frame) : OperateEffect s (.frame f) .frameFusion (s.fuseFrame f)
  | hold (n : LineIx) (flag : Bool) : OperateEffect s (.hold n flag) .holdItem (s.writeLineHold n flag)
  | rebase (n : LineIx) : OperateEffect s (.rebase n) .rebaseItem s.rebase

/-- A change that a command makes before the end of its step (`State.conclude`). -/
inductive Effect (s : State) : Instr → State → Prop
  | buffered (c : Instr) (r : Request) : s.host.buffer.length < 4 →
      Effect s c { s with host := { s.host with assembly := [], buffer := s.host.buffer ++ [r] } }
  | busy (c : Instr) (r : Request) : s.host.busyRoom = true → Effect s c { s with host := { s.host with
      assembly := [], ready := s.host.ready ++ [⟨replyKind r.kind, r.tag, plain .busy, false⟩] } }
  | dropped (c : Instr) : Effect s c (s.hostAssemble [])
  | badCrc (c : Instr) : Effect s c (s.hostAssemble []).countBadCrc
  | posted (r : Request) : s.nextRequest = some r → Effect s .hostItemPosted
      { s with host := { s.host with service := .waiting }, map := { s.map with items := s.map.items ++ [.host r] } }
  | served (c : Instr) (r : Request) (parts : List (List Byte)) (s' : State) : s.nextRequest = some r →
      ServeEffect s c s' → Effect s c (s'.reply r parts)
  | performed (c : Instr) (r : Request) (parts : List (List Byte)) (s' : State) : s.nextRequest = none →
      s.arbitrate.map.inFlight = some (.host r) → PerformEffect s.arbitrate c s' → Effect s c (s'.completeOp.reply r parts)
  | operated (c : Instr) (op : Operation) (s' : State) : s.arbitrate.map.inFlight = some op →
      OperateEffect s.arbitrate op c s' → Effect s c s'.completeOp
  | restart (r : Request) : s.nextRequest = some r → Effect s .restart s.takeRestart
  | replySent (o : Outgoing) : s.host.sending = some o → o.inService = true → Effect s .hostFrameSent
      { s with host := { s.host with sending := none, buffer := s.host.buffer.tail, service := .idle } }
  | otherSent (o : Outgoing) : s.host.sending = some o → o.inService = false → Effect s .hostFrameSent
      { s with host := { s.host with sending := none } }
  | port (c : Instr) (p : PortIx) (r : PortRecord) :
      ((s.ports.get p).answers.length ≤ 2 → r.answers.length ≤ 2) → Effect s c { s with ports := s.ports.set p r }
  | appended (c : Instr) (p : PortIx) (r : PortRecord) (f : Frame) :
      ((s.ports.get p).answers.length ≤ 2 → r.answers.length ≤ 2) → s.queue.length < 32 →
      Effect s c { s with ports := s.ports.set p r, queue := s.queue ++ [f] }
  | timerExpiry : s.settings.epochRun = true → Effect s .epochTimerExpiry s.timerExpires
  | edge (n : LineIx) : (s.lines.get n).pin ≠ (s.lines.get n).level →
      Effect s (.lineDebouncedEdge n) (s.debouncedEdge n)
  | softReset (r : Request) (behind : List Request) : s.host.buffer = r :: behind → s.map.softResetWaits = true →
      s.map.inFlight = none → Effect s .mapSoftReset (s.softReset.completeOp.reply r (plain .ok))
  | softResetUnasked : s.host.buffer = [] → s.map.softResetWaits = true → s.map.inFlight = none →
      Effect s .mapSoftReset s.softReset.completeOp

/-- What a millisecond changes besides the timer's expiry and a debounced edge (log entry 5). -/
inductive TickEffect (s : State) : State → Prop
  | count : s.settings.epochRun = true → s.timerCount + 1 < s.settings.epochPeriod →
      TickEffect s { s with timerCount := s.timerCount + 1 }
  | held (n : LineIx) : TickEffect s
      { s with lines := s.lines.set n { s.lines.get n with heldMs := (s.lines.get n).heldMs + 1 } }

/-- The ways in which a command ends. -/
inductive Outcome (s : State) (c : Instr) : State → Prop
  | unchanged : Outcome s c s
  | quiet {t : State} : QuietEffect s c t → Outcome s c t
  | ends {s' : State} : s.resetLow = false → Effect s c s' → Outcome s c (State.conclude s s')
  | close (staleAge hotFloor : Nat) : c = .close → s.resetLow = false →
      s.arbitrate.map.inFlight = some (.close staleAge hotFloor) →
      Outcome s c (s.arbitrate.runClose staleAge hotFloor)

/-! ## Each rule's change -/

/-- The timer's expiry in both modes (R102). -/
theorem timerExpires_eq (s : State) : s.timerExpires = { s with
    timerCount := 0
    settings := { s.settings with epochRun := s.settings.epochRun && decide (s.settings.epochMode = .periodic) }
    map := { s.map with pendingClose := true } } := by
  unfold State.timerExpires
  cases mode : s.settings.epochMode with
  | periodic => simp [State.postClose, State.restartCount, ← mode]
  | single => simp [State.postClose, State.restartCount]

/-- A line that follows its hold flag posts a hold item or none (R129, R130). -/
theorem followHold_eq (s : State) (n : LineIx) : ∃ items, (items = s.map.items ∨ items = postItem (.hold n) s.map.items) ∧
    s.followHold n = { s with
      lines := s.lines.set n { s.lines.get n with
        holdFlag := derivedHold (s.settings.lineEdge.get n) (s.settings.lineAction.get n) (s.lines.get n).level }
      map := { s.map with items := items } } := by
  unfold State.followHold
  simp only
  split
  · exact ⟨_, .inl rfl, rfl⟩
  · exact ⟨_, .inr rfl, rfl⟩

theorem set_effect (s : State) (r : Request) : ServeEffect s .set (serveSet s r).1 := by
  unfold serveSet
  split
  next id hi lo _ =>
    split
    next t stored clamped store =>
      by_cases timer : id.toNat ∈ [0x01, 0x02, 0x03]
      · have restarts : ({ s with settings := t } : State).afterSet id.toNat = { s with settings := t, timerCount := 0 } := by
          simp only [List.mem_cons, List.not_mem_nil, or_false] at timer
          obtain h | h | h := timer <;> rw [h] <;> rfl
        simp only [restarts]
        exact .setTimer store timer
      · have owner : ({ s with settings := t } : State).afterSet id.toNat =
            match lineOfEdgeId id.toNat, lineOfActionId id.toNat with
            | some n, _ => ({ s with settings := t } : State).followHold n
            | none, some n => ({ s with settings := t } : State).followHold n
            | none, none => { s with settings := t } := by
          simp only [List.mem_cons, List.not_mem_nil, or_false, not_or] at timer
          unfold State.afterSet
          split
          case h_4 => rfl
          all_goals omega
        simp only [owner]
        split
        next n isEdge =>
          obtain ⟨items, posted, follows⟩ := followHold_eq { s with settings := t } n
          rw [follows]
          exact .setLine n items store timer (.inl isEdge) posted
        next n _ isAction =>
          obtain ⟨items, posted, follows⟩ := followHold_eq { s with settings := t } n
          rw [follows]
          exact .setLine n items store timer (.inr isAction) posted
        next noEdge noAction => exact .setOther store timer noEdge noAction
    next => exact .reads _
  next => exact .reads _

theorem closeEpoch_effect (s : State) (r : Request) : ServeEffect s .closeEpoch (serveCloseEpoch s r).1 := by
  unfold serveCloseEpoch
  simp only
  split
  · exact .closeEpoch 0 (.inr rfl)
  · exact .closeEpoch s.timerCount (.inl rfl)

theorem readPort_effect (s : State) (r : Request) : ServeEffect s .readPort (serveReadPort s r).1 := by
  unfold serveReadPort
  obtain ⟨i, indexed⟩ | same := performIndexed_cases (fun s i =>
    ({ s with ports := s.ports.upd i PortRecord.read }, answer .ok (portContent i.val (s.ports.get i)))) s r
  · rw [indexed]; exact .readPort i
  · rw [same]; exact .reads _

theorem inject_effect (s : State) (r : Request) : ServeEffect s .inject (serveInject s r).1 := by
  unfold serveInject
  split
  · split
    · exact .reads _
    · split
      · exact .reads _
      · split
        · exact .reads _
        · split
          next room => exact .inject _ room
          next => exact .reads _
  · exact .reads _

theorem stageOpen_effect (s : State) (r : Request) : ServeEffect s .stageOpen (serveStageOpen s r).1 := by
  unfold serveStageOpen
  split
  · split
    · split
      next slot => exact .stageOpen _ _ slot
      next => exact .reads _
    · exact .reads _
  · exact .reads _

theorem stagePut_effect (s : State) (r : Request) : ServeEffect s .stagePut (serveStagePut s r).1 := by
  unfold serveStagePut
  split
  · exact .reads _
  next t target =>
    split
    · exact .reads _
    · split
      · exact .reads _
      · exact .stagePut t _ target

theorem stageClear_effect (s : State) (r : Request) : ServeEffect s .stageClear (serveStageClear s r).1 := by
  unfold serveStageClear
  split
  · exact .reads _
  next t target => exact .stageClear t target

theorem stageCommit_effect (s : State) (r : Request) : ServeEffect s .stageCommit (serveStageCommit s r).1 := by
  unfold serveStageCommit
  split
  · exact .reads _
  next t target =>
    split
    · exact .reads _
    · exact .reads _
    · exact .reads _
    next p valid =>
      split
      · exact .reads _
      next room => exact .stageCommit t p target valid (Nat.not_le.mp room)

theorem readPage_effect (s : State) (r : Request) : ServeEffect s .readPage (serveReadPage s r).1 := by
  unfold serveReadPage
  split
  · split <;> exact .reads _
  · exact .reads _

theorem start_effect (s : State) (r : Request) : PerformEffect s .start (performStart s r).1 := by
  unfold performStart
  split
  next mode => exact .start mode
  all_goals exact .reads _

theorem stop_effect (s : State) (r : Request) : PerformEffect s .stop (performStop s r).1 := by
  unfold performStop
  split
  next mode => exact .stop mode
  next mode => exact .stopHeld mode
  all_goals exact .reads _

theorem readCells_effect (s : State) (r : Request) : PerformEffect s .readCells (performReadCells s r).1 := by
  unfold performReadCells
  split
  · simp only
    split <;> exact .reads _
  · exact .reads _

section
variable {s : State} {r : Request} {c : Instr}

/-- A request that numbers a thing changes that thing or nothing. -/
theorem indexed_effect {n : Nat} {perform : State → Fin n → State × List (List Byte)}
    (each : ∀ i, PerformEffect s c (perform s i).1) : PerformEffect s c (performIndexed n perform s r).1 := by
  obtain ⟨i, indexed⟩ | same := performIndexed_cases perform s r
  · rw [indexed]; exact each i
  · rw [same]; exact .reads c

/-- A request that changes an in-use point changes it or nothing. -/
theorem change_effect {f : PointRecord → PointRecord} (each : ∀ i, PerformEffect s c { s with points := s.points.upd i f }) :
    PerformEffect s c (performChange f s r).1 := by
  refine indexed_effect fun i => ?_
  split
  · exact each i
  · exact .reads c

end

/-! ## The shared ways of performing a command -/

section
variable {s : State} {c : Instr} {kind : Byte}

theorem nextRequest_of_takes {r : Request} (h : s.Takes kind r) : s.nextRequest = some r := h.2.1

theorem serveDirect_outcome {serve : State → Request → State × List (List Byte)}
    (rule : ∀ r, ServeEffect s c (serve s r).1) : Outcome s c (s.serveDirect kind serve) := by
  obtain same | ⟨r, takes, _, good⟩ | ⟨r, takes, _, bad⟩ := serveDirect_cases s kind serve
  · rw [same]; exact .unchanged
  · rw [good]; exact .ends takes.1 (.served c r _ _ (nextRequest_of_takes takes) (rule r))
  · rw [bad]; exact .ends takes.1 (.served c r _ _ (nextRequest_of_takes takes) (.reads c))

theorem serveMapSide_outcome {perform : State → Request → State × List (List Byte)}
    (rule : ∀ r, PerformEffect s.arbitrate c (perform s.arbitrate r).1) : Outcome s c (s.serveMapSide kind perform) := by
  obtain same | ⟨r, high, next, flight, _, performed⟩ | ⟨r, takes, _, bad⟩ := serveMapSide_cases s kind perform
  · rw [same]; exact .unchanged
  · rw [performed]; exact .ends high (.performed c r _ _ next flight (rule r))
  · rw [bad]; exact .ends takes.1 (.served c r _ _ (nextRequest_of_takes takes) (.reads c))

/-- A request that is received joins the buffer, is answered BUSY, or is dropped (R158, R159). -/
theorem receiveRequest_effect (s : State) (c : Instr) (r : Request) :
    Effect s c ((s.hostAssemble []).receiveRequest r) := by
  unfold State.receiveRequest
  split
  next room => exact .buffered c r room
  next =>
    split
    next room => exact .busy c r room
    next => exact .dropped c

/-- An event on HRXD needs RESET_N high. -/
theorem hostStep_outcome {bytes : List Byte} {effect : RxEvent → Option (State → State)}
    (rule : ∀ event f, effect event = some f → Effect s c (f (s.hostAssemble []))) :
    Outcome s c (s.hostStep bytes effect) := by
  cases low : s.resetLow with
  | true => rw [State.hostStep, low]; exact .unchanged
  | false =>
    obtain same | ⟨a, assembled⟩ | ⟨event, f, _, known, ended⟩ := hostStep_cases s bytes effect
    · rw [same]; exact .unchanged
    · rw [assembled]; exact .quiet (.hostBytes c a low)
    · rw [ended]; exact .ends low (rule event f known)

/-- An event on a port needs RESET_N high. -/
theorem fieldStep_outcome {port : PortIx} {bytes : List Byte} {effect : RxEvent → Option (State → State)}
    (rule : ∀ event f, effect event = some f → Effect s c (f (s.fieldAssemble port []))) :
    Outcome s c (s.fieldStep port bytes effect) := by
  cases low : s.resetLow with
  | true => rw [State.fieldStep, low]; exact .unchanged
  | false =>
    obtain same | ⟨a, assembled⟩ | ⟨event, f, _, known, ended⟩ := fieldStep_cases s port bytes effect
    · rw [same]; exact .unchanged
    · rw [assembled]; exact .quiet (.fieldBytes c port a low)
    · rw [ended]; exact .ends low (rule event f known)

end

/-! ## Ports -/

section
variable {s : State} {c : Instr} (port : PortIx)

theorem placed_length {answers : List Answer} (h : answers.length ≤ 2) (a : Answer) : (placed answers a).length ≤ 2 := by
  unfold placed
  split
  · simp; omega
  · exact h

/-- A port whose receiver is made to hunt and which is then changed is written once. -/
theorem ports_fieldAssemble_set (p : PortRecord) (a : List Byte) :
    (s.fieldAssemble port a).ports.set port p = s.ports.set port p := by
  rw [State.fieldAssemble, set_upd_same]

theorem portCrcError_effect : Effect s c ((s.fieldAssemble port []).portCrcError port) := by
  unfold State.portCrcError Table.upd
  rw [ports_fieldAssemble_set]
  refine .port c port _ fun h => ?_
  rw [State.fieldAssemble, Table.get_upd_self]
  exact h

theorem handleHello_effect (toggle : Bool) (body : List Byte) :
    Effect s c ((s.fieldAssemble port []).handleHello port toggle body) := by
  rw [handleHello_fieldAssemble]
  refine .port c port _ fun h => ?_
  unfold PortRecord.hello PortRecord.refuse
  split
  all_goals
    rw [PortRecord.place_eq]
    exact placed_length h _

theorem handleData_effect (kind : Byte) (toggle : Bool) (body : List Byte) :
    Effect s c ((s.fieldAssemble port []).handleData port kind toggle body) := by
  have heard : ((s.fieldAssemble port []).ports.get port).heard = (s.ports.get port).afterGoodFrame := by
    rw [State.fieldAssemble, Table.get_upd_self, PortRecord.heard_eq]
  unfold State.handleData
  simp only [heard, PortRecord.refuse, PortRecord.place_eq]
  split
  · rw [ports_fieldAssemble_set]
    exact .port c port _ fun h => placed_length h _
  · split
    · rw [ports_fieldAssemble_set]
      exact .port c port _ fun h => placed_length h _
    · split
      next room =>
        rw [ports_fieldAssemble_set]
        exact .appended c port _ _ (fun h => placed_length h _) room
      next =>
        rw [ports_fieldAssemble_set]
        exact .port c port _ fun h => placed_length h _

theorem frameEffect_effect {wanted : Byte → Bool} {handle : Byte → Bool → List Byte → State → State}
    (rule : ∀ kind toggle body, Effect s c (handle kind toggle body (s.fieldAssemble port []))) (event : RxEvent)
    (f : State → State) (h : frameEffect wanted handle event = some f) : Effect s c (f (s.fieldAssemble port [])) := by
  cases event with
  | good kind tag body =>
    simp only [frameEffect, Option.ite_none_right_eq_some, Option.some.injEq] at h
    obtain ⟨_, rfl⟩ := h
    exact rule kind _ body
  | partialFrame | badLength | badCrc => exact absurd h nofun

end

/-! ## The commands with a rule of their own -/

section
variable (s : State)

theorem hostGapTimeout_cases (bytes : List Byte) :
    ∃ t, exec (.hostGapTimeout bytes) s = .next t ∧ Outcome s (.hostGapTimeout bytes) t := by
  simp only [exec, execHostGapTimeout]
  split
  · exact ⟨_, rfl, .unchanged⟩
  next high =>
    split
    · exact ⟨_, rfl, .quiet (.hostBytes _ [] (by simpa using high))⟩
    · exact ⟨_, rfl, .ends (by simpa using high) (.badCrc _)⟩
    · exact ⟨_, rfl, .unchanged⟩

theorem fieldGapTimeout_cases (port : PortIx) (bytes : List Byte) :
    ∃ t, exec (.fieldGapTimeout port bytes) s = .next t ∧ Outcome s (.fieldGapTimeout port bytes) t := by
  simp only [exec, execFieldGapTimeout]
  split
  · exact ⟨_, rfl, .unchanged⟩
  next high =>
    split
    · exact ⟨_, rfl, .quiet (.fieldBytes _ port [] (by simpa using high))⟩
    · exact ⟨_, rfl, .ends (by simpa using high) (portCrcError_effect port)⟩
    · exact ⟨_, rfl, .unchanged⟩

theorem hostItemPosted_cases : ∃ t, exec .hostItemPosted s = .next t ∧ Outcome s .hostItemPosted t := by
  simp only [exec, execHostItemPosted]
  split
  · exact ⟨_, rfl, .unchanged⟩
  next high =>
    split
    next r next =>
      split
      · exact ⟨_, rfl, .ends (by simpa using high) (.posted r next)⟩
      · exact ⟨_, rfl, .unchanged⟩
    next => exact ⟨_, rfl, .unchanged⟩

theorem unknownRequest_cases : ∃ t, exec .unknownRequest s = .next t ∧ Outcome s .unknownRequest t := by
  simp only [exec, execUnknownRequest]
  split
  · exact ⟨_, rfl, .unchanged⟩
  next high =>
    split
    next r next =>
      split
      · exact ⟨_, rfl, .unchanged⟩
      · exact ⟨_, rfl, .ends (by simpa using high) (.served _ r _ s next (.reads _))⟩
    next => exact ⟨_, rfl, .unchanged⟩

theorem restart_cases : ∃ t, exec .restart s = .next t ∧ Outcome s .restart t := by
  simp only [exec, execRestart]
  split
  · exact ⟨_, rfl, .unchanged⟩
  next high =>
    split
    next r next =>
      split
      · split
        · exact ⟨_, rfl, .ends (by simpa using high) (.restart r next)⟩
        · exact ⟨_, rfl, .ends (by simpa using high) (.served _ r _ s next (.reads _))⟩
      · exact ⟨_, rfl, .unchanged⟩
    next => exact ⟨_, rfl, .unchanged⟩

theorem hostFrameSent_cases : ∃ t, exec .hostFrameSent s = .next t ∧ Outcome s .hostFrameSent t := by
  simp only [exec, execHostFrameSent]
  split
  · exact ⟨_, rfl, .unchanged⟩
  next high =>
    split
    · exact ⟨_, rfl, .unchanged⟩
    next o sending =>
      split
      next p ps rest => exact ⟨_, rfl, .quiet (.nextPart o p ps sending rest (by simpa using high))⟩
      next =>
        split
        next inService => exact ⟨_, rfl, .ends (by simpa using high) (.replySent o sending inService)⟩
        next other => exact ⟨_, rfl, .ends (by simpa using high) (.otherSent o sending (by simpa using other))⟩

theorem fieldAnswerSent_cases (port : PortIx) :
    ∃ t, exec (.fieldAnswerSent port) s = .next t ∧ Outcome s (.fieldAnswerSent port) t := by
  simp only [exec, execFieldAnswerSent]
  split
  · exact ⟨_, rfl, .unchanged⟩
  next high => exact ⟨_, rfl, .quiet (.answerSent port (by simpa using high))⟩

theorem frameFusion_cases : ∃ t, exec .frameFusion s = .next t ∧ Outcome s .frameFusion t := by
  simp only [exec, execFrameFusion]
  split
  · exact ⟨_, rfl, .unchanged⟩
  next high =>
    split
    next f flight => exact ⟨_, rfl, .ends (by simpa using high) (.operated _ _ _ flight (.frame f))⟩
    next => exact ⟨_, rfl, .unchanged⟩

theorem epochTimerExpiry_cases : ∃ t, exec .epochTimerExpiry s = .next t ∧ Outcome s .epochTimerExpiry t := by
  simp only [exec, execEpochTimerExpiry]
  split
  · exact ⟨_, rfl, .unchanged⟩
  next h =>
    obtain ⟨high, runs⟩ : s.resetLow = false ∧ s.settings.epochRun = true := by simpa using h
    exact ⟨_, rfl, .ends high (.timerExpiry runs)⟩

theorem close_cases : ∃ t, exec .close s = .next t ∧ Outcome s .close t := by
  simp only [exec, execClose]
  split
  · exact ⟨_, rfl, .unchanged⟩
  next high =>
    split
    next a b flight => exact ⟨_, rfl, .close a b rfl (by simpa using high) flight⟩
    next => exact ⟨_, rfl, .unchanged⟩

theorem holdItem_cases : ∃ t, exec .holdItem s = .next t ∧ Outcome s .holdItem t := by
  simp only [exec, execHoldItem]
  split
  · exact ⟨_, rfl, .unchanged⟩
  next high =>
    split
    next n flag flight => exact ⟨_, rfl, .ends (by simpa using high) (.operated _ _ _ flight (.hold n flag))⟩
    next => exact ⟨_, rfl, .unchanged⟩

theorem rebaseItem_cases : ∃ t, exec .rebaseItem s = .next t ∧ Outcome s .rebaseItem t := by
  simp only [exec, execRebaseItem]
  split
  · exact ⟨_, rfl, .unchanged⟩
  next high =>
    split
    next n flight => exact ⟨_, rfl, .ends (by simpa using high) (.operated _ _ _ flight (.rebase n))⟩
    next => exact ⟨_, rfl, .unchanged⟩

theorem lineDebouncedEdge_cases (n : LineIx) :
    ∃ t, exec (.lineDebouncedEdge n) s = .next t ∧ Outcome s (.lineDebouncedEdge n) t := by
  simp only [exec, execLineDebouncedEdge]
  split
  · exact ⟨_, rfl, .unchanged⟩
  next h =>
    obtain ⟨high, away⟩ : s.resetLow = false ∧ ¬ (s.lines.get n).pin = (s.lines.get n).level := by simpa using h
    exact ⟨_, rfl, .ends high (.edge n away)⟩

theorem mapSoftReset_cases : ∃ t, exec .mapSoftReset s = .next t ∧ Outcome s .mapSoftReset t := by
  simp only [exec, execMapSoftReset]
  split
  · exact ⟨_, rfl, .unchanged⟩
  next h =>
    obtain ⟨⟨high, waits⟩, free⟩ : (s.resetLow = false ∧ s.map.softResetWaits = true) ∧ s.map.inFlight = none := by
      simpa using h
    refine ⟨_, rfl, .ends high ?_⟩
    cases buffer : s.host.buffer with
    | nil =>
      have unasked : s.softReset.completeOp.replyRestart = s.softReset.completeOp := by
        simp [State.replyRestart, State.softReset, buffer]
      rw [unasked]
      exact .softResetUnasked buffer waits free
    | cons r behind =>
      have replied : s.softReset.completeOp.replyRestart = s.softReset.completeOp.reply r (plain .ok) := by
        simp [State.replyRestart, State.softReset, buffer]
      rw [replied]
      exact .softReset r behind buffer waits free

theorem resetNRelease_cases : ∃ t, exec .resetNRelease s = .next t ∧ Outcome s .resetNRelease t := by
  simp only [exec, execResetNRelease]
  split
  next low => exact ⟨_, rfl, .quiet (.release low)⟩
  next => exact ⟨_, rfl, .unchanged⟩

end

/-! ## Every command -/

/-- What every command can do, by its arm (spec/95_what_each_step_holds.md). -/
theorem exec_cases (c : Instr) (s : State) : ∃ t, exec c s = .next t ∧ Outcome s c t := by
  cases c with
  | fullReset => exact ⟨_, rfl, .quiet .fullReset⟩
  | hostFrameReceived bytes =>
    refine ⟨_, rfl, hostStep_outcome fun event f known => ?_⟩
    cases event with
    | good kind tag body => cases known; exact receiveRequest_effect s _ _
    | badCrc => cases known; exact .badCrc _
    | badLength | partialFrame a => cases known
  | hostLengthOutOfRange bytes =>
    refine ⟨_, rfl, hostStep_outcome fun event f known => ?_⟩
    cases event with
    | badLength => cases known; exact .badCrc _
    | good kind tag body | badCrc | partialFrame a => cases known
  | hostGapTimeout bytes => exact hostGapTimeout_cases s bytes
  | hostItemPosted => exact hostItemPosted_cases s
  | unknownRequest => exact unknownRequest_cases s
  | identify => exact ⟨_, rfl, serveDirect_outcome fun r => .reads _⟩
  | set => exact ⟨_, rfl, serveDirect_outcome (set_effect s)⟩
  | get => exact ⟨_, rfl, serveDirect_outcome fun r => by rw [serveGet_fst]; exact .reads _⟩
  | restart => exact restart_cases s
  | readLinkStatus => exact ⟨_, rfl, serveDirect_outcome fun r => .readLinkStatus⟩
  | start => exact ⟨_, rfl, serveMapSide_outcome (start_effect _)⟩
  | stop => exact ⟨_, rfl, serveMapSide_outcome (stop_effect _)⟩
  | hold => exact ⟨_, rfl, serveMapSide_outcome fun r => .hold⟩
  | resume => exact ⟨_, rfl, serveMapSide_outcome fun r => .resume⟩
  | clearMap => exact ⟨_, rfl, serveMapSide_outcome fun r => .clearMap⟩
  | closeEpoch => exact ⟨_, rfl, serveDirect_outcome (closeEpoch_effect s)⟩
  | readMapStatus => exact ⟨_, rfl, serveMapSide_outcome fun r => .readMapStatus⟩
  | readCells => exact ⟨_, rfl, serveMapSide_outcome (readCells_effect _)⟩
  | readHotspots => exact ⟨_, rfl, serveMapSide_outcome fun r => .readHotspots⟩
  | readPass => exact ⟨_, rfl, serveMapSide_outcome fun r => indexed_effect fun p => .readPass p⟩
  | readPoint => exact ⟨_, rfl, serveMapSide_outcome fun r => indexed_effect fun i => .readPoint i⟩
  | restorePoint => exact ⟨_, exec_restorePoint s, serveMapSide_outcome fun r => change_effect fun i => .restorePoint i⟩
  | excludePoint => exact ⟨_, exec_excludePoint s, serveMapSide_outcome fun r => change_effect fun i => .excludePoint i⟩
  | readView => exact ⟨_, rfl, serveMapSide_outcome fun r => indexed_effect fun v => .readView v⟩
  | readPort => exact ⟨_, rfl, serveDirect_outcome (readPort_effect s)⟩
  | inject => exact ⟨_, rfl, serveDirect_outcome (inject_effect s)⟩
  | readLines => exact ⟨_, rfl, serveDirect_outcome fun r => .readLines⟩
  | stageOpen => exact ⟨_, rfl, serveDirect_outcome (stageOpen_effect s)⟩
  | stagePut => exact ⟨_, rfl, serveDirect_outcome (stagePut_effect s)⟩
  | stageClear => exact ⟨_, rfl, serveDirect_outcome (stageClear_effect s)⟩
  | stageCommit => exact ⟨_, rfl, serveDirect_outcome (stageCommit_effect s)⟩
  | readStage => exact ⟨_, rfl, serveDirect_outcome fun r => .readStage⟩
  | readPage => exact ⟨_, rfl, serveDirect_outcome (readPage_effect s)⟩
  | readEvents => exact ⟨_, rfl, serveDirect_outcome fun r => .reads _⟩
  | hostFrameSent => exact hostFrameSent_cases s
  | fieldGapTimeout port bytes => exact fieldGapTimeout_cases s port bytes
  | fieldLengthOutOfRange port bytes =>
    refine ⟨_, rfl, fieldStep_outcome fun event f known => ?_⟩
    cases event with
    | badLength => cases known; exact portCrcError_effect port
    | good kind tag body | badCrc | partialFrame a => cases known
  | fieldCrcFailure port bytes =>
    refine ⟨_, rfl, fieldStep_outcome fun event f known => ?_⟩
    cases event with
    | badCrc => cases known; exact portCrcError_effect port
    | good kind tag body | badLength | partialFrame a => cases known
  | fieldUnknownKind port bytes => exact ⟨_, rfl, fieldStep_outcome (frameEffect_effect port (handleData_effect port))⟩
  | helloFrame port bytes =>
    exact ⟨_, rfl, fieldStep_outcome (frameEffect_effect port fun _ => handleHello_effect port)⟩
  | samplesFrame port bytes => exact ⟨_, rfl, fieldStep_outcome (frameEffect_effect port (handleData_effect port))⟩
  | scanFrame port bytes => exact ⟨_, rfl, fieldStep_outcome (frameEffect_effect port (handleData_effect port))⟩
  | fieldAnswerSent port => exact fieldAnswerSent_cases s port
  | frameFusion => exact frameFusion_cases s
  | epochTimerExpiry => exact epochTimerExpiry_cases s
  | close => exact close_cases s
  | holdItem => exact holdItem_cases s
  | rebaseItem => exact rebaseItem_cases s
  | lineDebouncedEdge n => exact lineDebouncedEdge_cases s n
  | mapSoftReset => exact mapSoftReset_cases s
  | linePinChange n => exact ⟨_, rfl, .quiet (.pinChange n)⟩
  | resetNRelease => exact resetNRelease_cases s

/-- A next state of a command is one of its outcomes. -/
theorem exec_outcome {c : Instr} {s t : State} (h : exec c s = .next t) : Outcome s c t := by
  obtain ⟨t', next, outcome⟩ := exec_cases c s
  cases next.symm.trans h
  exact outcome

end Sys2Proof.Machine
/-! PROOFS. What every step keeps: the rule by which a law is shown to hold after every step. -/

namespace Sys2Proof.Machine

/-! ## The rule -/

/-- A law that neither the queue of commands nor the end of a step (the Event Unit, the transmitter, the arbiter) can
break. -/
structure KeptByEnds (P : State → Prop) : Prop where
  pending : ∀ {s : State} (q : List Instr), P s → P { s with pending := q }
  event : ∀ {s : State} (old : State), P s → P (old.takeEvent s)
  transmit : ∀ {s : State}, P s → P s.transmit
  arbitrate : ∀ {s : State}, P s → P s.arbitrate

theorem KeptByEnds.conclude {P : State → Prop} (ends : KeptByEnds P) {s : State} (old : State) (h : P s) :
    P (State.conclude old s) :=
  ends.arbitrate (ends.transmit (ends.event old h))

/-- A law that neither the ends of steps nor any change of a command or of idle time can break. -/
structure KeptByChanges (P : State → Prop) : Prop extends KeptByEnds P where
  quiet : ∀ {s t : State} {c : Instr}, P s → QuietEffect s c t → P t
  effect : ∀ {s t : State} {c : Instr}, s.resetLow = false → P s → Effect s c t → P t
  tick : ∀ {s t : State}, P s → TickEffect s t → P t
  /-- The stages of a close and its completion, the silence of the ports counted. -/
  close : ∀ {s : State} {a b : Nat}, s.map.inFlight = some (.close a b) → P s →
    P (s.closeStages a b).completeClose.silencePorts
  /-- The map is free when a close has run. -/
  free : ∀ {s : State} {a b : Nat}, s.map.inFlight = some (.close a b) → P s → P s.completeOp

/-! ## A close keeps itself in flight until it completes -/

theorem inFlight_closeStages (s : State) (a b : Nat) : (s.closeStages a b).map.inFlight = s.map.inFlight := by
  unfold State.closeStages; split <;> rfl

theorem inFlight_installPending (s : State) : s.installPending.map.inFlight = s.map.inFlight := by
  unfold State.installPending
  split
  · rfl
  · exact congrArg MapState.inFlight (installAll_frame s.stage.pendingPages s).1

theorem inFlight_settleMode (s : State) : s.settleMode.map.inFlight = s.map.inFlight := by
  unfold State.settleMode
  split
  · split <;> rfl
  · rfl

theorem inFlight_completeClose (s : State) : s.completeClose.map.inFlight = s.map.inFlight := by
  rw [State.completeClose, inFlight_settleMode, inFlight_installPending]

/-! ## Every command and idle time keep such a law -/

section
variable {P : State → Prop}

theorem KeptByChanges.runClose (kept : KeptByChanges P) {s : State} {a b : Nat} (flight : s.map.inFlight = some (.close a b))
    (h : P s) : P (s.runClose a b) := by
  refine kept.conclude _ (kept.free (a := a) (b := b) ?_ (kept.transmit (kept.event _ (kept.close flight h))))
  rw [State.transmit_map, State.takeEvent_map, State.silencePorts_map, inFlight_completeClose, inFlight_closeStages, flight]

theorem KeptByChanges.exec (kept : KeptByChanges P) {s t : State} {c : Instr} (h : P s) (next : exec c s = .next t) :
    P t := by
  cases exec_outcome next with
  | unchanged => exact h
  | quiet change => exact kept.quiet h change
  | ends high change => exact kept.conclude s (kept.effect high h change)
  | close a b _ _ flight => exact kept.runClose flight (kept.arbitrate h)

/-- What a millisecond does to the timer: nothing, a count, or the expiry (R102). -/
theorem timerTick_cases (s : State) :
    s.timerTick = s ∨ TickEffect s s.timerTick ∨ Effect s .epochTimerExpiry s.timerTick := by
  unfold State.timerTick
  split
  next runs =>
    split
    next => exact .inr (.inr (.timerExpiry runs))
    next below => exact .inr (.inl (.count runs (Nat.not_le.mp below)))
  next => exact .inl rfl

/-- What a millisecond does to a line: nothing, a count, or the debounced edge (R127). -/
theorem lineTick_cases (s : State) (n : LineIx) :
    s.lineTick n = s ∨ TickEffect s (s.lineTick n) ∨ Effect s (.lineDebouncedEdge n) (s.lineTick n) := by
  unfold State.lineTick
  simp only
  split
  next => exact .inl rfl
  next away =>
    split
    next => exact .inr (.inr (.edge n away))
    next => exact .inr (.inl (.held n))

theorem resetLow_debouncedEdge (s : State) (n : LineIx) : (s.debouncedEdge n).resetLow = s.resetLow := by
  unfold State.debouncedEdge State.followHold
  simp only
  split
  · rfl
  · split <;> rfl
  · split <;> rfl

theorem resetLow_lineTick (s : State) (n : LineIx) : (s.lineTick n).resetLow = s.resetLow := by
  unfold State.lineTick
  simp only
  split
  · rfl
  · split
    · exact resetLow_debouncedEdge s n
    · rfl

theorem resetLow_timerTick (s : State) : s.timerTick.resetLow = s.resetLow := by
  unfold State.timerTick
  split
  · split
    · rw [timerExpires_eq]
    · rfl
  · rfl

theorem resetLow_conclude (old s : State) : (State.conclude old s).resetLow = s.resetLow := by simp [State.conclude]

/-- One line's part of a millisecond. -/
theorem KeptByChanges.lineTick (kept : KeptByChanges P) {s : State} (high : s.resetLow = false) (n : LineIx) (h : P s) :
    P (State.conclude s (s.lineTick n)) := by
  obtain same | count | edge := lineTick_cases s n
  · rw [same]; exact kept.conclude s h
  · exact kept.conclude s (kept.tick h count)
  · exact kept.conclude s (kept.effect high h edge)

theorem KeptByChanges.timerTick (kept : KeptByChanges P) {s : State} (high : s.resetLow = false) (h : P s) :
    P (State.conclude s s.timerTick) := by
  obtain same | count | expiry := timerTick_cases s
  · rw [same]; exact kept.conclude s h
  · exact kept.conclude s (kept.tick h count)
  · exact kept.conclude s (kept.effect high h expiry)

/-- The lines of a millisecond, one after the other. -/
theorem KeptByChanges.lineTicks (kept : KeptByChanges P) (lines : List LineIx) {s : State} (high : s.resetLow = false)
    (h : P s) : P (lines.foldl (fun acc n => State.conclude acc (acc.lineTick n)) s) := by
  induction lines generalizing s with
  | nil => exact h
  | cons n lines ih =>
    exact ih (by rw [resetLow_conclude, resetLow_lineTick, high]) (kept.lineTick high n h)

theorem KeptByChanges.idle (kept : KeptByChanges P) {s : State} (h : P s) : P s.idle := by
  unfold State.idle
  split
  next => exact h
  next high =>
    have high : s.resetLow = false := by simpa using high
    exact kept.lineTicks _ (by rw [resetLow_conclude, resetLow_timerTick, high]) (kept.timerTick high h)

/-- A law that no change can break is kept by every step. -/
theorem KeptByChanges.everyStep (kept : KeptByChanges P) : KeptByEveryStep P := by
  intro s t h next
  unfold step at next
  split at next
  · cases next; exact kept.idle h
  next i rest _ => exact kept.exec (kept.pending rest h) next

end

end Sys2Proof.Machine
/-! PROOFS. What the larger changes leave alone (the fusion of a frame, an install, a close, the mode effect of the holds),
and with it that every command answers a next state and leaves the queue of commands as it was. -/

namespace Sys2Proof.Machine

/-! ## The mode effect and the holds (R124, R125) -/

theorem modeEffect_frame (s : State) : s.modeEffect = { s with
    cells := s.modeEffect.cells, map := { s.map with mode := s.modeEffect.map.mode } } := by
  obtain ⟨_, _, same⟩ | ⟨_, _, same⟩ | ⟨_, _, same⟩ := modeEffect_cases s <;> rw [same]

theorem writeHostHold_frame (s : State) (flag : Bool) : s.writeHostHold flag = { s with
    cells := (s.writeHostHold flag).cells
    map := { s.map with mode := (s.writeHostHold flag).map.mode, hostHold := flag } } := by
  unfold State.writeHostHold
  split
  next same => rw [← same]
  next => exact modeEffect_frame _

theorem writeLineHold_frame (s : State) (n : LineIx) (flag : Bool) : s.writeLineHold n flag = { s with
    cells := (s.writeLineHold n flag).cells
    map := { s.map with mode := (s.writeLineHold n flag).map.mode, lineHold := s.map.lineHold.set n flag } } := by
  unfold State.writeLineHold
  split
  next same => rw [← same, Table.set_get]
  next => exact modeEffect_frame _

/-! ## The fusion of a frame (R17, R37) -/

/-- `s` with what the fusion of a frame may write as `t` has it. -/
def State.takingFused (s t : State) : State := { s with
  ports := t.ports, cells := t.cells, points := t.points, views := t.views
  map := { s.map with unmappedDiscards := t.map.unmappedDiscards, heldDiscards := t.map.heldDiscards } }

/-- From `s` to `t` only what the fusion of a frame may write has changed. -/
def State.FusedInto (s t : State) : Prop := t = s.takingFused t

theorem State.FusedInto.trans {s t u : State} (h : s.FusedInto t) (k : t.FusedInto u) : s.FusedInto u :=
  Eq.trans k (congrArg (fun x => x.takingFused u) h)

/-- What every step of a fold keeps, the fold keeps. -/
theorem foldl_keeps {α σ : Type} (P : σ → Prop) {f : σ → α → σ} {l : List α} (step : ∀ s, ∀ x ∈ l, P s → P (f s x)) {s : σ}
    (h : P s) : P (l.foldl f s) := by
  induction l generalizing s with
  | nil => exact h
  | cons x l ih => exact ih (fun s y hy => step s y (List.mem_cons_of_mem x hy)) (step s x List.mem_cons_self h)

theorem State.FusedInto.pending {s t : State} (h : s.FusedInto t) : t.pending = s.pending :=
  (congrArg State.pending (show t = s.takingFused t from h) : t.pending = (s.takingFused t).pending)

theorem fusedInto_touchCell (s : State) (kind : Source) (value : Int) (gain : Nat) (c : CellIx) (share : Nat) :
    s.FusedInto (s.touchCell kind value gain c share) := rfl

theorem fusedInto_applyReading (s : State) (e : PointEntry) (value : Int) (gain : Nat) :
    s.FusedInto (s.applyReading e value gain) := by
  have touches : s.FusedInto (e.spread.foldl (fun acc x => acc.touchCell .thermocouple value gain x.cell x.share)
      (s.touchCell .thermocouple value gain e.home 16)) :=
    foldl_keeps s.FusedInto (fun t x _ h => h.trans (fusedInto_touchCell t _ value gain x.cell x.share))
      (fusedInto_touchCell s _ value gain e.home 16)
  exact touches.trans rfl

theorem fusedInto_fuseReading (port : PortIx) (s : State) (x : Reading) : s.FusedInto (State.fuseReading port s x) := by
  unfold State.fuseReading
  split
  · rfl
  · simp only
    split
    · exact State.FusedInto.trans (t := { s with points := _ }) rfl (fusedInto_applyReading _ _ _ _)
    · rfl

/-- A frame in fusion writes cells, points, views, ports and the two discard counters. -/
theorem fusedInto_fuseFrame (s : State) (f : Frame) : s.FusedInto (s.fuseFrame f) := by
  unfold State.fuseFrame
  split
  · rfl
  · rfl
  all_goals
    split
    · exact foldl_keeps s.FusedInto (fun t x _ h => h.trans (fusedInto_fuseReading _ t x)) rfl
    · rfl

/-! ## The installs (R143) -/

/-- `s` with what an install may write, the four tables and the records, as `t` has it. -/
def State.takingInstalled (s t : State) : State := { s with
  cellTable := t.cellTable, cells := t.cells, pointTable := t.pointTable, points := t.points, viewTable := t.viewTable
  views := t.views, limits := t.limits }

/-- From `s` to `t` only what an install may write has changed. -/
def State.InstalledInto (s t : State) : Prop := t = s.takingInstalled t

theorem State.InstalledInto.trans {s t u : State} (h : s.InstalledInto t) (k : t.InstalledInto u) : s.InstalledInto u :=
  Eq.trans k (congrArg (fun x => x.takingInstalled u) h)

theorem installedInto_updHomePoint (s : State) (c : CellIx) (f : PointRecord → PointRecord) :
    s.InstalledInto (s.updHomePoint c f) := by
  unfold State.updHomePoint
  split <;> rfl

theorem installedInto_installCell (s : State) (c : CellIx) (e : CellEntry) : s.InstalledInto (s.installCell c e) := by
  have entry : s.InstalledInto { s with cellTable := s.cellTable.set c e } := rfl
  unfold State.installCell
  simp only
  split
  · exact (entry.trans (installedInto_updHomePoint _ c PointRecord.unbind)).trans rfl
  · exact (entry.trans (installedInto_updHomePoint _ c PointRecord.bind)).trans rfl
  · split <;> rfl
  · rfl

theorem installedInto_installPoint (s : State) (i : PointIx) (e : PointEntry) :
    s.InstalledInto (s.installPoint i e) := rfl

theorem installedInto_installPoints (s : State) (p : Fin 3) (slots : Table 32 (Option PointEntry)) :
    s.InstalledInto (s.installPoints p slots) := by
  refine foldFilled_keeps s.InstalledInto (fun t _ e _ h => h.trans ?give)
    (foldFilled_keeps s.InstalledInto (fun t i e _ h => h.trans (installedInto_installPoint t _ e))
      (foldFilled_keeps s.InstalledInto (fun t i _ _ h => h.trans ?drop) rfl))
  case give => unfold State.giveAnchor; split <;> rfl
  case drop => unfold State.dropAnchor; split <;> rfl

theorem installedInto_installPage (s : State) (p : Page) : s.InstalledInto (s.installPage p).1 := by
  unfold State.installPage
  split
  · rfl
  · split
    · exact foldFilled_keeps s.InstalledInto (fun t i e _ h => h.trans (installedInto_installCell t _ e)) rfl
    · split
      · exact installedInto_installPoints s _ _
      · rfl
    · rfl
    · rfl

/-- The pending pages write the four tables and the records. -/
theorem installedInto_installAll (pages : List Page) (s : State) : s.InstalledInto (installAll pages s).1 := by
  induction pages generalizing s with
  | nil => rfl
  | cons p pages ih => exact (installedInto_installPage s p).trans (ih _)

/-! ## A close (R105, R119) -/

/-- `s` with what a close may write as `t` has it. -/
def State.takingClosed (s t : State) : State := { s with
  ports := t.ports, cellTable := t.cellTable, cells := t.cells, pointTable := t.pointTable, points := t.points
  viewTable := t.viewTable, views := t.views, limits := t.limits, stage := t.stage
  map := { s.map with
    mode := t.map.mode, epoch := t.map.epoch, hotList := t.map.hotList, buildingEpoch := t.map.buildingEpoch
    topChanged := t.map.topChanged, summaries := t.map.summaries, passFlags := t.map.passFlags } }

/-- From `s` to `t` only what a close may write has changed. -/
def State.ClosedInto (s t : State) : Prop := t = s.takingClosed t

theorem State.ClosedInto.trans {s t u : State} (h : s.ClosedInto t) (k : t.ClosedInto u) : s.ClosedInto u :=
  Eq.trans k (congrArg (fun x => x.takingClosed u) h)

theorem State.ClosedInto.pending {s t : State} (h : s.ClosedInto t) : t.pending = s.pending :=
  (congrArg State.pending (show t = s.takingClosed t from h) : t.pending = (s.takingClosed t).pending)

theorem State.InstalledInto.closed {s t : State} (h : s.InstalledInto t) : s.ClosedInto t :=
  Eq.trans h (congrArg (fun x : State => s.takingClosed x) h).symm

theorem closedInto_installPending (s : State) : s.ClosedInto s.installPending := by
  unfold State.installPending
  split
  · rfl
  · exact (installedInto_installAll s.stage.pendingPages s).closed.trans rfl

theorem closedInto_settleMode (s : State) : s.ClosedInto s.settleMode := by
  unfold State.settleMode
  split
  · split <;> rfl
  · rfl

theorem closedInto_completeClose (s : State) : s.ClosedInto s.completeClose := by
  have advanced : s.ClosedInto { s with map := { s.map with epoch := s.map.epoch + 1 } } := rfl
  exact (advanced.trans (closedInto_installPending _)).trans (closedInto_settleMode _)

theorem closedInto_closeStages (s : State) (a b : Nat) : s.ClosedInto (s.closeStages a b) := by
  unfold State.closeStages
  split <;> rfl

/-- A close up to its completion, the silence of the ports counted. -/
theorem closedInto_close (s : State) (a b : Nat) : s.ClosedInto (s.closeStages a b).completeClose.silencePorts :=
  ((closedInto_closeStages s a b).trans (closedInto_completeClose _)).trans rfl

/-! ## The queue of commands -/

section
variable {s t : State} {c : Instr}

theorem pending_debouncedEdge (s : State) (n : LineIx) : (s.debouncedEdge n).pending = s.pending := by
  unfold State.debouncedEdge State.followHold
  simp only
  split
  · rfl
  · split <;> rfl
  · split <;> rfl

theorem pending_conclude (old s : State) : (State.conclude old s).pending = s.pending := by simp [State.conclude]

theorem pending_quiet (h : QuietEffect s c t) : t.pending = s.pending := by cases h <;> rfl

theorem pending_serve (h : ServeEffect s c t) : t.pending = s.pending := by cases h <;> rfl

theorem pending_perform (h : PerformEffect s c t) : t.pending = s.pending := by
  cases h with
  | hold | resume => rw [writeHostHold_frame]
  | _ => rfl

theorem pending_operate {op : Operation} (h : OperateEffect s op c t) : t.pending = s.pending := by
  cases h with
  | frame f => exact (fusedInto_fuseFrame s f).pending
  | hold n flag => rw [writeLineHold_frame]
  | rebase => rfl

theorem pending_effect (h : Effect s c t) : t.pending = s.pending := by
  cases h with
  | served c r parts s' _ change => exact (State.reply_pending s' r parts).trans (pending_serve change)
  | performed c r parts s' _ _ change => exact (pending_perform change).trans (State.arbitrate_pending s)
  | operated c op s' _ change => exact (pending_operate change).trans (State.arbitrate_pending s)
  | timerExpiry => rw [timerExpires_eq]
  | edge n => exact pending_debouncedEdge s n
  | _ => rfl

theorem pending_runClose (s : State) (a b : Nat) : (s.runClose a b).pending = s.pending := by
  rw [State.runClose, pending_conclude]
  simp only [State.completeOp_pending, State.transmit_pending, State.takeEvent_pending]
  exact (closedInto_close s a b).pending

/-- No command adds to the queue of commands or takes from it (log entry 14). -/
theorem pending_outcome (h : Outcome s c t) : t.pending = s.pending := by
  cases h with
  | unchanged => rfl
  | quiet change => exact pending_quiet change
  | ends _ change => rw [pending_conclude, pending_effect change]
  | close a b => rw [pending_runClose, State.arbitrate_pending]

end

/-- Settles O1. What is taken from the queue is taken by `step` itself; each command has an outcome, and none of the changes
an outcome is made of writes the queue. -/
theorem stepRunsFrontCommand : Obligations.StepRunsFrontCommand := by
  refine ⟨fun c rest s => rfl, fun c s => ?_⟩
  obtain ⟨t, next, outcome⟩ := exec_cases c s
  exact ⟨t, next, pending_outcome outcome⟩

end Sys2Proof.Machine
/-! PROOFS. The records of the map (tables, live records, mode, holds, hot-spot list, summaries): which commands can change
them, and the rule by which a law of the records is shown to hold after every step. -/

namespace Sys2Proof.Machine

/-! ## The records -/

/-- What map operations alone write: the four tables, the live records, and the map's own record of mode, holds, epoch,
hot spots and summaries (R17, R37). -/
structure Records where
  cellTable : Table 2048 CellEntry
  cells : Table 2048 CellRecord
  pointTable : Table 96 PointEntry
  points : Table 96 PointRecord
  viewTable : Table 16 (Table 64 Binding)
  views : Table 16 ViewRecord
  limits : Table 8 LimitClass
  mode : MapMode
  hostHold : Bool
  lineHold : Table 4 Bool
  epoch : BitVec 16
  hotList : List HotSpot
  summaries : Table 8 PassSummary

/-- The records as `s` has them. -/
def State.records (s : State) : Records :=
  ⟨s.cellTable, s.cells, s.pointTable, s.points, s.viewTable, s.views, s.limits, s.map.mode, s.map.hostHold, s.map.lineHold,
    s.map.epoch, s.map.hotList, s.map.summaries⟩

section
variable {s t : State} {c : Instr}

theorem records_transmit (s : State) : s.transmit.records = s.records := by
  unfold State.transmit; split <;> rfl

theorem records_arbitrate (s : State) : s.arbitrate.records = s.records := by
  unfold State.arbitrate
  split
  · rfl
  · split
    · rfl
    · split <;> rfl

theorem records_conclude (old s : State) : (State.conclude old s).records = s.records := by
  rw [State.conclude, records_arbitrate, records_transmit]; rfl

theorem records_quiet (h : QuietEffect s c t) :
    t.records = s.records ∨ c = .fullReset ∧ t = State.fullReset (s.lines.map LineRecord.pin) true s.pending := by
  cases h with
  | fullReset => exact .inr ⟨rfl, rfl⟩
  | _ => exact .inl rfl

theorem records_serve (h : ServeEffect s c t) : t.records = s.records := by cases h <;> rfl

theorem records_tick (h : TickEffect s t) : t.records = s.records := by cases h <;> rfl

theorem records_followHold (s : State) (n : LineIx) : (s.followHold n).records = s.records := by
  obtain ⟨items, _, same⟩ := followHold_eq s n
  rw [same]; rfl

theorem records_debouncedEdge (s : State) (n : LineIx) : (s.debouncedEdge n).records = s.records := by
  unfold State.debouncedEdge
  simp only
  split
  · rfl
  · exact records_followHold _ n
  · split <;> rfl

theorem records_timerExpires (s : State) : s.timerExpires.records = s.records := by rw [timerExpires_eq]; rfl

/-- What an effect writes of the records: nothing, or what a map operation in flight or the soft reset writes. -/
inductive RecordEffect (s : State) (c : Instr) : State → Prop
  | same {t : State} : t.records = s.records → RecordEffect s c t
  | performed {s' t : State} : PerformEffect s.arbitrate c s' → t.records = s'.records → RecordEffect s c t
  | operated {op : Operation} {s' t : State} : OperateEffect s.arbitrate op c s' → t.records = s'.records →
      RecordEffect s c t
  | softReset {t : State} : c = .mapSoftReset → t.records = s.softReset.records → RecordEffect s c t

theorem recordEffect_of_effect (h : Effect s c t) : RecordEffect s c t := by
  cases h with
  | served c r parts s' _ change => exact .same (Eq.trans (by rfl) (records_serve change))
  | performed c r parts s' _ _ change => exact .performed change rfl
  | operated c op s' _ change => exact .operated change rfl
  | timerExpiry => exact .same (records_timerExpires s)
  | edge n => exact .same (records_debouncedEdge s n)
  | softReset | softResetUnasked => exact .softReset rfl rfl
  | _ => exact .same rfl

/-- A close leaves the records as its stages and its completion make them. -/
theorem records_runClose (s : State) (a b : Nat) :
    (s.runClose a b).records = (s.closeStages a b).completeClose.records := by
  rw [State.runClose, records_conclude]
  exact records_transmit _

end

/-! ## Laws of the records -/

/-- A law of the records that no map operation, no close and neither reset can break. -/
structure RecordLaw (P : State → Prop) : Prop where
  /-- The law looks at the records alone. -/
  same : ∀ {s t : State}, t.records = s.records → P s → P t
  fullReset : ∀ (pins : Table 4 Bool) (low : Bool) (q : List Instr), P (State.fullReset pins low q)
  perform : ∀ {s t : State} {c : Instr}, P s → PerformEffect s c t → P t
  operate : ∀ {s t : State} {op : Operation} {c : Instr}, P s → OperateEffect s op c t → P t
  softReset : ∀ {s : State}, P s → P s.softReset
  close : ∀ {s : State} (a b : Nat), P s → P (s.closeStages a b).completeClose

/-- Every step keeps such a law. -/
theorem RecordLaw.kept {P : State → Prop} (law : RecordLaw P) : KeptByEveryStep P :=
  KeptByChanges.everyStep {
    pending := fun _ h => law.same (by rfl) h
    event := fun _ h => law.same (by rfl) h
    transmit := fun h => law.same (records_transmit _) h
    arbitrate := fun h => law.same (records_arbitrate _) h
    quiet := fun h change => by
      obtain same | ⟨_, reset⟩ := records_quiet change
      · exact law.same same h
      · rw [reset]; exact law.fullReset _ _ _
    effect := fun {s _ _} _ h change => by
      have taken : P s.arbitrate := law.same (records_arbitrate s) h
      cases recordEffect_of_effect change with
      | same same => exact law.same same h
      | performed change same => exact law.same same (law.perform taken change)
      | operated change same => exact law.same same (law.operate taken change)
      | softReset _ same => exact law.same same (law.softReset h)
    tick := fun h change => law.same (records_tick change) h
    close := fun {_ a b} _ h => law.same (by rfl) (law.close a b h)
    free := fun _ h => law.same (by rfl) h }

/-! ## Which commands change the records -/

section
variable {s t : State} {c : Instr}

/-- Of the map operations but a close, START, STOP and the holds alone can write the mode (R121). -/
theorem mode_perform (h : PerformEffect s c t) : t.map.mode = s.map.mode ∨ c ∈ [.start, .stop, .hold, .resume] := by
  cases h with
  | start | stop | stopHeld | hold | resume => exact .inr (by decide)
  | _ => exact .inl rfl

theorem mode_operate {op : Operation} (h : OperateEffect s op c t) : t.map.mode = s.map.mode ∨ c = .holdItem := by
  cases h with
  | frame f => rw [fusedInto_fuseFrame s f]; exact .inl rfl
  | hold => exact .inr rfl
  | rebase => exact .inl rfl

/-- The four tables of two states are the same. -/
def State.SameTables (s t : State) : Prop :=
  t.cellTable = s.cellTable ∧ t.pointTable = s.pointTable ∧ t.viewTable = s.viewTable ∧ t.limits = s.limits

theorem sameTables_of_records (h : t.records = s.records) : s.SameTables t :=
  ⟨congrArg Records.cellTable h, congrArg Records.pointTable h, congrArg Records.viewTable h, congrArg Records.limits h⟩

theorem State.SameTables.trans {u : State} (h : s.SameTables t) (k : t.SameTables u) : s.SameTables u :=
  ⟨k.1.trans h.1, k.2.1.trans h.2.1, k.2.2.1.trans h.2.2.1, k.2.2.2.trans h.2.2.2⟩

/-- No map operation but a close writes a table (R134). -/
theorem sameTables_perform (h : PerformEffect s c t) : s.SameTables t := by
  cases h with
  | hold | resume => rw [writeHostHold_frame]; exact ⟨rfl, rfl, rfl, rfl⟩
  | _ => exact ⟨rfl, rfl, rfl, rfl⟩

theorem sameTables_operate {op : Operation} (h : OperateEffect s op c t) : s.SameTables t := by
  cases h with
  | frame f => rw [fusedInto_fuseFrame s f]; exact ⟨rfl, rfl, rfl, rfl⟩
  | hold n flag => rw [writeLineHold_frame]; exact ⟨rfl, rfl, rfl, rfl⟩
  | rebase => exact ⟨rfl, rfl, rfl, rfl⟩

/-- The live records of two states, the epoch number, the hot-spot list and the summaries are the same. -/
def State.SameLive (s t : State) : Prop :=
  t.cells = s.cells ∧ t.points = s.points ∧ t.views = s.views ∧ t.map.epoch = s.map.epoch ∧ t.map.hotList = s.map.hotList ∧
    t.map.summaries = s.map.summaries

theorem State.SameLive.trans {u : State} (h : s.SameLive t) (k : t.SameLive u) : s.SameLive u := by
  obtain ⟨h1, h2, h3, h4, h5, h6⟩ := h
  obtain ⟨k1, k2, k3, k4, k5, k6⟩ := k
  exact ⟨k1.trans h1, k2.trans h2, k3.trans h3, k4.trans h4, k5.trans h5, k6.trans h6⟩

theorem sameLive_of_records (h : t.records = s.records) : s.SameLive t :=
  ⟨congrArg Records.cells h, congrArg Records.points h, congrArg Records.views h, congrArg Records.epoch h,
    congrArg Records.hotList h, congrArg Records.summaries h⟩

/-- The map-side requests that write a live record, or START, STOP and the holds. -/
theorem sameLive_perform (h : PerformEffect s c t) : s.SameLive t ∨
    c ∈ [.start, .stop, .hold, .resume, .clearMap, .readPoint, .restorePoint, .excludePoint, .readView] := by
  cases h with
  | reads | readMapStatus | readHotspots | readPass => exact .inl ⟨rfl, rfl, rfl, rfl, rfl, rfl⟩
  | _ => exact .inr (by decide)

theorem RecordEffect.of_records {u : State} (h : RecordEffect s c t) (e : u.records = t.records) : RecordEffect s c u := by
  cases h with
  | same same => exact .same (e.trans same)
  | performed change same => exact .performed change (e.trans same)
  | operated change same => exact .operated change (e.trans same)
  | softReset reset same => exact .softReset reset (e.trans same)

/-- What a command that is neither a close nor a full reset does to the records. -/
theorem recordEffect_of_exec (next : exec c s = .next t) (notClose : c ≠ .close) (notReset : c ≠ .fullReset) :
    RecordEffect s c t := by
  cases exec_outcome next with
  | unchanged => exact .same rfl
  | quiet change =>
    obtain same | ⟨reset, _⟩ := records_quiet change
    · exact .same same
    · exact absurd reset notReset
  | ends _ change => exact (recordEffect_of_effect change).of_records (records_conclude s _)
  | close _ _ isClose => exact absurd isClose notClose

theorem mode_of_exec (next : exec c s = .next t)
    (other : c ∉ [.start, .stop, .hold, .resume, .holdItem, .close, .mapSoftReset, .fullReset]) :
    t.map.mode = s.map.mode := by
  simp only [List.mem_cons, List.not_mem_nil, or_false, not_or] at other
  obtain ⟨start, stop, hold, resume, holdItem, close, softReset, fullReset⟩ := other
  have mode : ∀ {u v : State}, u.records = v.records → u.map.mode = v.map.mode := fun e => congrArg Records.mode e
  cases recordEffect_of_exec next close fullReset with
  | same same => exact mode same
  | performed change same =>
    obtain kept | listed := mode_perform change
    · rw [mode same, kept, State.arbitrate_map_mode]
    · simp [start, stop, hold, resume] at listed
  | operated change same =>
    obtain kept | isHold := mode_operate change
    · rw [mode same, kept, State.arbitrate_map_mode]
    · exact absurd isHold holdItem
  | softReset reset => exact absurd reset softReset

theorem sameTables_of_exec (next : exec c s = .next t) (notClose : c ≠ .close) (notReset : c ≠ .fullReset) :
    s.SameTables t := by
  have taken : s.SameTables s.arbitrate := sameTables_of_records (records_arbitrate s)
  cases recordEffect_of_exec next notClose notReset with
  | same same => exact sameTables_of_records same
  | performed change same => exact (taken.trans (sameTables_perform change)).trans (sameTables_of_records same)
  | operated change same => exact (taken.trans (sameTables_operate change)).trans (sameTables_of_records same)
  | softReset _ same =>
    exact State.SameTables.trans (t := s.softReset) ⟨rfl, rfl, rfl, rfl⟩ (sameTables_of_records same)

theorem sameLive_of_exec (next : exec c s = .next t)
    (other : c ∉ [.start, .stop, .hold, .resume, .clearMap, .readPoint, .restorePoint, .excludePoint, .readView,
      .frameFusion, .close, .holdItem, .rebaseItem, .mapSoftReset, .fullReset]) : s.SameLive t := by
  simp only [List.mem_cons, List.not_mem_nil, or_false, not_or] at other
  obtain ⟨start, stop, hold, resume, clear, readPoint, restore, exclude, readView, frame, close, holdItem, rebase, softReset,
    fullReset⟩ := other
  cases recordEffect_of_exec next close fullReset with
  | same same => exact sameLive_of_records same
  | performed change same =>
    obtain kept | listed := sameLive_perform change
    · exact ((sameLive_of_records (records_arbitrate s)).trans kept).trans (sameLive_of_records same)
    · simp [start, stop, hold, resume, clear, readPoint, restore, exclude, readView] at listed
  | operated change same =>
    cases change with
    | frame => exact absurd rfl frame
    | hold => exact absurd rfl holdItem
    | rebase => exact absurd rfl rebase
  | softReset reset => exact absurd reset softReset

end

/-- Settles O16. -/
theorem mapChangesOnlyByItsCommands : Obligations.MapChangesOnlyByItsCommands :=
  ⟨fun _ _ _ other next => mode_of_exec next other, fun _ _ _ notClose notReset next =>
    sameTables_of_exec next notClose notReset, fun _ _ _ other next => sameLive_of_exec next other⟩

end Sys2Proof.Machine
/-! PROOFS. Laws of the cells, one cell at a time: a law that no operation on one cell can break is kept by every step. The
law of use and the law of the estimates are two of them. -/

namespace Sys2Proof.Machine

/-! ## A law of each cell -/

/-- A law that ties the record of a cell to its entry, and that no operation on one cell can break. -/
structure CellLaw (Q : CellEntry → CellRecord → Prop) : Prop where
  initial : Q CellEntry.initial CellRecord.initial
  rebuilt : ∀ (t : Table 96 PointEntry) (i : Nat) (e : CellEntry), Q e (rebuiltCell t i e)
  touch : ∀ {e : CellEntry} {c : CellRecord} (refresh : Nat) (kind : Source) {sample : Int} (share gain : Nat),
    0 ≤ sample ∧ sample ≤ 12000 → Q e c → Q e (c.touch refresh kind sample share gain)
  writeAnchor : ∀ {e : CellEntry} {c : CellRecord} (v : Int), Q e c → Q e (c.writeAnchor v)
  alertNormal : ∀ {e : CellEntry} {c : CellRecord}, Q e c → Q e c.alertNormal
  rebase : ∀ {e : CellEntry} {c : CellRecord}, Q e c → Q e c.rebase
  clear : ∀ {e : CellEntry} {c : CellRecord}, Q e c → Q e c.clear
  grow : ∀ {e : CellEntry} {c : CellRecord} (staleAge : Nat), Q e c → Q e (c.grow staleAge)
  measureRise : ∀ {e : CellEntry} {c : CellRecord}, Q e c → Q e c.measureRise
  evaluate : ∀ {e : CellEntry} {c : CellRecord} (limits : Table 8 LimitClass), Q e c → Q e (evaluateCell limits e c)
  install : ∀ {old : CellEntry} {c : CellRecord} (e : CellEntry) (home : Bool), Q old c → Q e (cellAfterInstall old e home c)
  dropAnchor : ∀ {e : CellEntry} {c : CellRecord}, Q e c → Q e { c with anchor := none }
  giveAnchor : ∀ {e : CellEntry} {c : CellRecord}, e.inUse = true → Q e c → Q e { c with anchor := some Anchor.fresh }

/-- The law `Q` holds of every cell. -/
def State.EachCell (Q : CellEntry → CellRecord → Prop) (s : State) : Prop :=
  ∀ c : CellIx, Q (s.cellTable.get c) (s.cells.get c)

section
variable {Q : CellEntry → CellRecord → Prop} {s t : State}

theorem State.EachCell.of_eq (h : s.EachCell Q) (table : t.cellTable = s.cellTable) (cells : t.cells = s.cells) :
    t.EachCell Q := by
  unfold State.EachCell
  rw [table, cells]
  exact h

/-- What keeps the law of a cell, done to every cell, keeps it for all. -/
theorem State.EachCell.map {f : CellRecord → CellRecord} (h : s.EachCell Q)
    (keeps : ∀ {e : CellEntry} {c : CellRecord}, Q e c → Q e (f c)) (table : t.cellTable = s.cellTable)
    (cells : t.cells = s.cells.map f) : t.EachCell Q := fun c => by
  rw [table, cells, Table.get_map]
  exact keeps (h c)

/-- What keeps the law of a cell, done to one cell, keeps it for all. -/
theorem State.EachCell.upd {f : CellRecord → CellRecord} {d : CellIx} (h : s.EachCell Q)
    (keeps : Q (s.cellTable.get d) (s.cells.get d) → Q (s.cellTable.get d) (f (s.cells.get d)))
    (table : t.cellTable = s.cellTable) (cells : t.cells = s.cells.upd d f) : t.EachCell Q := fun c => by
  rw [table, cells, Table.get_upd]
  split
  next same => subst same; exact keeps (h d)
  next => exact h c

/-! ### Fusion -/

/-- An admitted reading is within the map range (R48). -/
theorem value_of_admitted {limit : Nat} {estimate : Option Int} {x : Reading} {r : PointRecord}
    (admitted : (checkReading limit estimate x r).2 = true) : 0 ≤ x.value ∧ x.value ≤ 12000 := by
  unfold checkReading at admitted
  split at admitted
  · simp at admitted
  · split at admitted
    · simp at admitted
    · split at admitted
      · simp at admitted
      next inRange =>
        simp only [Reading.outOfRange, Bool.or_eq_true, decide_eq_true_eq, not_or, not_lt] at inRange
        exact ⟨inRange.1.2, inRange.2⟩

theorem clampMap_range (x : Int) : 0 ≤ clampMap x ∧ clampMap x ≤ 12000 := by
  unfold clampMap clamp
  split
  · omega
  · split <;> omega

/-- The residual work of a binding leaves the cells alone (R71 to R73). -/
theorem cells_scanTest (s : State) (bias : Int) (b : Binding) (value : Int) (w : ScanWork) :
    (w.test s bias b value).cells = w.cells := by
  unfold ScanWork.test
  split
  · rfl
  · simp only
    split
    · rfl
    · split <;> rfl

variable (law : CellLaw Q)
include law

theorem eachCell_touchCell {kind : Source} {value : Int} (gain : Nat) (c : CellIx) (share : Nat)
    (range : 0 ≤ value ∧ value ≤ 12000) (h : s.EachCell Q) : (s.touchCell kind value gain c share).EachCell Q :=
  h.upd (law.touch _ _ _ _ range) rfl rfl

theorem eachCell_applyReading (e : PointEntry) {value : Int} (gain : Nat) (range : 0 ≤ value ∧ value ≤ 12000)
    (h : s.EachCell Q) : (s.applyReading e value gain).EachCell Q := by
  have touches : (e.spread.foldl (fun acc x => acc.touchCell .thermocouple value gain x.cell x.share)
      (s.touchCell .thermocouple value gain e.home 16)).EachCell Q :=
    foldl_keeps (State.EachCell Q) (fun _ x _ h => eachCell_touchCell law gain x.cell x.share range h)
      (eachCell_touchCell law gain e.home 16 range h)
  exact touches.upd (law.writeAnchor value) rfl rfl

theorem eachCell_fuseReading (port : PortIx) (x : Reading) (h : s.EachCell Q) :
    (State.fuseReading port s x).EachCell Q := by
  unfold State.fuseReading
  split
  · exact h
  · simp only
    split
    next admitted => exact eachCell_applyReading law _ _ (value_of_admitted admitted) h
    next => exact h

theorem eachCell_fuseScan (view : ViewIx) (pixels : List Pixel) (h : s.EachCell Q) : (s.fuseScan view pixels).EachCell Q := by
  have walked : ∀ c, Q (s.cellTable.get c) ((s.walkScan view pixels).cells.get c) := by
    refine foldl_keeps (fun w : ScanWork => ∀ c, Q (s.cellTable.get c) (w.cells.get c)) (fun w b _ hw c => ?_) h
    unfold ScanWork.binding
    split
    · exact hw c
    · split
      · exact hw c
      · split
        · exact hw c
        · simp only [cells_scanTest, Table.get_upd]
          split
          next same => subst same; exact law.touch _ _ _ _ (clampMap_range _) (hw _)
          next => exact hw c
  exact walked

theorem eachCell_fuseFrame (f : Frame) (h : s.EachCell Q) : (s.fuseFrame f).EachCell Q := by
  unfold State.fuseFrame
  split
  · exact h
  · exact h
  all_goals
    split
    · exact foldl_keeps (State.EachCell Q) (fun _ x _ h => eachCell_fuseReading law _ x h) h
    · exact eachCell_fuseScan law _ _ h

/-! ### The holds -/

theorem eachCell_modeEffect (h : s.EachCell Q) : s.modeEffect.EachCell Q := by
  unfold State.modeEffect
  split
  · split <;> exact h
  · split
    · exact h
    · exact h.map (t := { s.rebase with map := { s.map with mode := .running } }) law.rebase rfl rfl
  · exact h
  · exact h

theorem eachCell_writeHostHold (flag : Bool) (h : s.EachCell Q) : (s.writeHostHold flag).EachCell Q := by
  unfold State.writeHostHold
  split
  · exact h
  · exact eachCell_modeEffect law (h.of_eq rfl rfl)

theorem eachCell_writeLineHold (n : LineIx) (flag : Bool) (h : s.EachCell Q) : (s.writeLineHold n flag).EachCell Q := by
  unfold State.writeLineHold
  split
  · exact h
  · exact eachCell_modeEffect law (h.of_eq rfl rfl)

/-! ### A close -/

theorem eachCell_closeStages (a b : Nat) (h : s.EachCell Q) : (s.closeStages a b).EachCell Q := by
  have evaluated : ∀ latches, (s.evaluate latches a b).EachCell Q := fun latches c => by
    simp only [State.evaluate, Table.get_zipWith, Table.get_map]
    exact law.evaluate _ (law.measureRise (law.grow a (h c)))
  unfold State.closeStages
  split
  · exact evaluated false
  · exact evaluated true
  · exact h
  · exact h

end

/-! ### The installs -/

theorem cellTable_updHomePoint (s : State) (c : CellIx) (f : PointRecord → PointRecord) :
    (s.updHomePoint c f).cellTable = s.cellTable := by
  unfold State.updHomePoint
  split <;> rfl

theorem cellTable_installCell (s : State) (c : CellIx) (e : CellEntry) :
    (s.installCell c e).cellTable = s.cellTable.set c e := by
  unfold State.installCell
  simp only
  split
  · exact cellTable_updHomePoint _ _ _
  · exact cellTable_updHomePoint _ _ _
  · split <;> rfl
  · rfl

theorem cells_installCell (s : State) (c : CellIx) (e : CellEntry) : (s.installCell c e).cells =
    s.cells.set c (cellAfterInstall (s.cellTable.get c) e (isHome s.pointTable c) (s.cells.get c)) := by
  have unwritten : s.cells = s.cells.set c (s.cells.get c) := (Table.set_get _ _).symm
  cases old : (s.cellTable.get c).inUse with
  | false =>
    cases new : e.inUse with
    | false => simpa only [State.installCell, cellAfterInstall, old, new] using unwritten
    | true =>
      simp only [State.installCell, cellAfterInstall, old, new]
      exact congrArg (fun a => s.cells.set c ⟨.empty, a⟩) (freshAnchor_map _)
  | true =>
    cases new : e.inUse with
    | false => simp only [State.installCell, cellAfterInstall, old, new]
    | true =>
      by_cases same : e.limitClass = (s.cellTable.get c).limitClass
      · simpa only [State.installCell, cellAfterInstall, old, new, if_pos same] using unwritten
      · simp only [State.installCell, cellAfterInstall, old, new, if_neg same, Table.upd]

section
variable {Q : CellEntry → CellRecord → Prop} {s t : State} (law : CellLaw Q)
include law

theorem eachCell_installCell (c : CellIx) (e : CellEntry) (h : s.EachCell Q) : (s.installCell c e).EachCell Q := fun d => by
  rw [cellTable_installCell, cells_installCell, Table.get_set, Table.get_set]
  split
  · exact law.install e _ (h c)
  · exact h d

theorem eachCell_installPoints (p : Fin 3) (slots : Table 32 (Option PointEntry)) (h : s.EachCell Q) :
    (s.installPoints p slots).EachCell Q := by
  refine foldFilled_keeps (State.EachCell Q) (fun t _ e _ h => ?give) (foldFilled_keeps (State.EachCell Q)
    (fun t i e _ h => h.of_eq (t := t.installPoint (pointOfSlot p i) e) rfl rfl) (foldFilled_keeps (State.EachCell Q) (fun t i _ _ h => ?drop) h))
  case give =>
    unfold State.giveAnchor
    split
    next both => exact h.upd (f := fun c => { c with anchor := some Anchor.fresh }) (law.giveAnchor (Bool.and_eq_true_iff.mp both).2) rfl rfl
    next => exact h
  case drop =>
    unfold State.dropAnchor
    split
    · exact h.upd (f := fun c => { c with anchor := none }) law.dropAnchor rfl rfl
    · exact h

theorem eachCell_installPage (p : Page) (h : s.EachCell Q) : (s.installPage p).1.EachCell Q := by
  unfold State.installPage
  split
  · exact h
  · split
    · exact foldFilled_keeps (State.EachCell Q) (fun t i e _ h => eachCell_installCell law _ e h) h
    · split
      · exact eachCell_installPoints law _ _ h
      · exact h
    · exact h
    · exact h

theorem eachCell_installAll (pages : List Page) {s : State} (h : s.EachCell Q) : (installAll pages s).1.EachCell Q := by
  induction pages generalizing s with
  | nil => exact h
  | cons p pages ih => exact ih (eachCell_installPage law p h)

theorem eachCell_completeClose (h : s.EachCell Q) : s.completeClose.EachCell Q := by
  have installed : ∀ {u : State}, u.EachCell Q → u.installPending.EachCell Q := fun {u} hu => by
    unfold State.installPending
    split
    · exact hu
    · exact (eachCell_installAll law u.stage.pendingPages hu).of_eq rfl rfl
  rw [State.completeClose, (settleMode_frame _).1]
  exact installed (h.of_eq (t := { s with map := { s.map with epoch := s.map.epoch + 1 } }) rfl rfl)

/-- A law that no operation on one cell can break is a law of the records. -/
theorem CellLaw.recordLaw : RecordLaw (State.EachCell Q) where
  same e h := h.of_eq (congrArg Records.cellTable e) (congrArg Records.cells e)
  fullReset pins low q c := by
    simp only [State.fullReset, Table.get_replicate]
    exact law.initial
  perform h change := by
    cases change with
    | start => exact h.map law.alertNormal rfl rfl
    | stopHeld => exact h.map law.rebase rfl rfl
    | clearMap => exact h.map law.clear rfl rfl
    | hold | resume => exact eachCell_writeHostHold law _ h
    | _ => exact h
  operate h change := by
    cases change with
    | frame f => exact eachCell_fuseFrame law f h
    | hold n flag => exact eachCell_writeLineHold law n flag h
    | rebase => exact h.map law.rebase rfl rfl
  softReset _ c := by
    simp only [State.softReset, Table.get_mapIx]
    exact law.rebuilt _ _ _
  close a b h := eachCell_completeClose law (eachCell_closeStages law a b h)

end

/-! ## The law of use (R2, R3) -/

/-- A record is UNUSED exactly when its entry is not in use, and has no anchor then. -/
def CellRecord.UseOf (e : CellEntry) (c : CellRecord) : Prop := c.inUse = e.inUse ∧ (c.inUse = false → c.anchor = none)

/-- An operation that neither takes a cell into use or out of it nor gives it an anchor keeps the law of use. -/
theorem CellRecord.UseOf.keep {e : CellEntry} {c d : CellRecord} (h : c.UseOf e) (use : d.inUse = c.inUse)
    (anchor : c.anchor = none → d.anchor = none) : d.UseOf e :=
  ⟨use.trans h.1, fun unused => anchor (h.2 (use ▸ unused))⟩

theorem inUse_touch (refresh : Nat) (kind : Source) (sample : Int) (share gain : Nat) (c : CellRecord) :
    (c.touch refresh kind sample share gain).inUse = c.inUse ∧ (c.touch refresh kind sample share gain).anchor = c.anchor := by
  obtain ⟨content, anchor⟩ := c
  unfold CellRecord.touch
  simp only
  split
  · exact ⟨rfl, rfl⟩
  · cases content with
    | stale b => simp only; split <;> exact ⟨rfl, rfl⟩
    | _ => exact ⟨rfl, rfl⟩

theorem inUse_evaluateCell (limits : Table 8 LimitClass) (e : CellEntry) (c : CellRecord) :
    (evaluateCell limits e c).inUse = c.inUse ∧ (evaluateCell limits e c).anchor = c.anchor := by
  unfold evaluateCell
  split
  next content _ => simp [CellRecord.inUse, content]
  next => exact ⟨rfl, rfl⟩

theorem inUse_grow (staleAge : Nat) (c : CellRecord) : (c.grow staleAge).inUse = c.inUse := by
  obtain ⟨content, anchor⟩ := c
  cases content with
  | live b r => simp only [CellRecord.grow, CellContent.grow]; split <;> rfl
  | _ => rfl

theorem useOf_cellLaw : CellLaw fun e c => c.UseOf e where
  initial := ⟨rfl, fun _ => rfl⟩
  rebuilt t i e := by
    unfold rebuiltCell
    split
    next used => exact ⟨used.symm, fun unused => by simp [CellRecord.inUse] at unused⟩
    next unused => exact ⟨by simpa [CellRecord.inUse] using unused, fun _ => rfl⟩
  touch refresh kind sample share gain _ h :=
    have ⟨use, anchor⟩ := inUse_touch refresh kind sample share gain _
    h.keep use (anchor.trans ·)
  writeAnchor v h := h.keep rfl fun none => by simp [CellRecord.writeAnchor, none]
  alertNormal {_ c} h := by obtain ⟨content, anchor⟩ := c; cases content <;> exact h.keep rfl id
  rebase {_ c} h := by obtain ⟨content, anchor⟩ := c; cases content <;> exact h.keep rfl id
  clear {_ c} h := by
    obtain ⟨content, anchor⟩ := c
    cases content <;> exact h.keep rfl fun none => by simp_all [CellRecord.clear]
  grow staleAge h := h.keep (inUse_grow staleAge _) fun none => by simp [CellRecord.grow, none]
  measureRise {_ c} h := by obtain ⟨content, anchor⟩ := c; cases content <;> exact h.keep rfl id
  evaluate limits h :=
    have ⟨use, anchor⟩ := inUse_evaluateCell limits _ _
    h.keep use (anchor.trans ·)
  install {old c} e home h := by
    unfold cellAfterInstall
    split
    next leaves => exact ⟨leaves.symm, fun _ => rfl⟩
    next enters => exact ⟨enters.symm, fun unused => by simp [CellRecord.inUse] at unused⟩
    next was stays =>
      have used : c.inUse = true := h.1.trans was
      split
      · exact ⟨used.trans stays.symm, fun unused => by simp [used] at unused⟩
      · have kept : c.alertNormal.inUse = c.inUse := by obtain ⟨content, anchor⟩ := c; cases content <;> rfl
        exact ⟨kept.trans (used.trans stays.symm), fun unused => by simp [kept, used] at unused⟩
    next was stays => exact ⟨h.1.trans (was.trans stays.symm), h.2⟩
  dropAnchor h := ⟨h.1, fun _ => rfl⟩
  giveAnchor used h := ⟨h.1, fun unused => absurd (h.1.symm.trans unused) (by simp [used])⟩

/-- The law of use is kept by every step. -/
theorem useLaw_kept : KeptByEveryStep State.UseLaw := (useOf_cellLaw.recordLaw).kept

/-! ## The law of the estimates (R3) -/

/-- A present estimate is within the map range. -/
def CellRecord.EstimateIn (c : CellRecord) : Prop := ∀ e : Int, c.estimate = some e → 0 ≤ e ∧ e ≤ 12000

theorem CellRecord.EstimateIn.of_eq {c d : CellRecord} (h : c.EstimateIn) (same : d.estimate = c.estimate) : d.EstimateIn :=
  fun e he => h e (same ▸ he)

theorem estimateIn_touch (refresh : Nat) (kind : Source) {sample : Int} (share gain : Nat) {c : CellRecord}
    (range : 0 ≤ sample ∧ sample ≤ 12000) (h : c.EstimateIn) : (c.touch refresh kind sample share gain).EstimateIn := by
  have moved : ∀ (b : CellBody) (w : Nat), 0 ≤ (b.touch refresh kind sample w).estimate ∧
      (b.touch refresh kind sample w).estimate ≤ 12000 := fun b w => by
    unfold CellBody.touch
    simp only
    split <;> exact clampMap_range _
  unfold CellRecord.touch
  simp only
  split
  · exact h
  · split
    · exact h
    · rintro _ ⟨⟩; exact range
    · rintro _ ⟨⟩; exact moved _ _
    · split <;> (rintro _ ⟨⟩; exact moved _ _)

theorem estimate_grow (staleAge : Nat) (c : CellRecord) : (c.grow staleAge).estimate = c.estimate := by
  obtain ⟨content, anchor⟩ := c
  cases content with
  | live b r => simp only [CellRecord.grow, CellContent.grow]; split <;> rfl
  | _ => rfl

theorem estimateIn_cellLaw : CellLaw fun _ c => c.EstimateIn where
  initial := by rintro _ ⟨⟩
  rebuilt t i e := by
    unfold rebuiltCell
    split <;> rintro _ ⟨⟩
  touch refresh kind _ share gain range h := estimateIn_touch refresh kind share gain range h
  writeAnchor v h := h.of_eq rfl
  alertNormal {_ c} h := by obtain ⟨content, anchor⟩ := c; cases content <;> exact h.of_eq rfl
  rebase {_ c} h := by obtain ⟨content, anchor⟩ := c; cases content <;> exact h.of_eq rfl
  clear {_ c} h := by obtain ⟨content, anchor⟩ := c; cases content <;> rintro _ ⟨⟩
  grow staleAge h := h.of_eq (estimate_grow staleAge _)
  measureRise {_ c} h := by obtain ⟨content, anchor⟩ := c; cases content <;> exact h.of_eq rfl
  evaluate {e c} limits h := by
    obtain ⟨content, anchor⟩ := c
    unfold evaluateCell
    split
    next same _ => simp only at same; subst same; exact h.of_eq rfl
    next => exact h
  install {old c} e home h := by
    unfold cellAfterInstall
    split
    · rintro _ ⟨⟩
    · rintro _ ⟨⟩
    · split
      · exact h
      · obtain ⟨content, anchor⟩ := c; cases content <;> exact h.of_eq rfl
    · exact h
  dropAnchor h := h.of_eq rfl
  giveAnchor _ h := h.of_eq rfl

/-- The law of the estimates is kept by every step. -/
theorem estimateLaw_kept : KeptByEveryStep State.EstimateLaw := (estimateIn_cellLaw.recordLaw).kept

end Sys2Proof.Machine
/-! PROOFS. The other laws of the records: the holds, the BLANK boundary, the biases, the hot-spot list; and the laws of the
tables and the stage. -/

namespace Sys2Proof.Machine

/-! ## The completion of a close, seen from the map and the stage -/

section
variable (s : State)

theorem map_installPending : s.installPending.map = s.map := by
  unfold State.installPending
  split
  · rfl
  · exact (installAll_frame s.stage.pendingPages s).1

/-- No page is pending after the installs (R143). -/
theorem pendingPages_installPending : s.installPending.stage.pendingPages = [] := by
  unfold State.installPending
  split
  next none => exact List.isEmpty_iff.mp none
  next => rfl

/-- The installs leave the open stage alone (R143). -/
theorem openStage_installPending : s.installPending.stage.target = s.stage.target ∧
    s.installPending.stage.pointer = s.stage.pointer := by
  unfold State.installPending
  split
  · exact ⟨rfl, rfl⟩
  · have same := (installAll_frame s.stage.pendingPages s).2.1
    change (installAll s.stage.pendingPages s).1.stage.target = _ ∧ (installAll s.stage.pendingPages s).1.stage.pointer = _
    rw [same]
    exact ⟨rfl, rfl⟩

theorem stage_completeClose :
    s.completeClose.stage = ({ s with map := { s.map with epoch := s.map.epoch + 1 } }).installPending.stage := by
  rw [State.completeClose, (settleMode_frame _).1]

end

/-! ## The law of the holds (R125) -/

section
variable {s : State}

/-- The mode effect makes the law of the holds true. -/
theorem holdLaw_modeEffect (s : State) : s.modeEffect.HoldLaw := by
  obtain ⟨_, held, same⟩ | ⟨_, free, same⟩ | ⟨running, held, same⟩ := modeEffect_cases s
  · rw [same]; exact ⟨nofun, fun _ => held⟩
  · rw [same]; exact ⟨fun _ => free, nofun⟩
  · rw [same]
    exact ⟨fun mode => Bool.eq_false_iff.mpr fun any => running ⟨mode, any⟩, fun mode => by
      rw [← Bool.not_eq_false]; exact fun none => held ⟨mode, none⟩⟩

theorem holdLaw_writeHostHold (flag : Bool) (h : s.HoldLaw) : (s.writeHostHold flag).HoldLaw := by
  unfold State.writeHostHold
  split
  · exact h
  · exact holdLaw_modeEffect _

theorem holdLaw_writeLineHold (n : LineIx) (flag : Bool) (h : s.HoldLaw) : (s.writeLineHold n flag).HoldLaw := by
  unfold State.writeLineHold
  split
  · exact h
  · exact holdLaw_modeEffect _

/-- A map whose mode is neither RUNNING nor HELD obeys the law of the holds. -/
theorem holdLaw_of_mode (running : s.map.mode ≠ .running) (held : s.map.mode ≠ .held) : s.HoldLaw :=
  ⟨fun h => absurd h running, fun h => absurd h held⟩

theorem State.HoldLaw.of_eq {t : State} (h : s.HoldLaw) (mode : t.map.mode = s.map.mode)
    (host : t.map.hostHold = s.map.hostHold) (lines : t.map.lineHold = s.map.lineHold) : t.HoldLaw := by
  unfold State.HoldLaw MapState.anyHold
  rw [mode, host, lines]
  exact h

theorem holdLaw_settleMode (h : s.HoldLaw) : s.settleMode.HoldLaw := by
  unfold State.settleMode
  split
  · split
    · exact holdLaw_of_mode (by simp) (by simp)
    · exact h
  · exact holdLaw_of_mode (by simp) (by simp)

theorem holdLaw_recordLaw : RecordLaw State.HoldLaw where
  same e h := h.of_eq (congrArg Records.mode e) (congrArg Records.hostHold e) (congrArg Records.lineHold e)
  fullReset pins low q := holdLaw_of_mode nofun nofun
  perform {s _ _} h change := by
    cases change with
    | start =>
      cases held : s.map.anyHold with
      | true => exact ⟨nofun, fun _ => held⟩
      | false => exact ⟨fun _ => held, nofun⟩
    | stop | stopHeld => exact holdLaw_of_mode nofun nofun
    | hold | resume => exact holdLaw_writeHostHold _ h
    | _ => exact h.of_eq rfl rfl rfl
  operate {s _ _ _} h change := by
    cases change with
    | frame f => rw [fusedInto_fuseFrame s f]; exact h.of_eq rfl rfl rfl
    | hold n flag => exact holdLaw_writeLineHold n flag h
    | rebase => exact h.of_eq rfl rfl rfl
  softReset {s} _ := by
    cases used : s.someInUse <;>
      exact holdLaw_of_mode (by simp [State.softReset, MapState.softReset, used])
        (by simp [State.softReset, MapState.softReset, used])
  close {s} a b h := by
    have staged : (s.closeStages a b).HoldLaw := by
      unfold State.closeStages
      split <;> exact h.of_eq rfl rfl rfl
    refine holdLaw_settleMode (staged.of_eq ?_ ?_ ?_)
    all_goals rw [map_installPending]

end

/-! ## The BLANK boundary (R12, R121) -/

section
variable {s t : State}

theorem State.BlankLaw.of_eq (h : s.BlankLaw) (mode : t.map.mode = s.map.mode) (table : t.cellTable = s.cellTable) :
    t.BlankLaw := by
  unfold State.BlankLaw State.someInUse
  rw [mode, table]
  exact h

/-- A mode that moves within the modes other than BLANK keeps the boundary. -/
theorem State.BlankLaw.of_ne (h : s.BlankLaw) (before : s.map.mode ≠ .blank) (after : t.map.mode ≠ .blank)
    (table : t.cellTable = s.cellTable) : t.BlankLaw := by
  have used : t.someInUse = s.someInUse := by unfold State.someInUse; rw [table]
  have none : s.someInUse ≠ false := fun unused => before (h.mpr unused)
  exact ⟨fun blank => absurd blank after, fun unused => absurd (used ▸ unused) none⟩

/-- Settling the mode makes the boundary true. -/
theorem blankLaw_settleMode (s : State) : s.settleMode.BlankLaw := by
  unfold State.BlankLaw State.settleMode
  split
  next used =>
    split
    next => exact ⟨nofun, fun unused => absurd (used.symm.trans unused) (by simp)⟩
    next notBlank => exact ⟨fun blank => absurd blank notBlank, fun unused => absurd (used.symm.trans unused) (by simp)⟩
  next unused => exact ⟨fun _ => Bool.eq_false_iff.mpr unused, fun _ => rfl⟩

theorem blankLaw_modeEffect (h : s.BlankLaw) : s.modeEffect.BlankLaw := by
  obtain ⟨running, _, same⟩ | ⟨held, _, same⟩ | ⟨_, _, same⟩ := modeEffect_cases s
  · rw [same]; exact h.of_ne (by simp [running]) (by simp) rfl
  · rw [same]; exact h.of_ne (by simp [held]) (by simp) rfl
  · rw [same]; exact h

theorem blankLaw_recordLaw : RecordLaw State.BlankLaw where
  same e h := h.of_eq (congrArg Records.mode e) (congrArg Records.cellTable e)
  fullReset pins low q := by
    have unused : (State.fullReset pins low q).someInUse = false := (Table.any_eq_false_iff _ _).mpr fun c => by
      simp [State.fullReset, CellEntry.initial]
    exact ⟨fun _ => unused, fun _ => rfl⟩
  perform {s _ _} h change := by
    cases change with
    | start mode => exact h.of_ne (by simp [mode]) (by simp only; split <;> nofun) rfl
    | stop mode | stopHeld mode => exact h.of_ne (by simp [mode]) nofun rfl
    | hold | resume =>
      unfold State.writeHostHold
      split
      · exact h
      · exact blankLaw_modeEffect (h.of_eq rfl rfl)
    | _ => exact h.of_eq rfl rfl
  operate {s _ _ _} h change := by
    cases change with
    | frame f => rw [fusedInto_fuseFrame s f]; exact h.of_eq rfl rfl
    | hold n flag =>
      unfold State.writeLineHold
      split
      · exact h
      · exact blankLaw_modeEffect (h.of_eq rfl rfl)
    | rebase => exact h.of_eq rfl rfl
  softReset {s} _ := by
    cases used : s.someInUse with
    | true => exact ⟨fun blank => by simp [State.softReset, MapState.softReset, used] at blank,
        fun unused => absurd (used.symm.trans unused) (by simp)⟩
    | false => exact ⟨fun _ => used, fun _ => by simp [State.softReset, MapState.softReset, used]⟩
  close a b _ := blankLaw_settleMode _

end

/-- Settles O10. -/
theorem mapLawsKept : Obligations.MapLawsKept := fun s t ⟨hold, use, blank⟩ next =>
  ⟨holdLaw_recordLaw.kept s t hold next, useLaw_kept s t use next, blankLaw_recordLaw.kept s t blank next⟩

end Sys2Proof.Machine
/-! PROOFS. The laws of the biases, of the hot-spot list, and of the tables with the stage. -/

namespace Sys2Proof.Machine

/-! ## The law of the biases (R67) -/

section
variable {s t : State}

theorem State.BiasLaw.of_eq (h : s.BiasLaw) (views : t.views = s.views) : t.BiasLaw := by
  unfold State.BiasLaw
  rw [views]
  exact h

theorem biasAfter_range {bias : Int} (sum : Int) (n gain : Nat) (h : -1000 ≤ bias ∧ bias ≤ 1000) :
    -1000 ≤ biasAfter bias sum n gain ∧ biasAfter bias sum n gain ≤ 1000 := by
  unfold biasAfter clamp
  split
  · exact h
  · split
    · omega
    · split <;> omega

theorem views_fuseReading (port : PortIx) (s : State) (x : Reading) : (State.fuseReading port s x).views = s.views := by
  have touches : ∀ (u : State) (e : PointEntry) (v : Int) (g : Nat), (u.applyReading e v g).views = u.views :=
    fun u e v g => foldl_keeps (f := fun acc (x : SpreadEntry) => acc.touchCell .thermocouple v g x.cell x.share)
      (fun w : State => w.views = u.views) (fun _ _ _ h => h) rfl
  unfold State.fuseReading
  split
  · rfl
  · simp only
    split
    · exact touches _ _ _ _
    · rfl

theorem biasLaw_fuseFrame (f : Frame) (h : s.BiasLaw) : (s.fuseFrame f).BiasLaw := by
  have scanned : ∀ view pixels, (s.fuseScan view pixels).BiasLaw := fun view pixels v => by
    simp only [State.fuseScan, Table.get_upd]
    split
    next same => subst same; exact biasAfter_range _ _ _ (h view)
    next => exact h v
  have walked : ∀ port readings, (s.walkSamples port readings).BiasLaw := fun port readings =>
    foldl_keeps State.BiasLaw (fun u x _ hu => hu.of_eq (views_fuseReading port u x)) h
  unfold State.fuseFrame
  split
  · exact h
  · exact h
  all_goals
    split
    · exact walked _ _
    · exact scanned _ _

theorem views_updHomePoint (s : State) (c : CellIx) (f : PointRecord → PointRecord) : (s.updHomePoint c f).views = s.views := by
  unfold State.updHomePoint
  split <;> rfl

theorem views_installCell (s : State) (c : CellIx) (e : CellEntry) : (s.installCell c e).views = s.views := by
  unfold State.installCell
  simp only
  split
  · exact views_updHomePoint _ _ _
  · exact views_updHomePoint _ _ _
  · split <;> rfl
  · rfl

theorem views_installPoints (s : State) (p : Fin 3) (slots : Table 32 (Option PointEntry)) :
    (s.installPoints p slots).views = s.views := by
  refine foldFilled_keeps (fun t : State => t.views = s.views) (fun t _ e _ h => ?give)
    (foldFilled_keeps (f := fun acc i e => acc.installPoint (pointOfSlot p i) e)
      (fun t : State => t.views = s.views) (fun t i e _ h => h)
      (foldFilled_keeps (fun t : State => t.views = s.views) (fun t i _ _ h => ?drop) rfl))
  case give => unfold State.giveAnchor; split <;> exact h
  case drop => unfold State.dropAnchor; split <;> exact h

theorem biasLaw_installPage (p : Page) (h : s.BiasLaw) : (s.installPage p).1.BiasLaw := by
  unfold State.installPage
  split
  · exact h
  · split
    · exact foldFilled_keeps State.BiasLaw (fun t i e _ h => h.of_eq (views_installCell t _ e)) h
    · split
      · exact h.of_eq (views_installPoints s _ _)
      · exact h
    · intro v
      simp only [State.installViews, Table.get_upd]
      split
      · simp
      · exact h v
    · exact h

theorem biasLaw_installAll (pages : List Page) {s : State} (h : s.BiasLaw) : (installAll pages s).1.BiasLaw := by
  induction pages generalizing s with
  | nil => exact h
  | cons p pages ih => exact ih (biasLaw_installPage p h)

theorem biasLaw_recordLaw : RecordLaw State.BiasLaw where
  same e h := h.of_eq (congrArg Records.views e)
  fullReset pins low q v := by simp [State.fullReset, ViewRecord.initial]
  perform {s _ _} h change := by
    cases change with
    | hold | resume => rw [writeHostHold_frame]; exact h.of_eq rfl
    | clearMap => exact fun v => by simp
    | readView v =>
      intro w
      simp only [Table.get_upd]
      split
      next same => subst same; exact h v
      next => exact h w
    | _ => exact h.of_eq rfl
  operate {s _ _ _} h change := by
    cases change with
    | frame f => exact biasLaw_fuseFrame f h
    | hold n flag => rw [writeLineHold_frame]; exact h.of_eq rfl
    | rebase => exact h.of_eq rfl
  softReset _ v := by simp [State.softReset, ViewRecord.initial]
  close {s} a b h := by
    have staged : (s.closeStages a b).BiasLaw := by
      unfold State.closeStages
      split <;> exact h.of_eq rfl
    rw [State.completeClose, (settleMode_frame _).1]
    unfold State.installPending
    split
    · exact staged.of_eq rfl
    · exact biasLaw_installAll (s.closeStages a b).stage.pendingPages (s := { s.closeStages a b with map := _ }) staged

end

/-! ## The law of the hot-spot list (R116) -/

section
variable {s t : State}

theorem State.HotLaw.of_eq (h : s.HotLaw) (list : t.map.hotList = s.map.hotList) : t.HotLaw :=
  ⟨by rw [list]; exact h.size, by rw [list]; exact h.ranked, by rw [list]; exact h.distinct⟩

theorem hotLaw_of_empty (list : s.map.hotList = []) : s.HotLaw := by
  constructor <;> simp [list]

/-- The list that a close builds obeys its law. -/
theorem hotLaw_of_rankHot {floor : Nat} {cells : List CellRecord} (list : s.map.hotList = rankHot floor 0 cells []) :
    s.HotLaw := by
  have scan : HotScan floor ([] ++ cells) s.map.hotList :=
    list ▸ rankHot_scan floor [] cells [] ⟨by simp, by simp, by simp, by simp⟩
  exact ⟨scan.len, scan.sorted, scan.distinct⟩

theorem hotLaw_settleMode (h : s.HotLaw) : s.settleMode.HotLaw := by
  unfold State.settleMode
  split
  · split <;> exact h.of_eq rfl
  · exact hotLaw_of_empty rfl

theorem hotLaw_recordLaw : RecordLaw State.HotLaw where
  same e h := h.of_eq (congrArg Records.hotList e)
  fullReset pins low q := hotLaw_of_empty rfl
  perform {s _ _} h change := by
    cases change with
    | hold | resume => rw [writeHostHold_frame]; exact h.of_eq rfl
    | clearMap => exact hotLaw_of_empty rfl
    | _ => exact h.of_eq rfl
  operate {s _ _ _} h change := by
    cases change with
    | frame f => rw [fusedInto_fuseFrame s f]; exact h.of_eq rfl
    | hold n flag => rw [writeLineHold_frame]; exact h.of_eq rfl
    | rebase => exact h.of_eq rfl
  softReset _ := hotLaw_of_empty rfl
  close {s} a b h := by
    have staged : (s.closeStages a b).HotLaw := by
      unfold State.closeStages
      split
      · exact hotLaw_of_rankHot rfl
      · exact hotLaw_of_rankHot rfl
      · exact h
      · exact h
    refine hotLaw_settleMode (staged.of_eq ?_)
    rw [map_installPending]

end

/-! ## Laws of the tables and the stage -/

section
variable {s t : State} {c : Instr}

theorem sameTables_tick (h : TickEffect s t) : s.SameTables t ∧ t.stage = s.stage := by
  cases h <;> exact ⟨⟨rfl, rfl, rfl, rfl⟩, rfl⟩

theorem stage_perform (h : PerformEffect s c t) : t.stage = s.stage := by
  cases h with
  | hold | resume => rw [writeHostHold_frame]
  | _ => rfl

theorem stage_operate {op : Operation} (h : OperateEffect s op c t) : t.stage = s.stage := by
  cases h with
  | frame f => rw [fusedInto_fuseFrame s f]; rfl
  | hold n flag => rw [writeLineHold_frame]
  | rebase => rfl

theorem stage_followHold (s : State) (n : LineIx) : (s.followHold n).stage = s.stage := by
  obtain ⟨items, _, same⟩ := followHold_eq s n
  rw [same]

theorem stage_debouncedEdge (s : State) (n : LineIx) : (s.debouncedEdge n).stage = s.stage := by
  unfold State.debouncedEdge
  simp only
  split
  · rfl
  · exact stage_followHold _ n
  · split <;> rfl

/-- The four tables and the stage of two states are the same. -/
def State.SameStaging (s t : State) : Prop := s.SameTables t ∧ t.stage = s.stage

theorem State.SameStaging.refl (s : State) : s.SameStaging s := ⟨⟨rfl, rfl, rfl, rfl⟩, rfl⟩

theorem State.SameStaging.trans {u : State} (h : s.SameStaging t) (k : t.SameStaging u) : s.SameStaging u :=
  ⟨h.1.trans k.1, k.2.trans h.2⟩

/-- What an effect does to the tables and the stage: nothing, what a request served directly does, or the soft reset. -/
inductive StagingEffect (s : State) (c : Instr) : State → Prop
  | same {t : State} : s.SameStaging t → StagingEffect s c t
  | served {s' t : State} : ServeEffect s c s' → s'.SameStaging t → StagingEffect s c t
  | softReset {t : State} : s.softReset.SameStaging t → StagingEffect s c t

theorem sameStaging_arbitrate (s : State) : s.SameStaging s.arbitrate :=
  ⟨sameTables_of_records (records_arbitrate s), s.arbitrate_stage⟩

theorem stagingEffect_of_effect (h : Effect s c t) : StagingEffect s c t := by
  cases h with
  | served c r parts s' _ change => exact .served change ⟨⟨rfl, rfl, rfl, rfl⟩, rfl⟩
  | performed c r parts s' _ _ change =>
    have made : s.arbitrate.SameStaging s' := ⟨sameTables_perform change, stage_perform change⟩
    exact .same (((sameStaging_arbitrate s).trans made).trans ⟨⟨rfl, rfl, rfl, rfl⟩, rfl⟩)
  | operated c op s' _ change =>
    have made : s.arbitrate.SameStaging s' := ⟨sameTables_operate change, stage_operate change⟩
    exact .same (((sameStaging_arbitrate s).trans made).trans ⟨⟨rfl, rfl, rfl, rfl⟩, rfl⟩)
  | timerExpiry => rw [timerExpires_eq]; exact .same (.refl s)
  | edge n => exact .same ⟨sameTables_of_records (records_debouncedEdge s n), stage_debouncedEdge s n⟩
  | softReset | softResetUnasked => exact .softReset ⟨⟨rfl, rfl, rfl, rfl⟩, rfl⟩
  | _ => exact .same ⟨⟨rfl, rfl, rfl, rfl⟩, rfl⟩

/-- A law of the tables and the stage that no request, no close and neither reset can break. -/
structure StagingLaw (P : State → Prop) : Prop where
  /-- The law looks at the tables and the stage alone. -/
  same : ∀ {s t : State}, s.SameStaging t → P s → P t
  fullReset : ∀ (pins : Table 4 Bool) (low : Bool) (q : List Instr), P (State.fullReset pins low q)
  serve : ∀ {s t : State} {c : Instr}, P s → ServeEffect s c t → P t
  softReset : ∀ {s : State}, P s → P s.softReset
  complete : ∀ {s : State}, P s → P s.completeClose

theorem sameStaging_closeStages (s : State) (a b : Nat) : s.SameStaging (s.closeStages a b) := by
  unfold State.closeStages
  split <;> exact ⟨⟨rfl, rfl, rfl, rfl⟩, rfl⟩

/-- Every step keeps such a law. -/
theorem StagingLaw.kept {P : State → Prop} (law : StagingLaw P) : KeptByEveryStep P :=
  KeptByChanges.everyStep {
    pending := fun {s} _ h => law.same (.refl s) h
    event := fun {s} _ h => law.same (.refl s) h
    transmit := fun {s} h => law.same ⟨sameTables_of_records (records_transmit s), s.transmit_stage⟩ h
    arbitrate := fun {s} h => law.same (sameStaging_arbitrate s) h
    quiet := fun {s _ _} h change => by
      cases change with
      | fullReset => exact law.fullReset _ _ _
      | _ => exact law.same (.refl s) h
    effect := fun _ h change => by
      cases stagingEffect_of_effect change with
      | same same => exact law.same same h
      | served change same => exact law.same same (law.serve h change)
      | softReset same => exact law.same same (law.softReset h)
    tick := fun h change => law.same (sameTables_tick change) h
    close := fun {s a b} _ h =>
      law.same (s := (s.closeStages a b).completeClose) ⟨⟨rfl, rfl, rfl, rfl⟩, rfl⟩ (law.complete (law.same (sameStaging_closeStages s a b) h))
    free := fun {s _ _} _ h => law.same (.refl s) h }

end

/-! ## The ranges of the tables and of the pending pages (Table 8-3) -/

section
variable {s t : State}

theorem State.TableLaw.of_same (h : s.TableLaw) (same : s.SameTables t) (pages : t.stage.pendingPages = s.stage.pendingPages) :
    t.TableLaw :=
  have ⟨cells, points, views, limits⟩ := same
  h.of_eq cells points views limits pages

/-- Entries put into the stage leave the pending list alone. -/
theorem pendingPages_put (last : Nat) (g : Stage) (entries : List (List Byte)) :
    (entries.foldl (Stage.put last) g).pendingPages = g.pendingPages := by
  refine foldl_keeps (fun k : Stage => k.pendingPages = g.pendingPages) (fun k e _ h => ?_) rfl
  unfold Stage.put
  split <;> exact h

theorem mem_placePage {p q : Page} {pages : List Page} (h : q ∈ placePage p pages) : q ∈ pages ∨ q = p := by
  simp only [placePage, otherPages, List.mem_append, List.mem_filter, List.mem_singleton] at h
  exact h.imp And.left id

theorem tableLaw_of_initial (t : State) (cells : t.cellTable = Table.replicate 2048 CellEntry.initial)
    (points : t.pointTable = Table.replicate 96 PointEntry.initial)
    (views : t.viewTable = Table.replicate 16 (Table.replicate 64 Binding.initial))
    (limits : t.limits = Table.replicate 8 LimitClass.initial) (pages : t.stage.pendingPages = []) : t.TableLaw where
  cells c := by rw [cells, Table.get_replicate]; exact ⟨by decide, by decide⟩
  points i := by
    rw [points, Table.get_replicate]
    exact ⟨by decide, by simp [PointEntry.initial], by simp [PointEntry.initial], by decide⟩
  views v n := by rw [views, Table.get_replicate, Table.get_replicate]; exact ⟨by decide, by decide⟩
  limits k := by rw [limits, Table.get_replicate]; exact ⟨by decide, by decide, by decide, by decide⟩
  pages := by simp [pages]

theorem tableLaw_stagingLaw : StagingLaw State.TableLaw where
  same same h := h.of_same same.1 (congrArg Stage.pendingPages same.2)
  fullReset pins low q := tableLaw_of_initial _ rfl rfl rfl rfl rfl
  serve {s _ _} h change := by
    cases change with
    | stagePut t entries => exact h.of_eq rfl rfl rfl rfl (pendingPages_put _ _ _)
    | stageCommit t p _ valid _ =>
      refine ⟨h.cells, h.points, h.views, h.limits, fun q hq => ?_⟩
      obtain old | rfl := mem_placePage hq
      · exact h.pages q old
      · exact validate_inRange valid
    | _ => exact h.of_eq rfl rfl rfl rfl rfl
  softReset h := ⟨h.cells, h.points, h.views, h.limits, by simp [State.softReset, Stage.initial]⟩
  complete {s} h := by
    rw [State.completeClose, (settleMode_frame _).1]
    have installed : ∀ {u : State}, u.TableLaw → u.installPending.TableLaw := fun {u} hu => by
      unfold State.installPending
      split
      · exact hu
      · have done := installAll_tableLaw u.stage.pendingPages hu hu.pages
        exact ⟨done.cells, done.points, done.views, done.limits, by simp⟩
    have advanced : State.TableLaw { s with map := { s.map with epoch := s.map.epoch + 1 } } :=
      h.of_eq rfl rfl rfl rfl rfl
    exact (installed advanced).of_eq rfl rfl rfl rfl rfl

end

/-- Settles O11. -/
theorem rangesAndRankingKept : Obligations.RangesAndRankingKept := fun s t ⟨estimates, biases, hot, tables⟩ next =>
  ⟨estimateLaw_kept s t estimates next, biasLaw_recordLaw.kept s t biases next, hotLaw_recordLaw.kept s t hot next,
    tableLaw_stagingLaw.kept s t tables next⟩

/-! ## The pending list and the pointer of the stage -/

section
variable {s t : State}

theorem State.PendingLaw.of_eq (h : s.PendingLaw) (pages : t.stage.pendingPages = s.stage.pendingPages) : t.PendingLaw := by
  unfold State.PendingLaw
  rw [pages]
  exact h

/-- A page that a commit places is for the target of the stage. -/
theorem validate_target {g : Stage} {t : Target} {p : Page} (h : g.validate t = .page p) : p.target = t := by
  unfold Stage.validate at h
  split at h
  · cases h
  · split at h
    · cases rangeTested_page h; rfl
    · have points := rangeTested_page h
      split at points <;> cases points
      rfl
    · cases rangeTested_page h; rfl
    · cases rangeTested_page h; rfl

theorem placePage_nodup {p : Page} {pages : List Page} (h : (pages.map Page.target).Nodup) :
    ((placePage p pages).map Page.target).Nodup := by
  rw [placePage, List.map_append, List.map_singleton, List.nodup_append]
  refine ⟨h.sublist (List.filter_sublist.map _), by simp, ?_⟩
  simp only [otherPages, List.mem_map, List.mem_filter, List.mem_singleton, decide_eq_true_eq]
  rintro _ ⟨q, ⟨_, other⟩, rfl⟩ _ rfl
  exact other

theorem pendingLaw_stagingLaw : StagingLaw State.PendingLaw where
  same same h := h.of_eq (congrArg Stage.pendingPages same.2)
  fullReset pins low q := ⟨by simp [State.fullReset, Stage.initial], by simp [State.fullReset, Stage.initial]⟩
  serve {s _ _} h change := by
    cases change with
    | stagePut t entries => exact h.of_eq (pendingPages_put _ _ _)
    | stageCommit t p _ valid room =>
      refine ⟨?_, placePage_nodup h.2⟩
      simp only [placePage, validate_target valid, List.length_append, List.length_singleton]
      omega
    | _ => exact h.of_eq rfl
  softReset _ := ⟨by simp [State.softReset, Stage.initial], by simp [State.softReset, Stage.initial]⟩
  complete {s} _ := by
    have none : s.completeClose.stage.pendingPages = [] := by
      rw [stage_completeClose, pendingPages_installPending]
    exact ⟨by simp [none], by simp [none]⟩

theorem State.StageLaw.of_eq (h : s.StageLaw) (target : t.stage.target = s.stage.target)
    (pointer : t.stage.pointer = s.stage.pointer) : t.StageLaw := by
  unfold State.StageLaw
  rw [target, pointer]
  exact h

/-- The pointer stays within the slots of a target while entries are put (R137). -/
theorem pointer_put {last : Nat} {g : Stage} (entries : List (List Byte)) (h : g.pointer ≤ last) :
    (entries.foldl (Stage.put last) g).pointer ≤ last ∧ (entries.foldl (Stage.put last) g).target = g.target := by
  refine foldl_keeps (fun k : Stage => k.pointer ≤ last ∧ k.target = g.target) (fun k e _ hk => ?_) ⟨h, rfl⟩
  obtain ⟨below, same⟩ := hk
  unfold Stage.put
  split
  · refine ⟨?_, same⟩
    simp only
    split <;> omega
  · exact ⟨below, same⟩

theorem stageLaw_stagingLaw : StagingLaw State.StageLaw where
  same same h := h.of_eq (congrArg Stage.target same.2) (congrArg Stage.pointer same.2)
  fullReset pins low q := nofun
  serve {s _ _} h change := by
    cases change with
    | stageOpen t first below => rintro _ ⟨⟩; exact below
    | stagePut t entries target =>
      have ⟨below, same⟩ := pointer_put entries (h t target)
      intro u hu
      obtain rfl : t = u := by
        change (entries.foldl (Stage.put t.lastSlot) s.stage).target = some u at hu
        rw [same, target] at hu
        exact Option.some.inj hu
      exact below
    | stageClear t => rintro _ ⟨⟩; exact Nat.zero_le _
    | stageCommit t p => rintro _ ⟨⟩
    | _ => exact h.of_eq rfl rfl
  softReset _ := nofun
  complete {s} h := by
    have ⟨target, pointer⟩ := openStage_installPending { s with map := { s.map with epoch := s.map.epoch + 1 } }
    exact h.of_eq (by rw [stage_completeClose, target]) (by rw [stage_completeClose, pointer])

end

end Sys2Proof.Machine
/-! PROOFS. What a page of each table does when it is installed, and the laws of the point table, of binding and of the
anchors. -/

namespace Sys2Proof.Machine

/-! ## A page of points (R58, R144) -/

/-- The entry of a filled slot makes the cell `c` the home of a bound point. -/
def homesOn (s : State) (slots : Table 32 (Option PointEntry)) (c : CellIx) : Prop :=
  ∃ i e, slots.get i = some e ∧ e.inUse = true ∧ (s.cellTable.get e.home).inUse = true ∧ e.home = c

/-- A filled slot replaces an in-use entry homed on the cell `c`. -/
def leavesHome (s : State) (p : Fin 3) (slots : Table 32 (Option PointEntry)) (c : CellIx) : Prop :=
  ∃ i, slots.get i ≠ none ∧ (s.pointTable.get (pointOfSlot p i)).inUse = true ∧ (s.pointTable.get (pointOfSlot p i)).home = c

/-- What a page of points leaves: its entries and records, and the anchors it moves. -/
structure PointsPage (s : State) (p : Fin 3) (slots : Table 32 (Option PointEntry)) (t : State) : Prop where
  frame : t = { s with pointTable := pointTableAfter s.pointTable p slots, points := t.points, cells := t.cells }
  record : ∀ i e, slots.get i = some e → t.points.get (pointOfSlot p i) = PointRecord.rebuilt (rebuiltState s.cellTable e)
  other : ∀ j, (∀ i e, slots.get i = some e → pointOfSlot p i ≠ j) → t.points.get j = s.points.get j
  content : ∀ c, (t.cells.get c).content = (s.cells.get c).content
  given : ∀ c, homesOn s slots c → (t.cells.get c).anchor = some Anchor.fresh
  dropped : ∀ c, ¬ homesOn s slots c → leavesHome s p slots c → (t.cells.get c).anchor = none
  kept : ∀ c, ¬ homesOn s slots c → ¬ leavesHome s p slots c → (t.cells.get c).anchor = (s.cells.get c).anchor

theorem installPoints_page (s : State) (p : Fin 3) (slots : Table 32 (Option PointEntry)) :
    PointsPage s p slots (s.installPoints p slots) := by
  obtain ⟨dropFrame, dropContent, dropAnchor⟩ := dropAnchor_foldl p slots (List.finRange 32) s
  generalize gone : slotFold (fun (acc : State) i (_ : PointEntry) => acc.dropAnchor (pointOfSlot p i)) slots
    (List.finRange 32) s = u at dropFrame dropContent dropAnchor
  have rewritten := installPoint_foldl p slots (List.finRange 32) u
  rw [← foldFilled_slot, ← foldFilled_slot, ← foldFilled_slot] at rewritten
  obtain ⟨giveFrame, giveContent, giveAnchor⟩ := giveAnchor_foldl slots (List.finRange 32)
    (slots.foldFilled (fun acc i e => acc.installPoint (pointOfSlot p i) e) u)
  rw [← foldFilled_slot] at giveFrame giveContent giveAnchor
  have installed : slots.foldFilled (fun (acc : State) (_ : Fin 32) e => acc.giveAnchor e)
      (slots.foldFilled (fun acc i e => acc.installPoint (pointOfSlot p i) e) u) = s.installPoints p slots := by
    rw [State.installPoints, ← gone, ← foldFilled_slot]
  rw [installed, rewritten] at giveFrame giveContent giveAnchor
  have cellTable : u.cellTable = s.cellTable := by rw [dropFrame]
  have pointTable : u.pointTable = s.pointTable := by rw [dropFrame]
  have points : u.points = s.points := by rw [dropFrame]
  have records : (s.installPoints p slots).points = (slots.map (Option.map fun e =>
      PointRecord.rebuilt (rebuiltState s.cellTable e))).foldFilled (fun acc i e => acc.set (pointOfSlot p i) e) s.points := by
    rw [giveFrame, ← cellTable, ← points]
  obtain ⟨unfilled, filled⟩ := foldFilled_set (pointOfSlot p) pointOfSlot_inj
    (slots.map (Option.map fun e => PointRecord.rebuilt (rebuiltState s.cellTable e))) s.points
  have homes : ∀ c, (∃ i ∈ List.finRange 32, ∃ e, slots.get i = some e ∧ e.inUse = true ∧
      (u.cellTable.get e.home).inUse = true ∧ e.home = c) ↔ homesOn s slots c := fun c => by
    simp only [List.mem_finRange, true_and, cellTable, homesOn]
  have leaves : ∀ c, (∃ i ∈ List.finRange 32, slots.get i ≠ none ∧ (s.pointTable.get (pointOfSlot p i)).inUse = true ∧
      (s.pointTable.get (pointOfSlot p i)).home = c) ↔ leavesHome s p slots c := fun c => by
    simp only [List.mem_finRange, true_and, leavesHome]
  refine ⟨?_, fun i e he => ?_, fun j hj => ?_, fun c => ?_, fun c h => ?_, fun c h k => ?_, fun c h k => ?_⟩
  · rw [giveFrame, dropFrame]; rfl
  · rw [records]; exact filled i _ (by simp [he])
  · rw [records]
    refine unfilled j fun i e he => ?_
    obtain ⟨e', he', -⟩ : ∃ e', slots.get i = some e' ∧ _ := by simpa using he
    exact hj i e' he'
  · rw [giveContent, dropContent]
  · rw [giveAnchor, if_pos ((homes c).mpr h)]
  · rw [giveAnchor, if_neg (h ∘ (homes c).mp), dropAnchor, if_pos ((leaves c).mpr k)]
  · rw [giveAnchor, if_neg (h ∘ (homes c).mp), dropAnchor, if_neg (k ∘ (leaves c).mp)]

/-- The table after a page of points, slot by slot. -/
theorem pointTableAfter_get (t : Table 96 PointEntry) (p : Fin 3) (slots : Table 32 (Option PointEntry)) :
    (∀ j, (∀ i e, slots.get i = some e → pointOfSlot p i ≠ j) → (pointTableAfter t p slots).get j = t.get j) ∧
      ∀ i e, slots.get i = some e → (pointTableAfter t p slots).get (pointOfSlot p i) = e :=
  foldFilled_set (pointOfSlot p) pointOfSlot_inj slots t

/-- A point of the page is the point of one of its slots. -/
theorem pointOfSlot_surj {p : Fin 3} {j : PointIx} (page : j.val / 32 = p.val) : ∃ i, pointOfSlot p i = j :=
  ⟨⟨j.val % 32, Nat.mod_lt _ (by decide)⟩, Fin.ext (by simp only [pointOfSlot]; omega)⟩

theorem pointOfSlot_page (p : Fin 3) (i : Fin 32) : (pointOfSlot p i).val / 32 = p.val := by
  simp only [pointOfSlot]
  omega

/-- The table after a page of points is known by its filled slots, its other slots and its other pages. -/
theorem eq_pointTableAfter {t table : Table 96 PointEntry} {p : Fin 3} {slots : Table 32 (Option PointEntry)}
    (filled : ∀ i e, slots.get i = some e → table.get (pointOfSlot p i) = e)
    (unfilled : ∀ i, slots.get i = none → table.get (pointOfSlot p i) = t.get (pointOfSlot p i))
    (others : ∀ j : PointIx, j.val / 32 ≠ p.val → table.get j = t.get j) : table = pointTableAfter t p slots := by
  obtain ⟨after, at_⟩ := pointTableAfter_get t p slots
  refine Table.ext_get fun j => ?_
  by_cases page : j.val / 32 = p.val
  · obtain ⟨i, rfl⟩ := pointOfSlot_surj page
    cases slot : slots.get i with
    | some e => rw [filled i e slot, at_ i e slot]
    | none =>
      rw [unfilled i slot, after]
      rintro k e he same
      rw [pointOfSlot_inj _ _ same, slot] at he
      cases he
  · rw [others j page, after]
    rintro k e _ rfl
    exact page (pointOfSlot_page p k)

theorem rebuilt_of_entry (table : Table 2048 CellEntry) (e : PointEntry) : PointRecord.rebuilt (rebuiltState table e) =
    ⟨if e.inUse = true ∧ (table.get e.home).inUse = true then .active else .unbound, 0, 0, 0, 0, 0, 0, PointFlags.clear⟩ := by
  simp only [PointRecord.rebuilt, rebuiltState, Bool.and_eq_true]
  rfl

theorem installPage_points {s : State} {p : Fin 3} {slots : Table 32 (Option PointEntry)} (filled : ∃ i, slots.get i ≠ none) :
    s.installPage (.points p slots) =
      if pointLaw (pointTableAfter s.pointTable p slots) then (s.installPoints p slots, .installed) else (s, .dropped) := by
  exact if_neg (filled_ne_zero filled)

end Sys2Proof.Machine
/-! PROOFS. What each kind of page does at a close (O31, O32). -/

namespace Sys2Proof.Machine

/-! ## A page of points -/

/-- A table with two in-use entries that share port and channel, or home cell, breaks the law of the point table (R38). -/
theorem pointLaw_eq_false {t : Table 96 PointEntry} (h : ∃ j k : PointIx, j ≠ k ∧ (t.get j).inUse = true ∧
    (t.get k).inUse = true ∧ ((t.get j).port = (t.get k).port ∧ (t.get j).channel = (t.get k).channel ∨
      (t.get j).home = (t.get k).home)) : pointLaw t = false := by
  obtain ⟨j, k, ne, used, used', shared⟩ := h
  rw [← Bool.not_eq_true, pointLaw_iff]
  intro law
  have clash : (t.get j).conflicts (t.get k) = true := (PointEntry.conflicts_iff _ _).mpr ⟨used, used', shared⟩
  rw [law j k ne] at clash
  cases clash

theorem pointLaw_eq_true {t : Table 96 PointEntry} (h : ∀ j k : PointIx, j ≠ k → (t.get j).inUse = true →
    (t.get k).inUse = true → ¬ ((t.get j).port = (t.get k).port ∧ (t.get j).channel = (t.get k).channel) ∧
      (t.get j).home ≠ (t.get k).home) : pointLaw t = true := by
  rw [pointLaw_iff]
  intro j k ne
  rw [← Bool.not_eq_true, PointEntry.conflicts_iff]
  rintro ⟨used, used', shared⟩
  have ⟨apart, home⟩ := h j k ne used used'
  exact shared.elim apart home

/-! ## A page of bindings (R80) -/

theorem bindingOfSlot_inj {p : Fin 32} (i j : Fin 32) (h : bindingOfSlot p i = bindingOfSlot p j) : i = j := by
  have := congrArg Fin.val h
  simp only [bindingOfSlot] at this
  exact Fin.ext (by omega)

theorem installPage_views {s : State} {p : Fin 32} {slots : Table 32 (Option Binding)} (filled : ∃ i, slots.get i ≠ none) :
    s.installPage (.views p slots) = (s.installViews p slots, .installed) :=
  if_neg (filled_ne_zero filled)

/-- The bindings of a view after a page: the filled slots replaced, the others kept (R80). -/
theorem installViews_bindings (s : State) (p : Fin 32) (slots : Table 32 (Option Binding)) :
    (∀ n, (∀ i b, slots.get i = some b → bindingOfSlot p i ≠ n) →
      ((s.installViews p slots).viewTable.get (viewOfPage p)).get n = (s.viewTable.get (viewOfPage p)).get n) ∧
    ∀ i b, slots.get i = some b →
      ((s.installViews p slots).viewTable.get (viewOfPage p)).get (bindingOfSlot p i) = b := by
  simp only [State.installViews, Table.get_upd_self]
  exact foldFilled_set (bindingOfSlot p) bindingOfSlot_inj slots (s.viewTable.get (viewOfPage p))

/-! ## A page of limits -/

theorem installPage_limits {s : State} {slots : Table 8 (Option LimitClass)} (filled : ∃ i, slots.get i ≠ none) :
    s.installPage (.limits slots) =
      ({ s with limits := slots.foldFilled (fun acc i l => acc.set i l) s.limits }, .installed) :=
  if_neg (filled_ne_zero filled)

theorem installedLimits_get (t : Table 8 LimitClass) (slots : Table 8 (Option LimitClass)) (k : Fin 8) :
    (slots.foldFilled (fun acc i l => acc.set i l) t).get k = (slots.get k).getD (t.get k) := by
  obtain ⟨unfilled, filled⟩ := foldFilled_set id (fun _ _ h => h) slots t
  cases slot : slots.get k with
  | some l => exact filled k l slot
  | none =>
    refine unfilled k ?_
    rintro i l hl rfl
    rw [id, hl] at slot
    cases slot

/-- Settles O32. -/
theorem otherPagesInstall : Obligations.OtherPagesInstall := by
  refine ⟨fun s t p slots table filled table_filled unfilled others installs => ?points, fun s t =>
    ⟨fun page empty => if_pos empty, fun p slots filled installs => ?views, fun slots filled installs => ?limits⟩⟩
  case points =>
    obtain rfl := eq_pointTableAfter table_filled unfilled others
    rw [installPage_points filled] at installs ⊢
    refine ⟨fun clash => ?_, fun law => ?_⟩
    · rw [if_neg (by simp [pointLaw_eq_false clash])] at installs ⊢
      exact ⟨rfl, installs.symm⟩
    · rw [if_pos (pointLaw_eq_true law)] at installs ⊢
      subst installs
      have page := installPoints_page s p slots
      have away : ∀ j : PointIx, j.val / 32 ≠ p.val → ∀ i e, slots.get i = some e → pointOfSlot p i ≠ j := by
        rintro j other i e _ rfl
        exact other (pointOfSlot_page p i)
      have unfilled : ∀ j, slots.get j = none → ∀ i e, slots.get i = some e → pointOfSlot p i ≠ pointOfSlot p j := by
        intro j empty i e he same
        rw [pointOfSlot_inj _ _ same, empty] at he
        cases he
      refine ⟨rfl, page.frame, fun i e he => ?_, fun i none => page.other _ (unfilled i none),
        fun j other => page.other j (away j other), page.content, fun i e he used home => ?_, fun c others => ?_⟩
      · rw [page.record i e he, rebuilt_of_entry]
      · exact page.given _ ⟨i, e, he, used, home, rfl⟩
      · have none : ¬ homesOn s slots c := fun ⟨i, e, he, used, home, on⟩ => others i e he used home on
        exact ⟨page.dropped c none, page.kept c none⟩
  case views =>
    rw [installPage_views filled] at installs ⊢
    subst installs
    obtain ⟨kept, placed⟩ := installViews_bindings s p slots
    refine ⟨rfl, rfl, placed, fun i none => kept _ fun j b hb same => ?_, fun n other => kept _ fun i b _ same => ?_,
      fun v other => ?_, ?_⟩
    · rw [bindingOfSlot_inj _ _ same, none] at hb
      cases hb
    · subst same
      exact other (by simp only [bindingOfSlot]; omega)
    · exact ⟨Table.get_upd_ne _ other.symm _, Table.get_upd_ne _ other.symm _⟩
    · exact Table.get_upd_self _ _ _
  case limits =>
    rw [installPage_limits filled] at installs ⊢
    subst installs
    exact ⟨rfl, rfl, installedLimits_get s.limits slots⟩

/-! ## A page of cells -/

/-- What a page of cells leaves: its entries, and the records of its cells and of the points homed on them (R9 to R11, R59,
R60). -/
structure CellsPage (s : State) (p : Fin 64) (slots : Table 32 (Option CellEntry)) (t : State) : Prop where
  frame : t = { s with cellTable := t.cellTable, cells := t.cells, points := t.points }
  other : ∀ c, (∀ i e, slots.get i = some e → cellOfSlot p i ≠ c) → t.cellTable.get c = s.cellTable.get c ∧
    t.cells.get c = s.cells.get c ∧ ∀ j : PointIx, (s.pointTable.get j).home = c → t.points.get j = s.points.get j
  unused : ∀ j : PointIx, (s.pointTable.get j).inUse = false → t.points.get j = s.points.get j
  filled : ∀ i e, slots.get i = some e → t.cellTable.get (cellOfSlot p i) = e ∧
    t.cells.get (cellOfSlot p i) = cellAfterInstall (s.cellTable.get (cellOfSlot p i)) e
      (isHome s.pointTable (cellOfSlot p i)) (s.cells.get (cellOfSlot p i)) ∧
    ∀ j : PointIx, (s.pointTable.get j).inUse = true → (s.pointTable.get j).home = cellOfSlot p i →
      t.points.get j = pointAfterInstall (s.cellTable.get (cellOfSlot p i)).inUse e.inUse (s.points.get j)

theorem installCells_page {s : State} (law : s.PointTableLaw) (p : Fin 64) (slots : Table 32 (Option CellEntry)) :
    CellsPage s p slots (slots.foldFilled (fun acc i e => acc.installCell (cellOfSlot p i) e) s) := by
  obtain ⟨frame, other, unused, filled⟩ := installCell_foldl p slots (List.finRange 32) (List.nodup_finRange 32) s law
  have page : CellsPage s p slots _ :=
    ⟨frame, fun c h => other c fun i _ => h i, unused, fun i => filled i (List.mem_finRange i)⟩
  convert page using 1
  rw [foldFilled_eq]
  congr 1
  funext acc i
  cases slots.get i <;> rfl

theorem installPage_cells {s : State} {p : Fin 64} {slots : Table 32 (Option CellEntry)} (filled : ∃ i, slots.get i ≠ none) :
    s.installPage (.cells p slots) =
      (slots.foldFilled (fun acc i e => acc.installCell (cellOfSlot p i) e) s, .installed) :=
  if_neg (filled_ne_zero filled)

theorem cellOfSlot_page (p : Fin 64) (i : Fin 32) : (cellOfSlot p i).val / 32 = p.val := by
  simp only [cellOfSlot]
  omega

/-- The record of a point homed on a cell whose entry is replaced, by what becomes of the cell's use (R59, R60). -/
theorem pointAfterInstall_eq (old e : Bool) (r : PointRecord) : pointAfterInstall old e r =
    if old = true ∧ e = false then
      { r with state := .unbound, rangeCount := 0, badCount := 0, cleanCount := 0, disagreeCount := 0 }
    else if old = false ∧ e = true ∧ r.state = .unbound then
      { r with state := .active, rangeCount := 0, badCount := 0, cleanCount := 0, disagreeCount := 0 }
    else r := by
  cases old <;> cases e
  · simp [pointAfterInstall]
  · simp [pointAfterInstall, PointRecord.bind, PointRecord.zeroCounts]
  · simp [pointAfterInstall, PointRecord.unbind, PointRecord.zeroCounts]
  · simp [pointAfterInstall]

/-- A point's record after a page of cells, by the use of its home cell before and after (R59, R60). -/
theorem CellsPage.points {s t : State} {p : Fin 64} {slots : Table 32 (Option CellEntry)} (page : CellsPage s p slots t)
    {j : PointIx} (used : (s.pointTable.get j).inUse = true) : t.points.get j =
      pointAfterInstall (s.cellTable.get (s.pointTable.get j).home).inUse (t.cellTable.get (s.pointTable.get j).home).inUse
        (s.points.get j) := by
  by_cases slot : ∃ i e, slots.get i = some e ∧ cellOfSlot p i = (s.pointTable.get j).home
  · obtain ⟨i, e, he, home⟩ := slot
    obtain ⟨entry, -, point⟩ := page.filled i e he
    rw [point j used home.symm, ← home, entry]
  · obtain ⟨entry, -, point⟩ := page.other (s.pointTable.get j).home fun i e he home => slot ⟨i, e, he, home⟩
    rw [point j rfl, entry, pointAfterInstall_eq]
    cases (s.cellTable.get (s.pointTable.get j).home).inUse <;> simp

/-- Settles O31. -/
theorem cellsPageInstalls : Obligations.CellsPageInstalls := by
  intro s t p slots law filled installs
  rw [installPage_cells filled] at installs ⊢
  have page : CellsPage s p slots t := by rw [← installs]; exact installCells_page law p slots
  have unfilled : ∀ i, slots.get i = none → ∀ j e, slots.get j = some e → cellOfSlot p j ≠ cellOfSlot p i := by
    intro i none j e he same
    rw [cellOfSlot_inj same, none] at he
    cases he
  have away : ∀ c : CellIx, c.val / 32 ≠ p.val → ∀ i e, slots.get i = some e → cellOfSlot p i ≠ c := by
    rintro c other i e _ rfl
    exact other (cellOfSlot_page p i)
  have kept : ∀ c, (∀ i e, slots.get i = some e → cellOfSlot p i ≠ c) →
      t.cellTable.get c = s.cellTable.get c ∧ t.cells.get c = s.cells.get c :=
    fun c h => ⟨(page.other c h).1, (page.other c h).2.1⟩
  refine ⟨rfl, page.frame, ?_, fun c other => kept c (away c other), ?_, fun j => ?_⟩
  · rintro i _ rfl none
    exact kept _ (unfilled i none)
  · rintro i _ e rfl he
    obtain ⟨entry, cell, -⟩ := page.filled i e he
    rw [cell]
    refine ⟨entry, fun was leaves => ?_, fun was enters => ?_, fun was stays => ?_, fun was stays => ?_⟩
    all_goals simp only [cellAfterInstall, *]
    refine ⟨trivial, fun home => ?_, fun away => ?_⟩
    · rw [if_pos ((homed_iff law _).mpr home)]; rfl
    · rw [if_neg (away ∘ (homed_iff law _).mp)]
  · split
    next unused => exact page.unused j unused
    next used => rw [page.points (by simpa using used), pointAfterInstall_eq]

end Sys2Proof.Machine
/-! PROOFS. The laws of the point table, of binding and of the anchors, kept by every step. -/

namespace Sys2Proof.Machine

/-! ## The three laws as one -/

/-- An in-use point is homed on the cell. -/
def State.Homed (s : State) (c : CellIx) : Prop := ∃ i : PointIx, (s.pointTable.get i).inUse = true ∧ (s.pointTable.get i).home = c

/-- The laws of the point table, of binding and of the anchors, the last said by the tables alone: a cell has an anchor
exactly while it is in use and a home. -/
structure State.PointLaws (s : State) : Prop where
  table : s.PointTableLaw
  binding : s.BindingLaw
  anchors : ∀ c : CellIx, (s.cells.get c).anchor.isSome = true ↔ s.Homed c ∧ (s.cellTable.get c).inUse = true

section
variable {s t : State}

/-- By the law of binding a bound in-use point is one whose home cell is in use (R41). -/
theorem State.BindingLaw.bound_iff (h : s.BindingLaw) {i : PointIx} (used : (s.pointTable.get i).inUse = true) :
    (s.points.get i).state ≠ .unbound ↔ (s.cellTable.get (s.pointTable.get i).home).inUse = true := by
  rw [ne_eq, h i]
  simp [used]

theorem State.BindingLaw.anchored_iff (h : s.BindingLaw) (c : CellIx) :
    (∃ i : PointIx, (s.pointTable.get i).inUse = true ∧ (s.pointTable.get i).home = c ∧ (s.points.get i).state ≠ .unbound) ↔
      s.Homed c ∧ (s.cellTable.get c).inUse = true := by
  constructor
  · rintro ⟨i, used, rfl, bound⟩
    exact ⟨⟨i, used, rfl⟩, (h.bound_iff used).mp bound⟩
  · rintro ⟨⟨i, used, rfl⟩, cell⟩
    exact ⟨i, used, rfl, (h.bound_iff used).mpr cell⟩

theorem pointLaws_iff (s : State) : s.PointLaws ↔ s.PointTableLaw ∧ s.BindingLaw ∧ s.AnchorLaw := by
  constructor
  · intro h
    exact ⟨h.table, h.binding, fun c => (h.anchors c).trans (h.binding.anchored_iff c).symm⟩
  · rintro ⟨table, binding, anchors⟩
    exact ⟨table, binding, fun c => (anchors c).trans (binding.anchored_iff c)⟩

/-! ## Changes that keep them: no table written, no point bound or unbound, no anchor given or taken -/

/-- From `s` to `t` no cell or point entry has changed, no point was bound or unbound, no anchor given or taken. -/
structure State.BoundAlike (s t : State) : Prop where
  cellTable : t.cellTable = s.cellTable
  pointTable : t.pointTable = s.pointTable
  points : ∀ i, (t.points.get i).state = .unbound ↔ (s.points.get i).state = .unbound
  anchors : ∀ c, (t.cells.get c).anchor.isSome = (s.cells.get c).anchor.isSome

theorem State.BoundAlike.of_eq (cellTable : t.cellTable = s.cellTable) (pointTable : t.pointTable = s.pointTable)
    (points : t.points = s.points) (cells : t.cells = s.cells) : s.BoundAlike t :=
  ⟨cellTable, pointTable, fun i => by rw [points], fun c => by rw [cells]⟩

theorem State.BoundAlike.trans {u : State} (h : s.BoundAlike t) (k : t.BoundAlike u) : s.BoundAlike u :=
  ⟨k.cellTable.trans h.cellTable, k.pointTable.trans h.pointTable, fun i => (k.points i).trans (h.points i),
    fun c => (k.anchors c).trans (h.anchors c)⟩

theorem State.BoundAlike.of_before {u : State} (h : t.BoundAlike u) (cellTable : t.cellTable = s.cellTable)
    (pointTable : t.pointTable = s.pointTable) (points : t.points = s.points) (cells : t.cells = s.cells) :
    s.BoundAlike u :=
  (State.BoundAlike.of_eq cellTable pointTable points cells).trans h

theorem State.PointLaws.of_alike (h : s.PointLaws) (alike : s.BoundAlike t) : t.PointLaws where
  table := by unfold State.PointTableLaw; rw [alike.pointTable]; exact h.table
  binding i := by rw [alike.points, alike.pointTable, alike.cellTable]; exact h.binding i
  anchors c := by
    unfold State.Homed
    rw [alike.anchors, alike.pointTable, alike.cellTable]
    exact h.anchors c

/-- Every cell record changed in a way that gives and takes no anchor. -/
theorem boundAlike_cells {cells : Table 2048 CellRecord}
    (h : ∀ c, (cells.get c).anchor.isSome = (s.cells.get c).anchor.isSome) : s.BoundAlike { s with cells := cells } :=
  ⟨rfl, rfl, fun _ => .rfl, h⟩

theorem State.BoundAlike.of_map {f : CellRecord → CellRecord} (h : ∀ c, (f c).anchor.isSome = c.anchor.isSome)
    (cellTable : t.cellTable = s.cellTable) (pointTable : t.pointTable = s.pointTable) (points : t.points = s.points)
    (cells : t.cells = s.cells.map f) : s.BoundAlike t :=
  ⟨cellTable, pointTable, fun i => by rw [points], fun c => by rw [cells, Table.get_map]; exact h _⟩

/-- One point record changed in a way that does not bind or unbind the point. -/
theorem boundAlike_point {i : PointIx} {f : PointRecord → PointRecord}
    (h : ∀ r, (f r).state = .unbound ↔ r.state = .unbound) : s.BoundAlike { s with points := s.points.upd i f } := by
  refine ⟨rfl, rfl, fun j => ?_, fun _ => rfl⟩
  simp only [Table.get_upd]
  split
  next same => subst same; exact h _
  next => exact .rfl

/-! ### Cells -/

theorem anchor_alertNormal (c : CellRecord) : c.alertNormal.anchor.isSome = c.anchor.isSome := by
  unfold CellRecord.alertNormal
  split <;> rfl

theorem anchor_rebase (c : CellRecord) : c.rebase.anchor.isSome = c.anchor.isSome := by
  unfold CellRecord.rebase
  split <;> rfl

/-- Clearing the map keeps a cell's anchor; a cell not in use has none to keep. -/
theorem anchor_clear (c : CellRecord) : c.clear.anchor.isSome = c.anchor.isSome := by
  unfold CellRecord.clear
  split
  · rfl
  all_goals cases c.anchor <;> rfl

theorem anchor_evaluated (limits : Table 8 LimitClass) (e : CellEntry) (staleAge : Nat) (c : CellRecord) :
    (evaluateCell limits e (c.grow staleAge).measureRise).anchor.isSome = c.anchor.isSome := by
  have measured : ∀ d : CellRecord, d.measureRise.anchor = d.anchor := fun d => by
    unfold CellRecord.measureRise
    split <;> rfl
  rw [(inUse_evaluateCell limits e _).2, measured, CellRecord.grow, Option.isSome_map]

/-! ### Points -/

theorem state_checkReading (limit : Nat) (estimate : Option Int) (x : Reading) (r : PointRecord) :
    (checkReading limit estimate x r).1.state = .unbound ↔ r.state = .unbound := by
  unfold checkReading
  cases serving : r.state.serving with
  | false => simp
  | true =>
    have bound : r.state ≠ .unbound := fun unbound => by simp [unbound, PointState.serving] at serving
    simp only [Bool.not_true, Bool.false_eq_true, if_false, bound, iff_false]
    split
    · simp [PointRecord.openReading, PointRecord.fail, PointRecord.reject]
    · split
      · unfold PointRecord.outOfRange
        simp only
        split
        · simp [PointRecord.fail]
        · exact bound
      · split
        · unfold PointRecord.stepHit
          simp only
          split
          · simp [PointRecord.reject, PointRecord.fail]
          · simp
        · unfold PointRecord.cleanReading
          split
          · split
            · simp
            · exact bound
          all_goals exact bound

theorem state_scanOutcome (tests : List (PointIx × Bool)) (i : Nat) (r : PointRecord) :
    (scanOutcome tests i r).state = .unbound ↔ r.state = .unbound := by
  unfold scanOutcome
  split
  · unfold PointRecord.disagreeHit
    simp only
    split
    next active => split <;> simp [active]
    next suspect => split <;> split <;> simp [PointRecord.fail, PointRecord.latch, suspect]
    all_goals exact .rfl
  · split
    · unfold PointRecord.cleanFrame
      split <;> exact .rfl
    · exact .rfl

theorem state_restore (r : PointRecord) : r.restore.state = .unbound ↔ r.state = .unbound := by
  unfold PointRecord.restore
  split <;> simp [*]

theorem state_exclude (r : PointRecord) : r.exclude.state = .unbound ↔ r.state = .unbound := by
  unfold PointRecord.exclude
  split <;> simp [*]

/-! ### Map operations -/

theorem boundAlike_touchCell (s : State) (kind : Source) (value : Int) (gain : Nat) (c : CellIx) (share : Nat) :
    s.BoundAlike (s.touchCell kind value gain c share) := by
  refine boundAlike_cells fun d => ?_
  rw [Table.get_upd]
  split
  next same => subst same; rw [(inUse_touch _ _ _ _ _ _).2]
  next => rfl

theorem boundAlike_applyReading (s : State) (e : PointEntry) (value : Int) (gain : Nat) :
    s.BoundAlike (s.applyReading e value gain) := by
  have touches : s.BoundAlike (e.spread.foldl (fun acc x => acc.touchCell .thermocouple value gain x.cell x.share)
      (s.touchCell .thermocouple value gain e.home 16)) :=
    foldl_keeps s.BoundAlike (fun t x _ h => h.trans (boundAlike_touchCell t _ value gain x.cell x.share))
      (boundAlike_touchCell s _ value gain e.home 16)
  refine touches.trans (boundAlike_cells fun d => ?_)
  rw [Table.get_upd]
  split
  next same => subst same; simp only [CellRecord.writeAnchor, Option.isSome_map]
  next => rfl

theorem boundAlike_fuseReading (port : PortIx) (s : State) (x : Reading) : s.BoundAlike (State.fuseReading port s x) := by
  unfold State.fuseReading
  split
  · exact .of_eq rfl rfl rfl rfl
  next i _ =>
    have checked : s.BoundAlike { s with points := s.points.set i (checkReading (s.pointTable.get i).stepLimit
        (s.cells.get (s.pointTable.get i).home).estimate x (s.points.get i)).1 } := by
      refine ⟨rfl, rfl, fun j => ?_, fun _ => rfl⟩
      simp only [Table.get_set]
      split
      next same => subst same; exact state_checkReading _ _ _ _
      next => exact .rfl
    simp only
    split
    · exact checked.trans (boundAlike_applyReading _ _ _ _)
    · exact checked

theorem boundAlike_fuseScan (s : State) (view : ViewIx) (pixels : List Pixel) : s.BoundAlike (s.fuseScan view pixels) := by
  have walked : ∀ c, ((s.walkScan view pixels).cells.get c).anchor.isSome = (s.cells.get c).anchor.isSome := by
    refine foldl_keeps (fun w : ScanWork => ∀ c, (w.cells.get c).anchor.isSome = (s.cells.get c).anchor.isSome)
      (fun w b _ hw c => ?_) fun c => rfl
    unfold ScanWork.binding
    split
    · exact hw c
    · split
      · exact hw c
      · split
        · exact hw c
        · simp only [cells_scanTest, Table.get_upd]
          split
          next same => subst same; rw [(inUse_touch _ _ _ _ _ _).2]; exact hw _
          next => exact hw c
  exact ⟨rfl, rfl, fun i => by simp only [State.fuseScan, Table.get_mapIx]; exact state_scanOutcome _ _ _, walked⟩

theorem boundAlike_fuseFrame (s : State) (f : Frame) : s.BoundAlike (s.fuseFrame f) := by
  unfold State.fuseFrame
  split
  · exact .of_eq rfl rfl rfl rfl
  · exact .of_eq rfl rfl rfl rfl
  all_goals
    split
    · exact foldl_keeps s.BoundAlike (fun t x _ h => h.trans (boundAlike_fuseReading _ t x)) (.of_eq rfl rfl rfl rfl)
    · exact boundAlike_fuseScan s _ _

theorem boundAlike_rebase (s : State) : s.BoundAlike s.rebase :=
  .of_map anchor_rebase rfl rfl rfl rfl

theorem boundAlike_modeEffect (s : State) : s.BoundAlike s.modeEffect := by
  obtain ⟨_, _, same⟩ | ⟨_, _, same⟩ | ⟨_, _, same⟩ := modeEffect_cases s
  · rw [same]; exact .of_eq rfl rfl rfl rfl
  · rw [same]; exact .of_map anchor_rebase rfl rfl rfl rfl
  · rw [same]; exact .of_eq rfl rfl rfl rfl

theorem boundAlike_perform {c : Instr} (h : PerformEffect s c t) : s.BoundAlike t := by
  cases h with
  | start => exact .of_map anchor_alertNormal rfl rfl rfl rfl
  | stopHeld => exact .of_map anchor_rebase rfl rfl rfl rfl
  | clearMap => exact .of_map anchor_clear rfl rfl rfl rfl
  | hold | resume =>
    unfold State.writeHostHold
    split
    · exact .of_eq rfl rfl rfl rfl
    · exact (boundAlike_modeEffect _).of_before rfl rfl rfl rfl
  | readPoint i => exact boundAlike_point fun _ => .rfl
  | restorePoint i => exact boundAlike_point state_restore
  | excludePoint i => exact boundAlike_point state_exclude
  | _ => exact .of_eq rfl rfl rfl rfl

theorem boundAlike_operate {op : Operation} {c : Instr} (h : OperateEffect s op c t) : s.BoundAlike t := by
  cases h with
  | frame f => exact boundAlike_fuseFrame s f
  | hold n flag =>
    unfold State.writeLineHold
    split
    · exact .of_eq rfl rfl rfl rfl
    · exact (boundAlike_modeEffect _).of_before rfl rfl rfl rfl
  | rebase => exact boundAlike_rebase s

theorem boundAlike_closeStages (s : State) (a b : Nat) : s.BoundAlike (s.closeStages a b) := by
  have evaluated : ∀ latches, s.BoundAlike (s.evaluate latches a b) := fun latches =>
    ⟨rfl, rfl, fun _ => .rfl, fun c => by
      simp only [State.evaluate, Table.get_zipWith, Table.get_map]
      exact anchor_evaluated s.limits _ a _⟩
  unfold State.closeStages
  split
  · exact evaluated false
  · exact evaluated true
  · exact .of_eq rfl rfl rfl rfl
  · exact .of_eq rfl rfl rfl rfl

/-! ## The installs -/

/-- The anchor of a cell after its entry is replaced (R9 to R11). -/
theorem anchor_cellAfterInstall {old e : CellEntry} {home : Bool} {c : CellRecord}
    (h : c.anchor.isSome = true ↔ home = true ∧ old.inUse = true) :
    (cellAfterInstall old e home c).anchor.isSome = true ↔ home = true ∧ e.inUse = true := by
  unfold cellAfterInstall
  split
  next _ leaves => simp [leaves]
  next _ enters => cases home <;> simp [enters]
  next was stays =>
    rw [was] at h
    split
    · rw [stays]; exact h
    · rw [anchor_alertNormal, stays]; exact h
  next was stays =>
    rw [was] at h
    rw [stays]; exact h

/-- The state of a bound or unbound point after its home cell's entry is replaced (R59, R60). -/
theorem state_pointAfterInstall {old e : Bool} {r : PointRecord} (h : r.state = .unbound ↔ old = false) :
    (pointAfterInstall old e r).state = .unbound ↔ e = false := by
  cases old <;> cases e <;> simp_all [pointAfterInstall, PointRecord.unbind, PointRecord.bind]

/-- A page of cells keeps the laws (R59, R60). -/
theorem pointLaws_cellsPage {p : Fin 64} {slots : Table 32 (Option CellEntry)} (h : s.PointLaws)
    (page : CellsPage s p slots t) : t.PointLaws := by
  have points : t.pointTable = s.pointTable := by rw [page.frame]
  refine ⟨by unfold State.PointTableLaw; rw [points]; exact h.table, fun i => ?_, fun c => ?_⟩
  · rw [points]
    cases used : (s.pointTable.get i).inUse with
    | false => rw [page.unused i used, h.binding i]; simp [used]
    | true =>
      rw [page.points used]
      have before := h.binding i
      simp only [used, true_and, Bool.not_eq_true] at before ⊢
      exact state_pointAfterInstall before
  · have homed : t.Homed c ↔ isHome s.pointTable c = true := by
      unfold State.Homed
      rw [points, homed_iff h.table]
    have before := h.anchors c
    rw [show s.Homed c ↔ _ from (homed_iff h.table c).symm] at before
    rw [homed]
    by_cases slot : ∃ i e, slots.get i = some e ∧ cellOfSlot p i = c
    · obtain ⟨i, e, he, rfl⟩ := slot
      obtain ⟨entry, cell, -⟩ := page.filled i e he
      rw [cell, entry]
      exact anchor_cellAfterInstall before
    · obtain ⟨entry, cell, -⟩ := page.other c fun i e he home => slot ⟨i, e, he, home⟩
      rw [cell, entry]
      exact before

/-- A page of points that keeps the law of the point table keeps the others with it (R58). -/
theorem pointLaws_pointsPage {p : Fin 3} {slots : Table 32 (Option PointEntry)} (h : s.PointLaws)
    (law : pointLaw (pointTableAfter s.pointTable p slots) = true) (page : PointsPage s p slots t) : t.PointLaws := by
  have cellTable : t.cellTable = s.cellTable := by rw [page.frame]
  have pointTable : t.pointTable = pointTableAfter s.pointTable p slots := by rw [page.frame]
  obtain ⟨unfilled, filled⟩ := pointTableAfter_get s.pointTable p slots
  refine ⟨by unfold State.PointTableLaw; rw [pointTable]; exact law, fun j => ?_, fun c => ?_⟩
  · rw [pointTable, cellTable]
    by_cases slot : ∃ i e, slots.get i = some e ∧ pointOfSlot p i = j
    · obtain ⟨i, e, he, rfl⟩ := slot
      rw [page.record i e he, filled i e he, rebuilt_of_entry]
      simp only
      split <;> simp_all
    · have away : ∀ i e, slots.get i = some e → pointOfSlot p i ≠ j := fun i e he same => slot ⟨i, e, he, same⟩
      rw [page.other j away, unfilled j away]
      exact h.binding j
  · rw [cellTable]
    by_cases gains : homesOn s slots c
    · rw [page.given c gains]
      obtain ⟨i, e, he, used, home, rfl⟩ := gains
      have entry := filled i e he
      have homed : t.Homed e.home := ⟨pointOfSlot p i, by rw [pointTable, entry]; exact used, by rw [pointTable, entry]⟩
      simp [homed, home]
    · -- A home of the new table that is in use is then the home of an entry that no slot replaces.
      have stays : t.Homed c ∧ (s.cellTable.get c).inUse = true →
          ∃ j, (∀ i e, slots.get i = some e → pointOfSlot p i ≠ j) ∧ (s.pointTable.get j).inUse = true ∧
            (s.pointTable.get j).home = c := by
        rintro ⟨⟨j, used, rfl⟩, cell⟩
        rw [pointTable] at used gains cell
        have away : ∀ i e, slots.get i = some e → pointOfSlot p i ≠ j := by
          rintro i e he rfl
          rw [filled i e he] at used gains cell
          exact gains ⟨i, e, he, used, cell, rfl⟩
        refine ⟨j, away, ?_, ?_⟩
        · rw [← unfilled j away]; exact used
        · rw [pointTable, unfilled j away]
      by_cases loses : leavesHome s p slots c
      · rw [page.dropped c gains loses]
        simp only [Option.isSome_none, Bool.false_eq_true, false_iff]
        intro homed
        obtain ⟨j, away, used, home⟩ := stays homed
        obtain ⟨i, slot, used', home'⟩ := loses
        obtain ⟨e, he⟩ := Option.ne_none_iff_exists'.mp slot
        have clash : (s.pointTable.get (pointOfSlot p i)).conflicts (s.pointTable.get j) = true :=
          (PointEntry.conflicts_iff _ _).mpr ⟨used', used, .inr (home'.trans home.symm)⟩
        rw [(pointLaw_iff _).mp h.table _ _ (away i e he)] at clash
        cases clash
      · rw [page.kept c gains loses, h.anchors c]
        constructor
        · rintro ⟨⟨j, used, rfl⟩, cell⟩
          have away : ∀ i e, slots.get i = some e → pointOfSlot p i ≠ j := by
            rintro i e he rfl
            exact loses ⟨i, by simp [he], used, rfl⟩
          exact ⟨⟨j, by rw [pointTable, unfilled j away]; exact used, by rw [pointTable, unfilled j away]⟩, cell⟩
        · intro homed
          obtain ⟨j, _, used, home⟩ := stays homed
          exact ⟨⟨j, used, home⟩, homed.2⟩

theorem pointLaws_installPage (p : Page) (h : s.PointLaws) : (s.installPage p).1.PointLaws := by
  unfold State.installPage
  split
  · exact h
  · split
    · exact pointLaws_cellsPage h (installCells_page h.table _ _)
    · split
      next law => exact pointLaws_pointsPage h law (installPoints_page s _ _)
      next => exact h
    · exact h.of_alike (.of_eq rfl rfl rfl rfl)
    · exact h.of_alike (.of_eq rfl rfl rfl rfl)

theorem pointLaws_installAll (pages : List Page) {s : State} (h : s.PointLaws) : (installAll pages s).1.PointLaws := by
  induction pages generalizing s with
  | nil => exact h
  | cons p pages ih => exact ih (pointLaws_installPage p h)

theorem pointLaws_completeClose (h : s.PointLaws) : s.completeClose.PointLaws := by
  have installed : ∀ {u : State}, u.PointLaws → u.installPending.PointLaws := fun {u} hu => by
    unfold State.installPending
    split
    · exact hu
    · exact (pointLaws_installAll u.stage.pendingPages hu).of_alike (.of_eq rfl rfl rfl rfl)
  rw [State.completeClose, (settleMode_frame _).1]
  have advanced : State.PointLaws { s with map := { s.map with epoch := s.map.epoch + 1 } } :=
    h.of_alike (.of_eq rfl rfl rfl rfl)
  exact (installed advanced).of_alike (.of_eq rfl rfl rfl rfl)

/-! ## The resets -/

theorem pointLaws_fullReset (pins : Table 4 Bool) (low : Bool) (q : List Instr) : (State.fullReset pins low q).PointLaws where
  table := (pointLaw_iff _).mpr fun i j _ => by simp [State.fullReset, PointEntry.initial, PointEntry.conflicts]
  binding i := by simp [State.fullReset, PointRecord.initial, PointEntry.initial]
  anchors c := by simp [State.fullReset, CellRecord.initial, CellEntry.initial]

theorem pointLaws_softReset (h : s.PointLaws) : s.softReset.PointLaws where
  table := h.table
  binding i := by
    simp only [State.softReset, Table.get_map, rebuilt_of_entry]
    split <;> simp_all
  anchors c := by
    have homed : s.pointTable.any (fun p => p.inUse && decide (p.home.val = c.val)) = true ↔ s.Homed c := by
      simp [State.Homed, Fin.ext_iff]
    have same : s.softReset.Homed c ↔ s.Homed c := .rfl
    rw [same, ← homed]
    simp only [State.softReset, Table.get_mapIx, rebuiltCell]
    split
    next used => split <;> simp_all
    next unused => simp [unused]

theorem pointLaws_recordLaw : RecordLaw State.PointLaws where
  same e h := h.of_alike (.of_eq (congrArg Records.cellTable e) (congrArg Records.pointTable e) (congrArg Records.points e)
    (congrArg Records.cells e))
  fullReset := pointLaws_fullReset
  perform h change := h.of_alike (boundAlike_perform change)
  operate h change := h.of_alike (boundAlike_operate change)
  softReset := pointLaws_softReset
  close {s} a b h := pointLaws_completeClose (h.of_alike (boundAlike_closeStages s a b))

end

/-- Settles O12. -/
theorem pointLawsKept : Obligations.PointLawsKept := fun s t laws next =>
  (pointLaws_iff t).mp (pointLaws_recordLaw.kept s t ((pointLaws_iff s).mpr laws) next)

end Sys2Proof.Machine
/-! PROOFS. What map operations leave alone, and the laws of the queues, of the settings, the timer and the lines. -/

namespace Sys2Proof.Machine

/-! ## What map operations leave alone -/

/-- What no map operation writes before it completes: the device outside the map, and the claimants for it (R14, R17). -/
structure Outside where
  resetLow : Bool
  settings : Settings
  host : HostLink
  queue : List Frame
  latched : FusionSettings
  timerCount : Nat
  lines : Table 4 LineRecord
  events : EventUnit
  pendingClose : Bool
  items : List MapItem
  inFlight : Option Operation
  softResetWaits : Bool

/-- The device outside the map as `s` has it. -/
def State.outside (s : State) : Outside :=
  ⟨s.resetLow, s.settings, s.host, s.queue, s.latched, s.timerCount, s.lines, s.events, s.map.pendingClose, s.map.items,
    s.map.inFlight, s.map.softResetWaits⟩

section
variable {s t : State} {c : Instr}

theorem outside_perform (h : PerformEffect s c t) : t.outside = s.outside := by
  cases h with
  | hold | resume => rw [writeHostHold_frame]; rfl
  | _ => rfl

theorem outside_operate {op : Operation} (h : OperateEffect s op c t) : t.outside = s.outside := by
  cases h with
  | frame f => rw [fusedInto_fuseFrame s f]; rfl
  | hold n flag => rw [writeLineHold_frame]; rfl
  | rebase => rfl

theorem outside_close (s : State) (a b : Nat) : (s.closeStages a b).completeClose.silencePorts.outside = s.outside := by
  rw [closedInto_close s a b]; rfl

end

/-! ## A debounced edge (R127 to R131) -/

/-- An entry written over another. -/
theorem set_set_same {α : Type} {n : Nat} (t : Table n α) (i : Fin n) (x y : α) : (t.set i x).set i y = t.set i y :=
  set_upd_same t i (fun _ => x) y

/-- A debounced edge writes its line and may post an item of it. -/
theorem debouncedEdge_eq (s : State) (n : LineIx) : ∃ items,
    (items = s.map.items ∨ items = postItem (.hold n) s.map.items ∨ items = postItem (.rebase n) s.map.items) ∧
    s.debouncedEdge n = { s with
      lines := s.lines.set n { s.lines.get n with
        level := !(s.lines.get n).level
        heldMs := 0
        edge := (s.lines.get n).edge || selectedEdge (s.settings.lineEdge.get n) (!(s.lines.get n).level)
        holdFlag := if s.settings.lineAction.get n = .hold then
            derivedHold (s.settings.lineEdge.get n) (s.settings.lineAction.get n) (!(s.lines.get n).level)
          else (s.lines.get n).holdFlag }
      map := { s.map with items := items } } := by
  unfold State.debouncedEdge
  cases action : s.settings.lineAction.get n with
  | mark => exact ⟨_, .inl rfl, rfl⟩
  | hold =>
    simp only
    generalize turned : ({ s with lines := s.lines.set n _ } : State) = u
    obtain ⟨items, posted, same⟩ := followHold_eq u n
    subst turned
    refine ⟨items, posted.imp id .inl, ?_⟩
    rw [same]
    simp [action, set_set_same]
  | rebase =>
    simp only
    split
    · exact ⟨_, .inr (.inr rfl), rfl⟩
    · exact ⟨_, .inl rfl, rfl⟩

/-! ## The ports: their reply lists through map operations -/

section
variable {s t : State} {c : Instr}

/-- From `s` to `t` no port's reply list has changed. -/
def State.SameAnswers (s t : State) : Prop := ∀ p : PortIx, (t.ports.get p).answers = (s.ports.get p).answers

theorem sameAnswers_of_ports (h : t.ports = s.ports) : s.SameAnswers t := fun p => by rw [h]

theorem State.SameAnswers.trans {u : State} (h : s.SameAnswers t) (k : t.SameAnswers u) : s.SameAnswers u :=
  fun p => (k p).trans (h p)

theorem ports_applyReading (s : State) (e : PointEntry) (value : Int) (gain : Nat) :
    (s.applyReading e value gain).ports = s.ports :=
  foldl_keeps (f := fun acc (x : SpreadEntry) => acc.touchCell .thermocouple value gain x.cell x.share)
    (fun u : State => u.ports = s.ports) (fun _ _ _ h => h) rfl

/-- A reading counts an unknown channel at its port, and writes nothing else there (R45). -/
theorem sameAnswers_fuseReading (port : PortIx) (s : State) (x : Reading) : s.SameAnswers (State.fuseReading port s x) := by
  unfold State.fuseReading
  split
  · intro p
    simp only [Table.get_upd]
    split
    next same => subst same; rfl
    next => rfl
  · simp only
    split
    · exact sameAnswers_of_ports (ports_applyReading _ _ _ _)
    · exact fun _ => rfl

theorem sameAnswers_fuseFrame (s : State) (f : Frame) : s.SameAnswers (s.fuseFrame f) := by
  unfold State.fuseFrame
  split
  · exact fun _ => rfl
  · exact fun _ => rfl
  all_goals
    split
    · exact foldl_keeps s.SameAnswers (fun t x _ h => h.trans (sameAnswers_fuseReading _ t x)) fun _ => rfl
    · exact fun _ => rfl

theorem sameAnswers_perform (h : PerformEffect s c t) : s.SameAnswers t := by
  cases h with
  | hold | resume => rw [writeHostHold_frame]; exact fun _ => rfl
  | _ => exact fun _ => rfl

theorem sameAnswers_operate {op : Operation} (h : OperateEffect s op c t) : s.SameAnswers t := by
  cases h with
  | frame f => exact sameAnswers_fuseFrame s f
  | hold n flag => rw [writeLineHold_frame]; exact fun _ => rfl
  | rebase => exact fun _ => rfl

theorem ports_completeClose (s : State) (a b : Nat) : (s.closeStages a b).completeClose.ports = s.ports := by
  have staged : (s.closeStages a b).ports = s.ports := by unfold State.closeStages; split <;> rfl
  rw [State.completeClose, (settleMode_frame _).1]
  unfold State.installPending
  split
  · exact staged
  · exact (installAll_frame _ _).2.2.2.1.trans staged

/-- A close counts silence at the ports and leaves their reply lists (R92). -/
theorem sameAnswers_close (s : State) (a b : Nat) : s.SameAnswers (s.closeStages a b).completeClose.silencePorts := by
  intro p
  rw [State.silencePorts]
  simp only [ports_completeClose, Table.get_map]
  unfold PortRecord.countSilence
  split
  · split <;> rfl
  · rfl
  · rfl

end

/-! ## The law of the queues (R84, R97, R158, R159) -/

section
variable {s t : State}

/-- BUSY replies among the ready ones. -/
def HostLink.busyCount (h : HostLink) : Nat := h.ready.countP fun r => !r.inService

/-- Queues that have not grown stay within their bounds. -/
theorem State.QueueLaw.of_le (h : s.QueueLaw) (queue : t.queue.length ≤ s.queue.length)
    (buffer : t.host.buffer.length ≤ s.host.buffer.length) (busy : t.host.busyCount ≤ s.host.busyCount)
    (answers : ∀ p, (t.ports.get p).answers.length ≤ (s.ports.get p).answers.length) : t.QueueLaw :=
  ⟨queue.trans h.intake, buffer.trans h.requests, busy.trans h.busy, fun p => (answers p).trans (h.answers p)⟩

theorem State.QueueLaw.of_same (h : s.QueueLaw) (queue : t.queue = s.queue) (host : t.host = s.host)
    (answers : s.SameAnswers t) : t.QueueLaw :=
  h.of_le (by rw [queue]) (by rw [host]) (by rw [host]) fun p => by rw [answers p]

theorem queue_arbitrate (s : State) : s.arbitrate.queue.length ≤ s.queue.length := by
  unfold State.arbitrate
  split
  · exact le_rfl
  · split
    · exact le_rfl
    · split
      · exact le_rfl
      next f queue _ same => rw [same]; exact Nat.le_succ _
      · exact le_rfl

theorem busyCount_transmit (s : State) : s.transmit.host.busyCount ≤ s.host.busyCount := by
  unfold State.transmit
  split
  · exact le_rfl
  next r rs _ _ _ ready =>
    simp only [HostLink.busyCount, ready, List.countP_cons]
    omega
  all_goals exact le_rfl

/-- A request served directly adds at most one frame to the intake queue, and BUSY replies or answers none. -/
theorem queueLaw_serve {c : Instr} (h : s.QueueLaw) (change : ServeEffect s c t) : t.QueueLaw := by
  cases change with
  | readPort p =>
    refine h.of_le le_rfl le_rfl le_rfl fun q => ?_
    simp only [Table.get_upd]
    split
    next same => subst same; exact le_rfl
    next => exact le_rfl
  | inject f room => exact ⟨by simp only [List.length_append, List.length_singleton]; omega, h.requests, h.busy, h.answers⟩
  | _ => exact ⟨h.intake, h.requests, h.busy, h.answers⟩

/-- The reply of a request in service is no BUSY reply. -/
theorem queueLaw_reply (h : s.QueueLaw) (r : Request) (parts : List (List Byte)) : (s.reply r parts).QueueLaw :=
  h.of_le le_rfl le_rfl (by simp [HostLink.busyCount]) fun _ => le_rfl

theorem queueLaw_completeOp (h : s.QueueLaw) : s.completeOp.QueueLaw := ⟨h.intake, h.requests, h.busy, h.answers⟩

theorem busyCount_of_busyRoom {l : HostLink} (h : l.busyRoom = true) : l.busyCount < 4 := by
  unfold HostLink.busyRoom at h
  simp only at h
  split at h
  next few => exact Nat.lt_of_succ_lt few
  next =>
    split at h
    next below => exact below
    next => cases h

theorem queueLaw_effect {c : Instr} (h : s.QueueLaw) (change : Effect s c t) : t.QueueLaw := by
  have taken : s.arbitrate.QueueLaw := h.of_le (queue_arbitrate s) (by simp) (by simp) fun p => by simp
  cases change with
  | buffered _ r room => exact ⟨h.intake, by simp only [List.length_append, List.length_singleton]; omega, h.busy, h.answers⟩
  | busy _ r room =>
    have few := busyCount_of_busyRoom room
    refine ⟨h.intake, h.requests, ?_, h.answers⟩
    simp only [HostLink.busyCount] at few
    simp only [List.countP_append, List.countP_singleton, Bool.not_false, if_true]
    omega
  | served _ r parts s' _ change => exact queueLaw_reply (queueLaw_serve h change) r parts
  | performed _ r parts s' _ _ change =>
    have made := outside_perform change
    exact queueLaw_reply (queueLaw_completeOp (taken.of_same (congrArg Outside.queue made) (congrArg Outside.host made)
      (sameAnswers_perform change))) r parts
  | operated _ op s' _ change =>
    have made := outside_operate change
    exact queueLaw_completeOp (taken.of_same (congrArg Outside.queue made) (congrArg Outside.host made)
      (sameAnswers_operate change))
  | restart r => exact h.of_le le_rfl le_rfl le_rfl fun p => by simp [State.takeRestart, State.restartLines,
      PortRecord.restart, PortRecord.read]
  | replySent o => exact h.of_le le_rfl (by simp) le_rfl fun _ => le_rfl
  | port _ p r bound =>
    refine ⟨h.intake, h.requests, h.busy, fun q => ?_⟩
    simp only [Table.get_set]
    split
    next same => subst same; exact bound (h.answers p)
    next => exact h.answers q
  | appended _ p r f bound room =>
    refine ⟨by simp only [List.length_append, List.length_singleton]; omega, h.requests, h.busy, fun q => ?_⟩
    simp only [Table.get_set]
    split
    next same => subst same; exact bound (h.answers p)
    next => exact h.answers q
  | timerExpiry => rw [timerExpires_eq]; exact ⟨h.intake, h.requests, h.busy, h.answers⟩
  | edge n =>
    obtain ⟨_, _, same⟩ := debouncedEdge_eq s n
    rw [same]
    exact ⟨h.intake, h.requests, h.busy, h.answers⟩
  | softReset r => exact queueLaw_reply (h.of_le (t := s.softReset.completeOp) (Nat.zero_le _) le_rfl le_rfl fun _ => le_rfl) r _
  | softResetUnasked => exact h.of_le (Nat.zero_le _) le_rfl le_rfl fun _ => le_rfl
  | _ => exact ⟨h.intake, h.requests, h.busy, h.answers⟩

theorem queueLaw_fullReset (pins : Table 4 Bool) (low : Bool) (q : List Instr) : (State.fullReset pins low q).QueueLaw :=
  ⟨Nat.zero_le _, Nat.zero_le _, Nat.zero_le _, fun p => by simp [State.fullReset, PortRecord.initial]⟩

theorem queueLaw_keptByChanges : KeptByChanges State.QueueLaw where
  pending _ h := ⟨h.intake, h.requests, h.busy, h.answers⟩
  event _ h := ⟨h.intake, h.requests, h.busy, h.answers⟩
  transmit {s} h := h.of_le (by simp) (by simp) (busyCount_transmit s) fun p => by simp
  arbitrate {s} h := h.of_le (queue_arbitrate s) (by simp) (by simp) fun p => by simp
  quiet h change := by
    cases change with
    | fullReset => exact queueLaw_fullReset _ _ _
    | fieldBytes _ p a =>
      refine h.of_le le_rfl le_rfl le_rfl fun q => ?_
      simp only [State.fieldAssemble, Table.get_upd]
      split
      next same => subst same; exact le_rfl
      next => exact le_rfl
    | answerSent p =>
      refine h.of_le le_rfl le_rfl le_rfl fun q => ?_
      simp only [Table.get_upd]
      split
      next same => subst same; simp
      next => exact le_rfl
    | _ => exact ⟨h.intake, h.requests, h.busy, h.answers⟩
  effect _ h change := queueLaw_effect h change
  tick h change := by cases change <;> exact ⟨h.intake, h.requests, h.busy, h.answers⟩
  close {s a b} _ h := by
    have made := outside_close s a b
    exact h.of_same (congrArg Outside.queue made) (congrArg Outside.host made) (sameAnswers_close s a b)
  free _ h := queueLaw_completeOp h

end

/-- Settles O13. -/
theorem capacitiesKept : Obligations.CapacitiesKept := fun s t ⟨queues, pages, pointer⟩ next =>
  ⟨queueLaw_keptByChanges.everyStep s t queues next, pendingLaw_stagingLaw.kept s t pages next,
    stageLaw_stagingLaw.kept s t pointer next⟩

end Sys2Proof.Machine
/-! PROOFS. The laws of the settings, the timer and the hold flags. -/

namespace Sys2Proof.Machine

/-! ## What a SET stores (Table 10-3, R130, R162) -/

section
variable {t u : Settings} {id v w : Nat} {clamped : Bool}

theorem storeClamped_stores {lo hi : Nat} {put : Nat → Settings} (bounds : lo ≤ hi)
    (h : storeClamped lo hi v put = some (u, w, clamped)) : ∃ x, lo ≤ x ∧ x ≤ hi ∧ u = put x := by
  rw [storeClamped_eq lo hi v bounds] at h
  cases h
  exact ⟨_, by omega, by omega, rfl⟩

/-- A SET of a line writes its edge and its action, never BOTH with HOLD (R130). -/
def Settings.LineStored (t : Settings) (n : LineIx) (u : Settings) : Prop :=
  ∃ edge action, u = { t with lineEdge := t.lineEdge.set n edge, lineAction := t.lineAction.set n action } ∧
    ¬ (edge = .both ∧ action = .hold)

theorem storeEdge_stores {n : LineIx} (h : storeEdge t n v = some (u, w, clamped)) : t.LineStored n u := by
  have stored : ∀ edge, u = { t with lineEdge := t.lineEdge.set n edge } → (edge = .both → t.lineAction.get n ≠ .hold) →
      t.LineStored n u :=
    fun edge same apart => ⟨edge, t.lineAction.get n, by rw [same, Table.set_get], fun both => apart both.1 both.2⟩
  unfold storeEdge at h
  split at h
  · cases h; exact stored .none rfl nofun
  · cases h; exact stored .rise rfl nofun
  · cases h; exact stored .fall rfl nofun
  · split at h
    · cases h; exact stored .rise rfl nofun
    next apart => cases h; exact stored .both rfl fun _ => apart
  · cases h

theorem storeAction_stores {n : LineIx} (h : storeAction t n v = some (u, w, clamped)) : t.LineStored n u := by
  have stored : ∀ action, u = { t with lineAction := t.lineAction.set n action } →
      (t.lineEdge.get n = .both → action ≠ .hold) → t.LineStored n u :=
    fun action same apart => ⟨t.lineEdge.get n, action, by rw [same, Table.set_get], fun both => apart both.1 both.2⟩
  unfold storeAction at h
  split at h
  · cases h; exact stored .mark rfl nofun
  · split at h
    · cases h; exact ⟨.rise, .hold, rfl, by simp⟩
    next apart => cases h; exact stored .hold rfl fun both => absurd both apart
  · cases h; exact stored .rebase rfl nofun
  · cases h

/-- What a SET that is not refused stores: a setting of the timer, of a line, or another. -/
inductive Settings.Stores (t : Settings) (id : Nat) : Settings → Prop
  | timer {u : Settings} : id ∈ [0x01, 0x02, 0x03] → (t.InRange → u.InRange) → u.lineEdge = t.lineEdge →
      u.lineAction = t.lineAction → Stores t id u
  | line {u : Settings} (n : LineIx) : id ∉ [0x01, 0x02, 0x03] → lineOfEdgeId id = some n ∨ lineOfActionId id = some n →
      t.LineStored n u → Stores t id u
  | other {u : Settings} : id ∉ [0x01, 0x02, 0x03] → lineOfEdgeId id = none → lineOfActionId id = none →
      (t.InRange → u.InRange) → u.lineEdge = t.lineEdge → u.lineAction = t.lineAction → u.epochRun = t.epochRun →
      u.epochPeriod = t.epochPeriod → Stores t id u

theorem storeSetting_stores (h : storeSetting t id v = some (u, w, clamped)) : t.Stores id u := by
  unfold storeSetting at h
  split at h
  · obtain ⟨x, low, high, rfl⟩ := storeClamped_stores (by decide) h
    exact .timer (by decide) (fun r => { r with period := ⟨low, high⟩ }) rfl rfl
  · split at h <;> cases h <;> exact .timer (by decide) (fun r => { r with }) rfl rfl
  · split at h <;> cases h <;> exact .timer (by decide) (fun r => { r with }) rfl rfl
  · obtain ⟨x, low, high, rfl⟩ := storeClamped_stores (by decide) h
    exact .other (by decide) rfl rfl (fun r => { r with gainTc := high }) rfl rfl rfl rfl
  · obtain ⟨x, low, high, rfl⟩ := storeClamped_stores (by decide) h
    exact .other (by decide) rfl rfl (fun r => { r with gainIr := high }) rfl rfl rfl rfl
  · obtain ⟨x, low, high, rfl⟩ := storeClamped_stores (by decide) h
    exact .other (by decide) rfl rfl (fun r => { r with refreshMin := ⟨low, high⟩ }) rfl rfl rfl rfl
  · obtain ⟨x, low, high, rfl⟩ := storeClamped_stores (by decide) h
    exact .other (by decide) rfl rfl (fun r => { r with staleAge := ⟨low, high⟩ }) rfl rfl rfl rfl
  · obtain ⟨x, low, high, rfl⟩ := storeClamped_stores (by decide) h
    exact .other (by decide) rfl rfl (fun r => { r with hotFloor := high }) rfl rfl rfl rfl
  · obtain ⟨x, low, high, rfl⟩ := storeClamped_stores (by decide) h
    exact .other (by decide) rfl rfl (fun r => { r with disagreeLimit := ⟨low, high⟩ }) rfl rfl rfl rfl
  · obtain ⟨x, low, high, rfl⟩ := storeClamped_stores (by decide) h
    exact .other (by decide) rfl rfl (fun r => { r with anchorAge := high }) rfl rfl rfl rfl
  · obtain ⟨x, low, high, rfl⟩ := storeClamped_stores (by decide) h
    exact .other (by decide) rfl rfl (fun r => { r with biasGain := high }) rfl rfl rfl rfl
  · obtain ⟨x, low, high, rfl⟩ := storeClamped_stores (by decide) h
    exact .other (by decide) rfl rfl (fun r => { r with silenceLimit := ⟨low, high⟩ }) rfl rfl rfl rfl
  · split at h <;> cases h
    exact .other (by decide) rfl rfl (fun r => { r with }) rfl rfl rfl rfl
  · split at h <;> cases h
    exact .other (by decide) rfl rfl (fun r => { r with }) rfl rfl rfl rfl
  · have notTimer : id ∉ [0x01, 0x02, 0x03] := by
      simp only [List.mem_cons, List.not_mem_nil, or_false, not_or]
      exact ⟨by assumption, by assumption, by assumption⟩
    split at h
    next n isEdge => exact .line n notTimer (.inl isEdge) (storeEdge_stores h)
    next n _ isAction => exact .line n notTimer (.inr isAction) (storeAction_stores h)
    · cases h

theorem inRange_of_lineStored {n : LineIx} (h : t.LineStored n u) (r : t.InRange) : u.InRange := by
  obtain ⟨edge, action, rfl, apart⟩ := h
  refine { r with lines := fun m => ?_ }
  simp only [Table.get_set]
  split
  · exact apart
  · exact r.lines m

theorem inRange_of_stores (h : t.Stores id u) (r : t.InRange) : u.InRange := by
  cases h with
  | timer _ keeps => exact keeps r
  | line n _ _ stored => exact inRange_of_lineStored stored r
  | other _ _ _ keeps => exact keeps r

/-- No id names the edge of one line and the action of another. -/
theorem lineOfId_disjoint {n : LineIx} (h : lineOfEdgeId id = some n) : lineOfActionId id = none := by
  unfold lineOfEdgeId at h
  split at h
  next edge => exact dif_neg (by omega)
  next => cases h

end

/-! ## The three laws as one -/

/-- The laws of the settings, the timer and the hold flags. -/
structure State.SettingsLaws (s : State) : Prop where
  range : s.settings.InRange
  timer : s.TimerLaw
  flags : s.HoldFlagLaw

/-- A line's hold flag is what its settings and its debounced level give (R129). -/
def LineRecord.Follows (t : Settings) (n : LineIx) (l : LineRecord) : Prop :=
  l.holdFlag = derivedHold (t.lineEdge.get n) (t.lineAction.get n) l.level

section
variable {s t : State}

/-- The laws look at the settings, the count, the lines and RESET_N. -/
theorem State.SettingsLaws.of_eq (h : s.SettingsLaws) (settings : t.settings = s.settings) (count : t.timerCount = s.timerCount)
    (lines : t.lines = s.lines) (low : t.resetLow = s.resetLow) : t.SettingsLaws where
  range := settings ▸ h.range
  timer := by unfold State.TimerLaw; rw [settings, count]; exact h.timer
  flags := by unfold State.HoldFlagLaw; rw [settings, lines, low]; exact h.flags

theorem State.SettingsLaws.of_outside (h : s.SettingsLaws) (same : t.outside = s.outside) : t.SettingsLaws :=
  h.of_eq (congrArg Outside.settings same) (congrArg Outside.timerCount same) (congrArg Outside.lines same)
    (congrArg Outside.resetLow same)

/-- While RESET_N is high the law of the flags is about each line alone. -/
theorem holdFlagLaw_of_high (high : t.resetLow = false)
    (follows : ∀ n, (t.lines.get n).Follows t.settings n) : t.HoldFlagLaw :=
  ⟨follows, fun low => absurd (high.symm.trans low) (by simp)⟩

/-- A line that changes neither its level nor its flag goes on following its settings. -/
theorem State.SettingsLaws.of_lines (h : s.SettingsLaws) (settings : t.settings = s.settings)
    (count : t.timerCount = s.timerCount) (low : t.resetLow = s.resetLow)
    (lines : ∀ n, (t.lines.get n).holdFlag = (s.lines.get n).holdFlag ∧ (t.lines.get n).level = (s.lines.get n).level) :
    t.SettingsLaws := by
  refine ⟨settings ▸ h.range, by unfold State.TimerLaw; rw [settings, count]; exact h.timer, fun n => ?_, ?_⟩
  · obtain ⟨flag, level⟩ := lines n
    rw [flag, level, settings]
    exact h.flags.1 n
  · rw [settings, low]
    exact h.flags.2

theorem period_pos {t : Settings} (h : t.InRange) : 0 < t.epochPeriod := Nat.lt_of_lt_of_le (by decide) h.period.1

/-- A derived flag of a line that has not the action HOLD is clear (R129). -/
theorem derivedHold_of_ne {edge : LineEdge} {action : LineAction} (level : Bool) (h : action ≠ .hold) :
    derivedHold edge action level = false := by
  unfold derivedHold
  split <;> simp_all

theorem settingsLaws_serve {c : Instr} (high : s.resetLow = false) (h : s.SettingsLaws) (change : ServeEffect s c t) :
    t.SettingsLaws := by
  cases change with
  | setTimer store timer =>
    cases storeSetting_stores store with
    | timer _ keeps edge action =>
      refine ⟨keeps h.range, ⟨fun _ => rfl, period_pos (keeps h.range)⟩, holdFlagLaw_of_high high fun n => ?_⟩
      unfold LineRecord.Follows
      rw [edge, action]
      exact h.flags.1 n
    | line _ other => exact absurd timer other
    | other other => exact absurd timer other
  | setLine n items store notTimer owner =>
    cases storeSetting_stores store with
    | timer timer => exact absurd timer notTimer
    | other _ noEdge noAction => simp [noEdge, noAction] at owner
    | line m _ owner' stored =>
      have same : n = m := by
        obtain edge | action := owner <;> obtain edge' | action' := owner'
        · exact Option.some.inj (edge.symm.trans edge')
        · simp [lineOfId_disjoint edge] at action'
        · simp [lineOfId_disjoint edge'] at action
        · exact Option.some.inj (action.symm.trans action')
      subst same
      have range := inRange_of_lineStored stored h.range
      obtain ⟨edge, action, rfl, apart⟩ := stored
      refine ⟨range, h.timer, holdFlagLaw_of_high high fun k => ?_⟩
      unfold LineRecord.Follows
      simp only [Table.get_set]
      split
      next same => subst same; rfl
      next => exact h.flags.1 k
  | setOther store notTimer noEdge noAction =>
    cases storeSetting_stores store with
    | timer timer => exact absurd timer notTimer
    | line _ _ owner => simp [noEdge, noAction] at owner
    | other _ _ _ keeps edge action run period =>
      refine ⟨keeps h.range, ?_, holdFlagLaw_of_high high fun n => ?_⟩
      · unfold State.TimerLaw
        rw [run, period]
        exact h.timer
      · unfold LineRecord.Follows
        rw [edge, action]
        exact h.flags.1 n
  | closeEpoch count counts =>
    obtain rfl | rfl := counts
    · exact h.of_eq rfl rfl rfl rfl
    · exact ⟨h.range, ⟨fun _ => rfl, period_pos h.range⟩, h.flags⟩
  | readLines => exact h.of_lines rfl rfl rfl fun n => by simp
  | _ => exact h.of_eq rfl rfl rfl rfl

theorem settingsLaws_timerExpires (h : s.SettingsLaws) : s.timerExpires.SettingsLaws := by
  rw [timerExpires_eq]
  have positive := period_pos h.range
  exact ⟨{ h.range with }, ⟨fun _ => rfl, positive⟩, h.flags⟩

theorem settingsLaws_debouncedEdge (high : s.resetLow = false) (n : LineIx) (h : s.SettingsLaws) :
    (s.debouncedEdge n).SettingsLaws := by
  obtain ⟨items, _, same⟩ := debouncedEdge_eq s n
  rw [same]
  refine ⟨h.range, h.timer, holdFlagLaw_of_high high fun m => ?_⟩
  unfold LineRecord.Follows
  simp only [Table.get_set]
  split
  next same =>
    subst same
    simp only
    split
    next => rfl
    next other => rw [derivedHold_of_ne _ other, h.flags.1 n, derivedHold_of_ne _ other]
  next => exact h.flags.1 m

theorem settingsLaws_effect {c : Instr} (high : s.resetLow = false) (h : s.SettingsLaws) (change : Effect s c t) :
    t.SettingsLaws := by
  have taken : s.arbitrate.SettingsLaws := h.of_eq (by simp) (by simp) (by simp) (by simp)
  cases change with
  | served _ r parts s' _ change => exact (settingsLaws_serve high h change).of_eq rfl rfl rfl rfl
  | performed _ r parts s' _ _ change => exact (taken.of_outside (outside_perform change)).of_eq rfl rfl rfl rfl
  | operated _ op s' _ change => exact (taken.of_outside (outside_operate change)).of_eq rfl rfl rfl rfl
  | restart r =>
    have positive := period_pos h.range
    refine ⟨{ h.range with }, ⟨fun _ => rfl, positive⟩, holdFlagLaw_of_high high fun n => ?_⟩
    simp [LineRecord.Follows, State.takeRestart, State.restartLines, LineRecord.restart]
  | timerExpiry => exact settingsLaws_timerExpires h
  | edge n => exact settingsLaws_debouncedEdge high n h
  | _ => exact h.of_eq rfl rfl rfl rfl

theorem settingsInitial_inRange : Settings.initial.InRange where
  period := by decide
  gainTc := by decide
  gainIr := by decide
  refreshMin := by decide
  staleAge := by decide
  hotFloor := by decide
  disagreeLimit := by decide
  anchorAge := by decide
  biasGain := by decide
  silenceLimit := by decide
  lines n := by simp [Settings.initial]

theorem settingsLaws_fullReset (pins : Table 4 Bool) (low : Bool) (q : List Instr) :
    (State.fullReset pins low q).SettingsLaws where
  range := settingsInitial_inRange
  timer := ⟨fun _ => rfl, Nat.succ_pos 999⟩
  flags := ⟨fun n => by simp [State.fullReset, LineRecord.initial, Settings.initial, derivedHold],
    fun _ n => by simp [State.fullReset, Settings.initial]⟩

theorem settingsLaws_keptByChanges : KeptByChanges State.SettingsLaws where
  pending _ h := h.of_eq rfl rfl rfl rfl
  event _ h := h.of_eq rfl rfl rfl rfl
  transmit h := h.of_eq (by simp) (by simp) (by simp) (by simp)
  arbitrate h := h.of_eq (by simp) (by simp) (by simp) (by simp)
  quiet {s _ _} h change := by
    cases change with
    | fullReset => exact settingsLaws_fullReset _ _ _
    | pinChange n =>
      refine h.of_lines rfl rfl rfl fun m => ?_
      simp only [Table.get_upd]
      split
      next same => subst same; exact ⟨rfl, rfl⟩
      next => exact ⟨rfl, rfl⟩
    | release low =>
      refine ⟨h.range, h.timer, holdFlagLaw_of_high rfl fun n => ?_⟩
      have noHold := h.flags.2 low n
      have clear := h.flags.1 n
      rw [derivedHold_of_ne _ noHold] at clear
      simp only [LineRecord.Follows, Table.get_map]
      rw [clear, derivedHold_of_ne _ noHold]
    | _ => exact h.of_eq rfl rfl rfl rfl
  effect high h change := settingsLaws_effect high h change
  tick {s _} h change := by
    cases change with
    | count run below => exact ⟨h.range, ⟨fun stopped => absurd (run.symm.trans stopped) (by simp), below⟩, h.flags⟩
    | held n =>
      refine h.of_lines rfl rfl rfl fun m => ?_
      simp only [Table.get_set]
      split
      next same => subst same; exact ⟨rfl, rfl⟩
      next => exact ⟨rfl, rfl⟩
  close {s a b} _ h := h.of_outside (outside_close s a b)
  free _ h := h.of_eq rfl rfl rfl rfl

end

/-- Settles O14. -/
theorem settingsLawsKept : Obligations.SettingsLawsKept := fun s t ⟨range, timer, flags⟩ next =>
  have kept := settingsLaws_keptByChanges.everyStep s t ⟨range, timer, flags⟩ next
  ⟨kept.range, kept.timer, kept.flags⟩

end Sys2Proof.Machine
/-! PROOFS. The law of service, and that every step ends in a settled state. -/

namespace Sys2Proof.Machine

/-! ## The law of service (R16, R158) -/

section
variable {s t : State}

/-- With its other parts the law bounds the item list (R16). -/
theorem serviceLaw_of (host : t.hostItems = if t.host.service = .waiting ∧ t.map.softResetWaits = false then 1 else 0)
    (restart : t.map.softResetWaits = true → t.host.service = .waiting)
    (replies : t.serviceReplies = if t.host.service = .replied then 1 else 0)
    (inBuffer : t.host.service ≠ .idle → t.host.buffer ≠ []) (lines : (t.map.items.filter fun i => !i.isHost).Nodup) :
    t.ServiceLaw := by
  refine ⟨host, restart, replies, inBuffer, lines, items_length_le ?_ lines⟩
  have atMost : t.hostItems ≤ 1 := by rw [host]; split <;> omega
  unfold State.hostItems at atMost
  omega

/-- A change that keeps the service and counts neither a host item nor a reply of the request in service. -/
theorem State.ServiceLaw.of_same (h : s.ServiceLaw) (service : t.host.service = s.host.service)
    (waits : t.map.softResetWaits = s.map.softResetWaits) (host : t.hostItems = s.hostItems)
    (replies : t.serviceReplies = s.serviceReplies) (buffer : s.host.buffer ≠ [] → t.host.buffer ≠ [])
    (lines : (t.map.items.filter fun i => !i.isHost).Nodup) : t.ServiceLaw := by
  apply serviceLaw_of
  · rw [host, service, waits]; exact h.host
  · rw [service, waits]; exact h.restart
  · rw [replies, service]; exact h.replies
  · rw [service]; exact fun busy => buffer (h.inBuffer busy)
  · exact lines

/-- The law looks at the host link's reply side, its buffer, and the map's items. -/
theorem State.ServiceLaw.of_eq (h : s.ServiceLaw) (service : t.host.service = s.host.service)
    (waits : t.map.softResetWaits = s.map.softResetWaits) (items : t.map.items = s.map.items)
    (flight : t.map.inFlight = s.map.inFlight) (ready : t.host.ready = s.host.ready)
    (sending : t.host.sending = s.host.sending) (buffer : s.host.buffer ≠ [] → t.host.buffer ≠ []) : t.ServiceLaw :=
  h.of_same service waits (by unfold State.hostItems; rw [items, flight]) (by unfold State.serviceReplies; rw [ready, sending])
    buffer (by rw [items]; exact h.lines)

theorem State.ServiceLaw.of_outside (h : s.ServiceLaw) (same : t.outside = s.outside) : t.ServiceLaw := by
  have host : t.host = s.host := congrArg Outside.host same
  exact h.of_eq (by rw [host]) (congrArg Outside.softResetWaits same) (congrArg Outside.items same)
    (congrArg Outside.inFlight same) (by rw [host]) (by rw [host]) (by rw [host]; exact id)

/-- A line's item merges with its like, and is no host item (R16). -/
theorem postItem_line {item : MapItem} (line : item.isHost = false) (items : List MapItem) :
    (postItem item items).countP MapItem.isHost = items.countP MapItem.isHost ∧
      ((items.filter fun i => !i.isHost).Nodup → ((postItem item items).filter fun i => !i.isHost).Nodup) := by
  have same : postItem item items = if items.contains item then items else items ++ [item] := by
    cases item with
    | host r => cases line
    | hold n => rfl
    | rebase n => rfl
  rw [same]
  split
  · exact ⟨rfl, id⟩
  next absent =>
    refine ⟨by simp [line], fun nodup => ?_⟩
    have fresh : item ∉ items := by simpa using absent
    rw [List.filter_append, List.filter_singleton, line, Bool.not_false, cond_true]
    refine nodup.append (List.nodup_singleton _) ?_
    simp [fresh]

theorem State.ServiceLaw.of_postLine (h : s.ServiceLaw) {item : MapItem} (line : item.isHost = false)
    (host : t.host = s.host) (waits : t.map.softResetWaits = s.map.softResetWaits)
    (items : t.map.items = postItem item s.map.items) (flight : t.map.inFlight = s.map.inFlight) : t.ServiceLaw := by
  obtain ⟨count, nodup⟩ := postItem_line line s.map.items
  exact h.of_same (by rw [host]) waits (by unfold State.hostItems; rw [items, flight, count])
    (by unfold State.serviceReplies; rw [host]) (by rw [host]; exact id) (by rw [items]; exact nodup h.lines)

/-- While no request is in service no host item and no reply of one exist, and no soft reset waits. -/
theorem State.ServiceLaw.idle (h : s.ServiceLaw) (idle : s.host.service = .idle) :
    s.hostItems = 0 ∧ s.serviceReplies = 0 ∧ s.map.softResetWaits = false := by
  refine ⟨by simpa [idle] using h.host, by simpa [idle] using h.replies, ?_⟩
  cases waits : s.map.softResetWaits with
  | false => rfl
  | true => simpa [idle] using h.restart waits

/-- The request taken next is the oldest of the buffer, and none is in service. -/
theorem idle_of_nextRequest {r : Request} (h : s.nextRequest = some r) : s.host.service = .idle ∧ s.host.buffer ≠ [] := by
  unfold State.nextRequest at h
  split at h
  next idle => exact ⟨idle, fun empty => by simp [empty] at h⟩
  all_goals cases h

theorem serviceReplies_reply (r : Request) (parts : List (List Byte)) :
    (s.reply r parts).serviceReplies = s.serviceReplies + 1 := by
  simp only [State.serviceReplies, State.reply_host_ready, State.reply_host_sending, List.countP_append,
    List.countP_singleton, if_true]
  omega

/-- A request with no host item left is answered (R158). -/
theorem serviceLaw_reply (r : Request) (parts : List (List Byte)) (host : s.hostItems = 0)
    (waits : s.map.softResetWaits = false) (replies : s.serviceReplies = 0) (buffer : s.host.buffer ≠ [])
    (lines : (s.map.items.filter fun i => !i.isHost).Nodup) : (s.reply r parts).ServiceLaw := by
  apply serviceLaw_of
  · exact host.trans (by simp)
  · exact fun set => absurd (waits.symm.trans set) (by simp)
  · rw [serviceReplies_reply, replies]; rfl
  · exact fun _ => buffer
  · exact lines

theorem isHost_operationOf (s : State) (item : MapItem) : (s.operationOf item).isHost = item.isHost := by
  cases item <;> rfl

theorem serviceLaw_arbitrate (h : s.ServiceLaw) : s.arbitrate.ServiceLaw := by
  unfold State.arbitrate
  split
  · exact h
  next free =>
    have none : s.map.inFlight = none := by
      rw [Bool.or_eq_true, not_or] at free
      simpa using free.1
    split
    · exact h.of_same rfl rfl (by simp [State.hostItems, none, Operation.isHost]) rfl id h.lines
    · split
      next item items _ same =>
        refine h.of_same rfl rfl ?_ rfl id (h.lines.sublist (List.Sublist.filter _ ?_))
        · simp only [State.hostItems, none, same, List.countP_cons, Option.toList, List.countP_nil, isHost_operationOf]
          omega
        · rw [same]; exact List.sublist_cons_self _ _
      next => exact h.of_same rfl rfl (by simp [State.hostItems, none, Operation.isHost]) rfl id h.lines
      next => exact h

theorem inService_outgoing (r : Reply) : r.outgoing.inService = r.inService := by
  unfold Reply.outgoing
  split <;> rfl

theorem serviceLaw_transmit (h : s.ServiceLaw) : s.transmit.ServiceLaw := by
  unfold State.transmit
  split
  · exact h
  next r rs _ _ idle ready =>
    refine h.of_same rfl rfl rfl ?_ id h.lines
    simp only [State.serviceReplies, idle, ready, List.countP_cons, Option.toList, List.countP_nil, inService_outgoing]
    omega
  next idle ready _ => exact h.of_same rfl rfl rfl (by simp [State.serviceReplies, idle, ready, Notice.outgoing]) id h.lines
  next idle ready _ _ => exact h.of_same rfl rfl rfl (by simp [State.serviceReplies, idle, ready, Notice.outgoing]) id h.lines
  · exact h

/-- What a request served directly does before its reply leaves the law as it was. -/
theorem serviceLaw_serve {c : Instr} (h : s.ServiceLaw) (change : ServeEffect s c t) :
    t.ServiceLaw ∧ t.host.service = s.host.service ∧ t.host.buffer = s.host.buffer := by
  refine ⟨?_, by cases change <;> rfl, by cases change <;> rfl⟩
  cases change with
  | setLine n items _ _ _ posted =>
    obtain rfl | rfl := posted
    · exact h.of_eq rfl rfl rfl rfl rfl rfl id
    · exact h.of_postLine (item := .hold n) rfl rfl rfl rfl rfl
  | _ => exact h.of_eq rfl rfl rfl rfl rfl rfl id

/-- The completion of an operation that is no host item. -/
theorem serviceLaw_completeOp {op : Operation} (h : s.ServiceLaw) (flight : s.map.inFlight = some op)
    (other : op.isHost = false) : s.completeOp.ServiceLaw :=
  h.of_same rfl rfl (by simp [State.hostItems, State.completeOp, State.refreshCopy, flight, other]) rfl id h.lines

theorem serviceLaw_effect {c : Instr} (h : s.ServiceLaw) (change : Effect s c t) : t.ServiceLaw := by
  have taken := serviceLaw_arbitrate h
  cases change with
  | buffered _ r => exact h.of_eq rfl rfl rfl rfl rfl rfl fun _ => by simp
  | busy _ r => exact h.of_same rfl rfl rfl (by simp [State.serviceReplies]) id h.lines
  | posted r next =>
    obtain ⟨idle, buffer⟩ := idle_of_nextRequest next
    obtain ⟨host, replies, waits⟩ := h.idle idle
    apply serviceLaw_of
    · rw [if_pos ⟨rfl, waits⟩]
      simp only [State.hostItems, List.countP_append, List.countP_singleton, MapItem.isHost, if_true] at host ⊢
      omega
    · exact fun _ => rfl
    · exact replies
    · exact fun _ => buffer
    · have host : MapItem.isHost (.host r) = true := rfl
      simp only [List.filter_append, List.filter_singleton, host, Bool.not_true, cond_false, List.append_nil]
      exact h.lines
  | served _ r parts s' next change =>
    obtain ⟨idle, buffer⟩ := idle_of_nextRequest next
    obtain ⟨law, service, same⟩ := serviceLaw_serve h change
    obtain ⟨host, replies, waits⟩ := law.idle (service.trans idle)
    exact serviceLaw_reply r parts host waits replies (by rw [same]; exact buffer) law.lines
  | performed _ r parts s' _ flight change =>
    have law := taken.of_outside (outside_perform change)
    have flight' : s'.map.inFlight = some (.host r) := (congrArg Outside.inFlight (outside_perform change)).trans flight
    have count := law.host
    have waiting : s'.host.service = .waiting ∧ s'.map.softResetWaits = false := by
      by_contra other
      rw [if_neg other] at count
      simp [State.hostItems, flight', Operation.isHost] at count
    rw [if_pos waiting] at count
    have replies := law.replies
    simp only [waiting.1, reduceCtorEq, if_false] at replies
    refine serviceLaw_reply r parts ?_ waiting.2 replies (law.inBuffer (by simp [waiting.1])) law.lines
    simp only [State.hostItems, flight', Option.toList, List.countP_singleton, Operation.isHost, if_true] at count
    simp only [State.hostItems, State.completeOp, State.refreshCopy, Option.toList, List.countP_nil]
    omega
  | operated _ op s' flight change =>
    have law := taken.of_outside (outside_operate change)
    have flight' : s'.map.inFlight = some op := (congrArg Outside.inFlight (outside_operate change)).trans flight
    exact serviceLaw_completeOp law flight' (by cases change <;> rfl)
  | restart r next =>
    obtain ⟨idle, buffer⟩ := idle_of_nextRequest next
    obtain ⟨host, replies, -⟩ := h.idle idle
    apply serviceLaw_of
    · exact host.trans (by simp [State.takeRestart])
    · exact fun _ => rfl
    · exact replies
    · exact fun _ => buffer
    · exact h.lines
  | replySent o sending inService =>
    have replies := h.replies
    have replied : s.host.service = .replied := by
      by_contra other
      rw [if_neg other] at replies
      simp [State.serviceReplies, sending, inService] at replies
    rw [if_pos replied] at replies
    have host := h.host
    simp only [replied, reduceCtorEq, false_and, if_false] at host
    apply serviceLaw_of
    · exact host.trans (by simp)
    · exact fun waits => absurd ((h.restart waits).symm.trans replied) (by simp)
    · simp only [State.serviceReplies, sending, Option.toList, List.countP_singleton, inService, if_true] at replies
      simp only [State.serviceReplies, Option.toList, List.countP_nil, reduceCtorEq, if_false]
      omega
    · exact fun busy => absurd rfl busy
    · exact h.lines
  | otherSent o sending other =>
    exact h.of_same rfl rfl rfl (by simp [State.serviceReplies, sending, other]) id h.lines
  | timerExpiry => rw [timerExpires_eq]; exact h.of_eq rfl rfl rfl rfl rfl rfl id
  | edge n =>
    obtain ⟨items, posted, same⟩ := debouncedEdge_eq s n
    rw [same]
    obtain rfl | rfl | rfl := posted
    · exact h.of_eq rfl rfl rfl rfl rfl rfl id
    · exact h.of_postLine (item := .hold n) rfl rfl rfl rfl rfl
    · exact h.of_postLine (item := .rebase n) rfl rfl rfl rfl rfl
  | softReset r behind buffer waits free =>
    have waiting := h.restart waits
    have host := h.host
    simp only [waits, Bool.true_eq_false, and_false, if_false, State.hostItems, Nat.add_eq_zero_iff] at host
    have replies := h.replies
    simp only [waiting, reduceCtorEq, if_false] at replies
    have kept : s.softReset.map.items.Sublist s.map.items := List.filter_sublist
    refine serviceLaw_reply r _ ?_ rfl replies (show s.host.buffer ≠ [] by simp [buffer]) (h.lines.sublist (kept.filter _))
    have none : s.softReset.map.items.countP MapItem.isHost = 0 := Nat.le_zero.mp (host.1 ▸ kept.countP_le)
    simp only [State.hostItems, State.completeOp, State.refreshCopy, none, Option.toList, List.countP_nil]
  | softResetUnasked buffer waits =>
    exact absurd buffer (h.inBuffer (by simp [h.restart waits]))
  | _ => exact h.of_eq rfl rfl rfl rfl rfl rfl id

theorem serviceLaw_fullReset (pins : Table 4 Bool) (low : Bool) (q : List Instr) : (State.fullReset pins low q).ServiceLaw :=
  serviceLaw_of rfl nofun rfl (fun busy => absurd rfl busy) List.nodup_nil

theorem serviceLaw_keptByChanges : KeptByChanges State.ServiceLaw where
  pending _ h := h.of_eq rfl rfl rfl rfl rfl rfl id
  event _ h := h.of_eq rfl rfl rfl rfl rfl rfl id
  transmit := serviceLaw_transmit
  arbitrate := serviceLaw_arbitrate
  quiet h change := by
    cases change with
    | fullReset => exact serviceLaw_fullReset _ _ _
    | nextPart o p ps sending => exact h.of_same rfl rfl rfl (by simp [State.serviceReplies, sending]) id h.lines
    | _ => exact h.of_eq rfl rfl rfl rfl rfl rfl id
  effect _ h change := serviceLaw_effect h change
  tick h change := by cases change <;> exact h.of_eq rfl rfl rfl rfl rfl rfl id
  close {s a b} _ h := h.of_outside (outside_close s a b)
  free flight h := serviceLaw_completeOp h flight rfl

end

/-- Settles O15. -/
theorem serviceLawKept : Obligations.ServiceLawKept := serviceLaw_keptByChanges.everyStep

/-! ## Settled states (R14, R151, R153) -/

section
variable {s t : State}

/-- Being settled looks at the groups, the settings, the Event Unit, the transmitter and the claimants. -/
theorem State.Settled.of_eq (h : s.Settled) (groups : t.groups = s.groups) (settings : t.settings = s.settings)
    (events : t.events = s.events) (ready : t.host.ready = s.host.ready)
    (sending : t.host.sending = none → s.host.sending = none) (map : t.map = s.map) (queue : t.queue = s.queue) :
    t.Settled where
  alert := by unfold State.urgentSet; rw [events, groups, settings]; exact h.alert
  transmitter idle := by rw [ready, events]; exact h.transmitter (sending idle)
  map free waits := by
    unfold State.claims
    rw [map] at free waits ⊢
    rw [queue]
    exact h.map free waits

/-- The groups look at the Event Unit's copy and at the flags of the ports and the lines. -/
theorem groups_congr (copy : t.events.copy = s.events.copy) (ports : ∀ p, (t.ports.get p).flags = (s.ports.get p).flags)
    (lines : ∀ n, (t.lines.get n).edge = (s.lines.get n).edge) : t.groups = s.groups := by
  have port : t.ports.any (fun p => p.flags.any) = s.ports.any fun p => p.flags.any := by
    rw [Bool.eq_iff_iff]; simp [ports]
  have line : t.lines.any (fun l => l.edge) = s.lines.any fun l => l.edge := by
    rw [Bool.eq_iff_iff]; simp [lines]
  unfold State.groups
  rw [copy, port, line]

theorem settled_fullReset (pins : Table 4 Bool) (low : Bool) (q : List Instr) : (State.fullReset pins low q).Settled where
  alert := by simp [State.fullReset, State.urgentSet, Settings.initial, EventUnit.initial]
  transmitter _ := ⟨rfl, rfl, rfl⟩
  map _ _ := rfl

theorem settled_quiet {c : Instr} (h : s.Settled) (change : QuietEffect s c t) : t.Settled := by
  cases change with
  | fullReset => exact settled_fullReset _ _ _
  | hostBytes _ a => exact h.of_eq rfl rfl rfl rfl id rfl rfl
  | fieldBytes _ p a =>
    refine h.of_eq (groups_congr rfl (fun q => ?_) fun _ => rfl) rfl rfl rfl id rfl rfl
    simp only [State.fieldAssemble, Table.get_upd]
    split
    next same => subst same; rfl
    next => rfl
  | nextPart o p ps sending => exact h.of_eq rfl rfl rfl rfl nofun rfl rfl
  | answerSent p =>
    refine h.of_eq (groups_congr rfl (fun q => ?_) fun _ => rfl) rfl rfl rfl id rfl rfl
    simp only [Table.get_upd]
    split
    next same => subst same; rfl
    next => rfl
  | pinChange n =>
    refine h.of_eq (groups_congr rfl (fun _ => rfl) fun m => ?_) rfl rfl rfl id rfl rfl
    simp only [Table.get_upd]
    split
    next same => subst same; rfl
    next => rfl
  | release low => exact h.of_eq (groups_congr rfl (fun _ => rfl) fun m => by simp) rfl rfl rfl id rfl rfl

theorem settled_exec {c : Instr} (h : s.Settled) (next : exec c s = .next t) : t.Settled := by
  cases exec_outcome next with
  | unchanged => exact h
  | quiet change => exact settled_quiet h change
  | ends _ change => exact settled_conclude _ _
  | close => exact settled_conclude _ _

theorem settled_idle (h : s.Settled) : s.idle.Settled := by
  unfold State.idle
  split
  · exact h
  · exact foldl_keeps State.Settled (fun _ _ _ _ => settled_conclude _ _) (settled_conclude _ _)

end

/-- Settles O9. -/
theorem settledKept : Obligations.SettledKept := by
  intro s t h next
  unfold step at next
  split at next
  · cases next; exact settled_idle h
  next rest _ => exact settled_exec (h.of_eq (t := { s with pending := rest }) rfl rfl rfl rfl id rfl rfl) next

end Sys2Proof.Machine
/-! PROOFS. Whole-machine statements: reset, time, the arbiter, the levels and the notices. -/

namespace Sys2Proof.Machine

/-! ## The state after reset (O3, O8) -/

section
variable (pins : Table 4 Bool) (low : Bool) (q : List Instr)

/-- No group is active after a full reset (R156). -/
theorem groups_fullReset : (State.fullReset pins low q).groups = 0 := by
  have none : ∀ {α : Type} {n : Nat} (p : α → Bool) (t : Table n α), (∀ i, p (t.get i) = false) → t.any p = false :=
    fun p t => (Table.any_eq_false_iff p t).mpr
  unfold State.groups
  rw [none, none, none, none, none]
  · rfl
  all_goals
    intro i
    simp [State.fullReset, EventUnit.initial, FlagCopy.clear, PointFlags.clear, PointFlags.any, PortRecord.initial,
      PortFlags.clear, PortFlags.any, PassFlags.clear, PassFlags.anyHigh, LineRecord.initial]

end

/-- Settles O8. -/
theorem resetIsLawful : Obligations.ResetIsLawful := by
  have points := (pointLaws_iff State.reset).mp (pointLaws_fullReset _ _ _)
  have settings := settingsLaws_fullReset (Table.replicate 4 false) false []
  exact ⟨settled_fullReset _ _ _, holdLaw_recordLaw.fullReset _ _ _, (useOf_cellLaw.recordLaw).fullReset _ _ _,
    blankLaw_recordLaw.fullReset _ _ _, (estimateIn_cellLaw.recordLaw).fullReset _ _ _, biasLaw_recordLaw.fullReset _ _ _,
    points.1, points.2.1, points.2.2, queueLaw_fullReset _ _ _, pendingLaw_stagingLaw.fullReset _ _ _,
    stageLaw_stagingLaw.fullReset _ _ _, hotLaw_recordLaw.fullReset _ _ _, tableLaw_stagingLaw.fullReset _ _ _,
    settings.range, settings.timer, settings.flags, serviceLaw_fullReset _ _ _⟩

/-- Settles O3. -/
theorem fullResetState : Obligations.FullResetState := by
  intro s
  refine ⟨State.fullReset (s.lines.map LineRecord.pin) true s.pending, rfl, rfl, rfl, rfl, rfl, fun c => ⟨?_, ?_⟩,
    fun i => ⟨?_, ?_⟩, fun v => ⟨fun b => ?_, ?_⟩, fun k => ?_, fun p => ?_, fun n => ?_, ?map, rfl, ?stage,
    groups_fullReset _ _ _, rfl, rfl, rfl, rfl, ?settings⟩
  case map =>
    exact ⟨rfl, rfl, fun n => Table.get_replicate _ _, rfl, rfl, rfl, rfl,
      fun p => ⟨Table.get_replicate _ _, Table.get_replicate _ _⟩, rfl, rfl, rfl, rfl, rfl, rfl⟩
  case stage => exact ⟨rfl, fun i => Table.get_replicate _ _, rfl, rfl, rfl, rfl, rfl, rfl⟩
  case settings =>
    exact ⟨rfl, rfl, rfl, rfl, rfl, rfl, rfl, rfl, rfl, fun n => ⟨Table.get_replicate _ _, Table.get_replicate _ _⟩⟩
  all_goals simp [State.fullReset, CellEntry.initial, CellRecord.initial, PointEntry.initial, PointRecord.initial,
    Binding.initial, ViewRecord.initial, LimitClass.initial, PortRecord.initial, LineRecord.initial]

/-! ## While RESET_N is low (O4) -/

/-- While RESET_N is low the reset, its release and the pins alone do anything (R167, log entry 11). -/
theorem unchanged_of_low {s t : State} {c : Instr} (low : s.resetLow = true) (reset : c ≠ .fullReset)
    (release : c ≠ .resetNRelease) (pins : ∀ n, c ≠ .linePinChange n) (next : exec c s = .next t) : t = s := by
  have notHigh : s.resetLow ≠ false := by simp [low]
  cases exec_outcome next with
  | unchanged => rfl
  | quiet change =>
    cases change with
    | fullReset => exact absurd rfl reset
    | pinChange n => exact absurd rfl (pins n)
    | release => exact absurd rfl release
    | hostBytes _ _ high => exact absurd high notHigh
    | fieldBytes _ _ _ high => exact absurd high notHigh
    | nextPart _ _ _ _ _ high => exact absurd high notHigh
    | answerSent _ high => exact absurd high notHigh
  | ends high => exact absurd high notHigh
  | close _ _ _ high => exact absurd high notHigh

theorem exec_resetNRelease (s : State) : exec .resetNRelease s = .next (if s.resetLow then
    { s with resetLow := false, lines := s.lines.map fun l => { l with level := l.pin, heldMs := 0 } } else s) := by
  simp only [exec, execResetNRelease]
  split <;> rfl

/-- Settles O4. -/
theorem whileResetIsLow : Obligations.WhileResetIsLow := by
  refine fun s => ⟨fun low c reset release pins => ?_, fun low => ?_, fun high => ?_⟩
  · obtain ⟨t, next, _⟩ := exec_cases c s
    rw [next, unchanged_of_low low reset release pins next]
  · refine ⟨_, by rw [exec_resetNRelease, if_pos low], rfl, fun n => ?_⟩
    exact Table.get_map _ _ _
  · rw [exec_resetNRelease, if_neg (by simp [high])]

/-! ## The level sets (O18) -/

/-- Settles O18. -/
theorem levelSets : Obligations.LevelSets := by
  intro s
  refine ⟨fun n => ?_, fun n => ?_, ?_, ?_, ?_, ?_, ?_, ?_, ?_⟩
  · simp [State.urgentSet]
  · rw [State.routineSet, BitVec.getLsbD_and, BitVec.getLsbD_and, BitVec.getLsbD_not]
    by_cases inside : n < 7
    · simp [inside]
    · have outside : s.groups.getLsbD n = false := BitVec.getLsbD_of_ge _ _ (Nat.not_lt.mp inside)
      simp [outside]
  all_goals rw [State.groups, groupSet_getLsbD]
  · simp [PointFlags.any_iff]
  · simp [PortFlags.any_iff]
  · simp [PassFlags.anyHigh, or_assoc]
  · simp
  · rfl
  · rfl
  · simp

/-! ## The arbiter (O19) -/

/-- Settles O19. -/
theorem arbiterOrder : Obligations.ArbiterOrder := by
  refine fun s => ⟨fun busy => ?_, fun free noReset => ⟨fun close => ?_, fun noClose r is items => ?_,
    fun noClose n is items => ?_, fun noClose n is items => ?_, fun noClose noItem f fs frames => ?_,
    fun noClose noItem noFrame => ?_⟩⟩
  · obtain flight | waits := busy
    · obtain ⟨op, flight⟩ := Option.ne_none_iff_exists'.mp flight
      exact arbitrate_of_inFlight flight
    · exact arbitrate_of_softReset waits
  · simp [State.arbitrate, free, noReset, close]
  · simp [State.arbitrate, free, noReset, noClose, items, State.operationOf]
  · simp [State.arbitrate, free, noReset, noClose, items, State.operationOf]
  · simp [State.arbitrate, free, noReset, noClose, items, State.operationOf]
  · simp [State.arbitrate, free, noReset, noClose, noItem, frames, Settings.fusion]
  · exact arbitrate_of_no_claim (by simp [State.claims, noClose, noItem, noFrame])

/-! ## The answers of a port (O59) -/

/-- Settles O59. -/
theorem answersAreSentInOrder : Obligations.AnswersAreSentInOrder := by
  intro s n high
  have sent : exec (.fieldAnswerSent n) s =
      .next { s with ports := s.ports.upd n fun p => { p with answers := p.answers.tail } } := by
    simp only [exec, execFieldAnswerSent, high]
    rfl
  refine ⟨fun a rest answers => ?_, fun none => ⟨?_, ?_⟩, fun a rest toggle answers flag => ?_⟩
  · rw [sent, Table.upd, answers]
    simp [Table.upd]
  · rw [sent, Table.upd, none]
    have same : ({ s.ports.get n with answers := [].tail } : PortRecord) = s.ports.get n := by rw [List.tail_nil, ← none]
    rw [same, Table.set_get]
  · rw [State.ftxd, none]; rfl
  · rw [State.ftxd, answers]
    obtain ⟨kind, _⟩ := a
    subst flag
    cases kind with
    | ack | hold => rfl
    | refuse reason => cases reason <;> rfl

end Sys2Proof.Machine
/-! PROOFS. The passing of time on an empty queue, and when notices are formed. -/

namespace Sys2Proof.Machine

/-! ## One millisecond (O2) -/

section
variable {s t : State}

/-- A fold whose every step changes nothing changes nothing. -/
theorem foldl_unchanged {α σ : Type} {f : σ → α → σ} {l : List α} {s : σ} (h : ∀ x ∈ l, f s x = s) : l.foldl f s = s :=
  foldl_keeps (fun t => t = s) (fun t x hx same => by rw [same]; exact h x hx) rfl

/-- A settled state is left as it is by the end of a step that changes nothing. -/
theorem conclude_unchanged (h : s.Settled) : State.conclude s s = s := h.conclude rfl rfl

theorem lineTick_of_level {n : LineIx} (level : (s.lines.get n).pin = (s.lines.get n).level) : s.lineTick n = s := by
  simp only [State.lineTick, if_pos level]

/-- Lines whose pins stand at their debounced levels do nothing in a millisecond. -/
theorem lineTicks_of_level (h : s.Settled) {lines : List LineIx}
    (level : ∀ n ∈ lines, (s.lines.get n).pin = (s.lines.get n).level) :
    lines.foldl (fun acc n => State.conclude acc (acc.lineTick n)) s = s :=
  foldl_unchanged fun n hn => by rw [lineTick_of_level (level n hn), conclude_unchanged h]

/-- Where one pin alone is away from its level, the lines' millisecond is that line's (log entry 5). -/
theorem lineTicks_of_one (h : s.Settled) {n : LineIx} (others : ∀ m, m ≠ n → (s.lines.get m).pin = (s.lines.get m).level)
    (kept : ∀ m, m ≠ n → (s.lineTick n).lines.get m = s.lines.get m) :
    (List.finRange 4).foldl (fun acc m => State.conclude acc (acc.lineTick m)) s = State.conclude s (s.lineTick n) := by
  obtain ⟨before, after, split⟩ := List.append_of_mem (List.mem_finRange n)
  have once : (before ++ n :: after).Nodup := split ▸ List.nodup_finRange 4
  rw [List.nodup_append, List.nodup_cons] at once
  obtain ⟨_, ⟨notAfter, _⟩, notBefore⟩ := once
  rw [split, List.foldl_append, List.foldl_cons,
    lineTicks_of_level h fun m hm => others m fun same => notBefore m hm n List.mem_cons_self same]
  refine lineTicks_of_level (settled_conclude _ _) fun m hm => ?_
  have other : m ≠ n := fun same => notAfter (same ▸ hm)
  have lines : (State.conclude s (s.lineTick n)).lines = (s.lineTick n).lines := by simp [State.conclude]
  rw [lines, kept m other]
  exact others m other

theorem lines_lineTick_ne {n m : LineIx} (other : m ≠ n) : (s.lineTick n).lines.get m = s.lines.get m := by
  unfold State.lineTick
  simp only
  split
  · rfl
  · split
    · obtain ⟨_, _, same⟩ := debouncedEdge_eq s n
      rw [same]
      exact Table.get_set_ne _ other.symm _
    · exact Table.get_set_ne _ other.symm _

theorem idle_of_high (high : s.resetLow = false) : s.idle =
    (List.finRange 4).foldl (fun acc n => State.conclude acc (acc.lineTick n)) (State.conclude s s.timerTick) := by
  rw [State.idle, if_neg (by simp [high])]

theorem timerTick_of_stopped (stopped : s.settings.epochRun = false) : s.timerTick = s := by
  rw [State.timerTick, if_neg (by simp [stopped])]

end

/-- Settles O2. -/
theorem emptyQueueIsAMillisecond : Obligations.EmptyQueueIsAMillisecond := by
  intro s empty
  have time : step s = .next s.idle := by rw [step, empty]
  rw [time]
  refine ⟨fun low => by rw [State.idle, if_pos low], fun settled high level => ⟨fun stopped => ?_, fun runs below => ?_,
    fun runs reached => ?_⟩, fun settled high stopped n away others => ⟨fun below => ?_, fun reached => ?_⟩⟩
  · rw [idle_of_high high, timerTick_of_stopped stopped, conclude_unchanged settled,
      lineTicks_of_level settled fun n _ => level n]
  · have counted : State.Settled { s with timerCount := s.timerCount + 1 } := settled.of_eq rfl rfl rfl rfl id rfl rfl
    have tick : s.timerTick = { s with timerCount := s.timerCount + 1 } := by
      rw [State.timerTick, if_pos runs, if_neg (by omega)]
    rw [idle_of_high high, tick, conclude_of_settled (s := s) counted rfl rfl, lineTicks_of_level counted fun n _ => level n]
  · have tick : s.timerTick = s.timerExpires := by rw [State.timerTick, if_pos runs, if_pos reached]
    have expiry : exec .epochTimerExpiry s = .next (State.conclude s s.timerExpires) := by
      simp [exec, execEpochTimerExpiry, high, runs]
    have lines : (State.conclude s s.timerExpires).lines = s.lines := by rw [timerExpires_eq]; simp [State.conclude]
    rw [idle_of_high high, tick, lineTicks_of_level (settled_conclude _ _) fun n _ => by rw [lines]; exact level n, expiry]
  · have tick : s.lineTick n = { s with lines := s.lines.upd n fun l => { l with heldMs := l.heldMs + 1 } } := by
      simp only [State.lineTick, if_neg away]
      exact if_neg (Nat.not_le.mpr below)
    have counted : State.Settled { s with lines := s.lines.upd n fun l => { l with heldMs := l.heldMs + 1 } } := by
      refine settled.of_eq (groups_congr rfl (fun _ => rfl) fun m => ?_) rfl rfl rfl id rfl rfl
      simp only [Table.get_upd]
      split
      next same => subst same; rfl
      next => rfl
    have same : State.conclude s { s with lines := s.lines.upd n fun l => { l with heldMs := l.heldMs + 1 } } =
        { s with lines := s.lines.upd n fun l => { l with heldMs := l.heldMs + 1 } } := by
      refine conclude_of_settled counted (groups_congr rfl (fun _ => rfl) fun m => ?_) rfl
      simp only [Table.get_upd]
      split
      next same => subst same; rfl
      next => rfl
    rw [idle_of_high high, timerTick_of_stopped stopped, conclude_unchanged settled,
      lineTicks_of_one settled others fun m other => lines_lineTick_ne other, tick, same]
  · have tick : s.lineTick n = s.debouncedEdge n := by
      simp only [State.lineTick, if_neg away]
      exact if_pos reached
    have edge : exec (.lineDebouncedEdge n) s = .next (State.conclude s (s.debouncedEdge n)) := by
      simp [exec, execLineDebouncedEdge, high, away]
    rw [idle_of_high high, timerTick_of_stopped stopped, conclude_unchanged settled,
      lineTicks_of_one settled others fun m other => lines_lineTick_ne other, tick, edge]

/-! ## Notices (O17) -/

section
variable {s t : State} {c : Instr}

/-- No effect but RESTART's touches the waiting notices (R152, R166). -/
theorem notices_effect (change : Effect s c t) (notRestart : c ≠ .restart) :
    t.events.urgentNotice = s.events.urgentNotice ∧ t.events.routineNotice = s.events.routineNotice := by
  cases change with
  | served _ r parts s' _ change => cases change <;> exact ⟨rfl, rfl⟩
  | performed _ r parts s' _ _ change =>
    have events : s'.events = s.events := (congrArg Outside.events (outside_perform change)).trans s.arbitrate_events
    have kept : s'.events.urgentNotice = s.events.urgentNotice ∧ s'.events.routineNotice = s.events.routineNotice := by
      rw [events]
      exact ⟨rfl, rfl⟩
    exact kept
  | operated _ op s' _ change =>
    have events : s'.events = s.events := (congrArg Outside.events (outside_operate change)).trans s.arbitrate_events
    have kept : s'.events.urgentNotice = s.events.urgentNotice ∧ s'.events.routineNotice = s.events.routineNotice := by
      rw [events]
      exact ⟨rfl, rfl⟩
    exact kept
  | restart => exact absurd rfl notRestart
  | timerExpiry => rw [timerExpires_eq]; exact ⟨rfl, rfl⟩
  | edge n =>
    obtain ⟨_, _, same⟩ := debouncedEdge_eq s n
    rw [same]
    exact ⟨rfl, rfl⟩
  | _ => exact ⟨rfl, rfl⟩

/-- A change without an event of its own moves neither a level set nor a notice. -/
theorem quiet_levels (change : QuietEffect s c t) (notReset : c ≠ .fullReset) :
    t.urgentSet = s.urgentSet ∧ t.routineSet = s.routineSet ∧ t.events = s.events := by
  have levels : t.groups = s.groups → t.settings = s.settings → t.events = s.events →
      t.urgentSet = s.urgentSet ∧ t.routineSet = s.routineSet ∧ t.events = s.events := fun groups settings events => by
    unfold State.urgentSet State.routineSet
    rw [groups, settings]
    exact ⟨rfl, rfl, events⟩
  cases change with
  | fullReset => exact absurd rfl notReset
  | fieldBytes _ p a =>
    refine levels (groups_congr rfl (fun q => ?_) fun _ => rfl) rfl rfl
    simp only [State.fieldAssemble, Table.get_upd]
    split
    next same => subst same; rfl
    next => rfl
  | answerSent p =>
    refine levels (groups_congr rfl (fun q => ?_) fun _ => rfl) rfl rfl
    simp only [Table.get_upd]
    split
    next same => subst same; rfl
    next => rfl
  | pinChange n =>
    refine levels (groups_congr rfl (fun _ => rfl) fun m => ?_) rfl rfl
    simp only [Table.get_upd]
    split
    next same => subst same; rfl
    next => rfl
  | release low => exact levels (groups_congr rfl (fun _ => rfl) fun m => by simp) rfl rfl
  | _ => exact ⟨rfl, rfl, rfl⟩

/-- The place of a level whose set does not move keeps its notice. -/
theorem noticeOutcome_same (level : Byte) {set : BitVec 7} {epoch : BitVec 16} {notice : Option Notice} :
    NoticeOutcome level (if set = 0 ∧ set ≠ 0 then some ⟨set, epoch⟩ else notice) notice t :=
  .inl (if_neg fun both => both.2 both.1).symm

/-- Two events in a row, the transmitter choosing after each: the notice of the first that forms one, for the second forms
one only on an empty set; once the transmitter is busy it begins nothing more (R152, R153). -/
theorem noticeOutcome_twice {level : Byte} {a b d : BitVec 7} {epoch : BitVec 16} {notice place place' : Option Notice}
    (first : NoticeOutcome level (formNotice a b epoch notice) place s)
    (second : NoticeOutcome level (formNotice b d epoch place) place' t)
    (busy : ∀ o, s.host.sending = some o → place' = formNotice b d epoch place ∧ t.host.sending = some o) :
    NoticeOutcome level (if a = 0 ∧ b ≠ 0 then some ⟨b, epoch⟩ else if b = 0 ∧ d ≠ 0 then some ⟨d, epoch⟩ else notice)
      place' t := by
  have formed : ∀ x y n, formNotice x y epoch n = if x = 0 ∧ y ≠ 0 then some ⟨y, epoch⟩ else n := fun _ _ _ => rfl
  rw [formed] at first second busy
  by_cases forms : b = 0 ∧ d ≠ 0
  · rw [if_neg fun both => both.2 forms.1, if_pos forms]
    rw [if_pos forms] at second
    exact second
  · rw [if_neg forms]
    rw [if_neg forms] at second busy
    obtain stays | ⟨gone, n, formed, sending⟩ := first
    · rw [stays] at second; exact second
    · obtain ⟨same, sending⟩ := busy _ sending
      exact .inr ⟨same.trans gone, n, formed, sending⟩

/-- A close's first event: the ports' QUIET flags, with the epoch number advanced (R149, log entry 10). -/
def State.silenced (s : State) (a b : Nat) : State :=
  ((s.closeStages a b).completeClose.takeEvent (s.closeStages a b).completeClose.silencePorts).transmit

theorem runClose_eq (s : State) (a b : Nat) :
    s.runClose a b = State.conclude (s.silenced a b) (s.silenced a b).completeOp := rfl

/-- What the Event Unit sees of a close up to its completion: the copy, the settings and the lines as they were. -/
theorem groups_completeClose (s : State) (a b : Nat) : (s.closeStages a b).completeClose.groups = s.groups := by
  have same := outside_close s a b
  refine groups_congr ?_ (fun p => by rw [ports_completeClose]) fun n => ?_
  · exact congrArg (fun o : Outside => o.events.copy) same
  · exact congrArg (fun o : Outside => (o.lines.get n).edge) same

/-- The ports after a close are those whose silence it has counted. -/
theorem ports_runClose (s : State) (a b : Nat) :
    (s.runClose a b).ports = (s.closeStages a b).completeClose.silencePorts.ports :=
  (runClose_fields s a b).2.2.2.2.2.2.2.2.1

theorem epoch_runClose (s : State) (a b : Nat) : (s.runClose a b).map.epoch = (s.closeStages a b).completeClose.map.epoch :=
  (runClose_fields s a b).2.2.2.2.2.2.2.2.2.2.1

/-- The level sets before, between and after the two events of a close. -/
theorem levels_close (s : State) (a b : Nat) {quiet : State} (ports : quiet = { s with ports := (s.runClose a b).ports }) :
    ((s.closeStages a b).completeClose.urgentSet = s.urgentSet ∧ (s.closeStages a b).completeClose.routineSet = s.routineSet) ∧
    ((s.closeStages a b).completeClose.silencePorts.urgentSet = quiet.urgentSet ∧
      (s.closeStages a b).completeClose.silencePorts.routineSet = quiet.routineSet) := by
  have same := outside_close s a b
  have settings : (s.closeStages a b).completeClose.settings = s.settings := congrArg Outside.settings same
  have quietSettings : (s.closeStages a b).completeClose.silencePorts.settings = quiet.settings := by rw [ports]; exact settings
  have quietGroups : (s.closeStages a b).completeClose.silencePorts.groups = quiet.groups := by
    rw [ports]
    exact groups_congr (congrArg (fun o : Outside => o.events.copy) same) (fun p => by rw [ports_runClose])
      fun n => congrArg (fun o : Outside => (o.lines.get n).edge) same
  unfold State.urgentSet State.routineSet
  rw [groups_completeClose, settings, quietGroups, quietSettings]
  exact ⟨⟨rfl, rfl⟩, rfl, rfl⟩

theorem notices_exec (next : exec c s = .next t) (close : c ≠ .close) (restart : c ≠ .restart) (reset : c ≠ .fullReset) :
    NoticeOutcome 1
      (if s.urgentSet = 0 ∧ t.urgentSet ≠ 0 then some ⟨t.urgentSet, t.map.epoch⟩ else s.events.urgentNotice)
      t.events.urgentNotice t ∧
    NoticeOutcome 0
      (if s.routineSet = 0 ∧ t.routineSet ≠ 0 then some ⟨t.routineSet, t.map.epoch⟩ else s.events.routineNotice)
      t.events.routineNotice t := by
  cases exec_outcome next with
  | unchanged => exact ⟨noticeOutcome_same 1, noticeOutcome_same 0⟩
  | quiet change =>
    obtain ⟨urgent, routine, events⟩ := quiet_levels change reset
    rw [urgent, routine, events]
    exact ⟨noticeOutcome_same 1, noticeOutcome_same 0⟩
  | @ends s' _ change =>
    obtain ⟨urgent, routine⟩ := notices_effect change restart
    have epoch : (State.conclude s s').map.epoch = s'.map.epoch := by simp [State.conclude]
    have outcome := notices_conclude s s'
    rw [urgent, routine] at outcome
    rw [urgentSet_conclude, routineSet_conclude, epoch]
    exact outcome
  | close _ _ isClose => exact absurd isClose close

/-- A close's two events (R149, log entry 10). -/
theorem notices_close (s : State) (a b : Nat) {quiet : State} (ports : quiet = { s with ports := (s.runClose a b).ports }) :
    NoticeOutcome 1
      (if s.urgentSet = 0 ∧ quiet.urgentSet ≠ 0 then some ⟨quiet.urgentSet, (s.runClose a b).map.epoch⟩
        else if quiet.urgentSet = 0 ∧ (s.runClose a b).urgentSet ≠ 0 then
          some ⟨(s.runClose a b).urgentSet, (s.runClose a b).map.epoch⟩ else s.events.urgentNotice)
      (s.runClose a b).events.urgentNotice (s.runClose a b) ∧
    NoticeOutcome 0
      (if s.routineSet = 0 ∧ quiet.routineSet ≠ 0 then some ⟨quiet.routineSet, (s.runClose a b).map.epoch⟩
        else if quiet.routineSet = 0 ∧ (s.runClose a b).routineSet ≠ 0 then
          some ⟨(s.runClose a b).routineSet, (s.runClose a b).map.epoch⟩ else s.events.routineNotice)
      (s.runClose a b).events.routineNotice (s.runClose a b) := by
  obtain ⟨⟨urgent, routine⟩, urgent', routine'⟩ := levels_close s a b ports
  have events : (s.closeStages a b).completeClose.silencePorts.events = s.events := congrArg Outside.events (outside_close s a b)
  have first := notices_transmit
    ((s.closeStages a b).completeClose.takeEvent (s.closeStages a b).completeClose.silencePorts)
  rw [urgentNotice_takeEvent, routineNotice_takeEvent, urgent, routine, urgent', routine', events] at first
  change NoticeOutcome 1 (formNotice s.urgentSet quiet.urgentSet (s.closeStages a b).completeClose.map.epoch _)
      (s.silenced a b).events.urgentNotice (s.silenced a b) ∧
    NoticeOutcome 0 (formNotice s.routineSet quiet.routineSet (s.closeStages a b).completeClose.map.epoch _)
      (s.silenced a b).events.routineNotice (s.silenced a b) at first
  have second := notices_conclude (s.silenced a b) (s.silenced a b).completeOp
  have between : (s.silenced a b).urgentSet = quiet.urgentSet ∧ (s.silenced a b).routineSet = quiet.routineSet := by
    rw [← urgent', ← routine']
    unfold State.urgentSet State.routineSet State.silenced
    rw [groups_transmit, groups_takeEvent, State.transmit_settings, State.takeEvent_settings]
    exact ⟨rfl, rfl⟩
  have epoch : (s.silenced a b).completeOp.map.epoch = (s.closeStages a b).completeClose.map.epoch := by
    simp [State.silenced]
  have after : (s.silenced a b).completeOp.urgentSet = (s.runClose a b).urgentSet ∧
      (s.silenced a b).completeOp.routineSet = (s.runClose a b).routineSet := by
    rw [runClose_eq, urgentSet_conclude, routineSet_conclude]
    exact ⟨rfl, rfl⟩
  have busy : ∀ o, (s.silenced a b).host.sending = some o →
      (s.runClose a b).events = ((s.silenced a b).takeEvent (s.silenced a b).completeOp).events ∧
        (s.runClose a b).host.sending = some o := by
    intro o sending
    have still : ((s.silenced a b).takeEvent (s.silenced a b).completeOp).transmit = _ := transmit_of_sending (o := o) sending
    rw [runClose_eq, State.conclude, still]
    simpa using sending
  rw [between.1, between.2, after.1, after.2, epoch, ← runClose_eq, ← epoch_runClose s a b] at second
  rw [← epoch_runClose s a b] at first
  refine ⟨noticeOutcome_twice first.1 second.1 fun o sending => ?_, noticeOutcome_twice first.2 second.2 fun o sending => ?_⟩
  all_goals
    obtain ⟨same, still⟩ := busy o sending
    refine ⟨?_, still⟩
    rw [same]
  · rw [urgentNotice_takeEvent, between.1, after.1, epoch, ← epoch_runClose s a b]; rfl
  · rw [routineNotice_takeEvent, between.2, after.2, epoch, ← epoch_runClose s a b]; rfl

end

/-- Settles O17. -/
theorem noticesFormed : Obligations.NoticesFormed := by
  refine ⟨fun c s t _ other next => ?_, fun s t a b quiet _ runs next ports => ?_⟩
  · simp only [List.mem_cons, List.not_mem_nil, or_false, not_or] at other
    exact notices_exec next other.1 other.2.1 other.2.2
  · rw [exec_close_of_runs runs] at next
    cases next
    exact notices_close s a b ports

end Sys2Proof.Machine
/-! PROOFS. Byte formats: frames on the two links (section 5.1, section 10.1), slots (Table 8-3, Table 10-7) and field frame
bodies (R89). -/

namespace Sys2Proof.Machine

/-! ## O5: frames are received as sent -/

/-- A receiver past the start byte whose byte has not ended a frame goes on with the bytes that follow. -/
theorem receive_cons_partial {a a' : List Byte} {b : Byte} (h : receiveByte a b = .partialFrame a') (bytes : List Byte) :
    receive a (b :: bytes) = receive a' bytes := by
  simp only [receive, h]

/-- Bytes that are no start byte leave a hunting receiver hunting (R82, R157). -/
theorem receive_noise (noise bytes : List Byte) (h : ∀ b ∈ noise, b ≠ 0xC3) : receive [] (noise ++ bytes) = receive [] bytes := by
  induction noise with
  | nil => rfl
  | cons b noise ih =>
    have hunting : receiveByte [] b = .partialFrame [] := if_neg (h b (by simp))
    rw [List.cons_append, receive_cons_partial hunting]
    exact ih fun b hb => h b (by simp [hb])

/-- A receiver goes on with a second run of bytes where the first left it. -/
theorem receive_append (a a' xs ys rest : List Byte) (h : receive a xs = (.partialFrame a', rest)) :
    receive a (xs ++ ys) = receive a' ys := by
  induction xs generalizing a with
  | nil =>
    obtain ⟨rfl, -⟩ : a = a' ∧ [] = rest := by simpa [receive] using h
    rfl
  | cons b xs ih =>
    cases e : receiveByte a b with
    | partialFrame c =>
      rw [receive_cons_partial e] at h
      rw [List.cons_append, receive_cons_partial e]
      exact ih c h
    | badLength => simp [receive, e] at h
    | badCrc => simp [receive, e] at h
    | good kind tag body => simp [receive, e] at h

/-- Settles O5: noise leaves the receiver hunting, a whole frame is collected and judged by its CRC. -/
theorem framesAreReceivedAsSent : Obligations.FramesAreReceivedAsSent := by
  refine ⟨fun noise kind tag body quiet short => ?_, fun len rest outside => ?_,
    fun kind tag hi lo body rest short differs => ?_, receive_append⟩
  · have crc := nat16_bytes16 (crc16 (framePayload kind tag body)).toNat (BitVec.isLt _)
    rw [receive_noise _ _ quiet, frameBytes, bytes16, startByte, receive_wholeFrame kind tag _ _ body [] short,
      judgeFrame_payload, if_pos crc.symm]
  · have started : receiveByte [] 0xC3 = .partialFrame [0xC3] := rfl
    have ended : receiveByte [0xC3] len = .badLength := if_neg outside
    rw [receive_cons_partial started]
    simp only [receive, ended]
  · rw [receive_wholeFrame kind tag hi lo body rest short, judgeFrame_payload, if_neg differs.symm]

/-! ## O6: slots read back -/

/-- A small signed quantity that is not negative has the same two bytes as the unsigned one. -/
theorem bytesInt16_of_nonneg {x : Int} (nonneg : 0 ≤ x) (small : x < 32768) : bytesInt16 x = bytes16 x.toNat := by
  rw [bytesInt16, BitVec.toNat_ofInt]
  congr 1
  omega

/-- A limit class byte reads back (Table 10-7). -/
theorem parseClass_byteOf (c : Fin 8) : parseClass (byteOf c.val) = some (some c) := by
  have small : (byteOf c.val).toNat ≠ 255 := by have := c.isLt; simp [byteOf]; omega
  rw [parseClass, if_neg small, indexArg_byteOf (by omega) c, Option.map_some]

/-- A CELLS slot reads back (Table 10-7). -/
theorem parseCellSlot_bytes (e : CellEntry) (range : -2000 ≤ e.irOffset ∧ e.irOffset ≤ 2000) :
    parseCellSlot e.bytes = some e := by
  obtain ⟨use, cls, offset⟩ := e
  obtain ⟨laidOut, readBack⟩ := int16_bytesInt16 offset (by simp only at range; omega)
  have noClass : parseClass 0xFF = some none := rfl
  cases cls with
  | none =>
    simp only [CellEntry.bytes, laidOut, List.cons_append, List.nil_append, parseCellSlot, parseFlag_byteOfBool, noClass,
      readBack, if_pos range]
  | some c =>
    simp only [CellEntry.bytes, laidOut, List.cons_append, List.nil_append, parseCellSlot, parseFlag_byteOfBool,
      parseClass_byteOf, readBack, if_pos range]

/-- A POINTS slot reads back (Table 10-7). -/
theorem parsePointSlot_bytes (e : PointEntry) (few : e.spread.length ≤ 4) (shares : ∀ x ∈ e.spread, 1 ≤ x.share ∧ x.share ≤ 15)
    (distinct : (e.home :: e.spread.map SpreadEntry.cell).Nodup) (step : 50 ≤ e.stepLimit ∧ e.stepLimit ≤ 5000) :
    parsePointSlot e.bytes = some e := by
  have count : (byteOf e.spread.length).toNat = e.spread.length := by simp [byteOf]; omega
  have stepBack : nat16 (BitVec.ofNat 8 (e.stepLimit / 256)) (BitVec.ofNat 8 e.stepLimit) = e.stepLimit :=
    nat16_bytes16 _ (by omega)
  have spread := parseSpread_bytes 4 e.spread few shares
  have allDistinct : spreadDistinct e.home e.spread = true := decide_eq_true distinct
  simp only [PointEntry.bytes, bytes16, List.cons_append, List.nil_append, parsePointSlot, parseFlag_byteOfBool,
    indexArg_byteOf (by omega : 8 ≤ 256), indexArg_byteOf (by omega : 16 ≤ 256), parseCell_bytes, count, stepBack,
    if_pos (And.intro few step), spread, allDistinct, if_true]

/-- A VIEWS slot reads back (Table 10-7). -/
theorem parseBindingSlot_bytes (b : Binding) (range : 1 ≤ b.share ∧ b.share ≤ 16) : parseBindingSlot b.bytes = some b := by
  have share : (byteOf b.share).toNat = b.share := by simp [byteOf]; omega
  simp only [Binding.bytes, bytes16, List.cons_append, List.nil_append, parseBindingSlot, parseFlag_byteOfBool,
    indexArg_byteOf (by omega : 64 ≤ 256), parseCell_bytes, share, if_pos range]

/-- A LIMITS slot reads back (Table 10-7). -/
theorem parseLimitSlot_bytes (l : LimitClass) (high : 0 ≤ l.high ∧ l.high < l.highHigh ∧ l.highHigh ≤ 12000)
    (deadband : 0 ≤ l.deadband ∧ l.deadband ≤ 500) (rise : 1 ≤ l.riseLimit ∧ l.riseLimit ≤ 2000) :
    parseLimitSlot l.bytes = some l := by
  have back : ∀ n : Nat, n < 32768 → nat16 (BitVec.ofNat 8 (n / 256)) (BitVec.ofNat 8 n) = n :=
    fun n small => nat16_bytes16 n (by omega)
  rw [LimitClass.bytes, bytesInt16_of_nonneg (by omega : 0 ≤ l.high) (by omega),
    bytesInt16_of_nonneg (by omega : 0 ≤ l.highHigh) (by omega), bytesInt16_of_nonneg deadband.1 (by omega),
    bytesInt16_of_nonneg (by omega : 0 ≤ l.riseLimit) (by omega)]
  simp only [bytes16, List.cons_append, List.nil_append, parseLimitSlot, back _ (by omega : l.high.toNat < 32768),
    back _ (by omega : l.highHigh.toNat < 32768), back _ (by omega : l.deadband.toNat < 32768),
    back _ (by omega : l.riseLimit.toNat < 32768)]
  rw [if_pos (by omega)]
  have whole : ∀ x : Int, 0 ≤ x → (x.toNat : Int) = x := fun x h => Int.toNat_of_nonneg h
  rw [whole _ high.1, whole _ (by omega : 0 ≤ l.highHigh), whole _ deadband.1, whole _ (by omega : 0 ≤ l.riseLimit)]

/-- Settles O6: each slot form is read back field by field, and its range test is that of each field. -/
theorem slotsReadBack : Obligations.SlotsReadBack := by
  refine ⟨parseCellSlot_bytes, parsePointSlot_bytes, parseBindingSlot_bytes, parseLimitSlot_bytes, ?_, ?_,
    parseBindingSlot_isSome, ?_⟩
  · rintro use cls hi lo offset rfl
    exact parseCellSlot_isSome use cls hi lo
  · rintro use port channel homeHi homeLo stepHi stepLo count spread home step cell share whole rfl rfl fields
    refine ⟨?_, fun other _ same => parsePointSlot_beyond_count _ _ _ _ _ _ _ _ _ _ same⟩
    obtain rfl : cell = fun j => nat16 (spread.getD (3 * j) 0) (spread.getD (3 * j + 1) 0) := funext fun j => (fields j).1
    obtain rfl : share = fun j => (spread.getD (3 * j + 2) 0).toNat := funext fun j => (fields j).2
    exact parsePointSlot_isSome use port channel homeHi homeLo stepHi stepLo count spread whole
  · rintro h1 h0 hh1 hh0 db1 db0 rl1 rl0 h hh db rl rfl rfl rfl rfl
    exact parseLimitSlot_isSome h1 h0 hh1 hh0 db1 db0 rl1 rl0

/-! ## O7: body checks -/

/-- What a SAMPLES body reads as: its count, and the readings of the rest. -/
theorem parseSamples_cons (count : Byte) (rest : List Byte) (rs : List Reading) :
    parseSamples (count :: rest) = some rs ↔
      (1 ≤ count.toNat ∧ count.toNat ≤ 16 ∧ rest.length = 4 * count.toNat) ∧ parseReadings rest = some rs := by
  rw [parseSamples]
  split
  · simp [*]
  · simp [*]

/-- What a SCAN body reads as: its view, its count, and the pixels of the rest. -/
theorem parseScan_cons (view count : Byte) (rest : List Byte) (v : ViewIx) (ps : List Pixel) :
    parseScan (view :: count :: rest) = some (v, ps) ↔
      (1 ≤ count.toNat ∧ count.toNat ≤ 64 ∧ rest.length = 3 * count.toNat) ∧ indexArg 16 view = some v ∧
        parsePixels rest = some ps := by
  rw [parseScan]
  split
  · cases indexArg 16 view <;> cases parsePixels rest <;> simp [*]
  · simp [*]

/-- The record of a SAMPLES body. -/
theorem parseField_samples (port : PortIx) (body : List Byte) :
    parseField port 0x02 body = (parseSamples body).map (Frame.samples port) := rfl

/-- The record of a SCAN body. -/
theorem parseField_scan (port : PortIx) (body : List Byte) :
    parseField port 0x03 body = (parseScan body).map fun vp => .scan port vp.1 vp.2 := rfl

/-- A byte is that of its own number. -/
theorem byte_of_toNat {b : Byte} {n : Nat} (h : b.toNat = n) : b = BitVec.ofNat 8 n := by
  subst h
  simp

/-- Which SAMPLES bodies pass (R89). -/
theorem parseSamples_isSome (body : List Byte) : (parseSamples body).isSome = true ↔
    ∃ n : Nat, 1 ≤ n ∧ n ≤ 16 ∧ body.length = 1 + 4 * n ∧ body[0]? = some (BitVec.ofNat 8 n) ∧ ∀ i, i < n → ∃ ch st : Byte,
      body[1 + 4 * i]? = some ch ∧ body[2 + 4 * i]? = some st ∧ ch.toNat ≤ 15 ∧ st.toNat ≤ 2 := by
  cases body with
  | nil =>
    refine ⟨fun h => (Bool.false_ne_true h).elim, ?_⟩
    rintro ⟨n, -, -, -, h, -⟩
    exact absurd h (by simp)
  | cons count rest =>
    have parts : (parseSamples (count :: rest)).isSome = true ↔
        (1 ≤ count.toNat ∧ count.toNat ≤ 16 ∧ rest.length = 4 * count.toNat) ∧ (parseReadings rest).isSome = true := by
      simp only [Option.isSome_iff_exists, parseSamples_cons, exists_and_left]
    have byteAt : ∀ i, (count :: rest)[1 + 4 * i]? = rest[4 * i]? ∧ (count :: rest)[2 + 4 * i]? = rest[4 * i + 1]? :=
      fun i => ⟨by rw [Nat.add_comm, List.getElem?_cons_succ], by rw [show 2 + 4 * i = 4 * i + 1 + 1 by omega, List.getElem?_cons_succ]⟩
    simp only [parts, parseReadings_isSome, byteAt, List.length_cons]
    constructor
    · rintro ⟨⟨least, most, whole⟩, n, length, good⟩
      obtain rfl : n = count.toNat := by omega
      exact ⟨count.toNat, least, most, by omega, by simp, good⟩
    · rintro ⟨n, least, most, length, first, good⟩
      have value : count.toNat = n := by
        obtain rfl : count = BitVec.ofNat 8 n := by simpa using first
        simp; omega
      exact ⟨⟨by omega, by omega, by omega⟩, n, by omega, good⟩

/-- Which SCAN bodies pass (R89). -/
theorem parseScan_isSome (body : List Byte) : (parseScan body).isSome = true ↔
    ∃ (n : Nat) (v : Byte), 1 ≤ n ∧ n ≤ 64 ∧ body.length = 2 + 3 * n ∧ body[0]? = some v ∧ v.toNat ≤ 15 ∧
      body[1]? = some (BitVec.ofNat 8 n) := by
  match body with
  | [] => simp [parseScan]
  | [_] => simp [parseScan]
  | view :: count :: rest =>
    have parts : (parseScan (view :: count :: rest)).isSome = true ↔
        (1 ≤ count.toNat ∧ count.toNat ≤ 64 ∧ rest.length = 3 * count.toNat) ∧ (indexArg 16 view).isSome = true ∧
          (parsePixels rest).isSome = true := by
      simp only [Option.isSome_iff_exists, Prod.exists, parseScan_cons, exists_and_left, exists_and_right]
    rw [parts, indexArg_isSome, parsePixels_isSome]
    constructor
    · rintro ⟨⟨least, most, whole⟩, inRange, -⟩
      exact ⟨count.toNat, view, least, most, by simp; omega, rfl, by omega, by simp⟩
    · rintro ⟨n, v, least, most, length, first, inRange, second⟩
      obtain rfl : view = v := by simpa using first
      have value : count.toNat = n := by
        obtain rfl : count = BitVec.ofNat 8 n := by simpa using second
        simp; omega
      simp only [List.length_cons] at length
      exact ⟨⟨by omega, by omega, by omega⟩, by omega, n, by omega⟩

/-- The frame that a SAMPLES body becomes holds its readings in order (Table 5-3). -/
theorem parseField_samples_spec {port : PortIx} {body : List Byte} {f : Frame} (h : parseField port 0x02 body = some f) :
    ∃ rs, f = .samples port rs ∧ body.length = 1 + 4 * rs.length ∧
      body[0]? = some (BitVec.ofNat 8 rs.length) ∧ ∀ i x, rs[i]? = some x → ∃ hi lo st : Byte,
      body[1 + 4 * i]? = some (BitVec.ofNat 8 x.channel.val) ∧ body[2 + 4 * i]? = some st ∧
      body[3 + 4 * i]? = some hi ∧ body[4 + 4 * i]? = some lo ∧ x.value = (BitVec.ofNat 16 (256 * hi.toNat + lo.toNat)).toInt ∧
      (x.status = .ok ↔ st = 0x00) ∧ (x.status = .openCircuit ↔ st = 0x01) ∧ (x.status = .unitRange ↔ st = 0x02) := by
  rw [parseField_samples, Option.map_eq_some_iff] at h
  obtain ⟨rs, read, rfl⟩ := h
  cases body with
  | nil => cases read
  | cons count rest =>
    obtain ⟨⟨-, -, whole⟩, readings⟩ := (parseSamples_cons count rest rs).1 read
    obtain ⟨length, each⟩ := parseReadings_spec rest rs readings
    refine ⟨rs, rfl, by simp; omega, congrArg some (byte_of_toNat (by omega)), fun i x hx => ?_⟩
    obtain ⟨hi, lo, st, b0, b1, b2, b3, meaning⟩ := each i x hx
    refine ⟨hi, lo, st, ?_, ?_, ?_, ?_, meaning⟩
    · rw [Nat.add_comm, List.getElem?_cons_succ, b0]
    · rw [show 2 + 4 * i = 4 * i + 1 + 1 by omega, List.getElem?_cons_succ, b1]
    · rw [show 3 + 4 * i = 4 * i + 2 + 1 by omega, List.getElem?_cons_succ, b2]
    · rw [show 4 + 4 * i = 4 * i + 3 + 1 by omega, List.getElem?_cons_succ, b3]

/-- The frame that a SCAN body becomes holds its view and its pixels in order (Table 5-3). -/
theorem parseField_scan_spec {port : PortIx} {body : List Byte} {f : Frame} (h : parseField port 0x03 body = some f) :
    ∃ v ps, f = .scan port v ps ∧ body.length = 2 + 3 * ps.length ∧
      body[0]? = some (BitVec.ofNat 8 v.val) ∧ body[1]? = some (BitVec.ofNat 8 ps.length) ∧
      ∀ j x, ps[j]? = some x → ∃ hi lo flags : Byte,
        body[2 + 3 * j]? = some flags ∧ body[3 + 3 * j]? = some hi ∧ body[4 + 3 * j]? = some lo ∧
        x.value = (BitVec.ofNat 16 (256 * hi.toNat + lo.toNat)).toInt ∧
        x.saturated = flags.getLsbD 0 ∧ x.obscured = flags.getLsbD 1 := by
  rw [parseField_scan, Option.map_eq_some_iff] at h
  obtain ⟨⟨v, ps⟩, read, rfl⟩ := h
  match body, read with
  | view :: count :: rest, read =>
    obtain ⟨⟨-, -, whole⟩, numbered, pixels⟩ := (parseScan_cons view count rest v ps).1 read
    obtain ⟨length, each⟩ := parsePixels_spec rest ps pixels
    refine ⟨v, ps, rfl, by simp; omega, congrArg some (indexArg_some numbered), congrArg some (byte_of_toNat (by omega)),
      fun j x hx => ?_⟩
    obtain ⟨hi, lo, flags, b0, b1, b2, meaning⟩ := each j x hx
    refine ⟨hi, lo, flags, ?_, ?_, ?_, meaning⟩
    · rw [show 2 + 3 * j = 3 * j + 1 + 1 by omega, List.getElem?_cons_succ, List.getElem?_cons_succ, b0]
    · rw [show 3 + 3 * j = 3 * j + 1 + 1 + 1 by omega, List.getElem?_cons_succ, List.getElem?_cons_succ, b1]
    · rw [show 4 + 3 * j = 3 * j + 2 + 1 + 1 by omega, List.getElem?_cons_succ, List.getElem?_cons_succ, b2]

/-- Settles O7: a body passes when its counts, its length and each of its fields do, and its record holds them in order. -/
theorem bodyChecks : Obligations.BodyChecks := by
  intro port
  refine ⟨fun body => ?_, fun body => ?_, fun body f => parseField_samples_spec, fun body f => parseField_scan_spec,
    fun kind body notSamples notScan => ?_⟩
  · rw [parseField_samples, Option.isSome_map]
    exact parseSamples_isSome body
  · rw [parseField_scan, Option.isSome_map]
    exact parseScan_isSome body
  · rw [parseField, if_neg (by exact notSamples), if_neg (by exact notScan)]

end Sys2Proof.Machine
/-! PROOFS. Lines, the timer and the settings: debounced edges (R127 to R131), SET (R162), close requests (R102, R104), and
field frames that get no answer (R82, R83). -/

namespace Sys2Proof.Machine

/-! ## O60: pin changes and debounced edges -/

section
variable (s : State) (n : LineIx)

/-- The hold flag that a line's settings and level give it (R129). -/
def State.flagOf : Bool := derivedHold (s.settings.lineEdge.get n) (s.settings.lineAction.get n) (s.lines.get n).level

/-- A line that follows its hold flag posts a hold item exactly when the flag changes (R129, R130). -/
theorem followHold_exact : s.followHold n = { s with
    lines := s.lines.set n { s.lines.get n with holdFlag := s.flagOf n }
    map := { s.map with
      items := if s.flagOf n = (s.lines.get n).holdFlag then s.map.items else postItem (.hold n) s.map.items } } := by
  unfold State.followHold State.flagOf
  simp only
  split
  · rfl
  · rfl

/-- A line after a debounced edge (R127 to R130). -/
def State.turnedLine : LineRecord :=
  { s.lines.get n with
    level := !(s.lines.get n).level
    heldMs := 0
    edge := (s.lines.get n).edge || selectedEdge (s.settings.lineEdge.get n) (!(s.lines.get n).level)
    holdFlag := if s.settings.lineAction.get n = .hold then
        derivedHold (s.settings.lineEdge.get n) (s.settings.lineAction.get n) (!(s.lines.get n).level)
      else (s.lines.get n).holdFlag }

/-- The items after a debounced edge (R130, R131). -/
def State.turnedItems : List MapItem :=
  match s.settings.lineAction.get n with
  | .mark => s.map.items
  | .hold =>
    if (s.turnedLine n).holdFlag = (s.lines.get n).holdFlag then s.map.items else postItem (.hold n) s.map.items
  | .rebase =>
    if selectedEdge (s.settings.lineEdge.get n) (!(s.lines.get n).level) then postItem (.rebase n) s.map.items else s.map.items

/-- A debounced edge turns its line, and posts the item of its action. -/
theorem debouncedEdge_exact :
    s.debouncedEdge n = { s with lines := s.lines.set n (s.turnedLine n), map := { s.map with items := s.turnedItems n } } := by
  unfold State.debouncedEdge State.turnedItems State.turnedLine
  cases action : s.settings.lineAction.get n with
  | mark => rfl
  | hold =>
    simp only [followHold_exact, State.flagOf, action, Table.get_set_self, set_set_same, if_true]
  | rebase =>
    simp only
    split
    · rfl
    · rfl

end

section
variable {s : State}

/-- A line's item, once posted: the free map takes it at once, otherwise it waits, merged (R14, R16). -/
theorem conclude_of_lineItem (settled : s.Settled) {s' : State} {item : MapItem} {op : Operation} (line : item.isHost = false)
    (map : s'.map = { s.map with items := postItem item s.map.items }) (queue : s'.queue = s.queue)
    (latched : s'.latched = s.latched) (taken : s'.operationOf item = op) :
    (s.map.inFlight = none → s.map.softResetWaits = false →
       (State.conclude s s').arbiter = (s.claims, some op, s.latched)) ∧
     (s.map.inFlight ≠ none ∨ s.map.softResetWaits = true →
       (State.conclude s s').arbiter = ((s.map.pendingClose, if item ∈ s.map.items then s.map.items else s.map.items ++ [item],
           s.queue), s.map.inFlight, s.latched)) := by
  rw [arbiter_conclude, ← taken]
  exact arbiter_of_lineItem settled item line map queue latched

end

/-- Settles O60: an edge turns its line and posts the item of its action, which the arbiter takes or keeps. -/
theorem lineEdges : Obligations.LineEdges := by
  rintro s n l selected flag rfl select rfl
  have selects : selected = selectedEdge (s.settings.lineEdge.get n) (!(s.lines.get n).level) := by
    rw [select]
    cases s.settings.lineEdge.get n with
    | none | rise | both => rfl
    | fall => exact (Bool.not_not _).symm
  refine ⟨rfl, fun same => ?_, fun settled high departs => ?_⟩
  · simp only [exec, execLineDebouncedEdge, same, decide_true, Bool.or_true, if_true]
  · have runs : exec (.lineDebouncedEdge n) s = .next (State.conclude s (s.debouncedEdge n)) := by
      simp only [exec, execLineDebouncedEdge, high, departs, decide_false, Bool.or_self, Bool.false_eq_true, if_false]
    have turned := debouncedEdge_exact s n
    have stands : s.turnedItems n = s.map.items → (State.conclude s (s.debouncedEdge n)).arbiter = s.arbiter := by
      intro same
      rw [arbiter_conclude, turned]
      exact arbiter_of_no_claim settled (by rw [same]) rfl rfl
    refine ⟨_, runs, ?_, ?_, ?_, fun action => stands ?_, fun action same => stands ?_, fun action notSelected => stands ?_,
      fun item op posted => ?_⟩
    · exact settled.noReply (by rw [turned]) (by rw [turned]) (by rw [turned]) s
    · rw [copy_conclude, turned]
    · rw [body_conclude, turned, selects]
      rfl
    · simp only [State.turnedItems, action]
    · simp only [State.turnedItems, State.turnedLine, action, if_true, if_pos (action ▸ same)]
    · simp only [State.turnedItems, action, ← selects, notSelected, Bool.false_eq_true, if_false]
    · rcases posted with ⟨action, differs, rfl, rfl⟩ | ⟨action, chosen, rfl, rfl⟩
      · have items : s.turnedItems n = postItem (.hold n) s.map.items := by
          simp only [State.turnedItems, State.turnedLine, action, if_true, if_neg (action ▸ differs)]
        refine conclude_of_lineItem settled rfl (by rw [turned, items]) (by rw [turned]) (by rw [turned]) ?_
        simp only [turned, State.operationOf, Table.get_set_self, State.turnedLine, action, if_true]
      · have items : s.turnedItems n = postItem (.rebase n) s.map.items := by
          simp only [State.turnedItems, action, ← selects, chosen, if_true]
        exact conclude_of_lineItem settled rfl (by rw [turned, items]) (by rw [turned]) (by rw [turned]) rfl

/-! ## O58: field frames that get no answer -/

/-- A CRC error is counted up to 255 and latches CRC, and the receiver hunts (R82, R83). -/
theorem portCrcError_fieldAssemble (s : State) (port : PortIx) :
    (s.fieldAssemble port []).portCrcError port = { s with
      ports := s.ports.upd port fun p => { p with
        assembly := [], crcErrors := min 255 (p.crcErrors + 1), flags := { p.flags with crc := true } } } := by
  have same : ∀ p : PortRecord, ({ p with assembly := [] } : PortRecord).crcError = { p with
      assembly := [], crcErrors := min 255 (p.crcErrors + 1), flags := { p.flags with crc := true } } := by
    intro p
    rw [PortRecord.crcError, countUp_eq_min]
  rw [State.portCrcError, State.fieldAssemble, Table.upd, Table.upd, Table.upd, Table.get_set_self, set_set_same, same]

/-- Settles O58: each of the three ends in one CRC error of the port. -/
theorem badFieldFramesAreCounted : Obligations.BadFieldFramesAreCounted := by
  intro s n bytes c settled high
  refine ⟨fun given => ?_, fun hunting => ?_⟩
  · have runs : exec c s = .next (State.conclude s ((s.fieldAssemble n []).portCrcError n)) := by
      rcases given with ⟨rfl, received⟩ | ⟨rfl, received⟩ | ⟨rfl, b, rest, received⟩
      · simp only [exec, execFieldCrcFailure, State.fieldStep, high, Bool.false_eq_true, if_false, received, fieldCrcEffect]
      · simp only [exec, execFieldLengthOutOfRange, State.fieldStep, high, Bool.false_eq_true, if_false, received,
          fieldLengthEffect]
      · simp only [exec, execFieldGapTimeout, high, Bool.false_eq_true, if_false, received]
    rw [portCrcError_fieldAssemble] at runs
    exact ⟨_, runs, conclude_withPorts _ settled⟩
  · have runs : exec (.fieldGapTimeout n bytes) s = .next (s.fieldAssemble n []) := by
      simp only [exec, execFieldGapTimeout, high, Bool.false_eq_true, if_false, hunting]
    exact runs

/-! ## O41: close requests -/

section
variable {s : State}

/-- A close request, once posted: the free map takes the close at once, otherwise the flag is set (R14, R15). -/
theorem conclude_of_close (settled : s.Settled) {s' : State} (map : s'.map = { s.map with pendingClose := true })
    (queue : s'.queue = s.queue) (staleAge : s'.settings.staleAge = s.settings.staleAge)
    (hotFloor : s'.settings.hotFloor = s.settings.hotFloor) (latched : s'.latched = s.latched) :
    (s.map.inFlight = none → s.map.softResetWaits = false →
       (State.conclude s s').arbiter = (s.claims, some (.close s.settings.staleAge s.settings.hotFloor), s.latched)) ∧
     (s.map.inFlight ≠ none ∨ s.map.softResetWaits = true →
       (State.conclude s s').arbiter = ((true, s.map.items, s.queue), s.map.inFlight, s.latched)) := by
  rw [arbiter_conclude]
  exact arbiter_of_close settled map queue staleAge hotFloor latched

end

/-- What CLOSE-EPOCH does when it is taken (R104). -/
theorem serveCloseEpoch_eq (s : State) (r : Request) : serveCloseEpoch s r = ({ s with
    timerCount := if s.settings.epochRun = true ∧ s.settings.epochMode = .periodic then 0 else s.timerCount
    map := { s.map with pendingClose := true } }, plain .ok) := by
  unfold serveCloseEpoch
  by_cases periodic : s.settings.epochRun = true ∧ s.settings.epochMode = .periodic
  · simp [State.postClose, State.restartCount, periodic]
  · simp [State.postClose, periodic]

/-- Settles O41: both post a close request, and the arbiter takes it or keeps the flag. -/
theorem closesArePosted : Obligations.ClosesArePosted := by
  refine ⟨fun s r settled taken empty => ?_, fun s settled high => ⟨fun stopped => ?_, fun running => ?_⟩⟩
  · have long : goodLength 0x15 r.body.length = true := by rw [empty]; rfl
    obtain ⟨answers, ends, -⟩ := serveDirect_spec taken long (serveCloseEpoch_eq s r) rfl
    refine ⟨_, rfl, answers, ends.body, ?_⟩
    rw [ends.arbiter]
    exact arbiter_of_close settled rfl rfl rfl rfl rfl
  · simp only [exec, execEpochTimerExpiry, stopped, Bool.not_false, Bool.or_true, if_true]
  · have runs : exec .epochTimerExpiry s = .next (State.conclude s s.timerExpires) := by
      simp only [exec, execEpochTimerExpiry, high, running, Bool.not_true, Bool.or_self, Bool.false_eq_true, if_false]
    have expires := timerExpires_eq s
    rw [running, Bool.true_and] at expires
    refine ⟨_, runs, ?_, ?_, ?_⟩
    · exact settled.noReply (by rw [expires]) (by rw [expires]) (by rw [expires]) s
    · rw [body_conclude, expires]
      rfl
    · exact conclude_of_close settled (by rw [expires]) (by rw [expires]) (by rw [expires]) (by rw [expires]) (by rw [expires])

end Sys2Proof.Machine
/-! PROOFS. SET: what it stores and what it moves (R103, R130, R162); and RESTART (R166). -/

namespace Sys2Proof.Machine

/-! ## O39: what a SET stores -/

section
variable {t u : Settings} {id v : Nat}

/-- From `t` to `u` this setting takes this value, and no other changes. -/
def Settings.Writes (t : Settings) (id v : Nat) (u : Settings) : Prop :=
  settingValue u id = some v ∧ ∀ id', id' ≠ id → settingValue u id' = settingValue t id'

/-- The clamp settings: id, least value, greatest value, and the store of one (Table 10-3). -/
def clampRows (t : Settings) : List (Nat × Nat × Nat × (Nat → Settings)) :=
  [(0x01, 100, 60000, fun x => { t with epochPeriod := x }), (0x10, 0, 16, fun x => { t with gainTc := x }),
    (0x11, 0, 16, fun x => { t with gainIr := x }), (0x12, 1, 256, fun x => { t with refreshMin := x }),
    (0x13, 1, 255, fun x => { t with staleAge := x }), (0x14, 0, 12000, fun x => { t with hotFloor := x }),
    (0x20, 100, 3000, fun x => { t with disagreeLimit := x }), (0x21, 0, 15, fun x => { t with anchorAge := x }),
    (0x22, 0, 16, fun x => { t with biasGain := x }), (0x30, 1, 15, fun x => { t with silenceLimit := x })]

/-- The store of each clamp setting writes that setting alone. -/
theorem clampRows_write (t : Settings) : ∀ row ∈ clampRows t, row.2.1 ≤ row.2.2.1 ∧
    (∀ v, storeSetting t row.1 v = storeClamped row.2.1 row.2.2.1 v row.2.2.2) ∧ ∀ x, t.Writes row.1 x (row.2.2.2 x) := by
  simp only [clampRows, List.forall_mem_cons]
  refine ⟨⟨by decide, fun _ => rfl, fun x => ⟨rfl, fun id' other => ?_⟩⟩, ⟨by decide, fun _ => rfl, fun x => ⟨rfl, fun id' other => ?_⟩⟩,
    ⟨by decide, fun _ => rfl, fun x => ⟨rfl, fun id' other => ?_⟩⟩, ⟨by decide, fun _ => rfl, fun x => ⟨rfl, fun id' other => ?_⟩⟩,
    ⟨by decide, fun _ => rfl, fun x => ⟨rfl, fun id' other => ?_⟩⟩, ⟨by decide, fun _ => rfl, fun x => ⟨rfl, fun id' other => ?_⟩⟩,
    ⟨by decide, fun _ => rfl, fun x => ⟨rfl, fun id' other => ?_⟩⟩, ⟨by decide, fun _ => rfl, fun x => ⟨rfl, fun id' other => ?_⟩⟩,
    ⟨by decide, fun _ => rfl, fun x => ⟨rfl, fun id' other => ?_⟩⟩, ⟨by decide, fun _ => rfl, fun x => ⟨rfl, fun id' other => ?_⟩⟩,
    nofun⟩
  all_goals
    unfold settingValue
    split
    any_goals rfl
    exact absurd rfl other

/-- A clamp setting takes the value clamped to its range (R162). -/
theorem storeSetting_clamp {low high : Nat} (row : (id, low, high) ∈ [(0x01, 100, 60000), (0x10, 0, 16), (0x11, 0, 16),
      (0x12, 1, 256), (0x13, 1, 255), (0x14, 0, 12000), (0x20, 100, 3000), (0x21, 0, 15), (0x22, 0, 16), (0x30, 1, 15)]) :
    ∃ u, storeSetting t id v = some (u, max low (min high v), !decide (low ≤ v ∧ v ≤ high)) ∧
      t.Writes id (max low (min high v)) u := by
  obtain ⟨⟨id', low', high', put⟩, isRow, same⟩ : ∃ r ∈ clampRows t, (r.1, r.2.1, r.2.2.1) = (id, low, high) := by
    rw [← List.mem_map]
    exact row
  obtain ⟨rfl, rfl, rfl⟩ : id' = id ∧ low' = low ∧ high' = high := by simpa using same
  obtain ⟨bounds, stores, writes⟩ := clampRows_write t _ isRow
  exact ⟨_, (stores v).trans (storeClamped_eq _ _ _ bounds _), writes _⟩

/-- The line whose edge setting has an id (Table 10-3). -/
theorem lineOfEdgeId_eq_some {n : LineIx} : lineOfEdgeId id = some n ↔ id = 0x40 + n.val := by
  have : n.val < 4 := n.isLt
  unfold lineOfEdgeId
  split
  · simp only [Option.some.injEq, Fin.ext_iff]; omega
  · simp only [reduceCtorEq, false_iff]; omega

/-- The line whose action setting has an id (Table 10-3). -/
theorem lineOfActionId_eq_some {n : LineIx} : lineOfActionId id = some n ↔ id = 0x48 + n.val := by
  have : n.val < 4 := n.isLt
  unfold lineOfActionId
  split
  · simp only [Option.some.injEq, Fin.ext_iff]; omega
  · simp only [reduceCtorEq, false_iff]; omega

theorem storeSetting_edge (n : LineIx) : storeSetting t (0x40 + n.val) v = storeEdge t n v := by
  fin_cases n <;> rfl

theorem storeSetting_action (n : LineIx) : storeSetting t (0x48 + n.val) v = storeAction t n v := by
  fin_cases n <;> rfl

/-- The value of a line's edge setting. -/
theorem settingValue_edge (n : LineIx) : settingValue t (0x40 + n.val) = some (t.lineEdge.get n).code := by
  fin_cases n <;> rfl

/-- The value of a line's action setting. -/
theorem settingValue_action (n : LineIx) : settingValue t (0x48 + n.val) = some (t.lineAction.get n).code := by
  fin_cases n <;> rfl

/-- A line's edge and action settings written: no other setting changes. -/
theorem settingValue_line (n : LineIx) (edge : LineEdge) (action : LineAction) {id' : Nat}
    (notEdge : id' = 0x40 + n.val → edge = t.lineEdge.get n) (notAction : id' = 0x48 + n.val → action = t.lineAction.get n) :
    settingValue { t with lineEdge := t.lineEdge.set n edge, lineAction := t.lineAction.set n action } id' =
      settingValue t id' := by
  unfold settingValue
  split
  any_goals rfl
  cases e : lineOfEdgeId id' with
  | some m =>
    simp only
    by_cases same : m = n
    · rw [same, Table.get_set_self, notEdge (by rw [lineOfEdgeId_eq_some.1 e, same])]
    · rw [Table.get_set_ne _ (Ne.symm same)]
  | none =>
    cases a : lineOfActionId id' with
    | some m =>
      simp only
      by_cases same : m = n
      · rw [same, Table.get_set_self, notAction (by rw [lineOfActionId_eq_some.1 a, same])]
      · rw [Table.get_set_ne _ (Ne.symm same)]
    | none => rfl

/-- An edge written alone is one setting. -/
theorem writes_edge (n : LineIx) (edge : LineEdge) :
    t.Writes (0x40 + n.val) edge.code { t with lineEdge := t.lineEdge.set n edge } := by
  refine ⟨by rw [settingValue_edge, Table.get_set_self], fun id' other => ?_⟩
  have same := settingValue_line (t := t) n edge (t.lineAction.get n) (id' := id') (fun h => absurd h other) fun _ => rfl
  rwa [Table.set_get] at same

/-- An action written alone is one setting. -/
theorem writes_action (n : LineIx) (action : LineAction) :
    t.Writes (0x48 + n.val) action.code { t with lineAction := t.lineAction.set n action } := by
  refine ⟨by rw [settingValue_action, Table.get_set_self], fun id' other => ?_⟩
  have same := settingValue_line (t := t) n (t.lineEdge.get n) action (id' := id') (fun _ => rfl) fun h => absurd h other
  rwa [Table.set_get] at same

/-- A line edge takes its four values, except BOTH with the action HOLD (R130). -/
theorem storeEdge_writes (n : LineIx) (small : v ≤ 3) (apart : ¬ (v = 3 ∧ t.lineAction.get n = .hold)) :
    ∃ u, storeEdge t n v = some (u, v, false) ∧ t.Writes (0x40 + n.val) v u := by
  match v, small with
  | 0, _ => exact ⟨_, rfl, writes_edge n .none⟩
  | 1, _ => exact ⟨_, rfl, writes_edge n .rise⟩
  | 2, _ => exact ⟨_, rfl, writes_edge n .fall⟩
  | 3, _ => exact ⟨_, if_neg fun held => apart ⟨rfl, held⟩, writes_edge n .both⟩

/-- A line action takes its three values, except HOLD with the edge BOTH (R130). -/
theorem storeAction_writes (n : LineIx) (small : v ≤ 2) (apart : ¬ (v = 1 ∧ t.lineEdge.get n = .both)) :
    ∃ u, storeAction t n v = some (u, v, false) ∧ t.Writes (0x48 + n.val) v u := by
  match v, small with
  | 0, _ => exact ⟨_, rfl, writes_action n .mark⟩
  | 1, _ => exact ⟨_, if_neg fun both => apart ⟨rfl, both⟩, writes_action n .hold⟩
  | 2, _ => exact ⟨_, rfl, writes_action n .rebase⟩

theorem storeEdge_of_large (n : LineIx) (large : 3 < v) : storeEdge t n v = none := by
  unfold storeEdge
  split
  any_goals omega
  rfl

theorem storeAction_of_large (n : LineIx) (large : 2 < v) : storeAction t n v = none := by
  unfold storeAction
  split
  any_goals omega
  rfl

/-- The timer's mode and run settings and the two group masks: each written alone is one setting. -/
theorem plainRefuse_write (t : Settings) : (∀ m, t.Writes 0x02 m.code { t with epochMode := m }) ∧
    (∀ b, t.Writes 0x03 (if b then 1 else 0) { t with epochRun := b }) ∧
    (∀ w, t.Writes 0x50 w.toNat { t with eventEnable := w }) ∧ ∀ w, t.Writes 0x51 w.toNat { t with eventUrgent := w } := by
  refine ⟨fun m => ⟨rfl, fun id' other => ?_⟩, fun b => ⟨rfl, fun id' other => ?_⟩, fun w => ⟨rfl, fun id' other => ?_⟩,
    fun w => ⟨rfl, fun id' other => ?_⟩⟩
  all_goals
    unfold settingValue
    split
    any_goals rfl
    exact absurd rfl other

/-- A setting of two values refuses any other (R162). -/
theorem storeSetting_timer (row : id = 0x02 ∨ id = 0x03) : (1 < v → storeSetting t id v = none) ∧
    (v ≤ 1 → ∃ u, storeSetting t id v = some (u, v, false) ∧ t.Writes id v u) := by
  obtain ⟨mode, run, -, -⟩ := plainRefuse_write t
  obtain rfl | rfl := row
  · match v with
    | 0 => exact ⟨by omega, fun _ => ⟨_, rfl, mode .periodic⟩⟩
    | 1 => exact ⟨by omega, fun _ => ⟨_, rfl, mode .single⟩⟩
    | v + 2 => exact ⟨fun _ => rfl, by omega⟩
  · match v with
    | 0 => exact ⟨by omega, fun _ => ⟨_, rfl, run false⟩⟩
    | 1 => exact ⟨by omega, fun _ => ⟨_, rfl, run true⟩⟩
    | v + 2 => exact ⟨fun _ => rfl, by omega⟩

/-- A group mask of seven bits refuses a greater value (R150, R162). -/
theorem storeSetting_mask (row : id = 0x50 ∨ id = 0x51) : (127 < v → storeSetting t id v = none) ∧
    (v ≤ 127 → ∃ u, storeSetting t id v = some (u, v, false) ∧ t.Writes id v u) := by
  obtain ⟨-, -, enable, urgent⟩ := plainRefuse_write t
  have whole : v ≤ 127 → (BitVec.ofNat 7 v).toNat = v := fun small => by simp; omega
  obtain rfl | rfl := row
  · refine ⟨fun large => if_neg (by omega), fun small => ⟨_, if_pos (by omega), ?_⟩⟩
    have written := enable (BitVec.ofNat 7 v)
    rwa [whole small] at written
  · refine ⟨fun large => if_neg (by omega), fun small => ⟨_, if_pos (by omega), ?_⟩⟩
    have written := urgent (BitVec.ofNat 7 v)
    rwa [whole small] at written

/-- The refuse settings refuse values above their greatest, and store the others as they are (R162). -/
theorem storeSetting_refuse {high : Nat} (row : (id, high) ∈ [(0x02, 1), (0x03, 1), (0x40, 3), (0x41, 3), (0x42, 3), (0x43, 3),
      (0x48, 2), (0x49, 2), (0x4A, 2), (0x4B, 2), (0x50, 127), (0x51, 127)]) :
    (high < v → storeSetting t id v = none) ∧
      (v ≤ high → (∀ n, lineOfEdgeId id = some n → ¬ (v = 3 ∧ t.lineAction.get n = .hold)) →
        (∀ n, lineOfActionId id = some n → ¬ (v = 1 ∧ t.lineEdge.get n = .both)) →
        ∃ u, storeSetting t id v = some (u, v, false) ∧ t.Writes id v u) := by
  have ofLine : ∀ base, base ≤ id → id < base + 4 → ∃ n : LineIx, id = base + n.val := fun base least most =>
    ⟨⟨id - base, show id - base < 4 by omega⟩, by simp only; omega⟩
  simp only [List.mem_cons, Prod.mk.injEq, List.not_mem_nil, or_false] at row
  have groups : (id = 0x02 ∨ id = 0x03) ∧ high = 1 ∨ (0x40 ≤ id ∧ id < 0x40 + 4) ∧ high = 3 ∨ (0x48 ≤ id ∧ id < 0x48 + 4) ∧ high = 2 ∨
      (id = 0x50 ∨ id = 0x51) ∧ high = 127 := by omega
  obtain ⟨timer, rfl⟩ | ⟨⟨least, most⟩, rfl⟩ | ⟨⟨least, most⟩, rfl⟩ | ⟨mask, rfl⟩ := groups
  · exact (storeSetting_timer timer).imp_right fun stored small _ _ => stored small
  · obtain ⟨n, rfl⟩ := ofLine _ least most
    rw [storeSetting_edge]
    exact ⟨storeEdge_of_large n, fun small apart _ => storeEdge_writes n small (apart n (lineOfEdgeId_eq_some.2 rfl))⟩
  · obtain ⟨n, rfl⟩ := ofLine _ least most
    rw [storeSetting_action]
    exact ⟨storeAction_of_large n, fun small _ apart => storeAction_writes n small (apart n (lineOfActionId_eq_some.2 rfl))⟩
  · exact (storeSetting_mask mask).imp_right fun stored small _ _ => stored small

/-- An id that is in no row of Table 10-3 is refused (R162). -/
theorem storeSetting_unknown (unknown : id ∉ [0x01, 0x02, 0x03, 0x10, 0x11, 0x12, 0x13, 0x14, 0x20, 0x21, 0x22, 0x30, 0x40,
      0x41, 0x42, 0x43, 0x48, 0x49, 0x4A, 0x4B, 0x50, 0x51]) : storeSetting t id v = none := by
  simp only [List.mem_cons, List.not_mem_nil, or_false, not_or] at unknown
  have noEdge : lineOfEdgeId id = none := dif_neg (by omega)
  have noAction : lineOfActionId id = none := dif_neg (by omega)
  unfold storeSetting
  split
  case h_15 => rw [noEdge, noAction]
  all_goals omega

end

theorem exec_set (s : State) : exec .set s = .next (s.serveDirect 0x02 serveSet) := rfl

/-- Settles O39: a SET is answered with what its id's row stores, and a refused one changes nothing. -/
theorem setStoresTheValue : Obligations.SetStoresTheValue := by
  rintro s r id hi lo v settled taken body rfl
  obtain ⟨stores, refuses⟩ := serveSet_spec s r id hi lo settled taken body
  refine ⟨_, exec_set s, fun low high row => ?_, fun high row => ?_, fun n isEdge both held => ?_,
    fun n isAction hold both => ?_, fun unknown => refuses (storeSetting_unknown unknown)⟩
  · obtain ⟨u, stored, value, others⟩ := storeSetting_clamp row
    obtain ⟨answers, settings⟩ := stores _ _ _ stored
    rw [settings]
    refine ⟨value, ?_, others⟩
    convert answers using 3
    by_cases inside : low ≤ 256 * hi.toNat + lo.toNat ∧ 256 * hi.toNat + lo.toNat ≤ high
    · simp [inside]
    · simp [inside]
  · obtain ⟨large, small⟩ := storeSetting_refuse (t := s.settings) (v := 256 * hi.toNat + lo.toNat) row
    refine ⟨fun above => refuses (large above), fun within edge action => ?_⟩
    obtain ⟨u, stored, value, others⟩ := small within edge action
    obtain ⟨answers, settings⟩ := stores _ _ _ stored
    rw [settings]
    exact ⟨value, answers, others⟩
  · have stored : storeSetting s.settings id.toNat (256 * hi.toNat + lo.toNat) =
        some ({ s.settings with lineEdge := s.settings.lineEdge.set n .rise }, 1, true) := by
      rw [isEdge, storeSetting_edge, both]
      exact if_pos held
    obtain ⟨answers, settings⟩ := stores _ _ _ stored
    rw [settings, isEdge]
    exact ⟨Table.get_set_self _ _ _, answers, (writes_edge n .rise).2⟩
  · have stored : storeSetting s.settings id.toNat (256 * hi.toNat + lo.toNat) =
        some ({ s.settings with lineAction := s.settings.lineAction.set n .hold, lineEdge := s.settings.lineEdge.set n .rise },
          1, true) := by
      rw [isAction, storeSetting_action, hold]
      exact if_pos both
    obtain ⟨answers, settings⟩ := stores _ _ _ stored
    rw [settings, isAction]
    exact ⟨Table.get_set_self _ _ _, Table.get_set_self _ _ _, answers, fun id' notAction notEdge =>
      settingValue_line n .rise .hold (fun h => absurd h notEdge) fun h => absurd h notAction⟩

/-! ## O40: what a taken SET moves -/

section
variable {s : State} {id : Nat}

/-- The owner of a setting of the timer restarts the count (R103). -/
theorem afterSet_timer (timer : id ∈ [0x01, 0x02, 0x03]) : s.afterSet id = s.restartCount := by
  simp only [List.mem_cons, List.not_mem_nil, or_false] at timer
  obtain rfl | rfl | rfl := timer
  · rfl
  · rfl
  · rfl

/-- The owner of a setting of a line re-derives its hold flag (R130). -/
theorem afterSet_line {n : LineIx} (line : id = 0x40 + n.val ∨ id = 0x48 + n.val) : s.afterSet id = s.followHold n := by
  obtain rfl | rfl := line
  · fin_cases n <;> rfl
  · fin_cases n <;> rfl

/-- Any other setting has no owner that acts. -/
theorem afterSet_other (notTimer : id ∉ [0x01, 0x02, 0x03]) (noEdge : lineOfEdgeId id = none)
    (noAction : lineOfActionId id = none) : s.afterSet id = s := by
  simp only [List.mem_cons, List.not_mem_nil, or_false, not_or] at notTimer
  unfold State.afterSet
  split
  case h_4 => rw [noEdge, noAction]
  all_goals omega

variable {t : State} {r : Request} {b hi lo : Byte}

/-- A SET that is not refused stores, and its owner acts on what is stored (R162). -/
theorem set_ends (settled : s.Settled) (taken : s.Takes 0x02 r) (body : r.body = [b, hi, lo]) (next : exec .set s = .next t)
    (notRefused : ¬ s.Answers t r [[0x13]]) :
    ∃ u, s.settings.Stores b.toNat u ∧ State.EndsAs (State.afterSet { s with settings := u } b.toNat) t := by
  obtain rfl : s.serveDirect 0x02 serveSet = t := Host.Outcome.next.inj ((exec_set s).symm.trans next)
  have long : goodLength 0x02 r.body.length = true := by rw [body]; rfl
  cases store : storeSetting s.settings b.toNat (256 * hi.toNat + lo.toNat) with
  | none => exact absurd ((serveSet_spec s r b hi lo settled taken body).2 store).1 notRefused
  | some result =>
    obtain ⟨u, w, clamped⟩ := result
    have serves : serveSet s r = (State.afterSet { s with settings := u } b.toNat,
        answer (if clamped then .clamped else .ok) ([b] ++ bytes16 w)) := by
      simp [serveSet, body, nat16, store]
    exact ⟨u, storeSetting_stores store, (serveDirect_spec taken long serves (by rw [afterSet_host])).2.1⟩

/-- What a SET moves, read off the body it leaves. -/
theorem moved_of_body {u : Settings} {count : Nat} {lines : Table 4 LineRecord}
    (h : t.body = { s.body with settings := u, timerCount := count, lines := lines }) :
    t.settings = u ∧ t.timerCount = count ∧ t.lines = lines :=
  ⟨congrArg State.settings h, congrArg State.timerCount h, congrArg State.lines h⟩

end

/-- Settles O40: the owner of the stored setting restarts the count, follows its line, or does nothing. -/
theorem setMovesTimerAndHolds : Obligations.SetMovesTimerAndHolds := by
  intro s t r id hi lo settled taken body next notRefused
  obtain ⟨u, stores, ends⟩ := set_ends settled taken body next notRefused
  have stands : ∀ s' : State, s'.map = s.map → s'.queue = s.queue → s'.latched = s.latched → s'.arbitrate.arbiter = s.arbiter :=
    fun s' map queue latched => arbiter_of_no_claim settled map queue latched
  cases stores with
  | timer timer _ edge action =>
    rw [afterSet_timer timer] at ends
    have left : t.body = { s.body with settings := u, timerCount := 0, lines := s.lines } := ends.body
    obtain ⟨settings, count, lines⟩ := moved_of_body left
    have claims : t.arbiter = s.arbiter := ends.arbiter.trans (stands _ rfl rfl rfl)
    simp only [List.mem_cons, List.not_mem_nil, or_false] at timer ⊢
    rw [settings, count, lines, claims]
    exact ⟨left, fun _ => ⟨rfl, rfl, rfl⟩, fun h => absurd timer h, fun n line => by omega, fun _ => ⟨rfl, rfl⟩⟩
  | other notTimer noEdge noAction _ _ _ _ _ =>
    rw [afterSet_other notTimer noEdge noAction] at ends
    have left : t.body = { s.body with settings := u, timerCount := s.timerCount, lines := s.lines } := ends.body
    obtain ⟨settings, count, lines⟩ := moved_of_body left
    have claims : t.arbiter = s.arbiter := ends.arbiter.trans (stands _ rfl rfl rfl)
    rw [settings, count, lines, claims]
    refine ⟨left, fun h => absurd h notTimer, fun _ => rfl, fun n line => ?_, fun _ => ⟨rfl, rfl⟩⟩
    obtain line | line := line
    · exact absurd (noEdge.symm.trans (lineOfEdgeId_eq_some.2 line)) nofun
    · exact absurd (noAction.symm.trans (lineOfActionId_eq_some.2 line)) nofun
  | line n notTimer isLine _ =>
    rw [lineOfEdgeId_eq_some, lineOfActionId_eq_some] at isLine
    rw [afterSet_line isLine] at ends
    have small : n.val < 4 := n.isLt
    generalize derived : derivedHold (u.lineEdge.get n) (u.lineAction.get n) (s.lines.get n).level = flag
    have left : t.body = { s.body with
        settings := u, timerCount := s.timerCount, lines := s.lines.set n { s.lines.get n with holdFlag := flag } } := by
      rw [ends.body, followHold_body, ← derived]
      rfl
    have follows := followHold_exact { s with settings := u } n
    rw [State.flagOf, derived] at follows
    obtain ⟨settings, count, lines⟩ := moved_of_body left
    rw [settings, count, lines, ends.arbiter]
    refine ⟨left, fun h => absurd h notTimer, fun _ => rfl, fun m line => ?_, fun outside => absurd outside (by omega)⟩
    obtain rfl : m = n := by
      have : m.val < 4 := m.isLt
      exact Fin.ext (by omega)
    refine ⟨flag, derived.symm, rfl, fun same => ?_, forall_and.1 fun differs => ?_⟩
    · exact stands _ (by rw [follows, if_pos same]) (by rw [follows]) (by rw [follows])
    · have taken : (State.followHold { s with settings := u } m).operationOf (.hold m) = .hold m flag := by
        rw [follows, State.operationOf, Table.get_set_self]
      rw [← taken]
      exact arbiter_of_lineItem settled (.hold m) rfl (by rw [follows, if_neg differs]) (by rw [follows]) (by rw [follows])

/-! ## O42: RESTART -/

section
variable {s : State}

/-- RESTART clears the flags of ports and lines, and touches no other group's flags. -/
theorem groups_takeRestart : s.takeRestart.groups = s.groups &&& 0b0111101#7 := by
  have cleared : ∀ a b c d e f g, groupSet a false c d e f false = groupSet a b c d e f g &&& 0b0111101#7 := by decide
  have ports : s.takeRestart.ports.any (fun p => p.flags.any) = false := by
    rw [Table.any_eq_false_iff]
    intro p
    simp [State.takeRestart, State.restartLines, PortRecord.restart, PortRecord.read, PortFlags.any, PortFlags.clear]
  have lines : s.takeRestart.lines.any (fun l => l.edge) = false := by
    rw [Table.any_eq_false_iff]
    intro n
    simp [State.takeRestart, State.restartLines, LineRecord.restart]
  unfold State.groups
  rw [ports, lines, cleared]
  rfl

/-- RESTART raises no level: no group becomes active (R166). -/
theorem levels_takeRestart : (s.urgentSet = 0#7 → s.takeRestart.urgentSet = 0#7) ∧
    (s.routineSet = 0#7 → s.takeRestart.routineSet = 0#7) := by
  have settings : s.takeRestart.settings = { s.settings with epochRun := false } := rfl
  have level : ∀ mask other : BitVec 7, s.groups &&& mask &&& other = 0#7 → s.groups &&& 0b0111101#7 &&& mask &&& other = 0#7 := by
    intro mask other none
    rw [BitVec.and_assoc s.groups, BitVec.and_comm 0b0111101#7, ← BitVec.and_assoc s.groups, BitVec.and_assoc (s.groups &&& mask),
      BitVec.and_comm 0b0111101#7, ← BitVec.and_assoc (s.groups &&& mask), none, BitVec.zero_and]
  unfold State.urgentSet State.routineSet
  rw [groups_takeRestart, settings]
  exact ⟨level _ _, level _ _⟩

/-- A level that is not raised forms no notice. -/
theorem formNotice_none {before after : BitVec 7} (epoch : BitVec 16) (h : before = 0#7 → after = 0#7) :
    formNotice before after epoch none = none := if_neg fun raised => raised.2 (h raised.1)

/-- The end of RESTART moves nothing but ALERT_N: there is nothing to send, and the soft reset keeps the map from taking
(R166). -/
theorem conclude_takeRestart (settled : s.Settled) : ∃ alert, State.conclude s s.takeRestart =
    { s.takeRestart with events := { s.takeRestart.events with alertDriven := alert } } := by
  obtain ⟨urgent, routine⟩ := levels_takeRestart (s := s)
  have event : s.takeEvent s.takeRestart = { s.takeRestart with events := { s.takeRestart.events with
      alertDriven := decide (s.takeRestart.urgentSet ≠ 0#7) } } := by
    have noUrgent : s.takeRestart.events.urgentNotice = none := rfl
    have noRoutine : s.takeRestart.events.routineNotice = none := rfl
    rw [State.takeEvent, noUrgent, noRoutine, formNotice_none _ urgent, formNotice_none _ routine]
    rfl
  have nothing : ∀ u : State, u.host.sending = s.host.sending → u.host.ready = s.host.ready → u.events.urgentNotice = none →
      u.events.routineNotice = none → u.map.softResetWaits = true → u.transmit.arbitrate = u := by
    intro u sending ready noUrgent noRoutine waits
    rw [transmit_idle fun idle => ⟨ready.trans (settled.transmitter (sending.symm.trans idle)).1, noUrgent, noRoutine⟩]
    exact arbitrate_of_softReset waits
  refine ⟨decide (s.takeRestart.urgentSet ≠ 0#7), ?_⟩
  rw [State.conclude, event]
  exact nothing _ rfl rfl rfl rfl rfl

end

/-- Settles O42: the first four steps are made, and nothing follows from them but the level of ALERT_N. -/
theorem restartIsTaken : Obligations.RestartIsTaken := by
  intro s r settled taken empty
  obtain ⟨high, next, kind⟩ := taken
  have runs : exec .restart s = .next (State.conclude s s.takeRestart) := by
    have long : goodLength r.kind r.body.length = true := by rw [kind, empty]; rfl
    simp only [exec, execRestart, high, next, kind ▸ long, kind, Bool.false_eq_true, if_false, if_true]
  obtain ⟨alert, ends⟩ := conclude_takeRestart settled
  refine ⟨_, runs, ?_, fun p => ?_, fun n => ?_⟩
  · rw [ends]
    rfl
  · rw [ends]
    simp [State.takeRestart, State.restartLines, PortRecord.restart, PortRecord.read]
  · rw [ends]
    simp [State.takeRestart, State.restartLines, LineRecord.restart]

end Sys2Proof.Machine
/-! PROOFS. The holds and the rebase (R124 to R126, R131), the map's part of RESTART (R18), and the host link: what is
received, sent and taken (R153, R157 to R160). -/

namespace Sys2Proof.Machine

/-! ## O45: holds and rebases -/

section
variable {s t : State}

/-- The mode effect of hold records that have changed is that of R125 and R126. -/
theorem holdEffect_of_modeEffect {m : MapState} (mode : m.mode = s.map.mode)
    (completes : State.Completes (State.modeEffect { s with map := m }) t) : s.HoldEffect m t := by
  have cases := modeEffect_cases { s with map := m }
  simp only [mode] at cases
  refine ⟨fun running set => ?_, fun held clear => ?_, fun notRaised notReleased => ?_⟩
  · obtain ⟨-, -, same⟩ | ⟨held, -, -⟩ | ⟨notRaised, -, -⟩ := cases
    · rwa [same] at completes
    · exact absurd (running.symm.trans held) nofun
    · exact absurd ⟨running, set⟩ notRaised
  · obtain ⟨running, -, -⟩ | ⟨-, -, same⟩ | ⟨-, notReleased, -⟩ := cases
    · exact absurd (running.symm.trans held) nofun
    · rwa [same] at completes
    · exact absurd ⟨held, clear⟩ notReleased
  · obtain ⟨running, set, -⟩ | ⟨held, clear, -⟩ | ⟨-, -, same⟩ := cases
    · exact absurd ⟨running, set⟩ notRaised
    · exact absurd ⟨held, clear⟩ notReleased
    · rwa [same] at completes

/-- The host-hold record written: nothing for the value it has, otherwise the mode effect. -/
theorem completes_writeHostHold {flag : Bool} (completes : State.Completes (s.writeHostHold flag) t) :
    (s.map.hostHold = flag → State.Completes s t) ∧
      (s.map.hostHold = !flag → s.HoldEffect { s.map with hostHold := flag } t) := by
  unfold State.writeHostHold at completes
  refine ⟨fun same => by rwa [if_pos same] at completes, fun other => holdEffect_of_modeEffect rfl ?_⟩
  rwa [if_neg (by simp [other])] at completes

/-- A line-hold record written: nothing for the value it has, otherwise the mode effect. -/
theorem completes_writeLineHold {n : LineIx} {flag : Bool} (completes : State.Completes (s.writeLineHold n flag) t) :
    (s.map.lineHold.get n = flag → State.Completes s t) ∧
      (s.map.lineHold.get n ≠ flag → s.HoldEffect { s.map with lineHold := s.map.lineHold.set n flag } t) := by
  unfold State.writeLineHold at completes
  exact ⟨fun same => by rwa [if_pos same] at completes, fun other => holdEffect_of_modeEffect rfl (by rwa [if_neg other] at completes)⟩

/-- HOLD_ITEM with its operation in flight writes the line's record (R124). -/
theorem exec_holdItem_of_runs {n : LineIx} {flag : Bool} (runs : s.Runs (.hold n flag)) :
    exec .holdItem s = .next (State.conclude s (s.writeLineHold n flag).completeOp) := by
  obtain ⟨high, flight⟩ := runs
  simp only [exec, execHoldItem, high, Bool.false_eq_true, if_false, arbitrate_of_inFlight flight, flight]

/-- REBASE_ITEM with its operation in flight rebases every cell (R131). -/
theorem exec_rebaseItem_of_runs {n : LineIx} (runs : s.Runs (.rebase n)) :
    exec .rebaseItem s = .next (State.conclude s s.rebase.completeOp) := by
  obtain ⟨high, flight⟩ := runs
  simp only [exec, execRebaseItem, high, Bool.false_eq_true, if_false, arbitrate_of_inFlight flight, flight]

/-- A map operation whose effect leaves the host link alone makes no reply ready and finishes none. -/
theorem noReply_completeOp {s' : State} (settled : s.Settled) (host : s'.host = s.host) :
    s.NoReply (State.conclude s s'.completeOp) :=
  settled.noReply (s' := s'.completeOp) (congrArg HostLink.service host) (congrArg HostLink.ready host) (congrArg HostLink.sending host) s

/-- What the end of a step does not touch stands after a completed operation as its effect left it. -/
theorem State.Completes.read {α : Type} {s' : State} (completes : State.Completes s' t) (f : State → α)
    (blind : ∀ x : State, f x.body = f x) (free : f { s' with map := { s'.map with inFlight := none } } = f s') : f t = f s' := by
  rw [← blind t, completes.ends.body, blind, free]

end

/-- A rebase makes the baseline the estimate, and the rise absent (R126, R131). -/
theorem rebase_content (c : CellRecord) : c.rebase.anchor = c.anchor ∧
    (∀ b r, c.content = .live b r → c.rebase.content = .live { b with baseline := some b.estimate } none) ∧
    (∀ b, c.content = .stale b → c.rebase.content = .stale { b with baseline := some b.estimate }) ∧
    (c.content = .empty ∨ c.content = .unused → c.rebase.content = c.content) := by
  obtain ⟨content, anchor⟩ := c
  cases content <;> simp [CellRecord.rebase]

/-- Settles O45: each writes its record and has the mode effect of R125 and R126; a rebase item rebases. -/
theorem holdsAndRebases : Obligations.HoldsAndRebases := by
  refine ⟨fun s r settled => ⟨fun performs => ?_, fun performs => ?_, fun n flag runs => ?_⟩, fun s n settled runs => ?_⟩
  · obtain ⟨answers, completes⟩ := serveMapSide_spec (perform := performHold) performs rfl
      (by rw [writeHostHold_frame])
    exact ⟨_, rfl, answers, completes_writeHostHold completes⟩
  · obtain ⟨answers, completes⟩ := serveMapSide_spec (perform := performResume) performs rfl
      (by rw [writeHostHold_frame])
    exact ⟨_, rfl, answers, completes_writeHostHold completes⟩
  · exact ⟨_, exec_holdItem_of_runs runs, noReply_completeOp settled (by rw [writeLineHold_frame]),
      completes_writeLineHold (completes_conclude s _)⟩
  · obtain ⟨completes, cells⟩ := State.Completes.of_map_cells (m := s.map) (completes_conclude s s.rebase)
    refine ⟨_, exec_rebaseItem_of_runs runs, noReply_completeOp settled rfl, completes, fun c => ?_⟩
    rw [cells]
    exact rebase_content _

/-! ## O43: the map's part of RESTART -/

section
variable {s : State} {r : Request} {behind : List Request}

/-- MAP_SOFT_RESET with a soft reset waiting and the map free performs its part and answers RESTART (R18, R166). -/
theorem exec_mapSoftReset_of_waits (high : s.resetLow = false) (waits : s.map.softResetWaits = true)
    (free : s.map.inFlight = none) (buffer : s.host.buffer = r :: behind) :
    exec .mapSoftReset s = .next (State.conclude s (s.softReset.completeOp.reply r (plain .ok))) := by
  have replies : s.softReset.completeOp.replyRestart = s.softReset.completeOp.reply r (plain .ok) := by
    have head : s.softReset.completeOp.host.buffer.head? = some r := congrArg List.head? buffer
    rw [State.replyRestart, head]
  simp only [exec, execMapSoftReset, high, waits, free, Bool.not_true, Option.isSome_none, Bool.or_self, Bool.false_eq_true,
    if_false, replies]

/-- A rebuilt cell is EMPTY or UNUSED by its entry, with a fresh anchor exactly at the home of an in-use point (R8). -/
theorem rebuiltCell_spec (pointTable : Table 96 PointEntry) (c : CellIx) (e : CellEntry) :
    (rebuiltCell pointTable c.val e).content = (if e.inUse then .empty else .unused) ∧
    ((rebuiltCell pointTable c.val e).anchor = some ⟨none, 0⟩ ↔ e.inUse = true ∧
      ∃ i, (pointTable.get i).inUse = true ∧ (pointTable.get i).home = c) ∧
    ((rebuiltCell pointTable c.val e).anchor = none ∨ (rebuiltCell pointTable c.val e).anchor = some ⟨none, 0⟩) := by
  have homed : pointTable.any (fun p => p.inUse && decide (p.home.val = c.val)) = true ↔
      ∃ i, (pointTable.get i).inUse = true ∧ (pointTable.get i).home = c := by
    simp only [Table.any_iff, Bool.and_eq_true, decide_eq_true_eq, Fin.ext_iff]
  unfold rebuiltCell
  cases use : e.inUse with
  | false => simp
  | true =>
    cases home : pointTable.any (fun p => p.inUse && decide (p.home.val = c.val)) with
    | true => simpa [Anchor.fresh] using homed.1 home
    | false => simpa [home] using homed

/-- The record of a rebuilt point (R58, R63). -/
theorem rebuilt_rebuiltState (cellTable : Table 2048 CellEntry) (e : PointEntry) :
    PointRecord.rebuilt (rebuiltState cellTable e) =
      ⟨if e.inUse = true ∧ (cellTable.get e.home).inUse = true then .active else .unbound, 0, 0, 0, 0, 0, 0,
        PointFlags.clear⟩ := by
  simp only [PointRecord.rebuilt, rebuiltState, Bool.and_eq_true]
  rfl

/-- With no host item among the items, nothing claims the map after the soft reset (R18). -/
theorem arbiter_softReset (waiting : ∀ q, .host q ∉ s.map.items) :
    s.softReset.completeOp.arbitrate.arbiter = ((false, [], []), none, s.latched) := by
  have items : s.softReset.completeOp.map.items = [] := by
    refine List.filter_eq_nil_iff.2 fun item member => ?_
    cases item with
    | host q => exact absurd member (waiting q)
    | hold n | rebase n => simp
  have claims : s.softReset.completeOp.claims = (false, [], []) := by
    rw [State.claims, items]
    rfl
  rw [arbitrate_of_no_claim claims, State.arbiter, claims]
  rfl

end

/-- Settles O43: the soft reset completes as a map operation with RESTART's reply, and leaves each record as rebuilt. -/
theorem mapSoftReset : Obligations.MapSoftReset := by
  intro s r behind settled high waits free buffer
  have completes := completes_reply s s.softReset r (plain .ok)
  have read {α : Type} := completes.read (α := α)
  refine ⟨_, exec_mapSoftReset_of_waits high waits free buffer, answers_conclude (s' := s.softReset.completeOp) rfl s r _, completes.copy, ?_, fun c => ?_,
    fun i => ?_, fun v => ?_, read State.stage (fun _ => rfl) rfl, read (·.map.mode) (fun _ => rfl) rfl,
    read (·.map.hostHold) (fun _ => rfl) rfl, fun n => ?_, read (·.map.epoch) (fun _ => rfl) rfl,
    read (·.map.hotList) (fun _ => rfl) rfl, read (·.map.buildingEpoch) (fun _ => rfl) rfl,
    read (·.map.topChanged) (fun _ => rfl) rfl, fun p => ⟨?_, ?_⟩, read (·.map.unmappedDiscards) (fun _ => rfl) rfl,
    read (·.map.heldDiscards) (fun _ => rfl) rfl, read (·.map.softResetWaits) (fun _ => rfl) rfl, fun waiting => ?_⟩
  · rw [read State.cells (fun _ => rfl) rfl, read State.points (fun _ => rfl) rfl, read State.views (fun _ => rfl) rfl,
      read State.stage (fun _ => rfl) rfl, completes.ends.body]
    rfl
  · rw [read State.cells (fun _ => rfl) rfl, State.softReset, Table.get_mapIx]
    exact rebuiltCell_spec s.pointTable c (s.cellTable.get c)
  · rw [read State.points (fun _ => rfl) rfl, State.softReset, Table.get_map]
    exact rebuilt_rebuiltState _ _
  · rw [read State.views (fun _ => rfl) rfl]
    exact Table.get_replicate _ _
  · rw [read (·.map.lineHold) (fun _ => rfl) rfl]
    exact Table.get_map _ _ _
  · rw [read (·.map.summaries) (fun _ => rfl) rfl]
    exact Table.get_replicate _ _
  · rw [read (·.map.passFlags) (fun _ => rfl) rfl]
    exact Table.get_replicate _ _
  · rw [arbiter_conclude, arbiter_reply]
    exact arbiter_softReset waiting

end Sys2Proof.Machine
/-! PROOFS. The host link: what is received, sent and taken (R153, R157 to R160). -/

namespace Sys2Proof.Machine

/-! ## The end of a step on the host link -/

section
variable {s s' : State}

/-- Where groups and settings stand, the Event Unit of a settled state has nothing to take (R149). -/
theorem takeEvent_of_same (settled : s.Settled) (groups : s'.groups = s.groups) (settings : s'.settings = s.settings)
    (events : s'.events = s.events) : s.takeEvent s' = s' := by
  have urgent : s'.urgentSet = s.urgentSet := by simp only [State.urgentSet, groups, settings]
  have routine : s'.routineSet = s.routineSet := by simp only [State.routineSet, groups, settings]
  have none (level : BitVec 7) (place : Option Notice) : formNotice level level s'.map.epoch place = place :=
    if_neg fun raised => raised.2 raised.1
  have alert := settled.alert
  unfold State.takeEvent
  rw [urgent, routine, none, none, ← alert, ← events]

/-- Where the claimants stand, the arbiter of a settled state has nothing to take (R14). -/
theorem arbitrate_of_same (settled : s.Settled) (map : s'.map = s.map) (queue : s'.queue = s.queue) : s'.arbitrate = s' := by
  cases flight : s.map.inFlight with
  | some op => exact arbitrate_of_inFlight (op := op) (by rw [map, flight])
  | none =>
    cases waits : s.map.softResetWaits with
    | true => exact arbitrate_of_softReset (by rw [map, waits])
    | false =>
      refine arbitrate_of_no_claim ?_
      have claims := settled.map flight waits
      rwa [State.claims, ← map, ← queue] at claims

/-- A step on the host link alone ends with the choice of the transmitter. -/
theorem conclude_withHost (settled : s.Settled) (h : HostLink) :
    State.conclude s { s with host := h } = State.transmit { s with host := h } := by
  rw [State.conclude, takeEvent_of_same (s' := { s with host := h }) settled rfl rfl rfl]
  exact arbitrate_of_same settled (State.transmit_map _) (State.transmit_queue _)

/-- A step on the host link that readies nothing and ends no frame is at its end. -/
theorem conclude_withHost_of_same (settled : s.Settled) {h : HostLink} (sending : h.sending = s.host.sending)
    (ready : h.ready = s.host.ready) : State.conclude s { s with host := h } = { s with host := h } := by
  rw [conclude_withHost settled]
  refine transmit_idle (s := { s with host := h }) fun idle => ?_
  obtain ⟨noReply, notices⟩ := settled.transmitter (sending.symm.trans idle)
  exact ⟨ready.trans noReply, notices⟩

/-- With a reply ready, the transmitter moves its own side alone. -/
theorem transmit_of_ready (r : Reply) (ready : r ∈ s.host.ready) : s.transmit.apartFromReply = s.apartFromReply := by
  unfold State.transmit
  split
  · rfl
  · rfl
  · next empty _ => rw [empty] at ready; cases ready
  · next empty _ _ => rw [empty] at ready; cases ready
  · rfl

end

/-! ## O33: requests are received -/

section
variable {s : State} {bytes : List Byte}

/-- Whether the reply list has room for a BUSY reply (R159): fewer than three, or three with none being sent. -/
theorem busyRoom_of_few {h : HostLink} (few : h.ready.countP (fun r => !r.inService) < 3 ∨
    (h.ready.countP (fun r => !r.inService) = 3 ∧ ∀ o, h.sending = some o → o.inService = true ∨ o.kind = 0xF0)) :
    h.busyRoom = true := by
  unfold HostLink.busyRoom
  simp only [Config.busyReplies]
  obtain fewer | ⟨three, notBusy⟩ := few
  · rw [if_pos (by omega)]
  · rw [if_neg (by omega), if_pos (by omega)]
    cases sending : h.sending with
    | none => rfl
    | some o =>
      have idle : o.isBusy = false := by
        obtain served | notice := notBusy o sending
        · simp [Outgoing.isBusy, served]
        · simp [Outgoing.isBusy, notice, noticeKind]
      simp [idle]

theorem busyRoom_of_full {h : HostLink} (full : 4 ≤ h.ready.countP (fun r => !r.inService)) : h.busyRoom = false := by
  unfold HostLink.busyRoom
  simp only [Config.busyReplies]
  rw [if_neg (by omega), if_neg (by omega)]

/-- A bad host frame counts one bad CRC, up to 255, and the receiver hunts (R157). -/
theorem conclude_countBadCrc (settled : s.Settled) : State.conclude s (s.hostAssemble []).countBadCrc =
    { s with host := { s.host with assembly := [], badCrc := min 255 (s.host.badCrc + 1) } } := by
  have counted : (s.hostAssemble []).countBadCrc =
      { s with host := { s.host with assembly := [], badCrc := min 255 (s.host.badCrc + 1) } } := by
    rw [State.countBadCrc, countUp_eq_min]
    rfl
  rw [counted]
  exact conclude_withHost_of_same settled rfl rfl

/-- A reply made ready for another request than the one in service: it is the last of what there is to send (R159). -/
theorem conclude_ready (settled : s.Settled) (h : HostLink) (x : Reply) (sending : h.sending = s.host.sending)
    (ready : h.ready = s.host.ready ++ [x]) :
    (State.conclude s { s with host := h }).host.outbox = s.host.outbox ++ [x.outgoing] ∧
      (State.conclude s { s with host := h }).host.service = h.service ∧
      (State.conclude s { s with host := h }).apartFromReply = State.apartFromReply { s with host := h } := by
  have outbox : h.outbox = s.host.outbox ++ [x.outgoing] := by simp [HostLink.outbox, sending, ready]
  refine ⟨?_, service_conclude _ _, ?_⟩
  · rw [outbox_conclude _ _ (by simp [outbox])]
    exact outbox
  · rw [conclude_withHost settled]
    exact transmit_of_ready (s := { s with host := h }) x (by simp [ready])

end

/-- Settles O33: a good frame joins, is answered BUSY or is dropped; the others are counted. -/
theorem requestsAreReceived : Obligations.RequestsAreReceived := by
  refine ⟨?_, fun s bytes settled high => ⟨fun received => ?_, fun received => ?_, fun b rest received => ?_, fun received => ?_⟩⟩
  · rintro s bytes body kind tag busy settled high received rfl
    refine ⟨_, exec_hostFrameReceived_of_event high received rfl, fun room => ?_, fun full few => ?_, fun full busy => ?_⟩
    · rw [State.receiveRequest, if_pos (by exact room)]
      exact conclude_withHost_of_same settled rfl rfl
    · have answered : (s.hostAssemble []).receiveRequest ⟨kind, tag, body⟩ = { s with host := { s.host with
          assembly := [], ready := s.host.ready ++ [⟨replyKind kind, tag, plain .busy, false⟩] } } := by
        rw [State.receiveRequest, if_neg (by exact Nat.not_lt.2 full), if_pos (by exact busyRoom_of_few few)]
        rfl
      rw [answered]
      exact conclude_ready settled
        { s.host with assembly := [], ready := s.host.ready ++ [⟨replyKind kind, tag, plain .busy, false⟩] }
        ⟨replyKind kind, tag, plain .busy, false⟩ rfl rfl
    · have dropped : (s.hostAssemble []).receiveRequest ⟨kind, tag, body⟩ = s.hostAssemble [] := by
        rw [State.receiveRequest, if_neg (by exact Nat.not_lt.2 full), if_neg (by rw [busyRoom_of_full (by exact busy)]; simp)]
      rw [dropped]
      exact conclude_withHost_of_same settled rfl rfl
  · rw [exec_hostFrameReceived_of_event high received rfl, conclude_countBadCrc settled]
  · have runs : exec (.hostLengthOutOfRange bytes) s = .next (State.conclude s (s.hostAssemble []).countBadCrc) := by
      simp only [exec, execHostLengthOutOfRange, State.hostStep, high, Bool.false_eq_true, if_false, received, hostLengthEffect]
    rw [runs, conclude_countBadCrc settled]
  · have runs : exec (.hostGapTimeout bytes) s = .next (State.conclude s (s.hostAssemble []).countBadCrc) := by
      simp only [exec, execHostGapTimeout, high, Bool.false_eq_true, if_false, received]
    rw [runs, conclude_countBadCrc settled]
  · have runs : exec (.hostGapTimeout bytes) s = .next (s.hostAssemble []) := by
      simp only [exec, execHostGapTimeout, high, Bool.false_eq_true, if_false, received]
    exact runs

/-! ## O34: the transmitter chooses -/

/-- An idle transmitter's choice: the oldest ready reply, else the URGENT notice, else the ROUTINE notice (R153). -/
theorem transmit_of_idle {s : State} (idle : s.host.sending = none) :
    (∀ r rs, s.host.ready = r :: rs → s.transmit = { s with host := { s.host with ready := rs, sending := some r.outgoing } }) ∧
    (s.host.ready = [] → ∀ n, s.events.urgentNotice = some n → s.transmit = { s with
      host := { s.host with sending := some (n.outgoing 1) }, events := { s.events with urgentNotice := none } }) ∧
    (s.host.ready = [] → s.events.urgentNotice = none → ∀ n, s.events.routineNotice = some n → s.transmit = { s with
      host := { s.host with sending := some (n.outgoing 0) }, events := { s.events with routineNotice := none } }) ∧
    (s.host.ready = [] → s.events.urgentNotice = none → s.events.routineNotice = none → s.transmit = s) := by
  refine ⟨fun r rs ready => ?_, fun ready n urgent => ?_, fun ready urgent n routine => ?_, fun ready urgent routine => ?_⟩
  · simp only [State.transmit, idle, ready]
  · simp only [State.transmit, idle, ready, urgent]
  · simp only [State.transmit, idle, ready, urgent, routine]
  · simp only [State.transmit, idle, ready, urgent, routine]

/-- Settles O34: the next part follows, or the frame has ended and the idle transmitter chooses. -/
theorem transmitterChooses : Obligations.TransmitterChooses := by
  intro s o settled high sending
  refine ⟨fun p ps parts => ?_, ?_⟩
  · simp only [exec, execHostFrameSent, high, Bool.false_eq_true, if_false, sending, parts]
  · rintro h last rfl
    generalize ended : (if o.inService then { s.host with buffer := s.host.buffer.tail, service := .idle } else s.host) = h
    have runs : exec .hostFrameSent s = .next (State.transmit { s with host := { h with sending := none } }) := by
      rw [← conclude_withHost settled, ← ended]
      simp only [exec, execHostFrameSent, high, Bool.false_eq_true, if_false, sending, last]
      split
      · rfl
      · rfl
    have ready : h.ready = s.host.ready := by rw [← ended]; split <;> rfl
    obtain ⟨reply, urgentFirst, routineNext, nothing⟩ := transmit_of_idle (s := { s with host := { h with sending := none } }) rfl
    rw [runs, ← ready]
    exact ⟨fun r rs one => congrArg _ (reply r rs one), fun none n urgent => congrArg _ (urgentFirst none n urgent),
      fun none noUrgent n routine => congrArg _ (routineNext none noUrgent n routine),
      fun none noUrgent noRoutine => congrArg _ (nothing none noUrgent noRoutine)⟩

end Sys2Proof.Machine
/-! PROOFS. Requests as they are taken (R16, R158, R160), and data frames as they are handled (R86, R88 to R91). -/

namespace Sys2Proof.Machine

/-! ## O35: requests are taken -/

/-- The kinds of Table 10-5 are those of the request commands. -/
theorem knownKind_iff (k : Byte) : knownKind k = true ↔ k ∈ requestCommands.map Prod.snd := by
  have kinds : requestCommands.map Prod.snd = [0x01, 0x02, 0x03, 0x04, 0x05, 0x10, 0x11, 0x12, 0x13, 0x14, 0x15, 0x16, 0x20, 0x21,
    0x22, 0x30, 0x31, 0x32, 0x38, 0x40, 0x41, 0x48, 0x50, 0x51, 0x52, 0x53, 0x54, 0x55, 0x60].map (BitVec.ofNat 8) := rfl
  have small : ∀ n ∈ [0x01, 0x02, 0x03, 0x04, 0x05, 0x10, 0x11, 0x12, 0x13, 0x14, 0x15, 0x16, 0x20, 0x21,
    0x22, 0x30, 0x31, 0x32, 0x38, 0x40, 0x41, 0x48, 0x50, 0x51, 0x52, 0x53, 0x54, 0x55, 0x60], n < 256 := by decide
  rw [knownKind, List.contains_iff_mem, kinds, List.mem_map]
  constructor
  · exact fun known => ⟨_, known, by simp⟩
  · rintro ⟨n, known, rfl⟩
    rwa [BitVec.toNat_ofNat, Nat.mod_eq_of_lt (small n known)]

section
variable {s : State} {r : Request}

/-- Every request of a body length that fails its check is answered BAD-LENGTH by its command, and nothing else happens
(R160). -/
theorem exec_request_badLength (high : s.resetLow = false) (next : s.nextRequest = some r) :
    ∀ p ∈ requestCommands, r.kind = p.2 → goodLength p.2 r.body.length = false →
      exec p.1 s = .next (State.conclude s (s.reply r (plain .badLength))) := by
  have direct {kind : Byte} {serve : State → Request → State × List (List Byte)} (same : r.kind = kind)
      (bad : goodLength kind r.body.length = false) :
      Host.Outcome.next (φ := Fault) (ρ := Refusal) (s.serveDirect kind serve) =
        .next (State.conclude s (s.reply r (plain .badLength))) :=
    congrArg _ (serveDirect_badLength ⟨high, next, same⟩ bad)
  have mapSide {kind : Byte} {perform : State → Request → State × List (List Byte)} (same : r.kind = kind)
      (bad : goodLength kind r.body.length = false) :
      Host.Outcome.next (φ := Fault) (ρ := Refusal) (s.serveMapSide kind perform) =
        .next (State.conclude s (s.reply r (plain .badLength))) :=
    congrArg _ (serveMapSide_badLength ⟨high, next, same⟩ bad)
  have restart (same : r.kind = 0x04) (bad : goodLength 0x04 r.body.length = false) :
      exec .restart s = .next (State.conclude s (s.reply r (plain .badLength))) := by
    simp only [exec, execRestart, high, next, same, bad, Bool.false_eq_true, if_false, if_true]
  simp only [requestCommands, List.forall_mem_cons]
  exact ⟨direct, direct, direct, restart, direct, mapSide, mapSide, mapSide, mapSide, mapSide, direct, mapSide, mapSide, mapSide,
    mapSide, mapSide, mapSide, mapSide, mapSide, direct, direct, direct, direct, direct, direct, direct, direct, direct, direct,
    nofun⟩

/-- The post of a request of wrong length is no event (log entry 2). -/
theorem exec_hostItemPosted_badLength (high : s.resetLow = false) (next : s.nextRequest = some r)
    (bad : goodLength r.kind r.body.length = false) : exec .hostItemPosted s = .next s := by
  simp only [exec, execHostItemPosted, high, next, bad, Bool.and_false, Bool.false_eq_true, if_false]

/-- A map-side request of the right length is posted (R16, R158). -/
theorem exec_hostItemPosted_of_good (settled : s.Settled) (high : s.resetLow = false) (next : s.nextRequest = some r)
    (mapSide : mapSideKind r.kind = true) (good : goodLength r.kind r.body.length = true) :
    exec .hostItemPosted s = .next (State.arbitrate { s with
      host := { s.host with service := .waiting }, map := { s.map with items := s.map.items ++ [.host r] } }) := by
  have runs : exec .hostItemPosted s = .next (State.conclude s { s with
      host := { s.host with service := .waiting }, map := { s.map with items := s.map.items ++ [.host r] } }) := by
    simp only [exec, execHostItemPosted, high, next, mapSide, good, Bool.and_self, Bool.false_eq_true, if_false, if_true]
    rfl
  have ends (s' : State) (groups : s'.groups = s.groups) (settings : s'.settings = s.settings) (events : s'.events = s.events)
      (sending : s'.host.sending = s.host.sending) (ready : s'.host.ready = s.host.ready) : State.conclude s s' = s'.arbitrate := by
    rw [State.conclude, takeEvent_of_same settled groups settings events, transmit_idle fun idle => ?_]
    rw [ready, events]
    exact settled.transmitter (sending.symm.trans idle)
  exact runs.trans (congrArg _ (ends _ rfl rfl rfl rfl rfl))

/-- The lengths of Table 10-6 that are judged by the kind, as a check of each kind that fails. -/
theorem goodLength_eq_false {k : Byte} {n : Nat} (h : (k ∈ [0x01, 0x04, 0x05, 0x10, 0x11, 0x12, 0x13, 0x14, 0x15, 0x16, 0x21, 0x48,
      0x52, 0x53, 0x54, 0x60] ∧ n ≠ 0) ∨ (k ∈ [0x03, 0x22, 0x30, 0x31, 0x32, 0x38, 0x40] ∧ n ≠ 1) ∨ (k = 0x55 ∧ n ≠ 2) ∨
      (k ∈ [0x02, 0x20, 0x50] ∧ n ≠ 3) ∨ (k = 0x41 ∧ n < 2)) : goodLength k n = false := by
  have empty : ∀ k ∈ ([0x01, 0x04, 0x05, 0x10, 0x11, 0x12, 0x13, 0x14, 0x15, 0x16, 0x21, 0x48, 0x52, 0x53, 0x54, 0x60] : List Byte),
      goodLength k n = decide (n = 0) := by simp only [List.forall_mem_cons]; exact ⟨rfl, rfl, rfl, rfl, rfl, rfl, rfl, rfl, rfl, rfl, rfl, rfl, rfl, rfl, rfl, rfl, nofun⟩
  have one : ∀ k ∈ ([0x03, 0x22, 0x30, 0x31, 0x32, 0x38, 0x40] : List Byte), goodLength k n = decide (n = 1) := by
    simp only [List.forall_mem_cons]; exact ⟨rfl, rfl, rfl, rfl, rfl, rfl, rfl, nofun⟩
  have three : ∀ k ∈ ([0x02, 0x20, 0x50] : List Byte), goodLength k n = decide (n = 3) := by
    simp only [List.forall_mem_cons]; exact ⟨rfl, rfl, rfl, nofun⟩
  obtain ⟨kind, wrong⟩ | ⟨kind, wrong⟩ | ⟨rfl, wrong⟩ | ⟨kind, wrong⟩ | ⟨rfl, wrong⟩ := h
  · rw [empty k kind, decide_eq_false wrong]
  · rw [one k kind, decide_eq_false wrong]
  · exact decide_eq_false wrong
  · rw [three k kind, decide_eq_false wrong]
  · exact decide_eq_false (by omega)

/-- The map-side requests of the right length (Table 10-5, Table 10-6). -/
theorem mapSide_good {k : Byte} {n : Nat} (h : (k ∈ [0x10, 0x11, 0x12, 0x13, 0x14, 0x16, 0x21] ∧ n = 0) ∨
      (k ∈ [0x22, 0x30, 0x31, 0x32, 0x38] ∧ n = 1) ∨ (k = 0x20 ∧ n = 3)) : mapSideKind k = true ∧ goodLength k n = true := by
  have empty : ∀ k ∈ ([0x10, 0x11, 0x12, 0x13, 0x14, 0x16, 0x21] : List Byte), mapSideKind k = true ∧ goodLength k 0 = true := by
    decide
  have one : ∀ k ∈ ([0x22, 0x30, 0x31, 0x32, 0x38] : List Byte), mapSideKind k = true ∧ goodLength k 1 = true := by decide
  obtain ⟨kind, rfl⟩ | ⟨kind, rfl⟩ | ⟨rfl, rfl⟩ := h
  · exact empty k kind
  · exact one k kind
  · exact ⟨rfl, rfl⟩

/-- An answer of a result code alone, to a settled state. -/
theorem conclude_reply_plain (settled : s.Settled) (code : ResultCode) :
    (State.conclude s (s.reply r (plain code))).host.outbox = s.host.outbox ++ [⟨replyKind r.kind, r.tag, [code.byte], [], true⟩] ∧
      (State.conclude s (s.reply r (plain code))).host.service = .replied ∧
      (State.conclude s (s.reply r (plain code))).apartFromReply = s.apartFromReply := by
  obtain ⟨outbox, service⟩ := answers_conclude (s := s) (s' := s) rfl s r (plain code)
  exact ⟨outbox, service, settled.apartFromReply r (plain code)⟩

end

/-- Settles O35: an unknown kind and a wrong length are answered at once, a map-side request of the right length is
posted. -/
theorem requestsAreTaken : Obligations.RequestsAreTaken := by
  refine ⟨fun s r settled high next => ⟨fun unknown => ?_, fun c k command kind wrong => ?_⟩, fun s r settled high next right => ?_⟩
  · have isUnknown : knownKind r.kind = false := by rw [← Bool.not_eq_true, knownKind_iff]; exact unknown
    have runs : exec .unknownRequest s = .next (State.conclude s (s.reply r (plain .unknownRequest))) := by
      simp only [exec, execUnknownRequest, high, next, isUnknown, Bool.false_eq_true, if_false]
    obtain ⟨outbox, service, rest⟩ := conclude_reply_plain (r := r) settled .unknownRequest
    rw [replyKind, if_neg (by simp [isUnknown])] at outbox
    exact ⟨_, runs, outbox, service, rest⟩
  · subst kind
    have bad := goodLength_eq_false wrong
    have known : knownKind r.kind = true := (knownKind_iff r.kind).2 (List.mem_map.2 ⟨_, command, rfl⟩)
    obtain ⟨outbox, service, rest⟩ := conclude_reply_plain (r := r) settled .badLength
    rw [replyKind, if_pos known] at outbox
    exact ⟨exec_hostItemPosted_badLength high next bad, _, exec_request_badLength high next _ command rfl bad, outbox, service, rest⟩
  · obtain ⟨mapSide, good⟩ := mapSide_good right
    rw [exec_hostItemPosted_of_good settled high next mapSide good]
    refine ⟨fun free notWaits => ?_, fun busy => ?_⟩
    · have claims := settled.map free notWaits
      simp only [State.claims, Prod.mk.injEq] at claims
      obtain ⟨noClose, noItem, noFrame⟩ := claims
      simp [State.arbitrate, free, notWaits, noClose, noItem, State.operationOf]
    · congr 1
      obtain flight | waits := busy
      · obtain ⟨op, flight⟩ := Option.ne_none_iff_exists'.1 flight
        exact arbitrate_of_inFlight (op := op) flight
      · exact arbitrate_of_softReset waits

/-! ## O56: data frames -/

section
variable {s : State} {n : PortIx} {kind : Byte} {body : List Byte} {toggle : Bool} {p : PortRecord}

/-- The port takes the frame as it has heard it (R82, R86). -/
theorem heard_fieldAssemble : ((s.fieldAssemble n []).ports.get n).heard = (s.ports.get n).afterGoodFrame := by
  rw [State.fieldAssemble, Table.get_upd_self, PortRecord.heard_eq]

/-- A frame of the port's own kind of unit is of a known kind and no WRONG-KIND (R88). -/
theorem ownKind (own : (kind = 0x02 ∧ p.unitKind ≠ some .scanner) ∨ (kind = 0x03 ∧ p.unitKind ≠ some .points)) :
    ¬ (kind ≠ kindSamples ∧ kind ≠ kindScan) ∧ wrongKind p.unitKind kind = false := by
  obtain ⟨rfl, other⟩ | ⟨rfl, other⟩ := own
  · refine ⟨fun h => h.1 rfl, ?_⟩
    match unit : p.unitKind with
    | none => rfl
    | some .points => rfl
    | some .scanner => exact absurd unit other
  · refine ⟨fun h => h.2 rfl, ?_⟩
    match unit : p.unitKind with
    | none => rfl
    | some .points => exact absurd unit other
    | some .scanner => rfl

/-- The tests of a frame that is no HELLO, in their order (R88, R89). -/
theorem examine_refused {reason : RefuseReason} (h : (p.state = .down ∧ reason = .noHello) ∨
      (p.state ≠ .down ∧ (kind ∉ [0x02, 0x03]) ∧ reason = .badBody) ∨
      (p.state ≠ .down ∧ ((kind = 0x03 ∧ p.unitKind = some .points) ∨ (kind = 0x02 ∧ p.unitKind = some .scanner)) ∧
        reason = .wrongKind) ∨
      (p.state ≠ .down ∧ ((kind = 0x02 ∧ p.unitKind ≠ some .scanner) ∨ (kind = 0x03 ∧ p.unitKind ≠ some .points)) ∧
        parseField n kind body = none ∧ reason = .badBody)) : p.examine n kind body = .inl reason := by
  have known : kind ∉ [0x02, 0x03] ↔ kind ≠ kindSamples ∧ kind ≠ kindScan := by
    simp only [List.mem_cons, List.not_mem_nil, or_false, not_or]
    rfl
  unfold PortRecord.examine
  obtain ⟨down, rfl⟩ | ⟨up, unknown, rfl⟩ | ⟨up, other, rfl⟩ | ⟨up, own, fails, rfl⟩ := h
  · rw [if_pos down]
  · rw [if_neg up, if_pos (known.1 unknown)]
  · rw [if_neg up, if_neg (by simp only [← known, not_not]; obtain ⟨rfl, -⟩ | ⟨rfl, -⟩ := other <;> simp), if_pos]
    obtain ⟨rfl, unit⟩ | ⟨rfl, unit⟩ := other
    · rw [unit]; rfl
    · rw [unit]; rfl
  · obtain ⟨isKnown, right⟩ := ownKind own
    rw [if_neg up, if_neg (by simpa [← known] using isKnown), if_neg (by simp [right]), fails]

/-- A frame that passes every test becomes its record (R89). -/
theorem examine_passed {f : Frame} (up : p.state ≠ .down)
    (own : (kind = 0x02 ∧ p.unitKind ≠ some .scanner) ∨ (kind = 0x03 ∧ p.unitKind ≠ some .points))
    (parsed : parseField n kind body = some f) : p.examine n kind body = .inr f := by
  obtain ⟨isKnown, right⟩ := ownKind own
  unfold PortRecord.examine
  rw [if_neg up, if_neg isKnown, if_neg (by simp [right]), parsed]

/-- What a refused frame makes of the port (R88). -/
theorem handleData_refused {reason : RefuseReason} (same : p = (s.ports.get n).afterGoodFrame)
    (examined : p.examine n kind body = .inl reason) : (s.fieldAssemble n []).handleData n kind toggle body = { s with
      ports := s.ports.set n { p with
        refused := min 255 (p.refused + 1), flags := { p.flags with refused := true }
        answers := placed p.answers ⟨.refuse reason, toggle⟩ } } := by
  rw [State.handleData, heard_fieldAssemble, ← same, examined]
  simp only [State.fieldAssemble, set_upd_same, PortRecord.refuse, PortRecord.place_eq, countUp_eq_min]

/-- What a frame that passes makes of the port and the intake queue (R90, R91). -/
theorem handleData_passed {f : Frame} (same : p = (s.ports.get n).afterGoodFrame)
    (examined : p.examine n kind body = .inr f) :
    (toggle ≠ p.expectedToggle → (s.fieldAssemble n []).handleData n kind toggle body = { s with
      ports := s.ports.set n { p with
        duplicates := min 255 (p.duplicates + 1), answers := placed p.answers ⟨.ack, toggle⟩ } }) ∧
    (toggle = p.expectedToggle → s.queue.length < 32 → (s.fieldAssemble n []).handleData n kind toggle body = { s with
      queue := s.queue ++ [f]
      ports := s.ports.set n { p with expectedToggle := !p.expectedToggle, answers := placed p.answers ⟨.ack, toggle⟩ } }) ∧
    (toggle = p.expectedToggle → 32 ≤ s.queue.length → (s.fieldAssemble n []).handleData n kind toggle body = { s with
      ports := s.ports.set n { p with
        holds := min 65535 (p.holds + 1), answers := placed p.answers ⟨.hold, toggle⟩ } }) := by
  have queue : (s.fieldAssemble n []).queue = s.queue := rfl
  rw [State.handleData, heard_fieldAssemble, ← same, examined, queue]
  simp only [State.fieldAssemble, set_upd_same, PortRecord.place_eq, countUp_eq_min, Config.queueFrames]
  refine ⟨fun repeated => if_pos repeated, fun new room => ?_, fun new full => ?_⟩
  · rw [if_neg (not_not.2 new), if_pos room]
  · rw [if_neg (not_not.2 new), if_neg (Nat.not_lt.2 full)]

/-- A data frame moves ports and intake queue alone (R86 to R91). -/
theorem handleData_frame (s : State) : (s.handleData n kind toggle body).host = s.host ∧
    (s.handleData n kind toggle body).events = s.events := by
  unfold State.handleData
  simp only
  split
  · exact ⟨rfl, rfl⟩
  · split
    · exact ⟨rfl, rfl⟩
    · split
      · exact ⟨rfl, rfl⟩
      · exact ⟨rfl, rfl⟩

/-- A good-CRC frame that is no HELLO is handled by its command. -/
theorem exec_dataFrame {c : Instr} {bytes : List Byte} {tag : Byte} (high : s.resetLow = false)
    (received : receive (s.ports.get n).assembly bytes = (.good kind tag body, []))
    (command : (c, kind) ∈ [(.samplesFrame n bytes, 0x02), (.scanFrame n bytes, 0x03)] ∨
      (c = .fieldUnknownKind n bytes ∧ kind ∉ [0x01, 0x02, 0x03])) :
    exec c s = .next (State.conclude s ((s.fieldAssemble n []).handleData n kind (tag.getLsbD 0) body)) := by
  simp only [List.mem_cons, Prod.mk.injEq, List.not_mem_nil, or_false] at command
  obtain (⟨rfl, rfl⟩ | ⟨rfl, rfl⟩) | ⟨rfl, unknown⟩ := command
  · exact congrArg _ (fieldStep_of_good high received (decide_eq_true rfl))
  · exact congrArg _ (fieldStep_of_good high received (decide_eq_true rfl))
  · have wanted : unknownFieldKind kind = true := by
      simp only [not_or] at unknown
      obtain ⟨notHello, notSamples, notScan⟩ := unknown
      simp only [unknownFieldKind, Bool.and_eq_true, decide_eq_true_eq]
      exact ⟨⟨notHello, notSamples⟩, notScan⟩
    exact congrArg _ (fieldStep_of_good high received wanted)

end

/-- Settles O56: the frame is examined, and refused, acknowledged, appended or held. -/
theorem dataFramesAreHandled : Obligations.DataFramesAreHandled := by
  rintro s n bytes body kind tag c toggle p settled high received command rfl same
  obtain ⟨host, events⟩ := handleData_frame (n := n) (kind := kind) (toggle := tag.getLsbD 0) (body := body) (s.fieldAssemble n [])
  refine ⟨_, exec_dataFrame high received command, ?_, ?_, fun reason refused => ?_, fun f up own parsed => ?_⟩
  · exact settled.noReply (by rw [host]; rfl) (by rw [host]; rfl) (by rw [host]; rfl) s
  · rw [copy_conclude, events]
    rfl
  · rw [handleData_refused same (examine_refused refused)]
    exact endsAs_conclude s _
  · obtain ⟨repeated, appended, held⟩ := handleData_passed (toggle := tag.getLsbD 0) same (examine_passed up own parsed)
    refine ⟨fun other => ?_, fun new room => ?_, fun new full => ?_⟩
    · rw [repeated other]
      exact endsAs_conclude s _
    · rw [appended new room]
      exact endsAs_conclude s _
    · rw [held new full]
      exact endsAs_conclude s _

end Sys2Proof.Machine
/-! PROOFS. INJECT (R100) and the stage: STAGE-PUT (R137) and STAGE-COMMIT (R139 to R142). -/

namespace Sys2Proof.Machine

/-! ## O51: INJECT -/

section
variable {s : State} {r : Request} {port kind : Byte} {body : List Byte}

theorem serveInject_of_mode (content : r.body = port :: kind :: body) (mode : s.map.mode ≠ .commissioning) :
    serveInject s r = (s, plain .wrongMode) := by
  simp only [serveInject, content, if_pos mode]

theorem serveInject_of_port (content : r.body = port :: kind :: body) (mode : s.map.mode = .commissioning)
    (beyond : indexArg 8 port = none) : serveInject s r = (s, plain .badArgument) := by
  simp only [serveInject, content, if_neg (not_not.2 mode), beyond]

/-- INJECT on a port, in COMMISSIONING: the body is parsed as the port would, and the frame appended if there is room
(R100). -/
theorem serveInject_of_parse (content : r.body = port :: kind :: body) (mode : s.map.mode = .commissioning) {p : PortIx}
    (named : port.toNat = p.val) :
    (parseField p kind body = none → serveInject s r = (s, plain .badArgument)) ∧
      ∀ f, parseField p kind body = some f →
        (32 ≤ s.queue.length → serveInject s r = (s, plain .queueFull)) ∧
        (s.queue.length < 32 → serveInject s r = ({ s with queue := s.queue ++ [f] }, plain .ok)) := by
  have isPort := indexArg_of_toNat port p named
  refine ⟨fun fails => ?_, fun f parsed => ⟨fun full => ?_, fun room => ?_⟩⟩
  · simp only [serveInject, content, if_neg (not_not.2 mode), isPort, fails]
  · simp only [serveInject, content, if_neg (not_not.2 mode), isPort, parsed, Config.queueFrames, if_neg (Nat.not_lt.2 full)]
  · simp only [serveInject, content, if_neg (not_not.2 mode), isPort, parsed, Config.queueFrames, if_pos room]

/-- A kind that is no SAMPLES or SCAN is no field body on any port (R89). -/
theorem parseField_of_other (p : PortIx) (other : kind ≠ 0x02 ∧ kind ≠ 0x03) : parseField p kind body = none := by
  rw [parseField, if_neg (by exact other.1), if_neg (by exact other.2)]

end

theorem exec_inject (s : State) : exec .inject s = .next (s.serveDirect 0x41 serveInject) := rfl

/-- Settles O51: the tests in their order, each of which only answers, and then the append. -/
theorem injectAppendsAFrame : Obligations.InjectAppendsAFrame := by
  intro s r port kind body settled taken content
  have long : goodLength 0x41 r.body.length = true := by
    rw [content]
    exact decide_eq_true (Nat.le_add_left 2 body.length)
  have refused {parts : List (List Byte)} (rule : serveInject s r = (s, parts)) := serveDirect_reads settled taken long rule
  refine ⟨_, exec_inject s, fun mode => refused (serveInject_of_mode content mode), fun mode bad => ?_, fun mode p named => ?_⟩
  · by_cases inRange : port.toNat < 8
    · obtain beyond | other := bad
      · omega
      · obtain ⟨fails, -⟩ := serveInject_of_parse content mode (p := ⟨port.toNat, inRange⟩) rfl
        exact refused (fails (parseField_of_other _ other))
    · exact refused (serveInject_of_port content mode (dif_neg inRange))
  · obtain ⟨fails, parses⟩ := serveInject_of_parse content mode named
    refine ⟨fun none => refused (fails none), fun f parsed => ⟨fun full => refused ((parses f parsed).1 full), fun room => ?_⟩⟩
    obtain ⟨answers, ends, -⟩ := serveDirect_spec taken long ((parses f parsed).2 room) rfl
    exact ⟨answers, ends⟩

/-! ## O53: STAGE-PUT -/

theorem slotBytes_pos (g : Target) : 0 < g.slotBytes := by cases g <;> exact Nat.zero_lt_succ _

theorem lastSlot_lt (g : Target) : g.lastSlot < 32 := by
  cases g with
  | cells p | points p | views p => exact Nat.lt_succ_self 31
  | limits => decide

section
variable {s : State} {r : Request} {g : Target}

theorem serveStagePut_of_closed (closed : s.stage.target = none) : serveStagePut s r = (s, plain .stageClosed) := by
  simp only [serveStagePut, closed]

theorem serveStagePut_of_ragged (target : s.stage.target = some g) (ragged : r.body.length % g.slotBytes ≠ 0) :
    serveStagePut s r = (s, plain .badLength) := by
  simp only [serveStagePut, target, if_pos ragged]

/-- A body of whole entries, none or more than eight (R137). -/
theorem serveStagePut_of_count (target : s.stage.target = some g) (whole : r.body.length % g.slotBytes = 0)
    (count : r.body = [] ∨ 8 * g.slotBytes < r.body.length) : serveStagePut s r = (s, plain .badArgument) := by
  have outside : r.body.length / g.slotBytes < 1 ∨ 8 < r.body.length / g.slotBytes := by
    obtain empty | many := count
    · exact .inl (by rw [empty, List.length_nil, Nat.zero_div]; decide)
    · refine .inr (Nat.lt_of_mul_lt_mul_right (a := g.slotBytes) ?_)
      rwa [Nat.div_mul_cancel (Nat.dvd_of_mod_eq_zero whole)]
  simp only [serveStagePut, target, if_neg (not_not.2 whole), if_pos outside]

/-- One to eight whole entries are put one after another (R137). -/
theorem serveStagePut_of_entries {entries : List (List Byte)} (target : s.stage.target = some g) (body : r.body = entries.flatten)
    (each : ∀ e ∈ entries, e.length = g.slotBytes) (least : 1 ≤ entries.length) (most : entries.length ≤ 8) :
    serveStagePut s r = ({ s with stage := entries.foldl (Stage.put g.lastSlot) s.stage },
      answer .ok [byteOf (entries.foldl (Stage.put g.lastSlot) s.stage).pointer,
        byteOfBool (entries.foldl (Stage.put g.lastSlot) s.stage).overrun]) := by
  have length : r.body.length = g.slotBytes * entries.length := by rw [body, length_flatten_of_all _ _ each]
  have count : r.body.length / g.slotBytes = entries.length := by rw [length, Nat.mul_div_cancel_left _ (slotBytes_pos g)]
  have whole : ¬ r.body.length % g.slotBytes ≠ 0 := by rw [length, Nat.mul_mod_right]; exact fun h => h rfl
  have split : splitEntries g.slotBytes entries.length r.body = entries := by rw [body, splitEntries_flatten _ _ each]
  simp only [serveStagePut, target, if_neg whole, count, if_neg (show ¬ (entries.length < 1 ∨ 8 < entries.length) by omega), split]

end

theorem exec_stagePut (s : State) : exec .stagePut s = .next (s.serveDirect 0x51 serveStagePut) := rfl

/-- Settles O53: refused without a change, or the entries put from the pointer on. -/
theorem stagePutWritesEntries : Obligations.StagePutWritesEntries := by
  intro s r settled taken
  have refused {parts : List (List Byte)} (rule : serveStagePut s r = (s, parts)) := serveDirect_reads settled taken rfl rule
  refine ⟨_, exec_stagePut s, fun closed => refused (serveStagePut_of_closed closed), fun g target =>
    ⟨fun ragged => refused (serveStagePut_of_ragged target ragged),
      fun whole count => refused (serveStagePut_of_count target whole count), ?_⟩⟩
  intro entries body each least most within
  obtain ⟨answers, rest⟩ := serveDirect_changes_stage settled taken rfl (serveStagePut_of_entries target body each least most)
  have stage : (s.serveDirect 0x51 serveStagePut).stage = entries.foldl (Stage.put g.lastSlot) s.stage :=
    (congrArg State.stage rest : (s.serveDirect 0x51 serveStagePut).apartFromReply.stage = _)
  obtain ⟨fields, below, filled, last, overrun⟩ := put_foldl g.lastSlot (lastSlot_lt g) entries s.stage within _ rfl
  rw [rest, stage]
  rw [show (entries.foldl (Stage.put g.lastSlot) s.stage).pointer = _ from congrArg Stage.pointer fields] at answers
  exact ⟨answers, congrArg (fun x => State.apartFromReply { s with stage := x }) fields, below, filled, last, overrun⟩

/-! ## O54: STAGE-COMMIT -/

section
variable {s : State} {r : Request} {g : Target}

/-- The tests of a commit that refuse it, each with its answer (R139). -/
theorem serveStageCommit_of_invalid (target : s.stage.target = some g) :
    (s.stage.overrun = true → serveStageCommit s r = (s, answer .stageInvalid [0x01, 0])) ∧
    (∀ n, s.stage.validate g = .range n → serveStageCommit s r = (s, answer .stageInvalid [0x02, byteOf n])) ∧
    (∀ n, s.stage.validate g = .duplicate n → serveStageCommit s r = (s, answer .stageInvalid [0x03, byteOf n])) := by
  refine ⟨fun overrun => ?_, fun n failed => ?_, fun n failed => ?_⟩
  · have failed : s.stage.validate g = .overrun := if_pos overrun
    simp only [serveStageCommit, target, failed]
  · simp only [serveStageCommit, target, failed]
  · simp only [serveStageCommit, target, failed]

/-- A commit whose stage is valid places its page, or finds the pending list full (R139, R142). -/
theorem serveStageCommit_of_page {p : Page} (target : s.stage.target = some g) (valid : s.stage.validate g = .page p) :
    (4 ≤ (otherPages g s.stage.pendingPages).length → serveStageCommit s r = (s, plain .pendingFull)) ∧
    ((otherPages g s.stage.pendingPages).length < 4 → serveStageCommit s r = ({ s with
      stage := { s.stage.closed with pendingPages := placePage p s.stage.pendingPages } }, plain .ok)) := by
  refine ⟨fun full => ?_, fun room => ?_⟩
  · simp only [serveStageCommit, target, valid, Config.pendingPages, if_pos full]
  · simp only [serveStageCommit, target, valid, Config.pendingPages, if_neg (Nat.not_le.2 room)]

end

/-! ### The tests, slot by slot -/

section
variable {g : Stage}

/-- The first eight slots of the stage, which a LIMITS page takes (R134). -/
theorem get_firstEight (slots : Table 32 (Option (List Byte))) (i : Fin 8) :
    (slots.firstOf 8 (by omega)).get i = slots.get ⟨i.val, by omega⟩ := get_firstOf slots (by omega) i

/-- The range test of a LIMITS page looks at the first eight slots (R140). -/
theorem rangeTested_firstEight {α : Type} (parse : List Byte → Option α) (slots : Table 32 (Option (List Byte))) (n : Nat) :
    (∃ (i : Fin 8) (raw : List Byte), i.val = n ∧ (slots.firstOf 8 (by omega)).get i = some raw ∧ parse raw = none ∧
      ∀ j, j < i → ∀ raw', (slots.firstOf 8 (by omega)).get j = some raw' → parse raw' ≠ none) ↔
    ∃ (i : Fin 32) (raw : List Byte), i.val = n ∧ n < 8 ∧ slots.get i = some raw ∧ parse raw = none ∧
      ∀ j, j < i → ∀ raw', slots.get j = some raw' → parse raw' ≠ none := by
  simp only [get_firstEight]
  constructor
  · rintro ⟨i, raw, rfl, filled, fails, lower⟩
    exact ⟨⟨i.val, by omega⟩, raw, rfl, i.isLt, filled, fails, fun j before => lower ⟨j.val, by have : j.val < i.val := before; omega⟩ before⟩
  · rintro ⟨i, raw, rfl, small, filled, fails, lower⟩
    exact ⟨⟨i.val, small⟩, raw, rfl, filled, fails, fun j before => lower ⟨j.val, by omega⟩ before⟩

/-- What a slot of a stage reads as. -/
theorem readSlots_toList_getElem? {α : Type} {n : Nat} (parse : List Byte → Option α) (slots : Table n (Option (List Byte)))
    (i : Nat) (x : α) : (readSlots parse slots).toList[i]? = some (some x) ↔ ∃ k : Fin n, k.val = i ∧ (slots.get k).bind parse = some x := by
  simp only [toList_getElem?, readSlots, Table.get_map]

/-- The duplicate test names the lowest filled slot that conflicts with a lower one (R141). -/
theorem duplicateFrom_readSlots_eq_some (slots : Table 32 (Option (List Byte))) (n : Nat) :
    duplicateFrom 0 [] (readSlots parsePointSlot slots).toList = some n ↔ ∃ i : Fin 32, i.val = n ∧
      (∃ j a b, j < i ∧ (slots.get j).bind parsePointSlot = some a ∧ (slots.get i).bind parsePointSlot = some b ∧
        a.conflicts b = true) ∧
      ∀ k, k < i → ∀ j a b, j < k → (slots.get j).bind parsePointSlot = some a →
        (slots.get k).bind parsePointSlot = some b → a.conflicts b = false := by
  simp only [duplicateFrom_eq_some, readSlots_toList_getElem?, List.not_mem_nil, false_and, exists_false, false_or, Nat.zero_add,
    false_imp_iff, implies_true, true_and]
  constructor
  · rintro ⟨_, rfl, ⟨b, ⟨i, rfl, isB⟩, _, a, before, ⟨j, rfl, isA⟩, conflict⟩, lower⟩
    exact ⟨i, rfl, ⟨j, a, b, before, isA, isB, conflict⟩, fun k hk j a b hj isA isB =>
      lower k.val hk b ⟨k, rfl, isB⟩ j.val a hj ⟨j, rfl, isA⟩⟩
  · rintro ⟨i, rfl, ⟨j, a, b, before, isA, isB, conflict⟩, lower⟩
    refine ⟨i.val, rfl, ⟨b, ⟨i, rfl, isB⟩, j.val, a, before, ⟨j, rfl, isA⟩, conflict⟩, ?_⟩
    rintro _ hk b ⟨k, rfl, isB⟩ _ a hj ⟨j, rfl, isA⟩
    exact lower k hk j a b hj isA isB

/-- The duplicate test passes exactly when no two filled slots conflict (R141). -/
theorem duplicateFrom_readSlots_eq_none (slots : Table 32 (Option (List Byte))) :
    duplicateFrom 0 [] (readSlots parsePointSlot slots).toList = none ↔ ∀ j i a b, j < i →
      (slots.get j).bind parsePointSlot = some a → (slots.get i).bind parsePointSlot = some b → a.conflicts b = false := by
  simp only [duplicateFrom_eq_none, readSlots_toList_getElem?, List.not_mem_nil, false_imp_iff, implies_true, true_and]
  constructor
  · exact fun none j i a b before isA isB => none i.val b ⟨i, rfl, isB⟩ j.val a before ⟨j, rfl, isA⟩
  · rintro none _ b ⟨i, rfl, isB⟩ _ a before ⟨j, rfl, isA⟩
    exact none j i a b before isA isB

/-- A stage whose filled slots all read goes on to what the page becomes (R139). -/
theorem rangeTested_of_passed {α : Type} {n : Nat} {parse : List Byte → Option α} {slots : Table n (Option (List Byte))}
    (page : Table n (Option α) → CommitResult) (passed : ∀ i raw, slots.get i = some raw → parse raw ≠ none) :
    rangeTested parse slots page = page (readSlots parse slots) := by
  rw [rangeTested, (rangeFailure_eq_none parse slots).2 passed]

/-- A stage placed as a page has passed the range test. -/
theorem passed_of_rangeTested {α : Type} {n : Nat} {parse : List Byte → Option α} {slots : Table n (Option (List Byte))}
    {page : Table n (Option α) → CommitResult} {p : Page} (h : rangeTested parse slots page = .page p) :
    ∀ i raw, slots.get i = some raw → parse raw ≠ none := by
  rw [← rangeFailure_eq_none]
  cases failure : rangeFailure parse slots with
  | none => rfl
  | some i => simp only [rangeTested, failure, reduceCtorEq] at h

/-- The duplicate test of a POINTS page, and what it becomes (R141). -/
def pointsPage (p : Fin 3) (slots : Table 32 (Option PointEntry)) : CommitResult :=
  match duplicateFrom 0 [] slots.toList with
  | some i => .duplicate i
  | none => .page (.points p slots)

theorem pointsPage_ne_range (p : Fin 3) (slots : Table 32 (Option PointEntry)) (n : Nat) : pointsPage p slots ≠ .range n := by
  unfold pointsPage
  split
  · exact nofun
  · exact nofun

theorem pointsPage_eq_duplicate (p : Fin 3) (slots : Table 32 (Option PointEntry)) (n : Nat) :
    pointsPage p slots = .duplicate n ↔ duplicateFrom 0 [] slots.toList = some n := by
  unfold pointsPage
  cases duplicateFrom 0 [] slots.toList with
  | none => simp
  | some i => simp

theorem pointsPage_eq_page (p : Fin 3) (slots : Table 32 (Option PointEntry)) (page : Page) :
    pointsPage p slots = .page page ↔ duplicateFrom 0 [] slots.toList = none ∧ page = .points p slots := by
  unfold pointsPage
  cases duplicateFrom 0 [] slots.toList with
  | none => simp [eq_comm]
  | some i => simp

end

/-- The validation of a stage without OVERRUN is the range test of its kind, and for POINTS the duplicate test (R139). -/
theorem validate_of_clear {g : Stage} (clear : g.overrun = false) :
    (∀ p, g.validate (.cells p) = rangeTested parseCellSlot g.slots fun slots => .page (.cells p slots)) ∧
    (∀ p, g.validate (.points p) = rangeTested parsePointSlot g.slots (pointsPage p)) ∧
    (∀ p, g.validate (.views p) = rangeTested parseBindingSlot g.slots fun slots => .page (.views p slots)) ∧
    g.validate .limits = rangeTested parseLimitSlot (g.slots.firstOf 8 (by omega)) fun slots => .page (.limits slots) := by
  unfold Stage.validate
  rw [clear]
  exact ⟨fun _ => rfl, fun _ => rfl, fun _ => rfl, rfl⟩

/-- A LIMITS page takes the first eight slots as they read (R134, R139). -/
theorem limitsPage_iff (slots : Table 32 (Option (List Byte))) (page : Page) :
    rangeTested parseLimitSlot (slots.firstOf 8 (by omega)) (fun l => .page (.limits l)) = .page page ↔ ∃ l, page = .limits l ∧
      (∀ i raw, i.val < 8 → slots.get i = some raw → parseLimitSlot raw ≠ none) ∧
      ∀ (i : Fin 8) (k : Fin 32), k.val = i.val → l.get i = (slots.get k).bind parseLimitSlot := by
  rw [rangeTested_page_iff]
  simp only [get_firstEight]
  constructor
  · rintro ⟨l, rfl, passed, read⟩
    refine ⟨l, rfl, fun i raw small => passed ⟨i.val, small⟩ raw, fun i k same => ?_⟩
    rw [read i]
    exact congrArg (fun x => (slots.get x).bind parseLimitSlot) (Fin.ext same.symm)
  · rintro ⟨l, rfl, passed, read⟩
    exact ⟨l, rfl, fun i raw => passed _ raw i.isLt, fun i => read i _ rfl⟩

/-- A POINTS page is placed exactly when every filled slot reads and no two conflict (R139, R141). -/
theorem pointsPage_iff (slots : Table 32 (Option (List Byte))) (p : Fin 3) (page : Page) :
    rangeTested parsePointSlot slots (pointsPage p) = .page page ↔ ∃ read, page = .points p read ∧
      (∀ i raw, slots.get i = some raw → parsePointSlot raw ≠ none) ∧
      (∀ j i a b, j < i → (slots.get j).bind parsePointSlot = some a → (slots.get i).bind parsePointSlot = some b →
        a.conflicts b = false) ∧ ∀ i, read.get i = (slots.get i).bind parsePointSlot := by
  constructor
  · intro placed
    have passed := passed_of_rangeTested placed
    rw [rangeTested_of_passed _ passed, pointsPage_eq_page, duplicateFrom_readSlots_eq_none] at placed
    exact ⟨_, placed.2, passed, placed.1, fun i => by rw [readSlots, Table.get_map]⟩
  · rintro ⟨read, rfl, passed, apart, same⟩
    rw [rangeTested_of_passed _ passed, pointsPage_eq_page, duplicateFrom_readSlots_eq_none]
    exact ⟨apart, congrArg _ (Table.ext_get fun i => by rw [same, readSlots, Table.get_map])⟩

theorem exec_stageCommit (s : State) : exec .stageCommit s = .next (s.serveDirect 0x53 serveStageCommit) := rfl

/-- Settles O54: the tests in their order, each slot by slot, and then the page's place. -/
theorem stageCommitPlacesAPage : Obligations.StageCommitPlacesAPage := by
  refine ⟨fun s r settled taken empty => ?_, fun g clear => ?_, PointEntry.conflicts_iff⟩
  · have long : goodLength 0x53 r.body.length = true := by rw [empty]; rfl
    have closes (closed : s.stage.target = none) : serveStageCommit s r = (s, plain .stageClosed) := by
      simp only [serveStageCommit, closed]
    have refused {parts : List (List Byte)} (rule : serveStageCommit s r = (s, parts)) := serveDirect_reads settled taken long rule
    refine ⟨_, exec_stageCommit s, fun closed => refused (closes closed), fun g target => ?_⟩
    obtain ⟨overrun, range, duplicate⟩ := serveStageCommit_of_invalid (r := r) target
    refine ⟨fun latched => refused (overrun latched), fun _ => ⟨fun n failed => refused (range n failed),
      fun n failed => refused (duplicate n failed), fun p valid => ?_⟩⟩
    obtain ⟨full, room⟩ := serveStageCommit_of_page (r := r) target valid
    have isTarget := validate_target valid
    refine ⟨isTarget, fun apart many => refused (full ?_), fun few => ?_⟩
    · have all : otherPages g s.stage.pendingPages = s.stage.pendingPages :=
        List.filter_eq_self.2 fun q member => decide_eq_true (apart q member)
      rwa [all]
    · rw [placePage, isTarget] at room
      exact serveDirect_changes_stage settled taken long (room few)
  · obtain ⟨cells, points, views, limits⟩ := validate_of_clear clear
    refine ⟨fun p n => ?_, fun p page => ?_, fun p n => ?_, fun p page => ?_, fun page => ?_, fun p page => ?_, fun n => ?_,
      fun p n => ?_, fun p n passed => ?_⟩
    · rw [cells]
      exact rangeTested_range_iff _ _ _ (fun _ _ h => by cases h) n
    · rw [cells]
      exact rangeTested_page_iff _ _ (Page.cells p) page
    · rw [views]
      exact rangeTested_range_iff _ _ _ (fun _ _ h => by cases h) n
    · rw [views]
      exact rangeTested_page_iff _ _ (Page.views p) page
    · rw [limits]
      exact limitsPage_iff g.slots page
    · rw [points]
      exact pointsPage_iff g.slots p page
    · rw [limits, ← rangeTested_firstEight]
      exact rangeTested_range_iff _ _ _ (fun _ _ h => by cases h) n
    · rw [points]
      exact rangeTested_range_iff _ _ _ (pointsPage_ne_range p) n
    · rw [points, rangeTested_of_passed _ passed, pointsPage_eq_duplicate, duplicateFrom_readSlots_eq_some]

end Sys2Proof.Machine
/-! PROOFS. The reads of the map, the ports, the lines and the events, byte by byte (R20, R21, R79, R95, R115, R118, R132, R154,
R161). -/

namespace Sys2Proof.Machine

/-! ## O50: READ-PORT, READ-LINES, READ-EVENTS -/

section
variable {s : State} {r : Request} {kind : Byte} {serve : State → Request → State × List (List Byte)}

/-- A request that claims nothing of the map and leaves the host link and the Event Unit's copy alone, given what its rule
makes of a settled state. -/
theorem serveDirect_unclaimed (settled : s.Settled) (taken : s.Takes kind r) (long : goodLength kind r.body.length = true)
    {s' : State} {parts : List (List Byte)} (rule : serve s r = (s', parts)) (host : s'.host = s.host) (map : s'.map = s.map)
    (queue : s'.queue = s.queue) (latched : s'.latched = s.latched) :
    s.Answers (s.serveDirect kind serve) r parts ∧ (s.serveDirect kind serve).body = s'.body ∧
      (s.serveDirect kind serve).arbiter = s.arbiter ∧ (s.serveDirect kind serve).events.copy = s'.events.copy := by
  obtain ⟨answers, ends, copy⟩ := serveDirect_spec taken long rule (congrArg HostLink.outbox host)
  exact ⟨answers, ends.body, ends.arbiter.trans (arbiter_of_no_claim settled map queue latched), copy⟩

end

/-- The content of READ-PORT (Table 10-6). -/
theorem portContent_eq (b : Byte) (p : PortIx) (x : PortRecord) (named : b.toNat = p.val) : answer .ok (portContent p.val x) =
    [[0x00, b, x.state.code, (match x.unitKind with | some .points => 0x00 | some .scanner => 0x01 | none => 0xFF),
      byteOfBool x.expectedToggle, byteOf x.silence, byteOf x.crcErrors, byteOf x.refused, byteOf x.duplicates] ++
      bytes16 x.holds ++ [byteOf x.unknownChannel,
        byteOf (natOfBits [x.flags.hello, x.flags.crc, x.flags.refused, x.flags.resumed, x.flags.quiet])]] := by
  have number : byteOf p.val = b := (byte_of_toNat named).symm
  unfold portContent
  rw [number]
  match unit : x.unitKind with
  | none => rfl
  | some .points => rfl
  | some .scanner => rfl

theorem exec_readPort (s : State) : exec .readPort s = .next (s.serveDirect 0x40 serveReadPort) := rfl

theorem exec_readLines (s : State) : exec .readLines s = .next (s.serveDirect 0x48 serveReadLines) := rfl

theorem exec_readEvents (s : State) : exec .readEvents s = .next (s.serveDirect 0x60 serveReadEvents) := rfl

/-- READ-PORT of a port: its record is returned, and its counters and flags cleared (R95). -/
theorem serveReadPort_of_port {s : State} {r : Request} {b : Byte} (body : r.body = [b]) {p : PortIx} (named : b.toNat = p.val) :
    serveReadPort s r = ({ s with ports := s.ports.upd p PortRecord.read }, answer .ok (portContent p.val (s.ports.get p))) :=
  performIndexed_of_toNat body named

/-- READ-PORT beyond the ports. -/
theorem serveReadPort_beyond {s : State} {r : Request} {b : Byte} (body : r.body = [b]) (beyond : 7 < b.toNat) :
    serveReadPort s r = (s, plain .badArgument) := performIndexed_beyond body beyond

/-- Settles O50: each content byte by byte, and the clears of READ-PORT and READ-LINES. -/
theorem portsLinesAndEventsAreRead : Obligations.PortsLinesAndEventsAreRead := by
  refine ⟨rfl, rfl, rfl, fun s r settled => ⟨fun taken b body => ?_, fun taken empty => ?_, fun taken empty => ?_⟩⟩
  · have long : goodLength 0x40 r.body.length = true := by rw [body]; rfl
    have port (p : PortIx) (named : b.toNat = p.val) :=
      serveDirect_unclaimed settled taken long (serveReadPort_of_port body named) rfl rfl rfl rfl
    have beyond (h : 7 < b.toNat) := serveDirect_unclaimed settled taken long (serveReadPort_beyond body h) rfl rfl rfl rfl
    have either : (s.serveDirect 0x40 serveReadPort).arbiter = s.arbiter ∧
        (s.serveDirect 0x40 serveReadPort).events.copy = s.events.copy := by
      obtain inside | outside := Nat.lt_or_ge 7 b.toNat
      · exact (beyond inside).2.2
      · exact (port ⟨b.toNat, Nat.lt_succ_of_le outside⟩ rfl).2.2
    refine ⟨_, exec_readPort s, either.1, either.2, fun h => serveDirect_reads settled taken long (serveReadPort_beyond body h), ?_⟩
    rintro p x named rfl
    obtain ⟨answers, left, -, -⟩ := port p named
    rw [portContent_eq b p _ named] at answers
    exact ⟨answers, left⟩
  · have long : goodLength 0x48 r.body.length = true := by rw [empty]; rfl
    obtain ⟨answers, left, arbiter, copy⟩ :=
      serveDirect_unclaimed (serve := serveReadLines) settled taken long rfl rfl rfl rfl rfl
    exact ⟨_, exec_readLines s, arbiter, copy, answers, left⟩
  · have long : goodLength 0x60 r.body.length = true := by rw [empty]; rfl
    exact ⟨_, exec_readEvents s, serveDirect_reads (serve := serveReadEvents) settled taken long rfl⟩

/-! ## O47: reports of the map -/

/-- A hot-spot entry of a READ-HOTSPOTS reply (Table 10-6). -/
theorem HotSpot.bytes_eq (h : HotSpot) : h.bytes = bytes16 h.cell ++ bytesInt16 h.estimate ++ [h.alert.code, byteOf h.age] ++
    (match h.rise with | some x => 1 :: bytesInt16 x | none => [0, 0, 0]) := by
  unfold HotSpot.bytes
  cases h.rise with
  | none => rfl
  | some x => rfl

/-- The content of READ-HOTSPOTS (Table 10-6). -/
theorem hotspotsContent_eq (m : MapState) : answer .ok (hotspotsContent m) = [[0x00, byteOf m.hotList.length] ++
    (match m.buildingEpoch with | some e => 1 :: bytes16 e.toNat | none => [0, 0, 0]) ++ [byteOfBool m.topChanged] ++
    ((m.hotList.take 16).flatMap fun h => bytes16 h.cell ++ bytesInt16 h.estimate ++ [h.alert.code, byteOf h.age] ++
      (match h.rise with | some x => 1 :: bytesInt16 x | none => [0, 0, 0])) ++
    List.replicate (9 * (16 - m.hotList.length)) 0] := by
  have entries := hotBytes_eq 16 m.hotList
  rw [show HotSpot.bytes = _ from funext HotSpot.bytes_eq] at entries
  unfold hotspotsContent
  rw [entries]
  cases m.buildingEpoch with
  | none => simp [answer, ResultCode.byte, optionalField, List.append_assoc]
  | some e => simp [answer, ResultCode.byte, optionalField, List.append_assoc]

/-- A cell with a value in a READ-PASS reply (Table 10-6). -/
theorem cellValue_eq (x : Option (Nat × Int)) : cellValue x =
    (match x with | some (c, e) => 1 :: (bytes16 c ++ bytesInt16 e) | none => [0, 0, 0, 0, 0]) := by
  unfold cellValue
  match x with
  | none => rfl
  | some (c, e) => rfl

/-- The content of READ-PASS (Table 10-6). -/
theorem passContent_eq (b : Byte) (p : Fin 8) (u : PassSummary) (f : PassFlags) (named : b.toNat = p.val) :
    answer .ok (passContent p.val u f) = [[0x00, b] ++ bytes16 u.inUse ++ bytes16 u.empty ++ bytes16 u.live ++ bytes16 u.stale ++
      bytes16 u.high ++ bytes16 u.highHigh ++
      (match u.hottest with | some (c, e) => 1 :: (bytes16 c ++ bytesInt16 e) | none => [0, 0, 0, 0, 0]) ++
      (match u.largestRise with | some (c, x) => 1 :: (bytes16 c ++ bytesInt16 x) | none => [0, 0, 0, 0, 0]) ++
      [byteOf (natOfBits [f.hhEntered, f.highEntered, f.cleared, f.rise])]] := by
  have number : byteOf p.val = b := (byte_of_toNat named).symm
  unfold passContent
  rw [number, cellValue_eq, cellValue_eq]
  rfl

/-- The content of READ-VIEW (Table 10-6). -/
theorem viewContent_eq (b : Byte) (v : ViewIx) (x : ViewRecord) (named : b.toNat = v.val) :
    answer .ok (viewContent v.val x) = [[0x00, b] ++ bytesInt16 x.bias ++
      (match x.lastFrame with | some e => 1 :: bytes16 e.toNat | none => [0, 0, 0]) ++
      bytes16 x.framesFused ++ bytes16 x.pixelsSkipped ++ [byteOf x.anchorsUsed, byteOf x.disagreements]] := by
  have number : byteOf v.val = b := (byte_of_toNat named).symm
  unfold viewContent
  rw [number]
  cases x.lastFrame with
  | none => rfl
  | some e => rfl

theorem exec_readPass (s : State) : exec .readPass s = .next (s.serveMapSide 0x22 performReadPass) := rfl

theorem exec_readView (s : State) : exec .readView s = .next (s.serveMapSide 0x38 performReadView) := rfl

/-- READ-PASS of a pass: its summary and flags are returned, and its flags cleared (R115). -/
theorem performReadPass_of_pass {s : State} {r : Request} {b : Byte} (body : r.body = [b]) {p : Fin 8} (named : b.toNat = p.val) :
    performReadPass s r = ({ s with map := { s.map with passFlags := s.map.passFlags.set p PassFlags.clear } },
      answer .ok (passContent p.val (s.map.summaries.get p) (s.map.passFlags.get p))) :=
  performIndexed_of_toNat body named

/-- READ-VIEW of a view: its record is returned, and its two counters cleared (R79). -/
theorem performReadView_of_view {s : State} {r : Request} {b : Byte} (body : r.body = [b]) {v : ViewIx} (named : b.toNat = v.val) :
    performReadView s r = ({ s with views := s.views.upd v fun x => { x with framesFused := 0, pixelsSkipped := 0 } },
      answer .ok (viewContent v.val (s.views.get v))) := performIndexed_of_toNat body named

/-- Settles O47: each content byte by byte, and what each read clears. -/
theorem mapReports : Obligations.MapReports := by
  refine ⟨fun s r settled => ⟨fun performs => ?_, fun performs => ?_, fun performs b body => ?_⟩, fun s r b settled performs body => ?_,
    rfl, rfl⟩
  · exact ⟨_, rfl, serveMapSide_spec (perform := performReadMapStatus) performs rfl rfl⟩
  · obtain ⟨answers, completes⟩ := serveMapSide_spec (perform := performReadHotspots) performs rfl rfl
    rw [hotspotsContent_eq] at answers
    exact ⟨_, rfl, answers, completes⟩
  · refine ⟨_, exec_readPass s, fun beyond => serveIndexed_beyond performs body beyond, ?_⟩
    rintro p u f named rfl rfl
    obtain ⟨answers, completes⟩ := serveMapSide_spec performs (performReadPass_of_pass body named) rfl
    rw [passContent_eq b p _ _ named] at answers
    exact ⟨answers, completes⟩
  · refine ⟨_, exec_readView s, fun beyond => serveIndexed_beyond performs body beyond, fun v named => ?_⟩
    obtain ⟨answers, completes⟩ := serveMapSide_spec performs (performReadView_of_view body named) rfl
    rw [viewContent_eq b v _ named] at answers
    exact ⟨answers, completes⟩

/-! ## O48: READ-CELLS -/

/-- A cell record without its anchor's fields (Table 10-7). -/
def CellRecord.fields (c : CellRecord) : List Byte :=
  [c.stateCode, c.alert.code, (c.body.map fun b => b.source.code).getD 0,
    byteOf (natOfBits [(c.body.bind CellBody.baseline).isSome, c.rise.isSome, c.anchor.isSome, (c.anchor.bind Anchor.tLast).isSome])] ++
  bytesInt16 (c.estimate.getD 0) ++ [byteOf ((c.body.map CellBody.age).getD 0)] ++
  bytesInt16 ((c.body.bind CellBody.baseline).getD 0) ++ bytesInt16 (c.rise.getD 0)

theorem CellRecord.bytes_eq (c : CellRecord) : c.bytes = c.fields ++ bytesInt16 ((c.anchor.bind Anchor.tLast).getD 0) ++
    [byteOf ((c.anchor.map Anchor.tAge).getD 0)] := rfl

/-- The fields of a cell record, by the state of the cell (Table 10-7). -/
theorem CellRecord.fields_of_content (c : CellRecord) (tLast : Option Int) (last : tLast = c.anchor.bind Anchor.tLast) :
    (c.content = .unused → c.fields = [0, 0, 0, byteOf (natOfBits [false, false, c.anchor.isSome, tLast.isSome]), 0, 0, 0, 0, 0, 0, 0]) ∧
    (c.content = .empty → c.fields = [1, 0, 0, byteOf (natOfBits [false, false, c.anchor.isSome, tLast.isSome]), 0, 0, 0, 0, 0, 0, 0]) ∧
    (∀ b rise, c.content = .live b rise → c.fields =
      [2, b.alert.code, b.source.code, byteOf (natOfBits [b.baseline.isSome, rise.isSome, c.anchor.isSome, tLast.isSome])] ++
      bytesInt16 b.estimate ++ [byteOf b.age] ++ bytesInt16 (b.baseline.getD 0) ++ bytesInt16 (rise.getD 0)) ∧
    (∀ b, c.content = .stale b → c.fields =
      [3, b.alert.code, b.source.code, byteOf (natOfBits [b.baseline.isSome, false, c.anchor.isSome, tLast.isSome])] ++
      bytesInt16 b.estimate ++ [byteOf b.age] ++ bytesInt16 (b.baseline.getD 0) ++ [0, 0]) := by
  subst last
  obtain ⟨content, anchor⟩ := c
  have zero : bytesInt16 0 = [0, 0] := by decide
  refine ⟨?_, ?_, ?_, ?_⟩
  · rintro rfl
    simp [CellRecord.fields, CellRecord.stateCode, CellRecord.alert, CellRecord.body, CellRecord.rise, CellRecord.estimate,
      AlertState.code, byteOf, zero]
  · rintro rfl
    simp [CellRecord.fields, CellRecord.stateCode, CellRecord.alert, CellRecord.body, CellRecord.rise, CellRecord.estimate,
      AlertState.code, byteOf, zero]
  · rintro b rise rfl
    rfl
  · rintro b rfl
    simp [CellRecord.fields, CellRecord.stateCode, CellRecord.alert, CellRecord.body, CellRecord.rise, CellRecord.estimate, zero]

/-- The records of `count` cells from `first` on (R21). -/
def State.cellRecords (s : State) (first count : Nat) : List (List Byte) :=
  ((s.cells.toList.drop first).take count).map CellRecord.bytes

section
variable {s : State} {first count : Nat}

theorem length_cellRecords (within : first + count ≤ 2048) : (s.cellRecords first count).length = count := by
  have length : s.cells.toList.length = 2048 := s.cells.length_eq
  rw [State.cellRecords, List.length_map, List.length_take, List.length_drop, length]
  omega

/-- The record of a cell stands at its own place. -/
theorem cellRecords_getElem? (c : CellIx) (above : first ≤ c.val) (below : c.val < first + count) :
    (s.cellRecords first count)[c.val - first]? = some (s.cells.get c).bytes := by
  have entry : s.cells.toList[c.val]? = some (s.cells.get c) := (toList_getElem? s.cells _ _).2 ⟨c, rfl, rfl⟩
  rw [State.cellRecords, List.getElem?_map, List.getElem?_take_of_lt (by omega), List.getElem?_drop, Nat.add_sub_cancel' above,
    entry, Option.map_some]

/-- The parts of a READ-CELLS reply, as bytes of records (R161). -/
theorem cellsParts_eq (within : first + count ≤ 2048) (small : count ≤ 32) :
    cellsParts first ((s.cells.toList.drop first).take count) =
      if count ≤ 17 then [[0x00, 0x80] ++ bytes16 first ++ [byteOf count] ++ (s.cellRecords first count).flatten]
      else [[0x00, 0x00] ++ bytes16 first ++ [17] ++ ((s.cellRecords first count).take 17).flatten,
        [0x00, 0x81] ++ bytes16 (first + 17) ++ [byteOf (count - 17)] ++ ((s.cellRecords first count).drop 17).flatten] := by
  have length : ((s.cells.toList.drop first).take count).length = count := by
    have := length_cellRecords (s := s) within
    rwa [State.cellRecords, List.length_map] at this
  unfold cellsParts
  rw [length]
  split
  · simp only [cellsPart, length, State.cellRecords, List.flatMap]
    rfl
  next many =>
    have seventeen : (((s.cells.toList.drop first).take count).take 17).length = 17 := by rw [List.length_take, length]; omega
    have others : (((s.cells.toList.drop first).take count).drop 17).length = count - 17 := by rw [List.length_drop, length]
    simp only [cellsPart, seventeen, others, State.cellRecords, List.flatMap, List.map_take, List.map_drop]
    rfl

end

theorem exec_readCells (s : State) : exec .readCells s = .next (s.serveMapSide 0x20 performReadCells) := rfl

/-- Settles O48: refused, or the records of exactly the cells asked for, in one part or two. -/
theorem cellsAreRead : Obligations.CellsAreRead := by
  refine ⟨?_, rfl, rfl⟩
  rintro s r hi lo count first settled performs body rfl
  by_cases bad : count.toNat = 0 ∨ 32 < count.toNat ∨ 2047 < 256 * hi.toNat + lo.toNat ∨
      2047 < 256 * hi.toNat + lo.toNat + count.toNat - 1
  · have rule : performReadCells s r = (s, plain .badArgument) := by
      simp only [performReadCells, body]
      exact if_pos bad
    obtain ⟨answers, completes⟩ := serveMapSide_spec performs rule rfl
    exact ⟨_, exec_readCells s, completes, fun _ => answers, fun least most within => by omega⟩
  · have within : 256 * hi.toNat + lo.toNat + count.toNat ≤ 2048 := by omega
    have rule : performReadCells s r = (s, cellsParts (256 * hi.toNat + lo.toNat)
        ((s.cells.toList.drop (256 * hi.toNat + lo.toNat)).take count.toNat)) := by
      simp only [performReadCells, body]
      exact if_neg bad
    obtain ⟨answers, completes⟩ := serveMapSide_spec performs rule rfl
    rw [cellsParts_eq within (by omega)] at answers
    refine ⟨_, exec_readCells s, completes, fun h => absurd h bad, fun _ _ _ => ⟨s.cellRecords _ _, length_cellRecords within, fun one => ?_,
      fun two => ?_, fun c tLast tAge above below last age => ?_⟩⟩
    · rw [if_pos one, show byteOf count.toNat = count from (byte_of_toNat rfl).symm] at answers
      exact answers
    · rw [if_neg (Nat.not_le.2 two)] at answers
      exact answers
    · refine ⟨(s.cells.get c).fields, ?_, CellRecord.fields_of_content _ tLast last⟩
      rw [cellRecords_getElem? c above below, CellRecord.bytes_eq, last, age]

end Sys2Proof.Machine
/-! PROOFS. The reads of the stage and of the live tables, byte by byte (R146, R147, R161). -/

namespace Sys2Proof.Machine

/-! ## O55: READ-STAGE -/

/-- Table, page and number of filled slots of a page. -/
theorem page_rows : (∀ p slots, (Page.cells p slots).target = .cells p ∧ (Page.cells p slots).filled = slots.toList.countP Option.isSome) ∧
    (∀ p slots, (Page.points p slots).target = .points p ∧ (Page.points p slots).filled = slots.toList.countP Option.isSome) ∧
    (∀ p slots, (Page.views p slots).target = .views p ∧ (Page.views p slots).filled = slots.toList.countP Option.isSome) ∧
    (∀ slots, (Page.limits slots).target = .limits ∧ (Page.limits slots).filled = slots.toList.countP Option.isSome) :=
  ⟨fun _ _ => ⟨rfl, rfl⟩, fun _ _ => ⟨rfl, rfl⟩, fun _ _ => ⟨rfl, rfl⟩, fun _ => ⟨rfl, rfl⟩⟩

/-- Four places of a table, a page and a third byte each, as one list (Table 10-6). -/
theorem fourPlaces_placeBytes {α : Type} (l : List α) (target : α → Target) (third : α → Byte) :
    fourPlaces 4 (l.map fun x => placeBytes (target x) (third x)) =
      ((l.take 4).flatMap fun x => [byteOf (target x).table, byteOf (target x).page, third x]) ++
        List.replicate (3 * (4 - l.length)) 0 := by
  rw [fourPlaces_eq, List.length_map, ← List.map_take, List.flatMap]
  rfl

/-- The last-install record of a READ-STAGE reply (Table 10-6). -/
theorem lastInstallBytes_eq (x : Option LastInstall) : lastInstallBytes x = (match x with
    | some x => 1 :: (bytes16 x.epoch.toNat ++ [byteOf x.pages.length] ++
        ((x.pages.take 4).flatMap fun o => [byteOf o.1.table, byteOf o.1.page, o.2.code]) ++
        List.replicate (3 * (4 - x.pages.length)) 0)
    | none => List.replicate 16 0) := by
  match x with
  | none => rfl
  | some x =>
    simp only [lastInstallBytes, fourPlaces_placeBytes x.pages Prod.fst fun o => o.2.code]
    simp only [List.append_assoc, List.cons_append, List.nil_append]

/-- The content of READ-STAGE (Table 10-6). -/
theorem stageContent_eq (g : Stage) : answer .ok (stageContent g) = [[0x00] ++
    (match g.target with
      | some t => [1, byteOf t.table, byteOf t.page]
      | none => [0, 0, 0]) ++
    [byteOf g.pointer] ++ bytesBig 4 (natOfBits (g.slots.toList.map Option.isSome)) ++
    [byteOfBool g.overrun, byteOf g.pendingPages.length] ++
    ((g.pendingPages.take 4).flatMap fun p => [byteOf p.target.table, byteOf p.target.page, byteOf p.filled]) ++
    List.replicate (3 * (4 - g.pendingPages.length)) 0 ++
    (match g.lastInstall with
      | some x => 1 :: (bytes16 x.epoch.toNat ++ [byteOf x.pages.length] ++
          ((x.pages.take 4).flatMap fun o => [byteOf o.1.table, byteOf o.1.page, o.2.code]) ++
          List.replicate (3 * (4 - x.pages.length)) 0)
      | none => List.replicate 16 0) ++
    [byteOf (natOfBits [g.installed, g.dropped])]] := by
  have pending := fourPlaces_placeBytes g.pendingPages Page.target fun p => byteOf p.filled
  rw [stageContent, pending, lastInstallBytes_eq]
  cases g.target with
  | none => simp [answer, ResultCode.byte, placeBytes, byteOfBool, byteOf, Target.table, Target.page]
  | some t => simp [answer, ResultCode.byte, placeBytes, byteOfBool]

theorem exec_readStage (s : State) : exec .readStage s = .next (s.serveDirect 0x54 serveReadStage) := rfl

theorem exec_readPage (s : State) : exec .readPage s = .next (s.serveDirect 0x55 serveReadPage) := rfl

/-! ## O55: READ-PAGE -/

section
variable {s : State} {r : Request} {table page : Byte}

theorem serveReadPage_of_none (body : r.body = [table, page]) (named : parseTarget table page = none) :
    serveReadPage s r = (s, plain .badArgument) := by
  simp only [serveReadPage, body, named]

theorem serveReadPage_of_target (body : r.body = [table, page]) {g : Target} (named : parseTarget table page = some g) :
    serveReadPage s r = (s, pageParts s g) := by
  simp only [serveReadPage, body, named]

/-- The answer of READ-PAGE to a target. -/
theorem answers_readPage (settled : s.Settled) (taken : s.Takes 0x55 r) (body : r.body = [table, page]) {g : Target}
    (named : parseTarget table page = some g) : s.Answers (s.serveDirect 0x55 serveReadPage) r (pageParts s g) :=
  (serveDirect_reads settled taken (by rw [body]; rfl) (serveReadPage_of_target body named)).1

/-- A CELLS page is read in one part (R161). -/
theorem pageParts_cells {p : Fin 64} {slots : List (List Byte)} (live : liveSlots s (.cells p) = slots) (length : slots.length = 32)
    (isPage : byteOf p.val = page) : pageParts s (.cells p) = [[0x00, 0x80, 0, page, 0, 32] ++ slots.flatten] := by
  subst isPage
  simp only [pageParts, live, pagePart, length]
  rfl

/-- A VIEWS page is read in one part (R161). -/
theorem pageParts_views {p : Fin 32} {slots : List (List Byte)} (live : liveSlots s (.views p) = slots) (length : slots.length = 32)
    (isPage : byteOf p.val = page) : pageParts s (.views p) = [[0x00, 0x80, 2, page, 0, 32] ++ slots.flatten] := by
  subst isPage
  simp only [pageParts, live, pagePart, length]
  rfl

/-- The LIMITS page is read in one part (R161). -/
theorem pageParts_limits {slots : List (List Byte)} (live : liveSlots s .limits = slots) (length : slots.length = 8) :
    pageParts s .limits = [[0x00, 0x80, 3, 0, 0, 8] ++ slots.flatten] := by
  simp only [pageParts, live, pagePart, length]
  rfl

/-- A POINTS page is read in three parts of 12, 12 and 8 slots (R161). -/
theorem pageParts_points {p : Fin 3} {slots : List (List Byte)} (live : liveSlots s (.points p) = slots) (length : slots.length = 32)
    (isPage : byteOf p.val = page) : pageParts s (.points p) =
      [[0x00, 0x00, 1, page, 0, 12] ++ (slots.take 12).flatten, [0x00, 0x01, 1, page, 12, 12] ++ ((slots.drop 12).take 12).flatten,
        [0x00, 0x82, 1, page, 24, 8] ++ (slots.drop 24).flatten] := by
  have first : (slots.take 12).length = 12 := by rw [List.length_take, length]; rfl
  have second : ((slots.drop 12).take 12).length = 12 := by rw [List.length_take, List.length_drop, length]; rfl
  have third : (slots.drop 24).length = 8 := by rw [List.length_drop, length]
  subst isPage
  simp only [pageParts, live, pagePart, first, second, third]
  rfl

end

/-- The pages of the four tables as their live slots: how many, and which entry stands in which (Table 8-1, R134, R147). -/
theorem liveSlots_spec (s : State) :
    (∀ p, (liveSlots s (.cells p)).length = 32 ∧ ∀ c : CellIx, c.val / 32 = p.val →
      (liveSlots s (.cells p))[c.val % 32]? = some (s.cellTable.get c).bytes) ∧
    (∀ p, (liveSlots s (.points p)).length = 32 ∧ ∀ i : PointIx, i.val / 32 = p.val →
      (liveSlots s (.points p))[i.val % 32]? = some (s.pointTable.get i).bytes) ∧
    (∀ p, (liveSlots s (.views p)).length = 32 ∧ ∀ (v : ViewIx) (n : Fin 64), 2 * v.val + n.val / 32 = p.val →
      (liveSlots s (.views p))[n.val % 32]? = some ((s.viewTable.get v).get n).bytes) ∧
    ((liveSlots s .limits).length = 8 ∧ ∀ k : Fin 8, (liveSlots s .limits)[k.val]? = some (s.limits.get k).bytes) := by
  refine ⟨fun p => ⟨?_, fun c here => pageSlot s.cellTable CellEntry.bytes _ c here⟩,
    fun p => ⟨?_, fun i here => pageSlot s.pointTable PointEntry.bytes _ i here⟩, fun p => ⟨?_, fun v n here => ?_⟩, ?_, fun k => ?_⟩
  · exact pageSlots_length s.cellTable CellEntry.bytes p.val (by omega)
  · exact pageSlots_length s.pointTable PointEntry.bytes p.val (by omega)
  · exact pageSlots_length (s.viewTable.get ⟨p.val / 2, by omega⟩) Binding.bytes (p.val % 2) (by omega)
  · have view : (⟨p.val / 2, by omega⟩ : ViewIx) = v := Fin.ext (by simp only; omega)
    simp only [liveSlots, view]
    exact pageSlot _ _ _ n (by omega)
  · rw [liveSlots, List.length_map]
    exact s.limits.length_eq
  · rw [liveSlots, List.getElem?_map, (toList_getElem? s.limits _ _).2 ⟨k, rfl, rfl⟩, Option.map_some]

/-- A table and page of READ-PAGE that name nothing (Table 8-1). -/
theorem parseTarget_of_beyond {table page : Byte} {pages : Nat} (row : (table.toNat, pages) ∈ [(0, 64), (1, 3), (2, 32), (3, 1)])
    (beyond : pages ≤ page.toNat) : parseTarget table page = none := by
  obtain ⟨last, isRow⟩ : ∃ last, (table.toNat, pages, last) ∈ tableRows := by
    simp only [List.mem_cons, Prod.mk.injEq, List.not_mem_nil, or_false] at row
    obtain ⟨code, rfl⟩ | ⟨code, rfl⟩ | ⟨code, rfl⟩ | ⟨code, rfl⟩ := row
    · exact ⟨31, by simp [tableRows, code]⟩
    · exact ⟨31, by simp [tableRows, code]⟩
    · exact ⟨31, by simp [tableRows, code]⟩
    · exact ⟨7, by simp [tableRows, code]⟩
  exact parseTarget_of_page_beyond isRow beyond

/-- Settles O55: the stage's content byte by byte, and each live page slot by slot. -/
theorem stageAndPagesAreRead : Obligations.StageAndPagesAreRead := by
  refine ⟨rfl, ⟨fun _ => ⟨rfl, rfl⟩, fun _ => ⟨rfl, rfl⟩, fun _ => ⟨rfl, rfl⟩, rfl, rfl⟩, page_rows, fun s r settled =>
    ⟨fun taken empty => ?_, fun taken table page body => ?_⟩⟩
  · have long : goodLength 0x54 r.body.length = true := by rw [empty]; rfl
    obtain ⟨answers, left, arbiter, copy⟩ :=
      serveDirect_unclaimed (serve := serveReadStage) settled taken long rfl rfl rfl rfl rfl
    rw [stageContent_eq] at answers
    exact ⟨_, exec_readStage s, answers, left, arbiter, copy⟩
  · have long : goodLength 0x55 r.body.length = true := by rw [body]; rfl
    have reads {parts : List (List Byte)} (rule : serveReadPage s r = (s, parts)) := serveDirect_reads settled taken long rule
    have refused (named : parseTarget table page = none) := (reads (serveReadPage_of_none body named)).1
    have isPage : byteOf page.toNat = page := (byte_of_toNat rfl).symm
    obtain ⟨cells, points, views, limits⟩ := liveSlots_spec s
    refine ⟨_, exec_readPage s, ?_, fun pages row beyond => refused (parseTarget_of_beyond row beyond),
      fun unknown => refused (parseTarget_of_unknown_table unknown), ?_, ?_, ?_, ?_⟩
    · cases named : parseTarget table page with
      | none => exact (reads (serveReadPage_of_none body named)).2
      | some g => exact (reads (serveReadPage_of_target body named)).2
    · rintro rfl inside
      have named : parseTarget 0 page = some (.cells ⟨page.toNat, inside⟩) := by
        rw [parseTarget_of_cells rfl, indexArg_of_lt inside, Option.map_some]
      have answers := answers_readPage settled taken body named
      obtain ⟨length, slots⟩ := cells ⟨page.toNat, inside⟩
      rw [pageParts_cells rfl length isPage] at answers
      exact ⟨_, length, answers, slots⟩
    · rintro rfl inside
      have named : parseTarget 1 page = some (.points ⟨page.toNat, inside⟩) := by
        rw [parseTarget_of_points rfl, indexArg_of_lt inside, Option.map_some]
      have answers := answers_readPage settled taken body named
      obtain ⟨length, slots⟩ := points ⟨page.toNat, inside⟩
      rw [pageParts_points rfl length isPage] at answers
      refine ⟨_, length, answers, ?_⟩
      rintro i e here rfl
      rw [← PointEntry.bytes_eq]
      exact slots i here
    · rintro rfl inside
      have named : parseTarget 2 page = some (.views ⟨page.toNat, inside⟩) := by
        rw [parseTarget_of_views rfl, indexArg_of_lt inside, Option.map_some]
      have answers := answers_readPage settled taken body named
      obtain ⟨length, slots⟩ := views ⟨page.toNat, inside⟩
      rw [pageParts_views rfl length isPage] at answers
      refine ⟨_, length, answers, ?_⟩
      rintro v n b here rfl
      exact slots v n here
    · rintro rfl rfl
      have answers := answers_readPage settled taken body (g := .limits) rfl
      obtain ⟨length, slots⟩ := limits
      rw [pageParts_limits rfl length] at answers
      refine ⟨_, length, answers, ?_⟩
      rintro k l rfl
      exact slots k

end Sys2Proof.Machine
/-! PROOFS. The fusion of a frame: the checks of a reading (R45 to R50), what an admitted reading touches (R29, R51), and the walks
of SAMPLES and SCAN frames (R24, R29, R32, R74 to R76). -/

namespace Sys2Proof.Machine

/-! ## O21: the checks of a reading, in their order -/

section
variable {stepLimit : Nat} {estimate : Option Int} {x : Reading} {r : PointRecord}

/-- Check 2: a reading of a point that does not serve is discarded (R46). -/
theorem checkReading_of_notServing (state : r.state ∈ [.unbound, .failed, .excluded]) :
    checkReading stepLimit estimate x r = ({ r with discarded := min 255 (r.discarded + 1) }, false) := by
  have idle : r.state.serving = false := by
    simp only [List.mem_cons, List.not_mem_nil, or_false] at state
    obtain state | state | state := state <;> rw [state] <;> rfl
  rw [checkReading, idle, countUp_eq_min]
  rfl

/-- Checks 3 to 6 are made of a serving point. -/
theorem serving_of_mem (state : r.state ∈ [.active, .suspect]) : r.state.serving = true := by
  simp only [List.mem_cons, List.not_mem_nil, or_false] at state
  exact (PointState.serving_iff _).2 state

/-- Check 3: OPEN fails the point (R47). -/
theorem checkReading_of_open (state : r.state ∈ [.active, .suspect]) (isOpen : x.status = .openCircuit) :
    checkReading stepLimit estimate x r = ({ r with
      state := .failed, rejected := min 255 (r.rejected + 1)
      flags := { r.flags with openCircuit := true, failed := true } }, false) := by
  simp [checkReading, serving_of_mem state, isOpen, PointRecord.openReading, PointRecord.reject, PointRecord.fail,
    PointRecord.latch, PointFlags.join, flagOpen, flagFailed, PointFlags.clear, countUp_eq_min]

/-- Check 4: a reading out of range is rejected, and the third in a row fails the point (R48). -/
theorem checkReading_of_range (state : r.state ∈ [.active, .suspect]) (closed : x.status ≠ .openCircuit)
    (range : x.status = .unitRange ∨ x.value < 0 ∨ 12000 < x.value) :
    checkReading stepLimit estimate x r = ({ r with
      state := if 2 ≤ r.rangeCount then .failed else r.state
      rangeCount := min 3 (r.rangeCount + 1), cleanCount := 0, rejected := min 255 (r.rejected + 1)
      flags := { r.flags with range := true, failed := r.flags.failed || decide (2 ≤ r.rangeCount) } }, false) := by
  have out : x.outOfRange = true := by simpa [Reading.outOfRange, or_assoc] using range
  have checked : checkReading stepLimit estimate x r = (r.outOfRange, false) := by
    simp [checkReading, serving_of_mem state, closed, out]
  rw [checked]
  unfold PointRecord.outOfRange
  simp only
  by_cases third : 2 ≤ r.rangeCount
  · rw [if_pos (by omega)]
    simp [third, PointRecord.reject, PointRecord.fail, PointRecord.latch, PointFlags.join, flagRange, flagFailed, PointFlags.clear,
      countUp_eq_min]
  · rw [if_neg (by omega)]
    simp [third, PointRecord.reject, PointRecord.latch, PointFlags.join, flagRange, PointFlags.clear, countUp_eq_min]

/-- A reading that passes checks 2 to 4 goes on to the step check (R49). -/
theorem checkReading_of_inRange (state : r.state ∈ [.active, .suspect]) (ok : x.status = .ok)
    (range : 0 ≤ x.value ∧ x.value ≤ 12000) : checkReading stepLimit estimate x r =
      if stepsAway stepLimit estimate x.value then
        ({ r with rangeCount := 0 }.stepHit, decide ({ r with rangeCount := 0 }.stepHit.state = .suspect))
      else ({ r with rangeCount := 0 }.cleanReading, true) := by
  have inside : x.outOfRange = false := by
    simp [Reading.outOfRange, ok, range.1, range.2]
  simp [checkReading, serving_of_mem state, ok, inside]

/-- A step hit makes the point SUSPECT, and the sixth bad hit fails it (R49). -/
theorem stepHit_eq : (5 ≤ r.badCount → { r with rangeCount := 0 }.stepHit = { r with
      state := .failed, rangeCount := 0, badCount := 6, cleanCount := 0, rejected := min 255 (r.rejected + 1)
      flags := { r.flags with step := true, failed := true } }) ∧
    (r.badCount < 5 → { r with rangeCount := 0 }.stepHit = { r with
      state := .suspect, rangeCount := 0, badCount := r.badCount + 1, cleanCount := 0
      flags := { r.flags with step := true } }) := by
  unfold PointRecord.stepHit
  simp only
  refine ⟨fun sixth => ?_, fun fewer => ?_⟩
  · have six : min 6 (r.badCount + 1) = 6 := by omega
    rw [if_pos (by omega)]
    simp [PointRecord.reject, PointRecord.fail, PointRecord.latch, PointFlags.join, flagStep, flagFailed, PointFlags.clear,
      countUp_eq_min, six]
  · have fewer' : min 6 (r.badCount + 1) = r.badCount + 1 := by omega
    rw [if_neg (by omega)]
    simp [PointRecord.latch, PointFlags.join, flagStep, PointFlags.clear, countUp_eq_min, fewer']

/-- A clean reading clears the bad count, and the fourth of a SUSPECT point recovers it (R50). -/
theorem cleanReading_eq : (r.state = .active → { r with rangeCount := 0 }.cleanReading = { r with rangeCount := 0, badCount := 0 }) ∧
    (r.state = .suspect → r.cleanCount < 3 → { r with rangeCount := 0 }.cleanReading =
      { r with rangeCount := 0, badCount := 0, cleanCount := r.cleanCount + 1 }) ∧
    (r.state = .suspect → 3 ≤ r.cleanCount → { r with rangeCount := 0 }.cleanReading = { r with
      state := .active, rangeCount := 0, badCount := 0, cleanCount := 0, disagreeCount := 0
      flags := { r.flags with recovered := true } }) := by
  unfold PointRecord.cleanReading
  refine ⟨fun active => ?_, fun suspect few => ?_, fun suspect many => ?_⟩
  · simp only [active]
  · simp only [suspect]
    exact if_neg (by omega)
  · simp only [suspect]
    rw [if_pos (by omega)]
    simp [PointRecord.zeroCounts, PointRecord.latch, PointFlags.join, flagRecovered, PointFlags.clear]

end

section
variable {s : State} {port : PortIx} {x : Reading} {i : PointIx} {r' : PointRecord}

/-- A reading of a point: its record takes the result of the checks, and an admitted reading is applied (R29). -/
theorem fuseReading_of_pointOf (law : s.PointTableLaw) (point : s.PointOf port x.channel i) {admitted : Bool}
    (checked : checkReading (s.pointTable.get i).stepLimit (s.cells.get (s.pointTable.get i).home).estimate x (s.points.get i) =
      (r', admitted)) :
    s.fuseReading port x = if admitted then State.applyReading { s with points := s.points.set i r' } (s.pointTable.get i) x.value
        (admittedGain s.latched.gainTc r'.state)
      else { s with points := s.points.set i r' } := by
  simp only [State.fuseReading, findPoint_of_pointOf law point, checked]

/-- A reading that is not admitted changes its point's record alone. -/
theorem fuseReading_rejected (law : s.PointTableLaw) (point : s.PointOf port x.channel i)
    (checked : checkReading (s.pointTable.get i).stepLimit (s.cells.get (s.pointTable.get i).home).estimate x (s.points.get i) =
      (r', false)) : s.fuseReading port x = { s with points := s.points.set i r' } :=
  (fuseReading_of_pointOf law point checked).trans (if_neg Bool.false_ne_true)

/-- An admitted reading is applied with the gain of the point's state (R29). -/
theorem fuseReading_admitted (law : s.PointTableLaw) (point : s.PointOf port x.channel i)
    (checked : checkReading (s.pointTable.get i).stepLimit (s.cells.get (s.pointTable.get i).home).estimate x (s.points.get i) =
      (r', true)) :
    s.fuseReading port x = State.applyReading { s with points := s.points.set i r' } (s.pointTable.get i) x.value
      (admittedGain s.latched.gainTc r'.state) :=
  (fuseReading_of_pointOf law point checked).trans (if_pos rfl)

/-- A value steps away from an estimate more than the step limit off (R49). -/
theorem stepsAway_iff {stepLimit : Nat} {estimate : Option Int} {value : Int} :
    stepsAway stepLimit estimate value = true ↔ ∃ y, estimate = some y ∧ stepLimit < (value - y).natAbs := by
  cases estimate with
  | none => simp [stepsAway]
  | some y => simp [stepsAway]

end

/-- Settles O21: each check by the record it leaves and whether it admits the reading. -/
theorem readingsAreChecked : Obligations.ReadingsAreChecked := by
  refine ⟨fun s port x law => ⟨fun none => ?_, fun i point => ⟨fun state => ?_, fun state isOpen => ?_, fun state closed range => ?_⟩⟩,
    ?_⟩
  · simp only [State.fuseReading, findPoint_eq_none none, countUp_eq_min]
  · exact fuseReading_rejected law point (checkReading_of_notServing state)
  · exact fuseReading_rejected law point (checkReading_of_open state isOpen)
  · exact fuseReading_rejected law point (checkReading_of_range state closed range)
  · rintro s port x i e r law point rfl rfl ok range
    refine ⟨fun state y present away => ?_, fun near => ?_⟩
    · have steps := stepsAway_iff.2 ⟨y, present, away⟩
      obtain ⟨sixth, fewer⟩ := stepHit_eq (r := s.points.get i)
      have checked := checkReading_of_inRange (x := x) (stepLimit := (s.pointTable.get i).stepLimit)
        (estimate := (s.cells.get (s.pointTable.get i).home).estimate) (r := s.points.get i) (by simpa using state) ok range
      rw [if_pos steps] at checked
      refine ⟨fun many => ?_, fun few => ?_⟩
      · rw [sixth many] at checked
        exact fuseReading_rejected law point checked
      · rw [fewer few] at checked
        exact fuseReading_admitted law point checked
    · have stays : ¬ stepsAway (s.pointTable.get i).stepLimit (s.cells.get (s.pointTable.get i).home).estimate x.value = true := by
        rw [stepsAway_iff]
        rintro ⟨y, present, away⟩
        exact absurd (near y present) (Nat.not_le.2 away)
      have checked (state : (s.points.get i).state ∈ [.active, .suspect]) :=
        (checkReading_of_inRange (x := x) (stepLimit := (s.pointTable.get i).stepLimit)
          (estimate := (s.cells.get (s.pointTable.get i).home).estimate) state ok range).trans (if_neg stays)
      obtain ⟨active, fewClean, fourth⟩ := cleanReading_eq (r := s.points.get i)
      refine ⟨fun state => ?_, fun state few => ?_, fun state many => ?_⟩
      · have admitted := checked (by simp [state])
        rw [active state] at admitted
        exact (fuseReading_admitted law point admitted).trans (by rw [state]; rfl)
      · have admitted := checked (by simp [state])
        rw [fewClean state few] at admitted
        exact (fuseReading_admitted law point admitted).trans (by rw [state]; rfl)
      · have admitted := checked (by simp [state])
        rw [fourth state many] at admitted
        exact fuseReading_admitted law point admitted

/-! ## O22: what an admitted reading touches -/

/-- Settles O22: the home cell is touched first, then each spread cell once, and then the anchor is written. -/
theorem admittedReadingTouches : Obligations.AdmittedReadingTouches := by
  rintro s e value gain t distinct rfl
  have apart : (e.home :: e.spread.map SpreadEntry.cell).Nodup := of_decide_eq_true distinct
  rw [List.nodup_cons] at apart
  obtain ⟨notHome, nodup⟩ := apart
  have away : ∀ x ∈ e.spread, x.cell ≠ e.home := fun x member same => notHome (List.mem_map.2 ⟨x, member, same⟩)
  obtain ⟨frame, spread, others⟩ := touchCell_foldl .thermocouple value gain e.spread nodup
    (s.touchCell .thermocouple value gain e.home 16)
  have homed := others e.home away
  have first : (s.touchCell .thermocouple value gain e.home 16).cells.get e.home =
      (s.cells.get e.home).touch s.latched.refreshMin .thermocouple value 16 gain := Table.get_upd_self _ _ _
  have elsewhere : ∀ c, c ≠ e.home → (s.touchCell .thermocouple value gain e.home 16).cells.get c = s.cells.get c :=
    fun c other => Table.get_upd_ne _ (Ne.symm other) _
  have home : (s.applyReading e value gain).cells.get e.home =
      ((s.cells.get e.home).touch s.latched.refreshMin .thermocouple value 16 gain).writeAnchor value := by
    rw [State.applyReading, Table.get_upd_self, homed, first]
  have outside : ∀ c, c ≠ e.home → (s.applyReading e value gain).cells.get c =
      (e.spread.foldl (fun acc x => acc.touchCell .thermocouple value gain x.cell x.share)
        (s.touchCell .thermocouple value gain e.home 16)).cells.get c := fun c other => Table.get_upd_ne _ (Ne.symm other) _
  refine ⟨?_, ?_, ?_, fun x member => ?_, fun c other apart => ?_⟩
  · rw [State.applyReading, frame]
    rfl
  · rw [home, CellRecord.writeAnchor]
  · rw [home, CellRecord.writeAnchor, CellRecord.touch_anchor]
  · rw [outside _ (away x member), spread x member, elsewhere _ (away x member)]
    rfl
  · rw [outside c other, others c apart, elsewhere c other]

/-! ## O24: a frame is discarded, or walked -/

section
variable {s : State} {f : Frame}

/-- FRAME_FUSION with its frame in flight fuses it (R24). -/
theorem exec_frameFusion_of_runs (runs : s.Runs (.frame f)) :
    exec .frameFusion s = .next (State.conclude s (s.fuseFrame f).completeOp) := by
  obtain ⟨high, flight⟩ := runs
  simp only [exec, execFrameFusion, high, Bool.false_eq_true, if_false, arbitrate_of_inFlight flight, flight]

/-- The fusion of a frame leaves the host link alone. -/
theorem host_fuseFrame (s : State) (f : Frame) : (s.fuseFrame f).host = s.host := by rw [fusedInto_fuseFrame s f]; rfl

/-- The fusion of a frame, by the mode (R24). -/
theorem fuseFrame_of_mode : (s.map.mode = .blank → s.fuseFrame f =
      { s with map := { s.map with unmappedDiscards := min 65535 (s.map.unmappedDiscards + 1) } }) ∧
    (s.map.mode = .held → s.fuseFrame f = { s with map := { s.map with heldDiscards := min 65535 (s.map.heldDiscards + 1) } }) ∧
    (s.map.mode = .commissioning ∨ s.map.mode = .running →
      (∀ port readings, f = .samples port readings → s.fuseFrame f = readings.foldl (State.fuseReading port) s) ∧
      ∀ port view pixels, f = .scan port view pixels → s.fuseFrame f = s.fuseScan view pixels) := by
  refine ⟨fun mode => ?_, fun mode => ?_, fun mode => ⟨fun port readings isSamples => ?_, fun port view pixels isScan => ?_⟩⟩
  · simp only [State.fuseFrame, mode, countUp_eq_min]
  · simp only [State.fuseFrame, mode, countUp_eq_min]
  · subst isSamples
    obtain mode | mode := mode <;> simp only [State.fuseFrame, mode, State.walkSamples]
  · subst isScan
    obtain mode | mode := mode <;> simp only [State.fuseFrame, mode]

end

/-- Settles O24. -/
theorem samplesFrameFused : Obligations.SamplesFrameFused := by
  intro s f settled runs
  have completes := completes_conclude s (s.fuseFrame f)
  obtain ⟨blank, held, fused⟩ := fuseFrame_of_mode (s := s) (f := f)
  refine ⟨_, exec_frameFusion_of_runs runs, noReply_completeOp settled (host_fuseFrame s f), fun mode => blank mode ▸ completes,
    fun mode => held mode ▸ completes, fun mode port readings isSamples => (fused mode).1 port readings isSamples ▸ completes⟩

/-! ## O25: a scan frame -/

/-- The bias after a frame with tested bindings: moved toward the truncated mean by BIAS_GAIN sixteenths, rounded and clamped
(R74). -/
theorem biasAfter_of_tested {bias sum : Int} {n gain : Nat} (tested : 0 < n) {mean step : Int} (isMean : mean = sum.tdiv n)
    (up : bias ≤ mean → step = ((mean - bias) * gain + 8) / 16) (down : mean ≤ bias → step = -(((bias - mean) * gain + 8) / 16)) :
    biasAfter bias sum n gain = max (-1000) (min 1000 (bias + step)) := by
  have clamps : ∀ x, clamp (-1000) 1000 x = max (-1000) (min 1000 x) := fun x => by
    unfold clamp
    split
    · omega
    · split <;> omega
  have moved : roundDiv ((mean - bias) * gain) 16 = step := by
    obtain above | below := le_total bias mean
    · rw [up above]
      exact roundDiv_of_nonneg _ (Int.mul_nonneg (by omega) (by omega)) 16
    · have flip : -((mean - bias) * gain) = (bias - mean) * gain := by ring
      rw [down below, roundDiv_of_nonpos _ (Int.mul_nonpos_of_nonpos_of_nonneg (by omega) (by omega)) 16 (by omega), flip]
      rfl
  rw [biasAfter, if_neg (by omega), ← isMean, moved, clamps]

/-- The view's record at the end of a fused frame (R74, R75). -/
theorem afterFrame_eq (gain : Nat) (epoch : BitVec 16) (w : ScanWork) (r : ViewRecord) : r.afterFrame gain epoch w =
    { bias := biasAfter r.bias w.sum w.included gain
      lastFrame := some epoch
      framesFused := min 65535 (r.framesFused + 1)
      pixelsSkipped := min 65535 (r.pixelsSkipped + w.skipped)
      anchorsUsed := w.included
      disagreements := w.tally } := by
  rw [ViewRecord.afterFrame, countUp_eq_min]
  rfl

/-- Settles O25: the walk's cells, the view's record after the frame, and each point's outcome. -/
theorem scanFrameFused : Obligations.ScanFrameFused := by
  intro s port view pixels settled runs mode
  have fused : s.fuseFrame (.scan port view pixels) = s.fuseScan view pixels := (fuseFrame_of_mode.2.2 mode).2 port view pixels rfl
  have runs' := exec_frameFusion_of_runs runs
  have noReply := noReply_completeOp settled (host_fuseFrame s (.scan port view pixels))
  rw [fused] at runs' noReply
  have completes := completes_conclude s (s.fuseScan view pixels)
  have points := completes.read State.points (fun _ => rfl) rfl
  have views := completes.views_eq
  have record : (s.fuseScan view pixels).views.get view =
      (s.views.get view).afterFrame s.latched.biasGain s.map.epoch (s.walkScan view pixels) := Table.get_upd_self _ _ _
  refine ⟨_, s.walkScan view pixels, runs', noReply, rfl, ?_, fun i => ?_, fun v other => ?_, ?_, fun none => ?_,
    fun tested mean step isMean up down => ?_⟩
  · rw [views, points]
    exact completes
  · rw [points]
    exact Table.get_mapIx _ _ _
  · rw [views]
    exact Table.get_upd_ne _ (Ne.symm other) _
  · rw [views, record, afterFrame_eq]
  · rw [views, record, afterFrame_eq]
    exact if_pos none
  · rw [views, record, afterFrame_eq]
    exact biasAfter_of_tested tested isMean up down

end Sys2Proof.Machine
/-! PROOFS. The close with nothing pending: it completes in every mode, and what its stages do to cells, flags, summaries
and the hot-spot list. -/

namespace Sys2Proof.Machine

/-! ## The reply side through the two events of a close -/

/-- From `s` to `u` no reply became ready and none was finished, and an idle transmitter of `u` has no reply to send. -/
structure State.Quietly (s u : State) : Prop where
  noReply : s.NoReply u
  idle : u.host.sending = none → u.host.ready = []

section
variable {s u v : State}

theorem State.Settled.quietly (settled : s.Settled) : s.Quietly s :=
  ⟨⟨rfl, rfl, fun _ => id⟩, fun idle => (settled.transmitter idle).1⟩

theorem State.Quietly.of_host (h : s.Quietly u) (host : v.host = u.host) : s.Quietly v := by
  obtain ⟨⟨service, ready, sending⟩, idle⟩ := h
  exact ⟨⟨by rw [host, service], by rw [host, ready], by rw [host]; exact sending⟩, by rw [host]; exact idle⟩

/-- Where no reply waits for it, the choice of the transmitter finishes no reply (R153). -/
theorem State.Quietly.transmit (h : s.Quietly u) : s.Quietly u.transmit := by
  cases busy : u.host.sending with
  | some o => rw [transmit_of_sending busy]; exact h
  | none =>
    have none_ready := h.idle busy
    have ready : u.transmit.host.ready = u.host.ready := by
      unfold State.transmit
      split <;> simp_all
    exact ⟨⟨by rw [State.transmit_host_service, h.noReply.service], by rw [ready, h.noReply.ready], fun o sent => by
        have := h.noReply.sending o sent
        rw [busy] at this
        cases this⟩,
      fun _ => by rw [ready, none_ready]⟩

/-- A close makes no reply ready and finishes none (R149, R159). -/
theorem noReply_runClose (settled : s.Settled) (a b : Nat) : s.NoReply (s.runClose a b) := by
  have closed : (s.closeStages a b).completeClose.silencePorts.host = s.host := congrArg Outside.host (outside_close s a b)
  have silenced : s.Quietly (s.silenced a b) := by
    unfold State.silenced
    generalize (s.closeStages a b).completeClose = d at closed
    exact (settled.quietly.of_host (v := d.takeEvent d.silencePorts) closed).transmit
  rw [runClose_eq, State.conclude]
  generalize s.silenced a b = u at silenced
  exact ((silenced.of_host (v := u.takeEvent u.completeOp) rfl).transmit.of_host (host_arbitrate _)).noReply

end

/-! ## The stages by the mode, and the mode that is settled -/

section
variable {s t : State} {a b : Nat}

theorem closeStages_of_mode (mode : s.map.mode = .commissioning ∨ s.map.mode = .running) :
    s.closeStages a b = s.evaluate (decide (s.map.mode = .running)) a b := by
  unfold State.closeStages
  obtain mode | mode := mode <;> rw [mode] <;> rfl

theorem closeStages_of_rest (mode : s.map.mode = .blank ∨ s.map.mode = .held) : s.closeStages a b = s := by
  unfold State.closeStages
  obtain mode | mode := mode <;> rw [mode]

theorem settleMode_of_used (used : s.someInUse = true) (mode : s.map.mode ≠ .blank) : s.settleMode = s := by
  rw [State.settleMode, if_pos used, if_neg mode]

theorem settleMode_of_unused (unused : s.someInUse = false) :
    s.settleMode = { s with map := { s.map.emptied with mode := .blank } } := by
  rw [State.settleMode, if_neg (by rw [unused]; exact Bool.false_ne_true)]

/-- Settling the mode leaves the pass flags and TOP-CHANGED (R12). -/
theorem flags_settleMode (s : State) :
    s.settleMode.map.passFlags = s.map.passFlags ∧ s.settleMode.map.topChanged = s.map.topChanged := by
  unfold State.settleMode
  split
  · split <;> exact ⟨rfl, rfl⟩
  · exact ⟨rfl, rfl⟩

/-- The completion of a close with nothing pending, after its stages: the epoch number, then the mode (R119). -/
theorem completeClose_of_plain (plain : s.stage.pendingPages = []) (a b : Nat) : (s.closeStages a b).completeClose =
    State.settleMode { s.closeStages a b with map := { (s.closeStages a b).map with epoch := s.map.epoch + 1 } } := by
  rw [completeClose_empty (by rw [closeStages_stage, plain]), (closeStages_map s a b).2]

/-- In a map that is not BLANK and has a cell in use, the mode stands. -/
theorem completeClose_of_used (plain : s.stage.pendingPages = []) (used : s.someInUse = true) (mode : s.map.mode ≠ .blank) :
    (s.closeStages a b).completeClose =
      { s.closeStages a b with map := { (s.closeStages a b).map with epoch := s.map.epoch + 1 } } := by
  rw [completeClose_of_plain plain, settleMode_of_used]
  · unfold State.someInUse
    rw [closeStages_cellTable]
    exact used
  · rw [(closeStages_map s a b).1]
    exact mode

/-- In COMMISSIONING and RUNNING the stages are evaluated (R105). -/
theorem completeClose_of_mapping (plain : s.stage.pendingPages = []) (used : s.someInUse = true)
    (mode : s.map.mode = .commissioning ∨ s.map.mode = .running) : ∃ latches, (s.closeStages a b).completeClose =
      { s.evaluate latches a b with map := { (s.evaluate latches a b).map with epoch := s.map.epoch + 1 } } := by
  refine ⟨decide (s.map.mode = .running), ?_⟩
  rw [completeClose_of_used plain used (by obtain mode | mode := mode <;> rw [mode] <;> nofun), closeStages_of_mode mode]

/-- The next state of a close that runs (R105). -/
theorem eq_runClose (runs : s.Runs (.close a b)) (next : exec .close s = .next t) : t = s.runClose a b := by
  rw [exec_close_of_runs runs] at next
  exact (Host.Outcome.next.inj next).symm

/-! ## A plain close completes -/

/-- Settles O26: the ports count silence; then HELD stands, BLANK empties, and the mapping modes have their stages. -/
theorem closeCompletes : Obligations.CloseCompletes := by
  intro s staleAge hotFloor settled runs plain
  refine ⟨_, exec_close_of_runs runs, noReply_runClose settled _ _, fun p => ?ports, fun mode used => ?held,
    fun mode unused => ?blank, fun mode used => ?mapping⟩
  case ports =>
    have limit : (s.closeStages staleAge hotFloor).completeClose.settings = s.settings :=
      congrArg Outside.settings (outside_close s staleAge hotFloor)
    rw [ports_runClose, State.silencePorts]
    simp only [Table.get_map, ports_completeClose, limit, PortRecord.countSilence_eq]
  case held =>
    have completes := runClose_completes s staleAge hotFloor
    rw [completeClose_of_used plain used (by rw [mode]; nofun), closeStages_of_rest (.inr mode)] at completes
    rw [ports_runClose, completeClose_of_used plain used (by rw [mode]; nofun), closeStages_of_rest (.inr mode)]
    exact completes
  case blank =>
    have done : (s.closeStages staleAge hotFloor).completeClose = _ :=
      (completeClose_of_plain plain _ _).trans (settleMode_of_unused (by
        unfold State.someInUse
        rw [closeStages_cellTable]
        exact unused))
    have completes := runClose_completes s staleAge hotFloor
    rw [done, closeStages_of_rest (.inl mode)] at completes
    rw [ports_runClose, done, closeStages_of_rest (.inl mode)]
    exact mode ▸ completes
  case mapping =>
    obtain ⟨latches, done⟩ := completeClose_of_mapping (a := staleAge) (b := hotFloor) plain used mode
    obtain ⟨cells, -, -, -, -, -, -, -, ports, -, -, hotList, -, summaries, passFlags, topChanged, -⟩ :=
      runClose_fields s staleAge hotFloor
    have completes := runClose_completes s staleAge hotFloor
    rw [ports, cells, hotList, summaries, passFlags, topChanged, done]
    rw [done] at completes
    exact completes

end

/-! ## What the stages make of a cell -/

section
variable {s t : State} {a b : Nat}

/-- The content of a cell after the three stages that look at it: ageing, rise, evaluation. -/
theorem closed_anchor (limits : Table 8 LimitClass) (e : CellEntry) (c : CellRecord) :
    (evaluateCell limits e (c.grow a).measureRise).anchor = c.anchor.map fun x => { x with tAge := min 255 (x.tAge + 1) } := by
  have measured : (c.grow a).measureRise.anchor = (c.grow a).anchor := by
    unfold CellRecord.measureRise
    split <;> rfl
  rw [(inUse_evaluateCell limits e _).2, measured]
  exact congrArg (Option.map · c.anchor) (funext fun x => by rw [Anchor.grow, countUp_eq_min])

/-- A clamp to the range of a rise (R5). -/
theorem clampRise_eq (x : Int) : clamp (-2000) 2000 x = max (-2000) (min 2000 x) := by
  unfold clamp
  split
  · omega
  · split <;> omega

/-- The record of a cell after ageing, rise and evaluation (R105). -/
def CellRecord.closed (limits : Table 8 LimitClass) (e : CellEntry) (staleAge : Nat) (c : CellRecord) : CellRecord :=
  evaluateCell limits e (c.grow staleAge).measureRise

section
variable {limits : Table 8 LimitClass} {e : CellEntry} {c : CellRecord} {x : CellBody} {r : Option Int}

/-- A cell that is STALE after the ageing takes its estimate as baseline, and is not evaluated (R108, R110). -/
theorem closed_of_grown_stale (stale : (c.grow a).content = .stale x) :
    (c.closed limits e a).content = .stale { x with baseline := some x.estimate } := by
  rw [CellRecord.closed, CellRecord.measureRise, stale]
  rfl

/-- A cell that is LIVE after the ageing has its rise measured and is evaluated (R108, R110, R111). -/
theorem closed_of_grown_live (live : (c.grow a).content = .live x r) : (c.closed limits e a).content =
    .live { x with
        baseline := some x.estimate
        alert := match e.limitClass with
          | some k => alertAfter (limits.get k) x.alert x.estimate
          | none => x.alert }
      (x.baseline.map fun p => max (-2000) (min 2000 (x.estimate - p))) := by
  rw [CellRecord.closed, CellRecord.measureRise, live]
  simp only [clampRise_eq]
  unfold evaluateCell
  cases e.limitClass <;> rfl

/-- The cells that have no estimate stand (R106). -/
theorem closed_of_unmeasured (content : c.content = .unused ∨ c.content = .empty) :
    (c.closed limits e a).content = c.content := by
  obtain content | content := content <;>
    simp only [CellRecord.closed, CellRecord.grow, CellContent.grow, CellRecord.measureRise, evaluateCell, content]

end

/-! ## The alert state of Table 6-3 -/

/-- The alert state of an estimate between two thresholds. -/
def alertBand (low high estimate : Int) : AlertState :=
  if high ≤ estimate then .highHigh else if low ≤ estimate then .high else .normal

theorem alertBand_spec {low high estimate : Int} (ordered : low < high) :
    (alertBand low high estimate = .highHigh ↔ high ≤ estimate) ∧
    (alertBand low high estimate = .high ↔ low ≤ estimate ∧ estimate < high) ∧
    (alertBand low high estimate = .normal ↔ estimate < low) := by
  unfold alertBand
  split
  next above => exact ⟨by simp [above], by simp; omega, by simp; omega⟩
  next below =>
    split
    next => exact ⟨by simp; omega, by simp; omega, by simp; omega⟩
    next => exact ⟨by simp; omega, by simp; omega, by simp; omega⟩

/-! ## Every cell after a plain close -/

/-- Settling the mode leaves the cells as the stages left them (R12). -/
theorem cells_runClose (plain : s.stage.pendingPages = []) : (s.runClose a b).cells = (s.closeStages a b).cells := by
  rw [(runClose_fields s a b).1, completeClose_of_plain plain, (settleMode_frame _).1]

theorem get_cells_runClose (plain : s.stage.pendingPages = []) (mode : s.map.mode = .commissioning ∨ s.map.mode = .running)
    (c : CellIx) : (s.runClose a b).cells.get c = (s.cells.get c).closed s.limits (s.cellTable.get c) a := by
  rw [cells_runClose plain, closeStages_of_mode mode, State.evaluate]
  simp only [Table.get_zipWith, Table.get_map, CellRecord.closed]

/-- Settles O27: a cell by its content; the alert state by the thresholds that Table 6-3 gives for the state before. -/
theorem closeMovesEachCell : Obligations.CloseMovesEachCell := by
  intro s t staleAge hotFloor c runs plain mode next
  rw [eq_runClose runs next, get_cells_runClose plain mode c]
  refine ⟨closed_anchor _ _ _, fun unused => ?unused, fun empty => ?empty, fun x stale => ?stale, fun x r live old => ?stales,
    fun x r live young => ?live⟩
  case unused => rw [closed_of_unmeasured (.inl unused), unused]
  case empty => rw [closed_of_unmeasured (.inr empty), empty]
  case stale =>
    refine closed_of_grown_stale (x := { x with age := min 255 (x.age + 1) }) ?_
    rw [CellRecord.grow, stale, CellContent.grow, countUp_eq_min]
  case stales =>
    refine closed_of_grown_stale (x := { x with age := min 255 (x.age + 1) }) ?_
    rw [CellRecord.grow, live]
    simp only [CellContent.grow, countUp_eq_min, if_pos old]
  case live =>
    have grown : ((s.cells.get c).grow staleAge).content = .live { x with age := min 255 (x.age + 1) } r := by
      rw [CellRecord.grow, live]
      simp only [CellContent.grow, countUp_eq_min, if_neg (Nat.not_le.mpr young)]
    refine ⟨_, closed_of_grown_live grown, fun classless => by rw [classless], fun k l inClass limits ordered deadband => ?_⟩
    rw [inClass]
    simp only [limits]
    refine ⟨fun alert => ?_, fun alert => ?_, fun alert => ?_⟩ <;> rw [alert]
    · exact alertBand_spec ordered
    · exact alertBand_spec (by omega)
    · exact alertBand_spec (by omega)

/-! ## The flags -/

/-- The flags of a pass after the evaluation: those it had, and those that one of its cells latches (R113). -/
theorem passFlags_evaluate (s : State) (p : Fin 8) (f : PassFlags → Bool)
    (joins : ∀ (fs : List PassFlags) (x : PassFlags), f (fs.foldl PassFlags.join x) = (f x || fs.any f)) :
    f ((s.evaluate true a b).map.passFlags.get p) = true ↔ f (s.map.passFlags.get p) = true ∨ ∃ c ∈ cellsOfPass p,
      f (cellFlags s.limits (s.cellTable.get c) ((s.cells.get c).grow a).measureRise) = true := by
  rw [State.evaluate]
  simp only [if_true, latchPasses, Table.get_mapIx, joins, Bool.or_eq_true, any_ofPass, Table.get_zipWith, Table.get_map]

/-- A plain close leaves the pass flags and TOP-CHANGED as its stages leave them. -/
theorem flags_runClose (plain : s.stage.pendingPages = []) :
    (s.runClose a b).map.passFlags = (s.closeStages a b).map.passFlags ∧
    (s.runClose a b).map.topChanged = (s.closeStages a b).map.topChanged := by
  obtain ⟨-, -, -, -, -, -, -, -, -, -, -, -, -, -, passFlags, topChanged, -⟩ := runClose_fields s a b
  rw [passFlags, topChanged, completeClose_of_plain plain]
  exact flags_settleMode _

/-- A plain close with a cell in use in a mapping mode leaves list and summaries as its stages leave them. -/
theorem reports_runClose (plain : s.stage.pendingPages = []) (used : s.someInUse = true)
    (mode : s.map.mode = .commissioning ∨ s.map.mode = .running) :
    (s.runClose a b).map.hotList = rankHot b 0 (s.runClose a b).cells.toList [] ∧
    (s.runClose a b).map.buildingEpoch = some s.map.epoch ∧
    (s.runClose a b).map.summaries = summarizeAll (s.runClose a b).cells := by
  obtain ⟨latches, done⟩ := completeClose_of_mapping (a := a) (b := b) plain used mode
  obtain ⟨cells, -, -, -, -, -, -, -, -, -, -, hotList, building, summaries, -⟩ := runClose_fields s a b
  rw [hotList, building, summaries, cells, done]
  exact ⟨rfl, rfl, rfl⟩

/-- Settles O28: a pass has a flag if it had it or one of its cells latches it, and a cell latches it by its move. -/
theorem closeLatchesPassFlags : Obligations.CloseLatchesPassFlags := by
  intro s t staleAge hotFloor p runs plain next
  rw [eq_runClose runs next, (flags_runClose plain).1, (flags_runClose plain).2]
  refine ⟨fun mode => ?commissioning, fun mode => ?running⟩
  case commissioning =>
    rw [closeStages_of_mode (.inl mode), mode]
    exact ⟨rfl, Bool.or_false _⟩
  case running =>
    have latched := fun c => cellFlags_spec s.limits (s.cellTable.get c) staleAge (s.cells.get c)
    rw [show s.closeStages staleAge hotFloor = s.evaluate true staleAge hotFloor by
      rw [closeStages_of_mode (.inr mode), mode]
      rfl]
    simp only [get_cells_runClose plain (.inr mode)]
    have flag := passFlags_evaluate (a := staleAge) (b := hotFloor) s p
    refine ⟨?_, ?_, ?_, ?_, fun used => ?_⟩
    · refine (flag PassFlags.hhEntered fun _ _ => by rw [foldl_join]).trans ?_
      simp only [latched, CellRecord.closed]
    · refine (flag PassFlags.highEntered fun _ _ => by rw [foldl_join]).trans ?_
      simp only [latched, CellRecord.closed]
    · refine (flag PassFlags.cleared fun _ _ => by rw [foldl_join]).trans ?_
      simp only [latched, CellRecord.closed]
    · refine (flag PassFlags.rise fun _ _ => by rw [foldl_join]).trans ?_
      simp only [latched, CellRecord.closed]
    · have top : (s.evaluate true staleAge hotFloor).map.topChanged =
          (s.map.topChanged || topDiffers s.map.hotList (s.runClose staleAge hotFloor).map.hotList) := by
        rw [(reports_runClose plain used (.inr mode)).1, cells_runClose plain, closeStages_of_mode (.inr mode), mode]
        rfl
      rw [top, Bool.or_eq_true, topDiffers, decide_eq_true_iff, ne_comm]

/-! ## The summaries and the hot-spot list -/

/-- A summary of a pass, field by field from its cells (R114). -/
theorem get_summarizeAll (cells : Table 2048 CellRecord) (p : Fin 8) :
    (summarizeAll cells).get p = summarize p.val (ofPass p.val cells) := by
  rw [summarizeAll, Table.get_mapIx]

/-- The list ranked from nothing is right for all cells (R116). -/
theorem hotScan_rankHot (floor : Nat) (cells : List CellRecord) : HotScan floor cells (rankHot floor 0 cells []) :=
  rankHot_scan floor [] cells [] ⟨by simp, .nil, by simp, by simp⟩

/-- A candidate of the list is the cell at its place in the table. -/
theorem candidate_iff (cells : Table 2048 CellRecord) (floor k : Nat) (h : HotSpot) :
    (∃ inside : k < cells.toList.length, hotSpotOf floor k (cells.toList[k]'inside) = some h) ↔
      ∃ c : CellIx, c.val = k ∧ hotSpotOf floor c.val (cells.get c) = some h := by
  constructor
  · rintro ⟨inside, candidate⟩
    obtain ⟨c, place, entry⟩ := (toList_getElem? cells k _).mp (List.getElem?_eq_getElem inside)
    exact ⟨c, place, by rw [place, entry]; exact candidate⟩
  · rintro ⟨c, rfl, candidate⟩
    obtain ⟨inside, entry⟩ := List.getElem?_eq_some_iff.mp ((toList_getElem? cells c.val _).mpr ⟨c, rfl, rfl⟩)
    exact ⟨inside, by rw [entry]; exact candidate⟩

/-- Settles O29: a summary counts over its pass; the list is that of a scan of all cells. -/
theorem closeRebuildsReports : Obligations.CloseRebuildsReports := by
  refine ⟨fun s t staleAge hotFloor p u runs plain used mode next summary => ?summary,
    fun s t staleAge hotFloor runs plain used mode next => ?list⟩
  case summary =>
    obtain ⟨-, -, summaries⟩ := reports_runClose (a := staleAge) (b := hotFloor) plain used mode
    rw [eq_runClose runs next] at summary ⊢
    generalize (s.runClose staleAge hotFloor) = t at summary summaries
    rw [summaries, get_summarizeAll] at summary
    obtain rfl := summary
    have hottest := bestCell_ofPass CellRecord.liveEstimate p t.cells _ rfl
    have largest := bestCell_ofPass CellRecord.rise p t.cells _ rfl
    exact ⟨countP_ofPass p _ _, countP_ofPass p _ _, countP_ofPass p _ _, countP_contents _, countP_ofPass p _ _,
      countP_ofPass p _ _, hottest.1, hottest.2, largest.1, largest.2⟩
  case list =>
    obtain ⟨list, building, -⟩ := reports_runClose (a := staleAge) (b := hotFloor) plain used mode
    rw [eq_runClose runs next]
    generalize s.runClose staleAge hotFloor = t at list building
    have scan : HotScan hotFloor t.cells.toList t.map.hotList := list ▸ hotScan_rankHot hotFloor t.cells.toList
    refine ⟨building, ⟨scan.len, scan.sorted, scan.distinct⟩, fun h listed => ?sound, fun c x r live hot => ?complete⟩
    case sound =>
      obtain ⟨k, candidate⟩ := scan.sound h listed
      obtain ⟨c, -, candidate⟩ := (candidate_iff t.cells hotFloor k h).mp candidate
      obtain ⟨x, r, live, hot, entry⟩ := (hotSpotOf_iff hotFloor c.val _ h).mp candidate
      exact ⟨c, x, r, entry, live, hot⟩
    case complete =>
      have candidate := (hotSpotOf_iff hotFloor c.val (t.cells.get c) _).mpr ⟨x, r, live, hot, rfl⟩
      obtain ⟨inside, candidate⟩ := (candidate_iff t.cells hotFloor c.val _).mpr ⟨c, rfl, candidate⟩
      exact scan.complete c.val inside _ candidate

end

end Sys2Proof.Machine
/-! PROOFS. The close with pages pending: the installs in list order, and the mode they leave. -/

namespace Sys2Proof.Machine

section
variable {s : State}

/-! ## The completion of a close, with its installs -/

/-- The stage after the installs of a close that advances to `epoch` (R143, R145). -/
def Stage.afterInstalls (g : Stage) (epoch : BitVec 16) (outcomes : List (Target × InstallOutcome)) : Stage :=
  if g.pendingPages = [] then g else
    { g with
      pendingPages := []
      lastInstall := some ⟨epoch, outcomes⟩
      installed := g.installed || outcomes.any fun o => decide (o.2 = .installed)
      dropped := g.dropped || outcomes.any fun o => decide (o.2 = .dropped) }

/-- The installs of a close take the pages on the cells that the stages leave (R143). -/
def State.closeInstalls (s : State) (a b : Nat) : State × List (Target × InstallOutcome) :=
  installAll s.stage.pendingPages { s with cells := (s.closeStages a b).cells }

/-- The stages of a close write the cells and the map alone, and do not look at the stage (R105). -/
theorem closeStages_frame (s : State) (a b : Nat) :
    s.closeStages a b = { s with cells := (s.closeStages a b).cells, map := (s.closeStages a b).map } := by
  unfold State.closeStages
  split <;> rfl

theorem closeStages_withStage (s : State) (g : Stage) (a b : Nat) :
    ({ s with stage := g } : State).closeStages a b = { s.closeStages a b with stage := g } := by
  rw [State.closeStages, State.closeStages]
  cases s.map.mode <;> rfl

/-- The pending pages are taken whatever the map holds, and the stage keeps what they made of it (R143, R145). -/
theorem installPending_eq (s : State) (m : MapState) : (withMap m s).installPending =
    { (installAll s.stage.pendingPages s).1 with
      stage := s.stage.afterInstalls m.epoch (installAll s.stage.pendingPages s).2, map := m } := by
  have stage := (installAll_frame s.stage.pendingPages s).2.1
  unfold State.installPending Stage.afterInstalls
  by_cases none : s.stage.pendingPages = []
  · simp only [withMap, none, List.isEmpty_nil, if_true]
    rfl
  · have some : ¬ s.stage.pendingPages.isEmpty = true := by rw [List.isEmpty_iff]; exact none
    rw [if_neg none, show (withMap m s).stage = s.stage from rfl, if_neg some, installAll_withMap]
    generalize installAll s.stage.pendingPages s = done at stage
    simp only [withMap, stage]

/-- A close before it settles the mode: its installs, its stage, its epoch number (R119). -/
def State.closeUnsettled (s : State) (a b : Nat) : State :=
  { (s.closeInstalls a b).1 with
    stage := s.stage.afterInstalls (s.map.epoch + 1) (s.closeInstalls a b).2
    map := { (s.closeStages a b).map with epoch := s.map.epoch + 1 } }

theorem completeClose_eq (s : State) (a b : Nat) :
    (s.closeStages a b).completeClose = (s.closeUnsettled a b).settleMode := by
  have installs := installPending_eq { s with cells := (s.closeStages a b).cells }
    { (s.closeStages a b).map with epoch := s.map.epoch + 1 }
  rw [State.completeClose, (closeStages_map s a b).2]
  refine congrArg State.settleMode (Eq.trans (congrArg State.installPending ?_) installs)
  rw [closeStages_frame s a b]
  rfl

theorem ports_runClose_eq (s : State) (a b : Nat) :
    (s.runClose a b).ports = s.ports.map (PortRecord.countSilence s.settings.silenceLimit) := by
  have settings : (s.closeStages a b).completeClose.settings = s.settings := congrArg Outside.settings (outside_close s a b)
  rw [ports_runClose, State.silencePorts, ports_completeClose, settings]

/-- With a cell in use the mode leaves BLANK, and nothing else is settled (R12). -/
theorem settleMode_of_someInUse (used : s.someInUse = true) : s.settleMode =
    { s with map := { s.map with mode := if s.map.mode = .blank then .commissioning else s.map.mode } } := by
  rw [State.settleMode, if_pos used]
  by_cases blank : s.map.mode = .blank
  · rw [if_pos blank, if_pos blank]
  · rw [if_neg blank, if_neg blank]

/-! ## A close compared with the plain one -/

/-- The state with no page pending. -/
def State.withoutPages (s : State) : State := { s with stage := { s.stage with pendingPages := [] } }

/-- The plain close has the cells and the flags that the stages leave. -/
theorem plain_runClose (s : State) (a b : Nat) : (s.withoutPages.runClose a b).cells = (s.closeStages a b).cells ∧
    (s.withoutPages.runClose a b).map.passFlags = (s.closeStages a b).map.passFlags ∧
    (s.withoutPages.runClose a b).map.topChanged = (s.closeStages a b).map.topChanged := by
  have plain : s.withoutPages.stage.pendingPages = [] := rfl
  have stages : s.withoutPages.closeStages a b = _ := closeStages_withStage s _ a b
  rw [cells_runClose plain, (flags_runClose plain).1, (flags_runClose plain).2, stages]
  exact ⟨rfl, rfl, rfl⟩

/-- With a cell in use, it has the list and the summaries too. -/
theorem plain_reports (used : s.someInUse = true) (a b : Nat) :
    (s.withoutPages.runClose a b).map.hotList = (s.closeStages a b).map.hotList ∧
    (s.withoutPages.runClose a b).map.buildingEpoch = (s.closeStages a b).map.buildingEpoch ∧
    (s.withoutPages.runClose a b).map.summaries = (s.closeStages a b).map.summaries := by
  obtain ⟨-, -, -, -, -, -, -, -, -, -, -, hotList, building, summaries, -⟩ := runClose_fields s.withoutPages a b
  have stages : s.withoutPages.closeStages a b = _ := closeStages_withStage s _ a b
  rw [hotList, building, summaries, completeClose_of_plain rfl, stages, settleMode_of_someInUse]
  · exact ⟨rfl, rfl, rfl⟩
  · unfold State.someInUse
    exact (congrArg (fun t : Table _ CellEntry => t.any CellEntry.inUse) (closeStages_cellTable s a b)).trans used

/-- The map after a close: the epoch number advanced, the flags of the stages, and what settling the mode leaves (R119). -/
theorem map_completeClose (s : State) (a b : Nat) : (s.closeStages a b).completeClose.map = { s.map with
    mode := (s.closeStages a b).completeClose.map.mode, epoch := s.map.epoch + 1
    passFlags := (s.closeStages a b).map.passFlags, topChanged := (s.closeStages a b).map.topChanged
    hotList := (s.closeStages a b).completeClose.map.hotList
    buildingEpoch := (s.closeStages a b).completeClose.map.buildingEpoch
    summaries := (s.closeStages a b).completeClose.map.summaries } := by
  have advanced : (s.closeStages a b).completeClose.map.epoch = s.map.epoch + 1 := by
    rw [completeClose_eq, (settleMode_frame _).2]
    rfl
  have ⟨flags, top⟩ : (s.closeStages a b).completeClose.map.passFlags = (s.closeStages a b).map.passFlags ∧
      (s.closeStages a b).completeClose.map.topChanged = (s.closeStages a b).map.topChanged := by
    rw [completeClose_eq]
    exact flags_settleMode (s.closeUnsettled a b)
  rw [← advanced, ← flags, ← top]
  exact congrArg State.map (show (s.closeStages a b).completeClose.silencePorts = s.takingClosed _ from closedInto_close s a b)

/-- A close completes with what the installs leave, the ports and flags of the plain close, and the mode as it is settled
(R119). -/
theorem completes_runClose (s : State) (a b : Nat) : State.Completes
    { (s.closeInstalls a b).1 with
      ports := (s.withoutPages.runClose a b).ports
      stage := (s.runClose a b).stage
      map := { s.map with
        mode := (s.runClose a b).map.mode, epoch := s.map.epoch + 1
        passFlags := (s.withoutPages.runClose a b).map.passFlags, topChanged := (s.withoutPages.runClose a b).map.topChanged
        hotList := (s.runClose a b).map.hotList, buildingEpoch := (s.runClose a b).map.buildingEpoch
        summaries := (s.runClose a b).map.summaries } } (s.runClose a b) := by
  obtain ⟨-, -, -, -, -, -, -, stage, -, mode, -, hotList, building, summaries, -⟩ := runClose_fields s a b
  have completes := runClose_completes s a b
  have frame : (s.closeStages a b).completeClose =
      { s.closeUnsettled a b with map := (s.closeStages a b).completeClose.map } := by
    rw [completeClose_eq]
    exact (settleMode_frame _).1
  have ports : (s.closeStages a b).completeClose.silencePorts.ports = (s.withoutPages.runClose a b).ports := by
    rw [← ports_runClose, ports_runClose_eq, ports_runClose_eq]
    rfl
  have silent : (s.closeStages a b).completeClose.silencePorts =
      { (s.closeStages a b).completeClose with ports := (s.withoutPages.runClose a b).ports } := by
    rw [← ports]
    rfl
  have map := map_completeClose s a b
  rw [silent] at completes
  rw [(plain_runClose s a b).2.1, (plain_runClose s a b).2.2, mode, hotList, building, summaries, stage, ← map]
  generalize (s.closeStages a b).completeClose = d at completes frame
  rw [frame] at completes ⊢
  exact completes

/-- Settles O30: the installs in list order; a close with them, compared with the plain one; and the mode. -/
theorem closeInstalls : Obligations.CloseInstalls := by
  refine ⟨fun _ => rfl, fun _ _ _ => rfl, fun s staleAge hotFloor settled runs => ?_⟩
  have cells := (plain_runClose s staleAge hotFloor).1
  obtain ⟨-, -, -, -, -, -, -, stage, -, mode, -, hotList, building, summaries, -⟩ := runClose_fields s staleAge hotFloor
  rw [completeClose_eq] at stage mode hotList building summaries
  have stage : (s.runClose staleAge hotFloor).stage = (s.closeUnsettled staleAge hotFloor).stage :=
    stage.trans (by rw [(settleMode_frame _).1])
  refine ⟨s.runClose staleAge hotFloor, s.withoutPages.runClose staleAge hotFloor, (s.closeInstalls staleAge hotFloor).1,
    (s.closeInstalls staleAge hotFloor).2, exec_close_of_runs runs, exec_close_of_runs (s := s.withoutPages) runs, ?installs,
    installAll_targets _ _, noReply_runClose settled _ _, completes_runClose s _ _, fun none => ?stands, fun some => ?rewritten,
    fun unused => ?blank, fun used => ?mapped⟩
  case installs => rw [cells]; rfl
  case stands => exact stage.trans (if_pos none)
  case rewritten => exact stage.trans (if_neg some)
  case blank =>
    have none : (s.closeUnsettled staleAge hotFloor).someInUse = false := (Table.any_eq_false_iff _ _).mpr unused
    rw [mode, hotList, building, summaries, settleMode_of_unused none]
    exact ⟨rfl, rfl, rfl, rfl⟩
  case mapped =>
    have some : (s.closeUnsettled staleAge hotFloor).someInUse = true := (Table.any_iff _ _).mpr used
    rw [mode, hotList, building, summaries, settleMode_of_someInUse some]
    refine ⟨?_, fun before => ?_, fun standing => ?_⟩
    · exact (closeStages_map s staleAge hotFloor).1 ▸ rfl
    · have ⟨list, epoch, sums⟩ := plain_reports before staleAge hotFloor
      exact ⟨list.symm, epoch.symm, sums.symm⟩
    · have same := closeStages_of_rest (a := staleAge) (b := hotFloor) standing
      rw [State.closeUnsettled, same]
      exact ⟨rfl, rfl, rfl⟩

end

end Sys2Proof.Machine
